-- ==== Sys2Proof/Word.lean ====
section
/-!
DEFINITION. The word types of the part and the plainest ways of taking them apart (R2, R10).
-/
namespace Sys2Proof

/-- A byte of memory or of a beat. -/
abbrev Byte := BitVec 8
/-- An epilogue word (R243). -/
abbrev W16 := BitVec 16
/-- A 32-bit lane (R10). -/
abbrev W32 := BitVec 32
/-- A node word, a token, a register, a 64-bit lane (R75, R228, R288, R10). -/
abbrev W64 := BitVec 64
/-- The 64-byte payload of a beat; payload byte 0 is bits [7:0] (R2, R10). -/
abbrev Payload := BitVec 512

/-- Bits [lo + w − 1 : lo] of a word, read as a number (R2). -/
def bitsNat {n : Nat} (x : BitVec n) (lo w : Nat) : Nat := (x.toNat >>> lo) % 2 ^ w

/-- Bit `i` of a word. -/
def bitAt {n : Nat} (x : BitVec n) (i : Nat) : Bool := x.getLsbD i

/-- A number read as a two's-complement value of `w` bits (R49). -/
def toSigned (w x : Nat) : Int :=
  let y := x % 2 ^ w
  if 2 * y < 2 ^ w then (y : Int) else (y : Int) - (2 ^ w : Nat)

/-- An integer reduced modulo 2^w (R49). -/
def ofSigned (w : Nat) (x : Int) : Nat := (x % ((2 ^ w : Nat) : Int)).toNat

/-- ⌈a / b⌉. -/
def ceilDiv (a b : Nat) : Nat := (a + b - 1) / b

/-- The smaller power-of-two logarithm: ⌊log2 n⌋ (0 for 0). -/
def lg (n : Nat) : Nat := Nat.log2 n

end Sys2Proof
end

