-- ==== Sys2Proof/Config.lean ====
section
/-!
DEFINITION. What one part fixes, and the free values: the values the spec leaves open, each an opaque constant
with no body, applied to a counter of State or to the operands it depends on.
-/
namespace Sys2Proof.Config

/-- Which of the outcomes an open order allows, at the step numbered by the argument (R134, R302, R332). DESIGN CHOICE, notes/assumptions/3.md. -/
opaque choice : Nat → Bool
/-- Bytes whose value the spec leaves undefined: C after a restart-mark cut, matrix results over operands that were overwritten while a token ran (R130, R236, R241). DESIGN CHOICE, notes/assumptions/4.md. -/
opaque freeBits : Nat → BitVec 512
/-- CRC-64 of a flit's bytes: the spec names no polynomial (R390). DESIGN CHOICE, notes/assumptions/5.md. -/
opaque crc64 : List (BitVec 8) → BitVec 64
/-- Forward error correction of a flit's bytes 0–279: the spec names no code (R390). DESIGN CHOICE, notes/assumptions/5.md. -/
opaque fec : List (BitVec 8) → BitVec 64
/-- The key stream of AES-GCM-256 under a key and a nonce, beat by beat, kept uninterpreted (R383). DESIGN CHOICE, notes/assumptions/43.md. -/
opaque gcmStream : BitVec 256 → Nat → Nat → BitVec 512
/-- The tag of AES-GCM-256 over encrypted beats, kept uninterpreted (R383). DESIGN CHOICE, notes/assumptions/43.md. -/
opaque gcmTag : BitVec 256 → Nat → List (BitVec 512) → BitVec 128
/-- Flits of a virtual channel that a link's receiver has space for, and one round trip in flits (R391). DESIGN CHOICE, notes/assumptions/77.md. -/
opaque linkSpace : Nat → Nat
opaque linkTrip : Nat
/-- The bytes a keyed range's DRAM holds to an agent after its key changed: they carry no information (R377). DESIGN CHOICE, notes/assumptions/7.md. -/
opaque scrambled : Nat → Nat → BitVec 8
/-- What module flash holds besides the record: 0 the firmware, 1–12 the BMS images, 13–76 the control-region block images (R379, R408). The
spec gives neither their contents nor their sizes: DESIGN CHOICE, notes/assumptions/11.md. -/
opaque image : Nat → List (BitVec 8)
/-- Signatures of the device identity key over a report, kept uninterpreted (R379). DESIGN CHOICE, notes/assumptions/6.md. -/
opaque sign : List (BitVec 8) → BitVec 768
/-- How many tiles the part has repaired: the spare-activation map found in flash at boot (R408). DESIGN CHOICE, notes/assumptions/8.md. -/
opaque spareMap : Nat → Bool

/-- Where the loader graph keeps the tile list that it writes REGTILES with (R294, R317): the spec names no place. DESIGN CHOICE, notes/assumptions/100.md. -/
opaque regTilesAddr : Nat → BitVec 57

/-- User tiles of every part (R1, R8). -/
def userTiles : Nat := 4096
/-- Control tiles 4096–4159 (R8). -/
def tileIds : Nat := 4160
/-- Tiles of a die: 32 rows × 22 columns (R1). Which logical tile lies on which die is placement the spec leaves to the part: DESIGN CHOICE, notes/assumptions/9.md. -/
def dieOf (tile : Nat) : Nat := if tile < 4096 then min 5 (tile / 683) else 0
/-- The SE the loader binds to a tile: one SE of its die (R194); DESIGN CHOICE, notes/assumptions/9.md. -/
def seOf (tile : Nat) : Nat := tile % 32
/-- Working precision, in bits, of the elementary functions of R53 before the single rounding: DEDUCED, notes/assumptions/10.md. -/
def elemPrec : Nat := 320

end Sys2Proof.Config
end

