-- ==== Sys2Proof/Syntax.lean ====
section
/-!
DEFINITION. The steps of the part: one constructor of `Instr` for each row of spec/opcode_table.json, with the
operands of its encoding (node words R75–R80, epilogue words R243, matrix tokens R228, command beats R191) or, for an
event that no word encodes, the numbers of the agents it concerns and what the outside world brings to it.
-/
namespace Sys2Proof

/-- The type codes 0–14 of R47. -/
inductive Ty where
  | f32 | bf16 | of8 | of4 | ds8 | i32 | n32 | i64 | n64 | i16 | n16 | i8 | n8 | pred | raw
deriving DecidableEq, Repr, Inhabited

/-- The absence policies of R19. -/
inductive Policy where
  | prop | ident | fault
deriving DecidableEq, Repr, Inhabited

/-- The input slots of a node (R9). -/
inductive SlotName where
  | l | r | p
deriving DecidableEq, Repr, Inhabited

/-- A target (R77). -/
inductive Target where
  | slot (which : SlotName) (node : Nat)
  | out (k : Nat)
  | dl (k : Nat)
  | done (k : Nat)
  | mx (k : Nat)
  | none
deriving DecidableEq, Repr, Inhabited

/-- An extension word (R79). -/
structure Ext where
  imm32 : BitVec 32
  c : Target
  d : Target
deriving DecidableEq, Repr, Inhabited

/-- A node word without its opcode, with its extension word when X is set (R75, R79). -/
structure Node where
  ty : Ty
  mod : BitVec 4
  a : Target
  b : Target
  imm : BitVec 16
  pol : Policy
  i : Bool
  aux : BitVec 8
  ext : Option Ext
deriving DecidableEq, Repr, Inhabited

/-- The common header of a command beat without class and kind (R191). -/
structure CmdHdr where
  wsem : BitVec 8
  thr : BitVec 16
  ssem : BitVec 8
  inc : BitVec 8
  scope : BitVec 3
  barrier : Bool
  tc : BitVec 2
deriving DecidableEq, Repr, Inhabited

/-- A command beat: header and words W1–W7 (R155, R191, R201, R203, R259). -/
structure Cmd where
  hdr : CmdHdr
  w1 : BitVec 64
  w2 : BitVec 64
  w3 : BitVec 64
  w4 : BitVec 64
  w5 : BitVec 64
  w6 : BitVec 64
  w7 : BitVec 64
deriving DecidableEq, Repr, Inhabited

/-- A matrix token without its op (R228). -/
structure MxTok where
  mc : BitVec 2
  nc : BitVec 2
  kg : BitVec 7
  afmt : BitVec 3
  wfmt : BitVec 3
  acc : Bool
  epi : BitVec 5
  aoff : BitVec 12
  woff : BitVec 13
  coff : BitVec 10
  afeed : Bool
  wfeed : Bool
deriving DecidableEq, Repr, Inhabited

/-- What feeds an input port: nothing, a tile-to-tile channel, or the completions of one engine kind
(R197, R238: 0 SE, 1 COL, 2 SMP, 3 KVP and SQE, 4 the matrix node); streams reach any port. -/
inductive Bind where
  | unbound | channel | engine (kind : Nat)
deriving DecidableEq, Repr, Inhabited

/-- One entry of a configuration's channel list for an input port: its legend entry (R159) and what feeds it. -/
structure PortCfg where
  canon : Nat
  port : Nat
  legend : BitVec 64
  bind : Bind
deriving DecidableEq, Repr, Inhabited

/-- One channel of the channel list: from output port (or done edge) of an instance to an input port of another. -/
structure LinkCfg where
  srcCanon : Nat
  done : Bool
  srcPort : Nat
  dstCanon : Nat
  dstPort : Nat
deriving DecidableEq, Repr, Inhabited

/-- A traverse bound at launch (R421): the leaf instance it belongs to and its eight words. -/
structure BindCfg where
  canon : Nat
  words : List (BitVec 64)
deriving DecidableEq, Repr, Inhabited

/-- The channel list, multicast groups (group, tile, port) and launch bindings of a configuration; the spec gives
them no layout in memory (R159, R421), so the loader step carries them. -/
structure ChanCfg where
  ports : List PortCfg
  links : List LinkCfg
  groups : List (Nat × Nat × Nat)
  binds : List BindCfg
deriving DecidableEq, Repr, Inhabited

/-- What raised a TIMING_OVERRUN (R40, R41, R237, R413). -/
inductive Overrun where
  | tile (tile : Nat)
  | window (ctx eng issue : Nat)
  | engine (ctx eng issue : Nat)
  | token (tile : Nat)
deriving DecidableEq, Repr, Inhabited

/-- A flit as it arrives, its CRC already compared (R390, R392). -/
structure Flit where
  seq : Nat
  ack : Nat
  nak : Bool
  ready : BitVec 8
  vc : Nat
  partition : Nat
  count : Nat
  dest : Nat
  hops : Nat
  route : Nat
  payload : List (BitVec 512)
  crcOk : Bool
deriving DecidableEq, Repr, Inhabited

/-- Where a migration image stands (R382, R383): the address it goes to in the context's memory, and how many sealed beats of it came through host memory
(none: it comes on channel MIG). -/
structure ImageAt where
  image : Nat
  beats : Nat
  deriving DecidableEq, Repr

/-- The notice that MIGIN of a slot's image is done, as it came through host memory (R382, R383). -/
structure Notice where
  slot : Nat
  beats : List Payload
  deriving DecidableEq, Repr

/-- An SE as an owner of channels of a stack (R338). -/
structure Owner where
  stack : Nat
  se : Nat
  deriving DecidableEq, Repr

/-- A pseudo-channel of an owning SE's channel group (R338, R399). -/
structure OwnedPch where
  stack : Nat
  se : Nat
  pch : Nat
  deriving DecidableEq, Repr

/-- A step of the part: one constructor for each row of spec/opcode_table.json, and one more on the row GET_MEASUREMENTS for another part's agent. -/
inductive Instr where
  -- fabric, quiescence and engine events
  | instantBegin (tile : Nat)
  | fxtInstantStart (region : Nat)
  | instantEnd (region : Nat)
  | beatArrive (tile port : Nat)
  | configBeatArrive (tile port : Nat)
  | resizeBeatArrive (tile port : Nat)
  | handoverBeatArrive (tile port : Nat)
  | detachedBeatArrive (tile port : Nat)
  | restartBeatArrive (tile port : Nat)
  | controlBeatDiscard (tile port : Nat)
  | meridianPass (tile slot : Nat)
  | meridianCommit (region : Nat)
  | causality (region : Nat)
  | qstall (region : Nat)
  | timingOverrun (src : Overrun)
  | leafDecision (region tile : Nat)
  | configLoad (launch : Nat) (cfg : ChanCfg)
  | memResponse (tile slot : Nat) (uncorrectable : Bool)
  | staleReplyDiscard (region gen : Nat)
  | traverseBeat (ctx eng issue : Nat)
  | travwrBeat (tile port : Nat)
  | mcastStall (ctx eng issue branch : Nat)
  | cmdHeadCheck (ctx eng : Nat)
  | commandStart (ctx eng : Nat)
  | commandComplete (ctx eng issue : Nat)
  | translationWalk (tile slot : Nat)
  | faultRecordWrite
  -- moves
  | inp (n : Node) | mov (n : Node) | const (n : Node) | lanei (n : Node) | dlrd (n : Node) | sxld (n : Node)
  | sxst (n : Node) | bufrd (n : Node) | bufwr (n : Node)
  -- integer
  | add (n : Node) | sub (n : Node) | mul (n : Node) | mulh (n : Node) | mad (n : Node) | and (n : Node)
  | or (n : Node) | xor (n : Node) | not (n : Node) | shl (n : Node) | shr (n : Node) | sar (n : Node)
  | rot (n : Node) | min (n : Node) | max (n : Node) | abs (n : Node) | neg (n : Node) | clz (n : Node)
  | popc (n : Node) | cmp (n : Node) | sel (n : Node) | adds (n : Node) | subs (n : Node)
  -- floating point
  | fadd (n : Node) | fsub (n : Node) | fmul (n : Node) | ffma (n : Node) | fmin (n : Node) | fmax (n : Node)
  | fabs (n : Node) | fneg (n : Node) | fcmp (n : Node) | frcp (n : Node) | fsqrt (n : Node) | frsq (n : Node)
  | fexp2 (n : Node) | flog2 (n : Node) | ftanh (n : Node) | fclass (n : Node)
  -- conversion
  | cvt (n : Node) | bscale (n : Node) | pack (n : Node) | unpack (n : Node) | ofesc (n : Node)
  -- lane and row
  | lred (n : Node) | lscan (n : Node) | lbcast (n : Node) | reord (n : Node) | rowstat (n : Node)
  | rowbuf (n : Node) | rowscl (n : Node)
  -- control
  | steer (n : Node) | merge (n : Node) | mergea (n : Node) | carry (n : Node) | gate (n : Node) | pres (n : Node)
  | dflt (n : Node) | absn (n : Node) | orp (n : Node) | nest (n : Node) | lcrd (n : Node) | inst (n : Node)
  | cyc (n : Node) | merid (n : Node) | rmark (n : Node) | cores (n : Node) | tileid (n : Node) | regid (n : Node)
  | resize (n : Node) | endk (n : Node)
  -- semaphores, done tokens, traps
  | semsig (n : Node) | semwait (n : Node) | semrd (n : Node) | semset (n : Node) | djoin (n : Node)
  | fence (n : Node) | trap (n : Node) | brk (n : Node)
  -- memory nodes
  | agen (n : Node) | ld (n : Node) | st (n : Node) | ldx (n : Node) | stx (n : Node) | atom (n : Node)
  | handover (n : Node) | bfillAcqw (n : Node) | bfillPub (n : Node) | bfreeAcqr (n : Node) | bfreeRel (n : Node)
  | eng (n : Node) | launch (n : Node)
  -- soft tokens
  | sxset (n : Node) | sxmix (n : Node) | sxhid (n : Node) | sxemb (n : Node) | sxkind (n : Node)
  | sxhash (n : Node) | collapse (n : Node)
  -- privileged nodes
  | krd (n : Node) | kwr (n : Node) | slotw (n : Node) | genbump (n : Node) | regsave (n : Node)
  | regload (n : Node) | fltackResume (n : Node) | fltackKill (n : Node) | fltackFailcmd (n : Node)
  | fltackNote (n : Node)
  -- matrix node
  | mxTokenAccept (tile : Nat)
  | mma (t : MxTok) | mmaz (t : MxTok) | clr (t : MxTok) | drain (t : MxTok)
  | mxCompletion (tile : Nat)
  | mxFeed (tile which : Nat)
  -- epilogue words
  | epiNop | epiLdc | epiAddb (a : BitVec 12) | epiMuls (a : BitVec 12) | epiAdda (a : BitVec 12)
  | epiAct (k : BitVec 4) | epiClamp (a : BitVec 12) | epiCvt (s : BitVec 1) (r : BitVec 2) (d : BitVec 4)
  | epiBsc (a : BitVec 12) | epiRowm (a : BitVec 12) | epiRows (a : BitVec 12) | epiSta (a : BitVec 12)
  | epiSto (k : BitVec 4) | epiEnd
  -- engine commands
  | travrd (c : Cmd) | travwr (c : Cmd) | travmc (c : Cmd)
  | copy (c : Cmd) | gather (c : Cmd) | scatter (c : Cmd) | fill (c : Cmd)
  | allred (c : Cmd) | allgath (c : Cmd) | redscat (c : Cmd) | xsend (c : Cmd) | xrecv (c : Cmd)
  | sample (c : Cmd) | argmax (c : Cmd)
  | pgalloc (c : Cmd) | pgfree (c : Cmd) | pgfork (c : Cmd) | pgappend (c : Cmd) | pgcommit (c : Cmd)
  | pgtrunc (c : Cmd) | pgstat (c : Cmd)
  | admission (c : Cmd) | batch (c : Cmd) | retire (c : Cmd) | egress (c : Cmd) | logapp (c : Cmd)
  | pfxmatch (c : Cmd) | replay (c : Cmd) | migout (c : Cmd) | migin (c : Cmd)
  -- fault handling and pre-emption
  | faultRecordHandle | faultDecision | decisionTimeout
  | regpreReq (region : Nat) (gated : Bool)
  | preemptQuiesce (region : Nat) | preemptTimeout (region : Nat) | regpreResume (region : Nat)
  -- scheduling
  | schedulerDecision (part : Nat) | launchComplete (launch : Nat)
  | sqenEnable (part q : Nat) | sqenDisable (part q : Nat)
  | psqpostWrite (v : BitVec 64) | psqKernelStart
  -- register writes with a behaviour of their own
  | engshareWrite (ctx : Nat) (v : BitVec 64) | tinvWrite (ctx : Nat) (v : BitVec 64)
  | imaskWrite (part set k : Nat) (v : BitVec 64) | imctlWrite (part set : Nat) (v : BitVec 64)
  | dcsplitWrite (die : Nat) (v : BitVec 64) | memctlCacheWrite (stack : Nat) (v : BitVec 64)
  | memctlReset (stack : Nat) (v : BitVec 64) | pmemWrite (part i : Nat) (v : BitVec 64)
  -- host
  | semWindowInc (offset width : Nat) (value : BitVec 64) (tee : Bool)
  | semWindowRead (slot byte width : Nat) (tee : Bool)
  | hostMemRead (hpa len : Nat) (tee : Bool)
  | hostMemWrite (hpa : Nat) (bytes : List Byte) (tee : Bool)
  | hostSnoop (pa : Nat)
  -- trusted interface and attestation
  | lockInterface (part : Nat) | startInterface (part : Nat) | stopInterface (part : Nat)
  | getDeviceInterfaceState (part : Nat) | getDeviceInterfaceReport (part : Nat)
  | unsupportedRequest (part : Nat) | interfaceError (part : Nat)
  | getMeasurements | agentMeasurements (peer : Nat) (key : BitVec 256) | measurementEvent (mr : Nat) (item : List Byte)
  | recordUpdate (image : List Byte) (signed : Bool)
  -- migration agents
  | migrationImageReceive (ctx peer no : Nat) (at_ : ImageAt) (c : Cmd)
  | migrationNotify (ctx : Nat) (n : Notice)
  -- span links
  | flitSend (link vc : Nat) (payload : List Payload)
  | flitReceive (link : Nat) (f : Flit)
  | linkRetrain (link : Nat) (ok : Bool)
  -- memory system and life-long reliability
  | bmsHeartbeat (o : Owner) | refresh (p : OwnedPch) | refreshTakeover (o : Owner) | refreshHandback (o : Owner)
  | rowRepair (stack row : Nat) | laneSpare (die edge : Nat) | waySpare (die slice : Nat) | lifeFlush
  | powerCheck (watts tempC : Nat) | droopStretch (tile : Nat) (beyond : Bool)
  -- bring-up
  | boot (copyA copyB : Bool) | controlRegionReload
  | ctxstateWrite (ctx : Nat) (v : BitVec 64) | partctlWrite (part : Nat) (v : BitVec 64)
  | spanctlWrite (k : Nat) (v : BitVec 64)
  | brkResume (region : Nat)
  | throttle (stack level : Nat)
deriving DecidableEq, Repr, Inhabited

end Sys2Proof
end

