-- ==== Sys2Proof/WellFormed.lean ====
section
/-!
DEFINITION. Which node words, tokens, epilogue words and command headers the spec lets a machine take: the operand
tables of the opcode entries (R92, R99, R102, R105–R118, R170–R184, R190, R207, R253, R301, R228, R243, R191), each
as a check that answers the configuration check it fails (R84).
-/
namespace Sys2Proof

/-- The configuration checks of R84. -/
inductive CfgCheck where
  | fetch | magic | version | words | hdr | crc | priv | mode | timing
  | opcode | type | mod | policy | target | badreg | ext | imm | aux | buf | slot | loop
  | fanin | dlwrite | cycle | restart
  | pool | sampled | format | tile | legend | port | launch | kernel | place
  | trav | cmd | mxtok
deriving DecidableEq, Repr, Inhabited

/-- The check code of R84. -/
def CfgCheck.code : CfgCheck → Nat
  | .fetch => 0x01 | .magic => 0x02 | .version => 0x03 | .words => 0x04 | .hdr => 0x05 | .crc => 0x06
  | .priv => 0x07 | .mode => 0x08 | .timing => 0x09
  | .opcode => 0x10 | .type => 0x11 | .mod => 0x12 | .policy => 0x13 | .target => 0x14 | .badreg => 0x15
  | .ext => 0x16 | .imm => 0x17 | .aux => 0x18 | .buf => 0x19 | .slot => 0x1A | .loop => 0x1B
  | .fanin => 0x20 | .dlwrite => 0x21 | .cycle => 0x22 | .restart => 0x23
  | .pool => 0x30 | .sampled => 0x31 | .format => 0x32 | .tile => 0x33 | .legend => 0x34 | .place => 0x35
  | .launch => 0x36 | .trav => 0x40 | .cmd => 0x41 | .kernel => 0x42 | .port => 0x43 | .mxtok => 0x44

/-- The opcodes of R81. -/
inductive Op where
  | inp | mov | const | lanei | dlrd | sxld | sxst | bufrd | bufwr
  | add | sub | mul | mulh | mad | and | or | xor | not | shl | shr | sar | rot | min | max | abs | neg | clz
  | popc | cmp | sel | adds | subs
  | fadd | fsub | fmul | ffma | fmin | fmax | fabs | fneg | fcmp | frcp | fsqrt | frsq | fexp2 | flog2 | ftanh | fclass
  | cvt | bscale | pack | unpack | ofesc
  | lred | lscan | lbcast | reord | rowstat | rowbuf | rowscl
  | steer | merge | mergea | carry | gate | pres | dflt | absn | orp | nest | lcrd | inst | cyc | merid | rmark
  | cores | tileid | regid | resize | endk
  | semsig | semwait | semrd | semset | djoin | fence
  | agen | ld | st | ldx | stx | atom | handover | bfree | bfill
  | eng | launch
  | sxset | sxmix | sxhid | sxemb | sxkind | sxhash | collapse
  | trap | brk
  | krd | kwr | slotw | genbump | regsave | regload | fltack
deriving DecidableEq, Repr, Inhabited

/-- The opcode byte (R81). -/
def Op.code : Op → Nat
  | .inp => 0x00 | .mov => 0x01 | .const => 0x02 | .lanei => 0x03 | .dlrd => 0x04 | .sxld => 0x05 | .sxst => 0x06
  | .bufrd => 0x07 | .bufwr => 0x08
  | .add => 0x10 | .sub => 0x11 | .mul => 0x12 | .mulh => 0x13 | .mad => 0x14 | .and => 0x15 | .or => 0x16
  | .xor => 0x17 | .not => 0x18 | .shl => 0x19 | .shr => 0x1A | .sar => 0x1B | .rot => 0x1C | .min => 0x1D
  | .max => 0x1E | .abs => 0x1F | .neg => 0x20 | .clz => 0x21 | .popc => 0x22 | .cmp => 0x23 | .sel => 0x24
  | .adds => 0x25 | .subs => 0x26
  | .fadd => 0x30 | .fsub => 0x31 | .fmul => 0x32 | .ffma => 0x33 | .fmin => 0x34 | .fmax => 0x35 | .fabs => 0x36
  | .fneg => 0x37 | .fcmp => 0x38 | .frcp => 0x39 | .fsqrt => 0x3A | .frsq => 0x3B | .fexp2 => 0x3C
  | .flog2 => 0x3D | .ftanh => 0x3E | .fclass => 0x3F
  | .cvt => 0x50 | .bscale => 0x51 | .pack => 0x52 | .unpack => 0x53 | .ofesc => 0x54
  | .lred => 0x60 | .lscan => 0x61 | .lbcast => 0x62 | .reord => 0x63 | .rowstat => 0x64 | .rowbuf => 0x65
  | .rowscl => 0x66
  | .steer => 0x70 | .merge => 0x71 | .mergea => 0x72 | .carry => 0x73 | .gate => 0x74 | .pres => 0x75
  | .dflt => 0x76 | .absn => 0x77 | .orp => 0x78 | .nest => 0x79 | .lcrd => 0x7A | .inst => 0x7B | .cyc => 0x7C
  | .merid => 0x7D | .rmark => 0x7E | .cores => 0x7F | .tileid => 0x80 | .regid => 0x81 | .resize => 0x82
  | .endk => 0x83
  | .semsig => 0x90 | .semwait => 0x91 | .semrd => 0x92 | .semset => 0x93 | .djoin => 0x94 | .fence => 0x95
  | .agen => 0xA0 | .ld => 0xA1 | .st => 0xA2 | .ldx => 0xA3 | .stx => 0xA4 | .atom => 0xA5 | .handover => 0xA6
  | .bfree => 0xA7 | .bfill => 0xA8
  | .eng => 0xC0 | .launch => 0xC1
  | .sxset => 0xD0 | .sxmix => 0xD1 | .sxhid => 0xD2 | .sxemb => 0xD3 | .sxkind => 0xD4 | .sxhash => 0xD5
  | .collapse => 0xD6
  | .trap => 0xE0 | .brk => 0xE1
  | .krd => 0xE8 | .kwr => 0xE9 | .slotw => 0xEA | .genbump => 0xEB | .regsave => 0xEC | .regload => 0xED
  | .fltack => 0xEE

/-- Every opcode. -/
def Op.all : List Op :=
  [.inp, .mov, .const, .lanei, .dlrd, .sxld, .sxst, .bufrd, .bufwr,
   .add, .sub, .mul, .mulh, .mad, .and, .or, .xor, .not, .shl, .shr, .sar, .rot, .min, .max, .abs, .neg, .clz,
   .popc, .cmp, .sel, .adds, .subs] ++
  [.fadd, .fsub, .fmul, .ffma, .fmin, .fmax, .fabs, .fneg, .fcmp, .frcp, .fsqrt, .frsq, .fexp2, .flog2, .ftanh, .fclass,
   .cvt, .bscale, .pack, .unpack, .ofesc, .lred, .lscan, .lbcast, .reord, .rowstat, .rowbuf, .rowscl] ++
  [.steer, .merge, .mergea, .carry, .gate, .pres, .dflt, .absn, .orp, .nest, .lcrd, .inst, .cyc, .merid, .rmark,
   .cores, .tileid, .regid, .resize, .endk, .semsig, .semwait, .semrd, .semset, .djoin, .fence] ++
  [.agen, .ld, .st, .ldx, .stx, .atom, .handover, .bfree, .bfill, .eng, .launch,
   .sxset, .sxmix, .sxhid, .sxemb, .sxkind, .sxhash, .collapse, .trap, .brk,
   .krd, .kwr, .slotw, .genbump, .regsave, .regload, .fltack]

/-- The opcode a byte names; the rest are reserved (R81). -/
def Op.ofCode (c : Nat) : Option Op := Op.all.find? (fun o => o.code == c)

/-- The privileged opcodes (R81). -/
def Op.privileged (o : Op) : Bool := 0xE8 ≤ o.code && o.code ≤ 0xEE

/-- Element width in bits (R47). -/
def Ty.bits : Ty → Nat
  | .f32 => 32 | .bf16 => 16 | .of8 => 8 | .of4 => 4 | .ds8 => 8 | .i32 => 32 | .n32 => 32 | .i64 => 64 | .n64 => 64
  | .i16 => 16 | .n16 => 16 | .i8 => 8 | .n8 => 8 | .pred => 1 | .raw => 512

/-- Elements per beat (R47). -/
def Ty.elems (t : Ty) : Nat := 512 / t.bits

/-- The type code (R47). -/
def Ty.code : Ty → Nat
  | .f32 => 0 | .bf16 => 1 | .of8 => 2 | .of4 => 3 | .ds8 => 4 | .i32 => 5 | .n32 => 6 | .i64 => 7 | .n64 => 8
  | .i16 => 9 | .n16 => 10 | .i8 => 11 | .n8 => 12 | .pred => 13 | .raw => 14

/-- The type a code names; 15 is reserved (R47). -/
def Ty.ofCode : Nat → Option Ty
  | 0 => some .f32 | 1 => some .bf16 | 2 => some .of8 | 3 => some .of4 | 4 => some .ds8 | 5 => some .i32
  | 6 => some .n32 | 7 => some .i64 | 8 => some .n64 | 9 => some .i16 | 10 => some .n16 | 11 => some .i8
  | 12 => some .n8 | 13 => some .pred | 14 => some .raw | _ => none

def Ty.isInt (t : Ty) : Bool := 5 ≤ t.code && t.code ≤ 12
def Ty.isFloat (t : Ty) : Bool := t.code ≤ 1
def Ty.isBlock (t : Ty) : Bool := 2 ≤ t.code && t.code ≤ 4
/-- Two's complement types (R47). -/
def Ty.signed : Ty → Bool
  | .i32 | .i64 | .i16 | .i8 => true
  | _ => false

/-- Whether an input slot exists and must be connected. -/
inductive Need where
  | absent | req | opt
deriving DecidableEq, Repr, Inhabited

/-- The input slots of an opcode (L, R, P): the tables of R92, R99, R102, R106–R118, R170, R183, R184, R190, R207, R253, R301. -/
def Op.inputs (o : Op) (n : Node) : Need × Need × Need :=
  let logic := n.ty == .pred || n.ty == .raw
  let src := (Ty.ofCode (bitsNat n.aux 0 4)).getD .raw
  match o with
  | .inp | .const | .lanei | .dlrd | .sxld | .lcrd | .inst | .cyc | .cores | .tileid | .regid => (.absent, .absent, .absent)
  | .mov | .sxst => (.req, .absent, .absent)
  | .bufrd => (.opt, .absent, .absent)
  | .bufwr => (.req, .opt, .absent)
  | .add | .sub | .mul | .mulh | .shl | .shr | .sar | .rot | .min | .max | .cmp | .adds | .subs => (.req, .req, .opt)
  | .and | .or | .xor => (.req, .req, if logic then .absent else .opt)
  | .not => (.req, .absent, if logic then .absent else .opt)
  | .abs | .neg | .clz | .popc => (.req, .absent, .opt)
  | .mad | .sel | .ffma => (.req, .req, .req)
  | .fadd | .fsub | .fmul | .fmin | .fmax | .fcmp => (.req, .req, .opt)
  | .fabs | .fneg | .frcp | .fsqrt | .frsq | .fexp2 | .flog2 | .ftanh | .fclass => (.req, .absent, .opt)
  | .cvt | .bscale | .ofesc =>
    if src == .of4 then (.req, .absent, .req)
    else if src.isBlock then (.req, .req, .req)
    else if !n.ty.isBlock && src.elems < n.ty.elems then (.req, .opt, .absent)
    else (.req, .absent, .absent)
  | .pack => (.req, .req, .absent)
  | .unpack | .lred | .lscan | .lbcast | .reord | .rowstat | .rowbuf | .rowscl => (.req, .absent, .absent)
  | .steer | .gate => (.req, .absent, .req)
  | .merge | .mergea => (.req, .req, .opt)
  | .carry => (.req, .absent, .opt)
  | .pres | .absn => (.req, .absent, .absent)
  | .dflt => (.req, .req, .absent)
  | .orp | .djoin => (.req, .opt, .opt)
  | .nest | .merid | .rmark | .resize | .endk | .semwait | .semrd | .fence | .trap | .brk => (.req, .absent, .absent)
  | .semsig => (.req, .absent, .opt)
  | .semset => (.req, .req, .absent)
  | .agen => (.req, .opt, .opt)
  | .ld => (.req, .absent, .opt)
  | .st | .stx | .atom => (.req, .req, .opt)
  | .ldx => (.req, .opt, .opt)
  | .handover | .bfill | .bfree => (.req, .absent, .absent)
  | .eng | .launch => (.req, .opt, .opt)
  | .sxset | .sxkind | .sxhash => (.req, .absent, .absent)
  | .sxmix | .sxhid | .sxemb => (.req, .req, .absent)
  | .collapse => (.req, if n.mod == 1#4 then .req else .absent, .absent)
  | .krd => (.req, .absent, .opt)
  | .kwr => (.req, .req, .opt)
  | .slotw | .regsave | .regload => (.req, .req, .absent)
  | .genbump | .fltack => (.req, .absent, .absent)

/-- Conversions R65 lists for CVT, from `s` to `d`. -/
def convPair (s d : Ty) : Bool :=
  s != d && s.code ≤ 12 && d.code ≤ 12 &&
    (if s.isBlock then d.isFloat || d.isBlock
     else if d.isBlock then s.isFloat
     else true)

/-- The types an opcode's entry accepts (CFG_TYPE); an opcode with no type accepts raw only (R75). -/
def Op.typeOk (o : Op) (n : Node) : Bool :=
  let t := n.ty
  let src := Ty.ofCode (bitsNat n.aux 0 4)
  match o with
  | .inp | .mov | .const | .dlrd | .bufrd | .bufwr | .sel | .lbcast | .steer | .merge | .mergea | .carry | .gate | .dflt
  | .merid | .rmark | .endk | .semsig | .semwait | .trap | .brk | .agen | .ld | .st => true
  | .lanei => t.isInt
  | .sxld | .sxst => t == .raw
  | .add | .sub | .mul | .mulh | .mad | .shl | .shr | .sar | .rot | .min | .max | .abs | .neg | .clz | .popc | .cmp
  | .adds | .subs => t.isInt
  | .and | .or | .xor | .not => t.isInt || t == .pred || t == .raw
  | .fadd | .fsub | .fmul | .ffma | .fmin | .fmax | .fabs | .fneg | .fcmp | .frcp | .fsqrt | .frsq | .fexp2 | .flog2
  | .ftanh | .fclass => t.isFloat
  | .cvt => match src with | some s => convPair s t || 13 ≤ s.code | none => true
  | .bscale => t.isBlock && (match src with | some s => convPair s t || 13 ≤ s.code | none => true)
  | .ofesc => t == .of4 && (match src with | some s => convPair s t || 13 ≤ s.code | none => true)
  | .pack | .unpack => t == .i8 || t == .n8 || t == .i16 || t == .n16 || t == .i32 || t == .n32
  | .lred | .lscan => t.isFloat || t.isInt
  | .reord => t.isFloat || (5 ≤ t.code && t.code ≤ 10)
  | .rowstat | .rowbuf | .rowscl => t == .f32
  | .pres | .absn | .orp => t == .pred
  | .nest | .lcrd | .cores | .tileid | .regid | .resize | .semrd | .semset | .bfill | .bfree => t == .n32
  | .inst | .cyc => t == .n64
  | .djoin | .fence | .handover | .eng | .launch => t == .raw
  | .ldx | .stx | .atom =>
    (t == .f32 || t == .i32 || t == .n32 || t == .i64 || t == .n64) &&
      (if o == .atom then
        (match n.mod.toNat with
         | 1 => t == .f32
         | 7 => true
         | 8 => true
         | _ => t != .f32)
       else true)
  | .sxset | .sxkind | .collapse => t == .n32
  | .sxmix => t == .bf16
  | .sxhid | .sxemb => t.isFloat
  | .sxhash => t == .n64
  | .krd | .kwr | .slotw | .genbump | .regsave | .regload | .fltack => t == .n64

/-- The mod values an entry defines (CFG_MOD), the rounding field of R51 included. -/
def Op.modOk (o : Op) (n : Node) : Bool :=
  let m := n.mod.toNat
  match o with
  | .fadd | .fsub | .fmul | .ffma | .frcp | .fsqrt | .frsq | .fexp2 | .flog2 => m ≤ 3
  | .cmp => m ≤ 5
  | .fcmp => m ≤ 3
  | .cvt | .bscale | .ofesc => m ≤ 3 || (m ≤ 7 && n.ty.isBlock)
  | .pack | .merge | .tileid | .bfill | .bfree | .sxhash => m ≤ 1
  | .lred | .lscan => if n.ty.isFloat then m ≤ 2 else m ≤ 5
  | .reord | .rowstat | .steer | .gate | .collapse | .agen => m ≤ 2
  | .rowscl | .fltack => m ≤ 3
  | .semsig | .fence => m ≤ 4
  | .atom => m ≤ 8
  | _ => m == 0

/-- The opcodes that act on absence, whose policy must be 0 (R20). -/
def Op.actsOnAbsence (o : Op) : Bool :=
  match o with
  | .steer | .merge | .mergea | .carry | .gate | .pres | .dflt | .absn => true
  | _ => false

/-- The value an immediate takes in one element of a type (R80): none where it is not allowed or does not fit. -/
def widenImm (t : Ty) (imm : BitVec 16) (ext : Option Ext) : Option Nat :=
  let w := t.bits
  if t.isInt then
    if t.signed then
      let v : Int := match ext with | some e => toSigned 32 e.imm32.toNat | none => toSigned 16 imm.toNat
      if -((2 ^ (w - 1) : Nat) : Int) ≤ v ∧ v < ((2 ^ (w - 1) : Nat) : Int) then some (ofSigned w v) else none
    else
      let v := match ext with | some e => e.imm32.toNat | none => imm.toNat
      if v < 2 ^ w then some v else none
  else match t with
    | .bf16 =>
      (match ext with
       | some e => if e.imm32.toNat % 65536 == 0 then some (e.imm32.toNat / 65536) else none
       | none => some imm.toNat)
    | .f32 => (match ext with | some e => some e.imm32.toNat | none => some (imm.toNat * 65536))
    | .pred =>
      (match ext with
       | some _ => none
       | none => if imm.toNat ≤ 1 then some imm.toNat else none)
    | _ => none

/-- Where an entry places a value field in the immediate (R80): CONST, LANEI and SEMWAIT. -/
def Op.valueField (o : Op) : Bool := o == .const || o == .lanei || o == .semwait

/-- The powers of two from 2 to 32 (R113). -/
def isGroup (g : Nat) : Bool := g == 2 || g == 4 || g == 8 || g == 16 || g == 32

/-- The immediate fields an entry accepts (CFG_IMM): R80, R92, R105–R118, R170, R183, R190, R207, R253. -/
def Op.immOk (o : Op) (n : Node) : Bool :=
  let v := n.imm.toNat
  let wideZero := match n.ext with | some e => e.imm32 == 0#32 | none => true
  let unusedWide := n.ext.isNone || n.imm == 0#16
  if n.i then
    (widenImm n.ty n.imm n.ext).isSome && unusedWide
  else match o with
    | .const | .lanei => (widenImm n.ty n.imm n.ext).isSome && unusedWide
    | .semwait => unusedWide
    | .bufrd | .bufwr | .trap | .brk | .eng =>
      wideZero && (if o == .eng then bitAt n.aux 5 || v == 0 else true)
    | .bscale => wideZero && (if n.ty == .of4 then v ≤ 15 else v == 0)
    | .ofesc => wideZero && v ≤ 15
    | .lbcast => wideZero && v < n.ty.elems
    | .reord => wideZero && (if n.mod == 2#4 then v % 2 == 1 && v < n.aux.toNat else v == 0)
    | .rowbuf => wideZero && 1 ≤ v % 1024 && v % 1024 ≤ 512
    | .rowstat => wideZero && 1 ≤ v && v ≤ 512
    | .orp => wideZero && v ≤ 511
    | .nest => wideZero
    | .semsig => wideZero && 1 ≤ v
    | .ld | .st => wideZero && v ≤ 63
    | .launch => wideZero && v ≤ 4095
    | .sxmix => wideZero && v ≤ 7
    | .sxhid => wideZero && v ≤ 4095
    | .sxhash => wideZero && (if n.mod == 1#4 then v ≤ 4095 else v == 0)
    | _ => wideZero && v == 0

/-- Parts a conversion's destination has (R106). -/
def cvtParts (s d : Ty) : Nat :=
  if s.isBlock && !d.isBlock then 128 / d.elems
  else if s.isBlock || d.isBlock then 1
  else if s.elems ≥ d.elems then s.elems / d.elems
  else d.elems / s.elems

/-- The aux8 bits and values an entry defines (CFG_AUX). -/
def Op.auxOk (o : Op) (n : Node) : Bool :=
  let a := n.aux.toNat
  match o with
  | .inp | .resize => a ≤ 15
  | .dlrd => !bitAt n.aux 6
  | .sxld | .sxst | .sxset | .sxmix | .sxhid | .sxemb | .sxkind | .collapse => a ≤ 7
  | .sxhash => if n.mod == 1#4 then a == 0 else a ≤ 7
  | .bufrd => a ≤ 2
  | .bufwr => a == 1 || a == 2
  | .cvt | .ofesc =>
    let part := bitsNat n.aux 4 3
    let pair := bitAt n.aux 7
    (match Ty.ofCode (a % 16) with
     | some s =>
       s.code ≤ 12 &&
       (if n.ty.isBlock then pair && part == 0
        else part < cvtParts s n.ty && (!pair || part + 1 < cvtParts s n.ty))
     | none => false)
  | .bscale => a ≤ 12
  | .unpack => a == 128
  | .lred | .lscan => if n.ty.isFloat && n.mod == 0#4 then a ≤ 3 else a == 0
  | .reord =>
    (match n.mod.toNat with
     | 0 => a == 0
     | 1 => 2 ≤ a && a ≤ 32
     | 2 => isGroup a
     | _ => true)
  | .rowbuf | .rowscl => a ≤ 3
  | .steer | .gate => a ≤ 1
  | .nest | .lcrd => a ≤ 3
  | .semsig | .semwait | .semrd | .semset | .handover => true
  | .agen | .ldx | .stx => a % 16 ≤ 4
  | .ld | .st | .atom => a ≤ 4
  | .bfill | .bfree => a ≤ 7
  | .eng => a ≤ 63
  | .launch => a ≤ 15
  | _ => a == 0

/-- I may be set only where the opcode has an R input, and never on a memory element or a soft-token node (R75, R170, R253). -/
def Op.iOk (o : Op) (n : Node) : Bool :=
  !n.i || ((o.inputs n).2.1 != .absent &&
    (match o with
     | .agen | .ld | .st | .ldx | .stx | .atom | .sxmix | .sxhid | .sxemb | .collapse | .slotw | .regsave | .regload => false
     | _ => true))

/-- A target within its valid index (R77); node and delay-register bounds depend on the block and are checked at load. -/
def Target.ok : Target → Bool
  | .slot _ k => k < 128
  | .out k => k < 16
  | .dl k => k < 128
  | .done k => k < 16
  | .mx k => k < 3
  | .none => true

/-- The first check of stage 3 that the word fails on its own (R84, in the table's order), if any. -/
def Op.check (o : Op) (n : Node) : Option CfgCheck :=
  if !o.typeOk n then some .type
  else if !o.modOk n then some .mod
  else if o.actsOnAbsence && n.pol != .prop then some .policy
  else if !(n.a.ok && n.b.ok && (match n.ext with | some e => e.c.ok && e.d.ok | none => true)) then some .target
  else if !o.immOk n then some .imm
  else if !o.auxOk n then some .aux
  else if !o.iOk n then some .slot
  else none

/-- The node instruction of an opcode; the mod of BFILL, BFREE and FLTACK picks the row (R184, R301). -/
def Op.instr (o : Op) (n : Node) : Instr :=
  match o with
  | .inp => .inp n | .mov => .mov n | .const => .const n | .lanei => .lanei n | .dlrd => .dlrd n | .sxld => .sxld n
  | .sxst => .sxst n | .bufrd => .bufrd n | .bufwr => .bufwr n
  | .add => .add n | .sub => .sub n | .mul => .mul n | .mulh => .mulh n | .mad => .mad n | .and => .and n | .or => .or n
  | .xor => .xor n | .not => .not n | .shl => .shl n | .shr => .shr n | .sar => .sar n | .rot => .rot n | .min => .min n
  | .max => .max n | .abs => .abs n | .neg => .neg n | .clz => .clz n | .popc => .popc n | .cmp => .cmp n | .sel => .sel n
  | .adds => .adds n | .subs => .subs n
  | .fadd => .fadd n | .fsub => .fsub n | .fmul => .fmul n | .ffma => .ffma n | .fmin => .fmin n | .fmax => .fmax n
  | .fabs => .fabs n | .fneg => .fneg n | .fcmp => .fcmp n | .frcp => .frcp n | .fsqrt => .fsqrt n | .frsq => .frsq n
  | .fexp2 => .fexp2 n | .flog2 => .flog2 n | .ftanh => .ftanh n | .fclass => .fclass n
  | .cvt => .cvt n | .bscale => .bscale n | .pack => .pack n | .unpack => .unpack n | .ofesc => .ofesc n
  | .lred => .lred n | .lscan => .lscan n | .lbcast => .lbcast n | .reord => .reord n | .rowstat => .rowstat n
  | .rowbuf => .rowbuf n | .rowscl => .rowscl n
  | .steer => .steer n | .merge => .merge n | .mergea => .mergea n | .carry => .carry n | .gate => .gate n
  | .pres => .pres n | .dflt => .dflt n | .absn => .absn n | .orp => .orp n | .nest => .nest n | .lcrd => .lcrd n
  | .inst => .inst n | .cyc => .cyc n | .merid => .merid n | .rmark => .rmark n | .cores => .cores n
  | .tileid => .tileid n | .regid => .regid n | .resize => .resize n | .endk => .endk n
  | .semsig => .semsig n | .semwait => .semwait n | .semrd => .semrd n | .semset => .semset n | .djoin => .djoin n
  | .fence => .fence n
  | .agen => .agen n | .ld => .ld n | .st => .st n | .ldx => .ldx n | .stx => .stx n | .atom => .atom n
  | .handover => .handover n
  | .bfree => if n.mod == 0#4 then .bfreeAcqr n else .bfreeRel n
  | .bfill => if n.mod == 0#4 then .bfillAcqw n else .bfillPub n
  | .eng => .eng n | .launch => .launch n
  | .sxset => .sxset n | .sxmix => .sxmix n | .sxhid => .sxhid n | .sxemb => .sxemb n | .sxkind => .sxkind n
  | .sxhash => .sxhash n | .collapse => .collapse n
  | .trap => .trap n | .brk => .brk n
  | .krd => .krd n | .kwr => .kwr n | .slotw => .slotw n | .genbump => .genbump n | .regsave => .regsave n
  | .regload => .regload n
  | .fltack =>
    if n.mod == 0#4 then .fltackResume n else if n.mod == 1#4 then .fltackKill n
    else if n.mod == 2#4 then .fltackFailcmd n else .fltackNote n

/-- The opcode and word of a node instruction. -/
def Instr.node? : Instr → Option (Op × Node)
  | .inp n => some (.inp, n) | .mov n => some (.mov, n) | .const n => some (.const, n) | .lanei n => some (.lanei, n)
  | .dlrd n => some (.dlrd, n) | .sxld n => some (.sxld, n) | .sxst n => some (.sxst, n) | .bufrd n => some (.bufrd, n)
  | .bufwr n => some (.bufwr, n)
  | .add n => some (.add, n) | .sub n => some (.sub, n) | .mul n => some (.mul, n) | .mulh n => some (.mulh, n)
  | .mad n => some (.mad, n) | .and n => some (.and, n) | .or n => some (.or, n) | .xor n => some (.xor, n)
  | .not n => some (.not, n) | .shl n => some (.shl, n) | .shr n => some (.shr, n) | .sar n => some (.sar, n)
  | .rot n => some (.rot, n) | .min n => some (.min, n) | .max n => some (.max, n) | .abs n => some (.abs, n)
  | .neg n => some (.neg, n) | .clz n => some (.clz, n) | .popc n => some (.popc, n) | .cmp n => some (.cmp, n)
  | .sel n => some (.sel, n) | .adds n => some (.adds, n) | .subs n => some (.subs, n)
  | .fadd n => some (.fadd, n) | .fsub n => some (.fsub, n) | .fmul n => some (.fmul, n) | .ffma n => some (.ffma, n)
  | .fmin n => some (.fmin, n) | .fmax n => some (.fmax, n) | .fabs n => some (.fabs, n) | .fneg n => some (.fneg, n)
  | .fcmp n => some (.fcmp, n) | .frcp n => some (.frcp, n) | .fsqrt n => some (.fsqrt, n) | .frsq n => some (.frsq, n)
  | .fexp2 n => some (.fexp2, n) | .flog2 n => some (.flog2, n) | .ftanh n => some (.ftanh, n)
  | .fclass n => some (.fclass, n)
  | .cvt n => some (.cvt, n) | .bscale n => some (.bscale, n) | .pack n => some (.pack, n)
  | .unpack n => some (.unpack, n) | .ofesc n => some (.ofesc, n)
  | .lred n => some (.lred, n) | .lscan n => some (.lscan, n) | .lbcast n => some (.lbcast, n)
  | .reord n => some (.reord, n) | .rowstat n => some (.rowstat, n) | .rowbuf n => some (.rowbuf, n)
  | .rowscl n => some (.rowscl, n)
  | .steer n => some (.steer, n) | .merge n => some (.merge, n) | .mergea n => some (.mergea, n)
  | .carry n => some (.carry, n) | .gate n => some (.gate, n) | .pres n => some (.pres, n) | .dflt n => some (.dflt, n)
  | .absn n => some (.absn, n) | .orp n => some (.orp, n) | .nest n => some (.nest, n) | .lcrd n => some (.lcrd, n)
  | .inst n => some (.inst, n) | .cyc n => some (.cyc, n) | .merid n => some (.merid, n) | .rmark n => some (.rmark, n)
  | .cores n => some (.cores, n) | .tileid n => some (.tileid, n) | .regid n => some (.regid, n)
  | .resize n => some (.resize, n) | .endk n => some (.endk, n)
  | .semsig n => some (.semsig, n) | .semwait n => some (.semwait, n) | .semrd n => some (.semrd, n)
  | .semset n => some (.semset, n) | .djoin n => some (.djoin, n) | .fence n => some (.fence, n)
  | .agen n => some (.agen, n) | .ld n => some (.ld, n) | .st n => some (.st, n) | .ldx n => some (.ldx, n)
  | .stx n => some (.stx, n) | .atom n => some (.atom, n) | .handover n => some (.handover, n)
  | .bfreeAcqr n => some (.bfree, n) | .bfreeRel n => some (.bfree, n)
  | .bfillAcqw n => some (.bfill, n) | .bfillPub n => some (.bfill, n)
  | .eng n => some (.eng, n) | .launch n => some (.launch, n)
  | .sxset n => some (.sxset, n) | .sxmix n => some (.sxmix, n) | .sxhid n => some (.sxhid, n)
  | .sxemb n => some (.sxemb, n) | .sxkind n => some (.sxkind, n) | .sxhash n => some (.sxhash, n)
  | .collapse n => some (.collapse, n)
  | .trap n => some (.trap, n) | .brk n => some (.brk, n)
  | .krd n => some (.krd, n) | .kwr n => some (.kwr, n) | .slotw n => some (.slotw, n) | .genbump n => some (.genbump, n)
  | .regsave n => some (.regsave, n) | .regload n => some (.regload, n)
  | .fltackResume n => some (.fltack, n) | .fltackKill n => some (.fltack, n) | .fltackFailcmd n => some (.fltack, n)
  | .fltackNote n => some (.fltack, n)
  | _ => none

/-- The M or N a size code names (R228); 3 names none. -/
def mxDim (c : BitVec 2) : Nat := 8 * 2 ^ c.toNat

/-- The K granule of a format pair (R231); none where the pair is not listed. -/
def mxGranule (afmt wfmt : BitVec 3) : Option Nat :=
  match afmt.toNat, wfmt.toNat with
  | 1, 1 => some 32
  | 2, 2 => some 128 | 2, 3 => some 128 | 2, 4 => some 128
  | 3, 2 => some 128 | 3, 3 => some 128 | 3, 4 => some 128
  | 4, 2 => some 128 | 4, 3 => some 128 | 4, 4 => some 128
  | _, _ => none

/-- Whether a token passes the checks of R228–R231 that depend on it alone; the failing field's lowest bit otherwise (R230).
`mm` is true for MMA and MMAZ. -/
def MxTok.check (mm drain : Bool) (t : MxTok) : Option Nat :=
  if t.mc == 3#2 then some 2
  else if t.nc == 3#2 then some 4
  else if mm then
    if t.afmt.toNat == 0 || 5 ≤ t.afmt.toNat then some 13
    else if t.wfmt.toNat == 0 || 5 ≤ t.wfmt.toNat then some 16
    else match mxGranule t.afmt t.wfmt with
      | none => some 13
      | some g =>
        if (t.kg.toNat + 1) * g > 4096 then some 6
        else if t.acc then some 19
        else if t.epi != 0#5 then some 20
        else if t.afeed && t.aoff != 0#12 then some 25
        else if t.wfeed && t.woff != 0#13 then some 37
        else none
  else
    if t.kg != 0#7 then some 6
    else if t.afmt != 0#3 then some 13
    else if t.wfmt != 0#3 then some 16
    else if t.acc && !drain then some 19
    else if t.epi != 0#5 && !drain then some 20
    else if t.aoff != 0#12 then some 25
    else if t.woff != 0#13 then some 37
    else if t.afeed then some 60
    else if t.wfeed then some 61
    else none

/-- The static checks of one epilogue word (R243): a CVT's fields and an ACT's kind. -/
def Instr.epiOk : Instr → Bool
  | .epiAct k => k.toNat ≤ 3
  | .epiCvt s r d =>
    (match d.toNat with
     | 0 => s == 0#1 && r == 0#2
     | 1 => s == 0#1
     | 2 => true
     | 4 => true
     | _ => false)
  | _ => true

/-- A command header within the table of R191. -/
def CmdHdr.ok (h : CmdHdr) : Bool := h.scope.toNat ≤ 4

/-- Instructions that a word of the spec encodes and that pass the checks on the word alone. -/
def Instr.wellFormed (i : Instr) : Bool :=
  match i.node? with
  | some (o, n) => (o.check n).isNone && o.instr n == i
  | none =>
    match i with
    | .mma t | .mmaz t => (t.check true false).isNone
    | .clr t => (t.check false false).isNone
    | .drain t => (t.check false true).isNone
    | .travrd c | .travwr c | .travmc c | .copy c | .gather c | .scatter c | .fill c | .allred c | .allgath c
    | .redscat c | .xsend c | .xrecv c | .sample c | .argmax c | .pgalloc c | .pgfree c | .pgfork c | .pgappend c
    | .pgcommit c | .pgtrunc c | .pgstat c | .admission c | .batch c | .retire c | .egress c | .logapp c | .pfxmatch c
    | .replay c | .migout c | .migin c => c.hdr.ok
    | _ => i.epiOk

end Sys2Proof
end

