-- ==== Sys2Proof/Machine/Float.lean ====
section
/-!
DEFINITION. Binary floating point: exact values, one rounding, and the elementary functions of R53
(R50–R53, R65). An exact finite value is (−1)^neg × m × 2^e; an approximation carries a sticky flag that says the true value
lies strictly between m and m + 1 units.
-/
namespace Sys2Proof.Machine

/-- The rounding modes of R51. -/
inductive Rnd where
  | rne | rtz | rup | rdn
deriving DecidableEq, Repr, Inhabited

def Rnd.ofCode (c : Nat) : Rnd :=
  match c % 4 with
  | 0 => .rne | 1 => .rtz | 2 => .rup | _ => .rdn

/-- (−1)^neg × m × 2^e; a zero keeps its sign. -/
structure Dy where
  neg : Bool
  m : Nat
  e : Int
deriving DecidableEq, Repr, Inhabited

/-- A floating-point value: every NaN is one (R50). -/
inductive Val where
  | nan
  | inf (neg : Bool)
  | fin (d : Dy)
deriving DecidableEq, Repr, Inhabited

/-- Fraction bits of f32 and of bf16 (R50). -/
def fracBits (t : Ty) : Nat := if t == .bf16 then 7 else 23

/-- The value of f32 or bf16 bits with `mb` fraction bits (R50). -/
def Val.ofBits (mb x : Nat) : Val :=
  let s := (x >>> (mb + 8)) % 2 == 1
  let ex := (x >>> mb) % 256
  let f := x % 2 ^ mb
  if ex = 255 then (if f = 0 then .inf s else .nan)
  else if ex = 0 then .fin ⟨s, f, -126 - (mb : Int)⟩
  else .fin ⟨s, 2 ^ mb + f, (ex : Int) - 127 - mb⟩

/-- The canonical NaN (R50). -/
def nanBits (mb : Nat) : Nat := 255 * 2 ^ mb + 2 ^ (mb - 1)
def infBits (mb : Nat) (neg : Bool) : Nat := (if neg then 2 ^ (mb + 8) else 0) + 255 * 2 ^ mb

/-- Whether the mode moves a magnitude `k` with remainder `rem / den` (and the sticky rest) up (R51, R52). -/
def roundsUp (r : Rnd) (neg : Bool) (k rem den : Nat) (sticky : Bool) : Bool :=
  match r with
  | .rne => den < 2 * rem || (2 * rem == den && (sticky || k % 2 == 1))
  | .rtz => false
  | .rup => !neg && (rem != 0 || sticky)
  | .rdn => neg && (rem != 0 || sticky)

/-- The magnitude m × 2^(−shift) rounded to an integer. -/
def roundShift (r : Rnd) (neg : Bool) (m : Nat) (shift : Int) (sticky : Bool) : Nat :=
  if shift ≤ 0 then m * 2 ^ (-shift).toNat
  else
    let den := 2 ^ shift.toNat
    let k := m / den
    if roundsUp r neg k (m % den) den sticky then k + 1 else k

/-- The magnitude of an exact value as a code of a format with `mb` fraction bits and smallest exponent `emin`, its
exponent unbounded above (R52, R62): the code of a format's field layout. -/
def magCode (mb : Nat) (emin : Int) (r : Rnd) (d : Dy) (sticky : Bool) : Nat :=
  if d.m = 0 then (if roundsUp r d.neg 0 0 1 sticky then 1 else 0)
  else
    let q := max ((lg d.m : Int) + d.e - mb) emin
    (q - emin).toNat * 2 ^ mb + roundShift r d.neg d.m (q - d.e) sticky

/-- An exact or sticky value rounded once to f32 or bf16 (R52). -/
def Dy.toBits (mb : Nat) (r : Rnd) (d : Dy) (sticky : Bool := false) : Nat :=
  let c := magCode mb (-126 - (mb : Int)) r d sticky
  let top := 255 * 2 ^ mb
  let mag :=
    if c < top then c
    else match r with
      | .rne => top
      | .rtz => top - 1
      | .rup => if d.neg then top - 1 else top
      | .rdn => if d.neg then top else top - 1
  (if d.neg then 2 ^ (mb + 8) else 0) + mag

def Val.toBits (mb : Nat) (r : Rnd) : Val → Nat
  | .nan => nanBits mb
  | .inf n => infBits mb n
  | .fin d => d.toBits mb r

/-- A signed count of units 2^e. -/
def Dy.units (d : Dy) (e : Int) : Int :=
  let v : Nat := d.m * 2 ^ (d.e - e).toNat
  if d.neg then -(v : Int) else v

def Dy.ofUnits (zneg : Bool) (v : Int) (e : Int) : Dy :=
  if v = 0 then ⟨zneg, 0, e⟩ else ⟨v < 0, v.natAbs, e⟩

/-- The exact sum, with the sign of an exact zero of R52. -/
def Dy.add (r : Rnd) (a b : Dy) : Dy :=
  let e := min a.e b.e
  Dy.ofUnits (if a.neg = b.neg then a.neg else r == .rdn) (a.units e + b.units e) e

def Dy.mul (a b : Dy) : Dy := ⟨xor a.neg b.neg, a.m * b.m, a.e + b.e⟩

/-- a < b, a = b as exact numbers (zeros equal). -/
def Dy.lt (a b : Dy) : Bool := let e := min a.e b.e; a.units e < b.units e
def Dy.eqv (a b : Dy) : Bool := let e := min a.e b.e; a.units e == b.units e
/-- |a| < |b|. -/
def Dy.magLt (a b : Dy) : Bool := Dy.lt { a with neg := false } { b with neg := false }

def Val.neg : Val → Val
  | .nan => .nan
  | .inf n => .inf !n
  | .fin d => .fin { d with neg := !d.neg }

def Val.abs : Val → Val
  | .nan => .nan
  | .inf _ => .inf false
  | .fin d => .fin { d with neg := false }

/-- Exact sum (R52: ∞ − ∞ is NaN). -/
def Val.add (r : Rnd) : Val → Val → Val
  | .nan, _ => .nan
  | _, .nan => .nan
  | .inf a, .inf b => if a = b then .inf a else .nan
  | .inf a, _ => .inf a
  | _, .inf b => .inf b
  | .fin a, .fin b => .fin (a.add r b)

def Val.sign : Val → Bool
  | .nan => false
  | .inf n => n
  | .fin d => d.neg

def Val.isZero : Val → Bool
  | .fin d => d.m == 0
  | _ => false

def Val.isNan : Val → Bool
  | .nan => true
  | _ => false

/-- Exact product (R52: 0 × ∞ is NaN). -/
def Val.mul : Val → Val → Val
  | .nan, _ => .nan
  | _, .nan => .nan
  | .inf a, y => if y.isZero then .nan else .inf (xor a y.sign)
  | x, .inf b => if x.isZero then .nan else .inf (xor x.sign b)
  | .fin a, .fin b => .fin (a.mul b)

/-- Less-than and equality; false when either is NaN. -/
def Val.lt : Val → Val → Bool
  | .nan, _ => false
  | _, .nan => false
  | .inf a, .inf b => a && !b
  | .inf a, .fin _ => a
  | .fin _, .inf b => !b
  | .fin a, .fin b => a.lt b

def Val.eqv : Val → Val → Bool
  | .nan, _ => false
  | _, .nan => false
  | .inf a, .inf b => a == b
  | .fin a, .fin b => a.eqv b
  | _, _ => false

/-- A value multiplied by 2^k (R57: exact). -/
def Val.scale (k : Int) : Val → Val
  | .fin d => .fin { d with e := d.e + k }
  | v => v

/-- An integer as an exact value; 0 is +0. -/
def Val.ofInt (x : Int) : Val := .fin (Dy.ofUnits false x 0)

/-- Clamp to the range of an integer type of w bits (R49). -/
def clampInt (sgn : Bool) (w : Nat) (x : Int) : Int :=
  let lo : Int := if sgn then -((2 ^ (w - 1) : Nat) : Int) else 0
  let hi : Int := if sgn then ((2 ^ (w - 1) : Nat) : Int) - 1 else ((2 ^ w : Nat) : Int) - 1
  if x < lo then lo else if hi < x then hi else x

/-- A float rounded to an integer by mode, saturating; NaN gives 0 (R65). -/
def Val.toInt (r : Rnd) (sgn : Bool) (w : Nat) : Val → Int
  | .nan => 0
  | .inf n => clampInt sgn w (if n then -((2 ^ w : Nat) : Int) else ((2 ^ w : Nat) : Int))
  | .fin d =>
    if 80 < (lg d.m : Int) + d.e && d.m != 0 then
      clampInt sgn w (if d.neg then -((2 ^ w : Nat) : Int) else ((2 ^ w : Nat) : Int))
    else
      let k : Int := roundShift r d.neg d.m (-d.e) false
      clampInt sgn w (if d.neg then -k else k)

/-! The elementary functions of R53 on positive finite arguments, to `Config.elemPrec` bits. -/

/-- ⌊√n⌋, bit by bit from bit i − 1. -/
def isqrtAux (n : Nat) : Nat → Nat → Nat
  | 0, r => r
  | i + 1, r => if (r + 2 ^ i) * (r + 2 ^ i) ≤ n then isqrtAux n i (r + 2 ^ i) else isqrtAux n i r

def isqrt (n : Nat) : Nat := isqrtAux n (lg n / 2 + 1) 0

/-- A rounded approximation: value and sticky flag. -/
abbrev Approx := Dy × Bool

/-- 1 / d. -/
def Dy.recip (d : Dy) : Approx :=
  let n := 2 ^ (lg d.m + 128)
  (⟨d.neg, n / d.m, -(lg d.m + 128 : Nat) - d.e⟩, n % d.m != 0)

/-- √d for d > 0. -/
def Dy.sqrt (d : Dy) : Approx :=
  let odd := d.e % 2 == 1
  let m := (if odd then 2 * d.m else d.m) * 2 ^ 128
  let e := (if odd then d.e - 1 else d.e) - 128
  let r := isqrt m
  (⟨false, r, e / 2⟩, r * r != m)

/-- 1 / √d for d > 0. -/
def Dy.rsqrt (d : Dy) : Approx :=
  let odd := d.e % 2 == 1
  let m := if odd then 2 * d.m else d.m
  let e := if odd then d.e - 1 else d.e
  let n := 2 ^ 256
  let r := isqrt (n / m)
  (⟨false, r, -128 - e / 2⟩, r * r * m != n)

/-- Σ 2^p × t^(2k+1) / (2k+1) for k up to the fuel, t = x / 2^p: atanh t. -/
def atanhAux (p x2 : Nat) : Nat → Nat → Nat → Nat → Nat
  | 0, _, _, acc => acc
  | fuel + 1, k, t, acc => atanhAux p x2 fuel (k + 2) (t * x2 / 2 ^ p) (acc + t / k)

def atanhFix (p x : Nat) : Nat := atanhAux p (x * x / 2 ^ p) 110 1 x 0

/-- ln 2 = 2 atanh(1/3). -/
def ln2Fix (p : Nat) : Nat := 2 * atanhFix p (2 ^ p / 3)

/-- Σ 2^p × y^k / k!: exp y for 0 ≤ y < 1. -/
def expAux (p y : Nat) : Nat → Nat → Nat → Nat → Nat
  | 0, _, _, acc => acc
  | fuel + 1, k, t, acc => expAux p y fuel (k + 1) (t * y / 2 ^ p / k) (acc + t)

def expFix (p y : Nat) : Nat := expAux p y 90 1 (2 ^ p) 0

/-- 2^d. -/
def Dy.exp2 (d : Dy) : Approx :=
  let p := Config.elemPrec
  if d.m = 0 then (⟨false, 1, 0⟩, false)
  else if 9 < (lg d.m : Int) + d.e then (if d.neg then (⟨false, 1, -600⟩, true) else (⟨false, 1, 600⟩, true))
  else
    let x := d.units (-(p : Int))
    let n := x / ((2 ^ p : Nat) : Int)
    let f := (x % ((2 ^ p : Nat) : Int)).toNat
    if f = 0 then (⟨false, 1, n⟩, false)
    else (⟨false, expFix p (f * ln2Fix p / 2 ^ p), n - p⟩, true)

/-- log2 d for d > 0. -/
def Dy.log2 (d : Dy) : Approx :=
  let p := Config.elemPrec
  let l := lg d.m
  let n : Int := (l : Int) + d.e
  if d.m = 2 ^ l then (Dy.ofUnits false n 0, false)
  else
    let z := d.m * 2 ^ (p - l)
    let t := (z - 2 ^ p) * 2 ^ p / (z + 2 ^ p)
    (Dy.ofUnits false (n * ((2 ^ p : Nat) : Int) + ((2 * atanhFix p t * 2 ^ p / ln2Fix p : Nat) : Int)) (-(p : Int)), true)

/-- tanh d. -/
def Dy.tanh (d : Dy) : Approx :=
  let p := Config.elemPrec
  if d.m = 0 then (d, false)
  else if 5 < (lg d.m : Int) + d.e then (⟨d.neg, 2 ^ 64 - 1, -64⟩, true)
  else
    let y := d.m * 2 ^ (d.e + 1 + p).toNat
    let l2 := ln2Fix p
    let n := y / l2
    let e := expFix p (y % l2) * 2 ^ n
    (⟨d.neg, (e - 2 ^ p) * 2 ^ p / (e + 2 ^ p), -(p : Int)⟩, true)

/-- An approximation rounded once. DEDUCED, notes/assumptions/10.md. -/
def Approx.toBits (mb : Nat) (r : Rnd) (a : Approx) : Nat := a.1.toBits mb r a.2

/-- FRCP, FSQRT, FRSQ, FEXP2, FLOG2 and FTANH on one element (R53). -/
def frcpBits (mb : Nat) (r : Rnd) : Val → Nat
  | .nan => nanBits mb
  | .inf n => (⟨n, 0, 0⟩ : Dy).toBits mb r
  | .fin d => if d.m = 0 then infBits mb d.neg else Approx.toBits mb r d.recip

def fsqrtBits (mb : Nat) (r : Rnd) : Val → Nat
  | .nan => nanBits mb
  | .inf n => if n then nanBits mb else infBits mb false
  | .fin d => if d.m = 0 then d.toBits mb r else if d.neg then nanBits mb else Approx.toBits mb r d.sqrt

def frsqBits (mb : Nat) (r : Rnd) : Val → Nat
  | .nan => nanBits mb
  | .inf n => if n then nanBits mb else 0
  | .fin d => if d.m = 0 then infBits mb d.neg else if d.neg then nanBits mb else Approx.toBits mb r d.rsqrt

def fexp2Bits (mb : Nat) (r : Rnd) : Val → Nat
  | .nan => nanBits mb
  | .inf n => if n then 0 else infBits mb false
  | .fin d => Approx.toBits mb r d.exp2

def flog2Bits (mb : Nat) (r : Rnd) : Val → Nat
  | .nan => nanBits mb
  | .inf n => if n then nanBits mb else infBits mb false
  | .fin d => if d.m = 0 then infBits mb true else if d.neg then nanBits mb else Approx.toBits mb r d.log2

def ftanhBits (mb : Nat) (r : Rnd) : Val → Nat
  | .nan => nanBits mb
  | .inf n => (⟨n, 1, 0⟩ : Dy).toBits mb r
  | .fin d => Approx.toBits mb r d.tanh

end Sys2Proof.Machine
end

