-- ==== Sys2Proof/Decode.lean ====
section
/-!
DEFINITION. The decoder of the words the spec encodes (node words R75–R81, matrix tokens R228, epilogue words R243,
command beats R191–R192, R260), total on any bits and rejecting by name, and after it the encoder, written from the
same tables.
-/
namespace Sys2Proof

/-- Why bits are no instruction. -/
inductive Reject where
  | node (check : CfgCheck)
  | token (bit : Nat)
  | epilogue
  | command
  | length
deriving DecidableEq, Repr, Inhabited

/-- A target field (R77); none for a kind or index outside the table. -/
def decodeTarget (f : Nat) : Option Target :=
  let k := f % 128
  match f / 128 with
  | 0 => some (.slot .l k)
  | 1 => some (.slot .r k)
  | 2 => some (.slot .p k)
  | 3 => if k < 16 then some (.out k) else none
  | 4 => some (.dl k)
  | 5 => if k < 16 then some (.done k) else none
  | 6 => if k < 3 then some (.mx k) else none
  | 7 => if k = 0 then some .none else none
  | _ => none

/-- The absence policy of a code (R19). -/
def decodePolicy : Nat → Option Policy
  | 0 => some .prop | 1 => some .ident | 2 => some .fault | _ => none

/-- An extension word's fields without its reserved bits (R79). -/
def decodeExt (w : W64) : Option Ext :=
  match decodeTarget (bitsNat w 22 10), decodeTarget (bitsNat w 12 10) with
  | some c, some d => some ⟨BitVec.ofNat 32 (bitsNat w 32 32), c, d⟩
  | _, _ => none

/-- The raw fields of a node word that is followed by `e` when its X bit is set: opcode and typed word (R75). -/
def decodeNode (w : W64) (e : Option W64) : Except CfgCheck (Op × Node) :=
  match Op.ofCode (bitsNat w 56 8) with
  | none => .error .opcode
  | some op =>
    match Ty.ofCode (bitsNat w 52 4) with
    | none => .error .type
    | some ty =>
      match decodePolicy (bitsNat w 10 2) with
      | none => .error .policy
      | some pol =>
        match decodeTarget (bitsNat w 38 10), decodeTarget (bitsNat w 28 10) with
        | some a, some b =>
          let n : Node :=
            { ty := ty, mod := BitVec.ofNat 4 (bitsNat w 48 4), a := a, b := b, imm := BitVec.ofNat 16 (bitsNat w 12 16),
              pol := pol, i := bitAt w 8, aux := BitVec.ofNat 8 (bitsNat w 0 8), ext := none }
          if bitAt w 9 then
            match e with
            | none => .error .ext
            | some x =>
              match decodeExt x with
              | none => .error .target
              | some ex => if bitsNat x 0 12 = 0 then .ok (op, { n with ext := some ex }) else .error .ext
          else .ok (op, n)
        | _, _ => .error .target

/-- A node instruction from its word and the word after it (R75, R76, R84 stage 3). -/
def decodeWord (w : W64) (e : Option W64) : Except Reject Instr :=
  match decodeNode w e with
  | .error c => .error (.node c)
  | .ok (op, n) =>
    match op.check n with
    | some c => .error (.node c)
    | none => .ok (op.instr n)

/-- The fields of a matrix token (R228). -/
def decodeTokenFields (w : W64) : MxTok :=
  { mc := BitVec.ofNat 2 (bitsNat w 2 2), nc := BitVec.ofNat 2 (bitsNat w 4 2), kg := BitVec.ofNat 7 (bitsNat w 6 7),
    afmt := BitVec.ofNat 3 (bitsNat w 13 3), wfmt := BitVec.ofNat 3 (bitsNat w 16 3), acc := bitAt w 19,
    epi := BitVec.ofNat 5 (bitsNat w 20 5), aoff := BitVec.ofNat 12 (bitsNat w 25 12),
    woff := BitVec.ofNat 13 (bitsNat w 37 13), coff := BitVec.ofNat 10 (bitsNat w 50 10),
    afeed := bitAt w 60, wfeed := bitAt w 61 }

/-- The lowest bit of a token field that fails its check, or none (R230): the fields of R228 and its reserved bits. -/
def tokenFault (w : W64) : Option Nat :=
  let t := decodeTokenFields w
  let op := bitsNat w 0 2
  match t.check (op == 0 || op == 1) (op == 2) with
  | some b => some b
  | none => if bitsNat w 62 2 = 0 then none else some 62

/-- A matrix token (R228, R230). -/
def decodeToken (w : W64) : Except Reject Instr :=
  match tokenFault w with
  | some b => .error (.token b)
  | none =>
    let t := decodeTokenFields w
    match bitsNat w 0 2 with
    | 0 => .ok (.mma t)
    | 1 => .ok (.mmaz t)
    | 2 => .ok (.drain t)
    | _ => .ok (.clr t)

/-- An epilogue word (R243); reserved opcodes and nonzero bits in a field marked 0 are refused. -/
def decodeEpi (w : W16) : Except Reject Instr :=
  let x := bitsNat w 0 12
  let a := BitVec.ofNat 12 x
  let checked (i : Instr) : Except Reject Instr := if i.epiOk then .ok i else .error .epilogue
  match bitsNat w 12 4 with
  | 0x0 => if x = 0 then .ok .epiNop else .error .epilogue
  | 0x1 => if x = 0 then .ok .epiLdc else .error .epilogue
  | 0x2 => .ok (.epiAddb a)
  | 0x3 => .ok (.epiMuls a)
  | 0x4 => .ok (.epiAdda a)
  | 0x5 => if x % 256 = 0 then checked (.epiAct (BitVec.ofNat 4 (x / 256))) else .error .epilogue
  | 0x6 => .ok (.epiClamp a)
  | 0x7 =>
    if bitsNat w 7 5 = 0 then
      checked (.epiCvt (BitVec.ofNat 1 (bitsNat w 6 1)) (BitVec.ofNat 2 (bitsNat w 4 2)) (BitVec.ofNat 4 (bitsNat w 0 4)))
    else .error .epilogue
  | 0x8 => .ok (.epiBsc a)
  | 0x9 => .ok (.epiRowm a)
  | 0xA => .ok (.epiRows a)
  | 0xB => .ok (.epiSta a)
  | 0xC => if bitsNat w 4 8 = 0 then .ok (.epiSto (BitVec.ofNat 4 x)) else .error .epilogue
  | 0xD => if x = 0 then .ok .epiEnd else .error .epilogue
  | _ => .error .epilogue

/-- The command of a class and kind (R192, R260); any other pair is refused with CFG_CMD. -/
def cmdOf (cls kind : Nat) (c : Cmd) : Option Instr :=
  match cls, kind with
  | 1, 1 => some (.travrd c) | 1, 2 => some (.travwr c) | 1, 3 => some (.travmc c)
  | 2, 1 => some (.copy c) | 2, 2 => some (.gather c) | 2, 3 => some (.scatter c) | 2, 4 => some (.fill c)
  | 3, 1 => some (.allred c) | 3, 2 => some (.allgath c) | 3, 3 => some (.redscat c) | 3, 4 => some (.xsend c)
  | 3, 5 => some (.xrecv c)
  | 4, 1 => some (.sample c) | 4, 2 => some (.argmax c)
  | 5, 1 => some (.pgalloc c) | 5, 2 => some (.pgfree c) | 5, 3 => some (.pgfork c) | 5, 4 => some (.pgappend c)
  | 5, 5 => some (.pgcommit c) | 5, 6 => some (.pgtrunc c) | 5, 7 => some (.pgstat c)
  | 6, 1 => some (.admission c) | 6, 2 => some (.batch c) | 6, 3 => some (.retire c) | 6, 4 => some (.egress c)
  | 6, 5 => some (.logapp c) | 6, 6 => some (.pfxmatch c) | 6, 7 => some (.replay c) | 6, 8 => some (.migout c)
  | 6, 9 => some (.migin c)
  | _, _ => none

/-- Class and kind of a command, and its fields (R192, R260). -/
def Instr.cmd? : Instr → Option (Nat × Nat × Cmd)
  | .travrd c => some (1, 1, c) | .travwr c => some (1, 2, c) | .travmc c => some (1, 3, c)
  | .copy c => some (2, 1, c) | .gather c => some (2, 2, c) | .scatter c => some (2, 3, c) | .fill c => some (2, 4, c)
  | .allred c => some (3, 1, c) | .allgath c => some (3, 2, c) | .redscat c => some (3, 3, c) | .xsend c => some (3, 4, c)
  | .xrecv c => some (3, 5, c)
  | .sample c => some (4, 1, c) | .argmax c => some (4, 2, c)
  | .pgalloc c => some (5, 1, c) | .pgfree c => some (5, 2, c) | .pgfork c => some (5, 3, c) | .pgappend c => some (5, 4, c)
  | .pgcommit c => some (5, 5, c) | .pgtrunc c => some (5, 6, c) | .pgstat c => some (5, 7, c)
  | .admission c => some (6, 1, c) | .batch c => some (6, 2, c) | .retire c => some (6, 3, c) | .egress c => some (6, 4, c)
  | .logapp c => some (6, 5, c) | .pfxmatch c => some (6, 6, c) | .replay c => some (6, 7, c) | .migout c => some (6, 8, c)
  | .migin c => some (6, 9, c)
  | _ => none

/-- The common header of a command beat (R191). -/
def decodeHdr (w : W64) : CmdHdr :=
  { wsem := BitVec.ofNat 8 (bitsNat w 40 8), thr := BitVec.ofNat 16 (bitsNat w 24 16),
    ssem := BitVec.ofNat 8 (bitsNat w 16 8), inc := BitVec.ofNat 8 (bitsNat w 8 8),
    scope := BitVec.ofNat 3 (bitsNat w 5 3), barrier := bitAt w 4, tc := BitVec.ofNat 2 (bitsNat w 2 2) }

/-- A command beat of eight words, the header first (R191–R193): class, kind, scope and reserved bits are checked here,
the class's own words where the engine takes the command from its queue head. -/
def decodeCmd (ws : List W64) : Except Reject Instr :=
  match ws with
  | [h, w1, w2, w3, w4, w5, w6, w7] =>
    match cmdOf (bitsNat h 56 8) (bitsNat h 48 8) ⟨decodeHdr h, w1, w2, w3, w4, w5, w6, w7⟩ with
    | none => .error .command
    | some i => if (decodeHdr h).ok && bitsNat h 0 2 == 0 then .ok i else .error .command
  | _ => .error .length

/-- The 64-bit words of a bit string, the first least significant. -/
def wordsOf (w : Nat) : Nat → List W64
  | 0 => []
  | n + 1 => BitVec.ofNat 64 w :: wordsOf (w / 2 ^ 64) n

/-- The instruction in the bits of a table row: an epilogue word for up to 16 bits, a node word with its extension for
up to 128 bits, a command beat for more. -/
def decodeTableWord (nbits w : Nat) : Option Instr :=
  if nbits ≤ 16 then (decodeEpi (BitVec.ofNat 16 w)).toOption
  else if nbits ≤ 128 then
    (decodeWord (BitVec.ofNat 64 w) (some (BitVec.ofNat 64 (w / 2 ^ 64)))).toOption
  else if nbits ≤ 512 then (decodeCmd (wordsOf w 8)).toOption
  else none

/-! The encoder. -/

/-- The kind number of a target kind 0–2 (R77). -/
def SlotName.code : SlotName → Nat
  | .l => 0 | .r => 1 | .p => 2

/-- A target field (R77). -/
def Target.field : Target → Nat
  | .slot s k => s.code * 128 + k
  | .out k => 3 * 128 + k
  | .dl k => 4 * 128 + k
  | .done k => 5 * 128 + k
  | .mx k => 6 * 128 + k
  | .none => 7 * 128

/-- The policy field (R19). -/
def Policy.code : Policy → Nat
  | .prop => 0 | .ident => 1 | .fault => 2

/-- Whether a bit is set, as a number. -/
def boolNat (b : Bool) : Nat := if b then 1 else 0

/-- The node word (R75), fields placed from bit 63 down. -/
def encodeNodeWord (op : Op) (n : Node) : Nat :=
  op.code * 2 ^ 56 + n.ty.code * 2 ^ 52 + n.mod.toNat * 2 ^ 48 + n.a.field * 2 ^ 38 + n.b.field * 2 ^ 28
    + n.imm.toNat * 2 ^ 12 + n.pol.code * 2 ^ 10 + boolNat n.ext.isSome * 2 ^ 9 + boolNat n.i * 2 ^ 8 + n.aux.toNat

/-- The extension word (R79). -/
def encodeExt (e : Ext) : Nat :=
  e.imm32.toNat * 2 ^ 32 + e.c.field * 2 ^ 22 + e.d.field * 2 ^ 12

/-- The words of a node with its extension. -/
def encodeNode (op : Op) (n : Node) : List W64 :=
  BitVec.ofNat 64 (encodeNodeWord op n) ::
    (match n.ext with | some e => [BitVec.ofNat 64 (encodeExt e)] | none => [])

/-- A matrix token (R228). -/
def encodeToken (op : Nat) (t : MxTok) : Nat :=
  op + t.mc.toNat * 2 ^ 2 + t.nc.toNat * 2 ^ 4 + t.kg.toNat * 2 ^ 6 + t.afmt.toNat * 2 ^ 13 + t.wfmt.toNat * 2 ^ 16
    + boolNat t.acc * 2 ^ 19 + t.epi.toNat * 2 ^ 20 + t.aoff.toNat * 2 ^ 25 + t.woff.toNat * 2 ^ 37
    + t.coff.toNat * 2 ^ 50 + boolNat t.afeed * 2 ^ 60 + boolNat t.wfeed * 2 ^ 61

/-- A command header (R191). -/
def encodeHdr (cls kind : Nat) (h : CmdHdr) : Nat :=
  cls * 2 ^ 56 + kind * 2 ^ 48 + h.wsem.toNat * 2 ^ 40 + h.thr.toNat * 2 ^ 24 + h.ssem.toNat * 2 ^ 16
    + h.inc.toNat * 2 ^ 8 + h.scope.toNat * 2 ^ 5 + boolNat h.barrier * 2 ^ 4 + h.tc.toNat * 2 ^ 2

/-- The epilogue word of an instruction (R243). -/
def encodeEpi : Instr → Option Nat
  | .epiNop => some 0x0000
  | .epiLdc => some 0x1000
  | .epiAddb a => some (0x2000 + a.toNat)
  | .epiMuls a => some (0x3000 + a.toNat)
  | .epiAdda a => some (0x4000 + a.toNat)
  | .epiAct k => some (0x5000 + k.toNat * 256)
  | .epiClamp a => some (0x6000 + a.toNat)
  | .epiCvt s r d => some (0x7000 + s.toNat * 64 + r.toNat * 16 + d.toNat)
  | .epiBsc a => some (0x8000 + a.toNat)
  | .epiRowm a => some (0x9000 + a.toNat)
  | .epiRows a => some (0xA000 + a.toNat)
  | .epiSta a => some (0xB000 + a.toNat)
  | .epiSto k => some (0xC000 + k.toNat)
  | .epiEnd => some 0xD000
  | _ => none

/-- How an instruction is encoded: which decoder reads its words. -/
inductive Code where
  | node (ws : List W64)
  | token (w : W64)
  | epi (w : W16)
  | cmd (ws : List W64)
  | event
deriving DecidableEq, Repr, Inhabited

/-- The words of an instruction; an event has none (spec/95 lists it as a step that no word encodes). -/
def encode (i : Instr) : Code :=
  match i.node? with
  | some (op, n) => .node (encodeNode op n)
  | none =>
    match i.cmd? with
    | some (cls, kind, c) =>
      .cmd [BitVec.ofNat 64 (encodeHdr cls kind c.hdr), c.w1, c.w2, c.w3, c.w4, c.w5, c.w6, c.w7]
    | none =>
      match encodeEpi i with
      | some w => .epi (BitVec.ofNat 16 w)
      | none =>
        match i with
        | .mma t => .token (BitVec.ofNat 64 (encodeToken 0 t))
        | .mmaz t => .token (BitVec.ofNat 64 (encodeToken 1 t))
        | .drain t => .token (BitVec.ofNat 64 (encodeToken 2 t))
        | .clr t => .token (BitVec.ofNat 64 (encodeToken 3 t))
        | _ => .event

/-- The decoder that the kind of words calls for. -/
def Code.decode : Code → Except Reject Instr
  | .node [w] => decodeWord w none
  | .node [w, e] => decodeWord w (some e)
  | .node _ => .error .length
  | .token w => decodeToken w
  | .epi w => decodeEpi w
  | .cmd ws => decodeCmd ws
  | .event => .error .length

end Sys2Proof
end

