-- ==== Sys2Proof/Machine/State.lean ====
section
/-!
DEFINITION. The state of the part as plain data: beats and node slots, tiles, regions, contexts, partitions, the
part's registers, engine queues, memory, links and the module controller, with their values at reset.
Tables indexed by number are lists of (number, entry); a number without an entry stands for the entry at reset.
-/
namespace Sys2Proof.Machine

/-- The kinds of a beat (R10). -/
inductive BeatKind where
  | absent | value | meridian | control
deriving DecidableEq, Repr, Inhabited

/-- One access ordered before whatever a beat orders (R212), by its number: `cap` is the widest scope the order reaches so far,
`rd` the scope at which it leaves the tile it stands on: that of the read whose data made the order, 5 where none did. The model's own bookkeeping of the
relation ordered-before. -/
structure Ord where
  acc : Nat
  cap : Nat
  rd : Nat
deriving DecidableEq, Repr, Inhabited

/-- A beat (R10). `cov` are the accesses ordered before what depends on the beat by any path, `dcov` those that the beat covers as
a done token (R136, R137, R212). -/
structure Beat where
  kind : BeatKind
  data : Payload
  cov : List Ord
  dcov : List Ord
deriving DecidableEq, Repr, Inhabited

/-- The order that an access's own done token carries (R137, R212). -/
def Ord.full (acc : Nat) : Ord := ⟨acc, 4, 5⟩

def Beat.none : Beat := ⟨.absent, 0#512, [], []⟩
def Beat.val (d : Payload) (cov : List Ord := []) : Beat := ⟨.value, d, cov, []⟩
def Beat.mer : Beat := ⟨.meridian, 0#512, [], []⟩
/-- A CONTROL beat of a subtype, bytes 1 and up given as a number (R11). -/
def Beat.ctl (sub rest : Nat) : Beat := ⟨.control, BitVec.ofNat 512 (sub + 256 * rest), [], []⟩
def Beat.present (b : Beat) : Bool := b.kind == .value

/-- Memory as (address, byte) pairs in rising order of address, no pair holding the byte 0 that an unlisted address reads as
(R58: what zero-filled memory holds; power-on contents: notes/assumptions/1.md). -/
abbrev Memory := List Host.Cell

/-- The state a node keeps from instant to instant (R32, R107, R113–R116, R123, R176, R177, R255, R257), or, for a SLOTW that has acted, the entry it replaced, the cycle of its effect and its status (R303). -/
inductive Local where
  | idle
  | carry (h : Beat)
  | collect (beats : List Payload)
  | rowstat (count acc : Nat)
  | reord (cur prev : List Beat)
  | rowbuf (rows q : Nat)
  | rowscl (half q scale : Nat)
  | hash (beats : List Payload)
  | emb (b : Nat) (desc : Payload)
  | agen (i0 i1 i2 : Nat) (exhausted : Bool) (held : List Host.Cell)
  | slotw (old at_ status : Nat)
deriving DecidableEq, Repr, Inhabited

/-- A node slot: L, R and P of the current instant (none = UNKNOWN, R12), whether it has fired, whether a read it issued
is still owed (R171), its access count of the round (R165), whether its agent is stopped (R354). `since` is the instant of the oldest write that its
coalescing buffer holds (R139, R177), `act` how the addresses of the accesses it has issued are taken (R298), `cov` what its own state orders (R212). -/
structure NodeSt where
  l : Option Beat
  r : Option Beat
  p : Option Beat
  fired : Bool
  issued : Bool
  stopped : Bool
  passed : Bool
  seq : Nat
  loc : Local
  since : Nat
  act : Option Nat
  cov : List Ord
deriving DecidableEq, Repr, Inhabited

def NodeSt.fresh : NodeSt :=
  { l := Option.none, r := Option.none, p := Option.none, fired := false, issued := false, stopped := false, passed := false,
    seq := 0, loc := .idle, since := 0, act := Option.none, cov := [] }

/-- Instants owed to a port, by whom (0: the matrix node; else the number of a command): `count` instants from `start`; a dead
entry's instants read ABSENT (R152, R162, R197, R238, R354). -/
structure Owe where
  by_ : Nat
  start : Nat
  count : Nat
  dead : Bool
deriving DecidableEq, Repr, Inhabited

/-- An input port and its router entry (R13–R16, R152, R159, R197). -/
structure InPort where
  bind : Bind
  sampled : Bool
  fin : Ty
  fout : Ty
  rescale : Nat
  depth : Nat
  detach : Bool
  doneEdge : Bool
  group : Nat
  flight : List Beat
  buf : List Beat
  due : List Owe
  arrived : List (Nat × Beat)
  nextOwed : Nat
  held : List (Nat × Beat)
  latched : Option Beat
deriving DecidableEq, Repr, Inhabited

def InPort.fresh : InPort :=
  { bind := .unbound, sampled := false, fin := .raw, fout := .raw, rescale := 127, depth := 4, detach := false, doneEdge := false, group := 0,
    flight := [], buf := [], due := [], arrived := [], nextOwed := 0, held := [], latched := Option.none }

/-- An output port or done edge: the input ports it feeds, the write traverse that takes its beats, beats waiting for it, each with the
start cycle of the instant in which it left (R325), and, where the matrix node feeds it, the instants it owes, its output queue, and the
next instant to be sent (R77, R153, R247). `resize` are depths asked for whose CONTROL beat still waits for the beat of its instant (R131). -/
structure OutPort where
  dests : List (Nat × Nat)
  trav : Option Nat
  q : List (Nat × Beat)
  due : List Owe
  nextOwed : Nat
  discard : Bool
  resize : List (Nat × Nat)
  owedTo : Nat
  sto : List Beat
  nextSend : Nat
  merSent : Bool
deriving DecidableEq, Repr, Inhabited

def OutPort.fresh : OutPort :=
  { dests := [], trav := Option.none, q := [], due := [], nextOwed := 0, discard := false, resize := [],
    owedTo := 0, sto := [], nextSend := 0, merSent := false }

/-- A circular buffer: descriptor and counters (R146, R147), with the slots acquired and not yet published or released (R184). -/
structure CBuf where
  valid : Bool
  buf : Nat
  base : Nat
  size : Nat
  slots : Nat
  filled : Nat
  free : Nat
  wc : Nat
  rc : Nat
  acqW : List Nat
  acqR : List Nat
deriving DecidableEq, Repr, Inhabited

def CBuf.fresh : CBuf :=
  { valid := false, buf := 0, base := 0, size := 0, slots := 1, filled := 0, free := 1, wc := 0, rc := 0, acqW := [], acqR := [] }

/-- An accepted matrix token (R227, R235, R237, R242): `owed` is the instant of its completion beat (R238), `finish` 0 while it waits
for its feeds (R239), `undef` that its operands were overwritten while it ran (R236), `cov` what its beats and feeds order (R212). -/
structure MxEntry where
  word : W64
  seq : Nat
  inst : Nat
  accepted : Nat
  prog : List W16
  started : Option Nat
  finish : Nat
  owed : Nat
  owedBeats : Nat
  undef : Bool
  cov : List Ord
deriving DecidableEq, Repr, Inhabited

/-- The output kind of an epilogue row (R244). -/
inductive OutKind where
  | f32 | bf16 | narrow (t : Ty)
deriving DecidableEq, Repr, Inhabited

/-- A DRAIN in progress: row, next word, working row, output kind, block assembler, blocks completed, the block completed at
this row (R244, R246). -/
structure Drain where
  row : Nat
  pc : Nat
  v : List Nat
  kind : OutKind
  asm : List Nat
  blocks : Nat
  block : Option (List Nat × Nat)
deriving DecidableEq, Repr, Inhabited

/-- The matrix node of a tile (R227–R247). `ctl` is the beat at `mx.ctl`, of instant `ctlInst`, there since `ctlCycle`; in fixed timing its token
is accepted at cycle `ctlAt` (R237). `acov` and `wcov` are the orders of the beats in its feeds, `ccov` those of what its C-buffer holds (R212). -/
structure Mx where
  ctl : Option Beat
  ctlInst : Nat
  ctlCycle : Nat
  ctlAt : Nat
  ain : Option Beat
  win : Option Beat
  queue : List MxEntry
  nextSeq : Nat
  afeed : List Payload
  wfeed : List Payload
  acov : List (List Ord)
  wcov : List (List Ord)
  ccov : List Ord
  drain : Option Drain
  done : List MxEntry
  failed : Bool
  lastFinish : Nat
  lastBusy : Nat
  lastWasMm : Bool
deriving DecidableEq, Repr, Inhabited

def Mx.fresh : Mx :=
  { ctl := Option.none, ctlInst := 0, ctlCycle := 0, ctlAt := 0, ain := Option.none, win := Option.none, queue := [], nextSeq := 0, afeed := [],
    wfeed := [], acov := [], wcov := [], ccov := [], drain := Option.none, done := [], failed := false, lastFinish := 0, lastBusy := 0, lastWasMm := true }

/-- A block header (R72). `split` governs the reductions that R70 names, of which the spec names no element. DESIGN CHOICE, notes/assumptions/97.md. -/
structure Hdr where
  words : Nat
  dl : Nat
  lcn : Nat
  split : Nat
  acr : Bool
  det : Bool
  fxt : Bool
  priv : Bool
  keep : Bool
  restart : Nat
  abuf : Nat
  wbuf : Nat
  cbuf : Nat
  period : Nat
deriving DecidableEq, Repr, Inhabited

def Hdr.zero : Hdr :=
  { words := 0, dl := 0, lcn := 0, split := 0, acr := false, det := false, fxt := false, priv := false, keep := false,
    restart := 0, abuf := 0, wbuf := 0, cbuf := 0, period := 0 }

/-- A configuration waiting in a router's next bank for its CONFIG beat (R37, R319). -/
structure NextBank where
  leaf : Nat
  canon : Nat
  hdr : Hdr
  words : List W64
  agens : List (List W64)
  tmpls : List (List W64)
  cbufs : List CBuf
  inPorts : List (Nat × InPort)
  outs : List (Nat × OutPort)
  dones : List (Nat × OutPort)
deriving DecidableEq, Repr, Inhabited

/-- A semaphore with its sticky bit (R132) and the accesses its increments released, each with the region that released it (R136);
`cyc` is the cycle of its last operation and the `old` fields what it held before that cycle (R135). -/
structure Sem where
  value : Nat
  sticky : Bool
  rel : List (Ord × Nat)
  cyc : Nat
  oldValue : Nat
  oldSticky : Bool
  oldRel : List (Ord × Nat)
deriving DecidableEq, Repr, Inhabited

def Sem.fresh : Sem :=
  { value := 0, sticky := false, rel := [], cyc := 0, oldValue := 0, oldSticky := false, oldRel := [] }

/-- A line of a line part with its directory entry at the home slice `home` (R149, R223): what DRAM holds below it, the die that holds it Modified, the
six-bit presence vector over the dies, whether its page is HOSTSHARED, the host bit, and whether the host's copy is dirty (R225). `State.mem` holds what
the line's holders see. -/
structure Line where
  image : BitVec 1024
  owner : Option Nat
  dies : Nat
  shared : Bool
  host : Bool
  dirty : Bool
  home : Nat × Nat
deriving DecidableEq, Repr, Inhabited

/-- A tile (R7): the block loaded on it, its node slots, registers, buffers, ports and matrix node.
`marks` are the AGEN positions and the beats sent on each output port as of the start of each instant from the one after the restart
instant on (R129);
`staging` are its staging records, `abanks` and `wbanks` the banks that they do not cover (R364, R365);
`dlN`, `lcN`, `sxN` and `bufN` are writes that take effect at the end of its instant (R21, R95, R97, R126); `sems`, `dbg` and
`beginCycle` are the semaphores, the DEBUG bit and the cycle as of the start of its instant (R15, R135, R293); `mark` is the last instant in
which its restart mark fired PRESENT in this round, `restart` the last of these that has ended (R129); `droop` is an instant with a droop
beyond the guard band (R413). -/
structure Tile where
  region : Nat
  leaf : Nat
  canon : Nat
  hdr : Hdr
  words : List W64
  nodes : List NodeSt
  inst : Nat
  begun : Bool
  dl : List (Nat × Beat)
  dlN : List (Nat × Beat)
  lc : List (Nat × Nat)
  lcN : List (Nat × Nat)
  sx : List (Nat × Payload)
  sxN : List (Nat × Payload)
  bufN : List (Nat × Nat × Nat × Payload)
  w : Memory
  a : Memory
  c : Memory
  inPorts : List (Nat × InPort)
  outs : List (Nat × OutPort)
  dones : List (Nat × OutPort)
  cbufs : List CBuf
  mx : Mx
  agens : List (List W64)
  tmpls : List (List W64)
  next : Option NextBank
  staging : List (List W64)
  abanks : List Nat
  wbanks : List Nat
  errCount : Nat
  detachCount : Nat
  overrun : Bool
  droop : Option Nat
  spareDue : Bool
  spoilt : List (Nat × Nat)
  sems : List (Nat × Sem)
  dbg : Bool
  beginCycle : Nat
  marks : List (Nat × List (Nat × Local) × List (Nat × Nat))
  mark : Option Nat
  restart : Option Nat
deriving DecidableEq, Repr, Inhabited

def Tile.fresh : Tile :=
  { region := 0, leaf := 0, canon := 0, hdr := Hdr.zero, words := [], nodes := [], inst := 0, begun := false, dl := [], dlN := [],
    lc := [], lcN := [], sx := [], sxN := [], bufN := [], w := [], a := [], c := [], inPorts := [], outs := [], dones := [],
    cbufs := [], mx := Mx.fresh, agens := [], tmpls := [], next := Option.none, staging := [], abanks := [], wbanks := [], errCount := 0,
    detachCount := 0, overrun := false, droop := Option.none, spareDue := false, spoilt := [], sems := [], dbg := false,
    beginCycle := 0, marks := [], mark := Option.none, restart := Option.none }

/-- The kinds of access a round buffer holds (R165, R219). -/
inductive RbOp where
  | store
  | atom (op : Nat) (ty : Ty) (operand operand2 : Nat)
deriving DecidableEq, Repr, Inhabited

/-- A round-buffer entry (R165): granule address and the granule of its location (R335), the bytes it stores as (offset, byte), its source and ordering group,
the number of its access, whether its page is STRM or HOSTSHARED (R224, R225), and the virtual address of its first byte with the mask set that its leaf
names (R333, R337); `owned` are the offsets that lie in owned ranges (R163). -/
structure RbEntry where
  granule : Nat
  loc : Nat
  bytes : List (Nat × Byte)
  op : RbOp
  canon : Nat
  slot : Nat
  seq : Nat
  group : Nat × Nat
  access : Nat
  inst : Nat
  strm : Bool
  shared : Bool
  va : Nat
  mask : Nat
  owned : List Nat
deriving DecidableEq, Repr, Inhabited

/-- A read record (R219); `owned` as in an entry. -/
structure RdRec where
  granule : Nat
  loc : Nat
  offs : List Nat
  atomic : Bool
  canon : Nat
  slot : Nat
  seq : Nat
  group : Nat × Nat
  inst : Nat
  owned : List Nat
deriving DecidableEq, Repr, Inhabited

/-- An ownership-list entry with its current owner and the owner a HANDOVER beat is on its way to (R163, R164, R182). -/
structure OwnRange where
  start : Nat
  len : Nat
  owners : List Nat
  cur : Nat
  moving : Bool
deriving DecidableEq, Repr, Inhabited

/-- A write that left a line Modified in a line part: its access, tile, instant and line (R139, R226). -/
structure WrRec where
  access : Nat
  tile : Nat
  inst : Nat
  line : Nat
deriving DecidableEq, Repr, Inhabited

/-- What a region is doing (R26, R27, R350, R361, R362). -/
inductive RegPhase where
  | off | running | stopped | suspended
deriving DecidableEq, Repr, Inhabited

/-- A leaf of the kernel that the region runs (R187, R188). -/
structure Leaf where
  block : Nat
  inst : Nat
  agens : Nat
  tmpls : Nat
  agenTab : Nat
  tmplTab : Nat
  cbs : List Nat
  firstCanon : Nat
deriving DecidableEq, Repr, Inhabited

/-- How far an engine command is. -/
inductive CmdPhase where
  | queued | checked | started | performed | stopped | refused | faulted
deriving DecidableEq, Repr, Inhabited

/-- A command in an engine's queue or started (R190, R195–R197, R354). `actx` is how its addresses are taken (R298); `pos`, `row`,
`acq` and `cut` are its progress: the element, byte or index reached, bytes gathered, slots acquired, branches cut; `first` the first
instant owed on its endpoint, `lanes` lanes 2 and up of its completion beat; `mark` bit 0: a patch lane 1 on a class that has none (R190),
bit 1: set up, bit 2: reported late (R41), bit 3: a collective that has begun, bit 4: announced to the group's other parts, bit 5: its source sent to them, bit 6: past
the staging records of its tile (R365), bit 7: the beat in its window has an uncorrectable error (R357); `since` is the cycle from which a fork holds its beat (R161); `kept` are the beats that it has delivered to ports, by number: a
rewound stream delivers these again (R250, R366); `head` and `tail` are its window's registers: the bytes that fills and deliveries, or write-backs,
have moved them by (R149); `beats`, `delay`, `extra` and `host` are B, D, the chain's stages and whether a host page was touched (R325). -/
structure CmdSt where
  uid : Nat
  issue : Nat
  region : Nat
  gen : Nat
  tile : Nat
  canon : Nat
  slot : Nat
  inst : Nat
  words : List W64
  actx : Option Nat
  cov : List Ord
  cport : Option Nat
  bound : Bool
  phase : CmdPhase
  cycle : Nat
  pos : Nat
  bytes : Nat
  first : Nat
  lanes : List Nat
  row : List Byte
  acq : List Nat
  mark : Nat
  reason : Nat
  cut : List Nat
  beats : Nat
  delay : Nat
  extra : Nat
  host : Bool
  since : Nat
  kept : List (Nat × Payload)
  head : Nat
  tail : Nat
deriving DecidableEq, Repr, Inhabited

/-- A part of a kernel tree that runs as a whole: the leaves of a `streamed` controller, or one leaf outside one; `pre` are the groups
that must have ended before it (R34). -/
structure Group where
  leaves : List Nat
  streamed : Bool
  pre : List Nat
deriving DecidableEq, Repr, Inhabited

/-- A region: its registers (R294, R362), the launch it serves and an invocation that it runs. A launch may run several invocations at a
time (R29, R34, R318): the further ones of region g have entries of their own, numbered g + 1024, g + 2048, …, which repeat what the launch
gives. `plan`, `begunG`, `doneG`, `waiting`, `ages`, `doneInv` and `allTiles` stand in g's own entry: the groups of the kernel tree, those begun and ended, the
waiting instances (leaf, index), the leaves' ages, their completed invocations (R35, R127), the region's tiles, and the exit code so far with its group and canonical tile. `tiles` are those of the
entry's invocation, `group` its group. `issued` lists the context's commands since the
invocation began: queue, and one past this entry's instant then, 0 for the invocation's own bindings (R190, R366); `unbound` are bindings that wait for room in
their queues (R194, R421); `tilesOwn` says that REGTILES is as the loader wrote it (R317); `stallLim` and `preLim` are the limits that the watchdog's last restart and the last request to pre-empt found (R293); `childTab` are the kernel's child table entries (R189); `parked` and `parkedCmds` are
its tiles and stream commands since REGSAVE, with what the save area's layout has no place for (R369); `past` are streams that have completed and may have to be rewound (R366). -/
structure Region where
  gen : Nat
  ctx : Nat
  valid : Bool
  susp : Bool
  tilesAddr : Nat
  tilesOwn : Bool
  canon : Nat
  inst : Nat
  stale : Nat
  req : Bool
  gated : Bool
  busy : Bool
  form : Bool
  reqCycle : Nat
  preLim : Nat
  phase : RegPhase
  launch : Nat
  tiles : List Nat
  allTiles : List Nat
  leaves : List Leaf
  plan : List Group
  begunG : List Nat
  doneG : List Nat
  group : Nat
  waiting : List (Nat × Nat)
  ages : List (Nat × Nat)
  doneInv : List (Nat × Nat)
  cfg : ChanCfg
  round : Nat
  roundBase : Nat
  roundCycle : Nat
  ended : Option Nat
  ending : Bool
  exit : Nat × Nat × Nat
  exitOf : Nat × Nat × Nat
  lastFire : Nat
  stallLim : Nat
  firedInst : Bool
  entries : List RbEntry
  reads : List RdRec
  owners : List OwnRange
  groups : List ((Nat × Nat) × (Nat × Nat))
  late : List Nat
  wrote : List WrRec
  preempted : Bool
  detached : Bool
  sumInst : Nat
  saved : Option Nat
  brkAt : Option Nat
  killed : Bool
  issued : List (Nat × Nat)
  unbound : List (Nat × List W64)
  childTab : List (List Nat)
  parked : List (Nat × Tile)
  parkedCmds : List (Nat × CmdSt)
  past : List (Nat × CmdSt)
deriving DecidableEq, Repr, Inhabited

def Region.fresh : Region :=
  { gen := 0, ctx := 0, valid := false, susp := false, tilesAddr := 0, tilesOwn := false, canon := 1, inst := 0, stale := 0, req := false,
    gated := false, busy := false, form := false, reqCycle := 0, preLim := 2000000, phase := .off, launch := 0, tiles := [], allTiles := [],
    leaves := [], plan := [], begunG := [], doneG := [], group := 0, waiting := [], ages := [], doneInv := [], cfg := ⟨[], [], [], []⟩, round := 0,
    roundBase := 0, roundCycle := 0, ended := Option.none, ending := false, exit := (0, 0, 0), exitOf := (0, 0, 0),
    lastFire := 0, stallLim := 2 ^ 24, firedInst := false, entries := [], reads := [], owners := [], groups := [],
    late := [], wrote := [], preempted := false, detached := false, sumInst := 0, saved := Option.none,
    brkAt := Option.none, killed := false, issued := [], unbound := [], childTab := [], parked := [], parkedCmds := [], past := [] }

/-- A command queue of one engine for one context (R194). The engine number is lane 0 of SLOTW (R303). `turn` is the place among the started commands, in
start order, from which the next one to advance is sought (R320); `count` the commands that the migration agent has put into it, which is their issue
number. -/
structure Queue where
  entries : List CmdSt
  started : List CmdSt
  turn : Nat
  count : Nat
deriving DecidableEq, Repr, Inhabited

def Queue.fresh : Queue := ⟨[], [], 0, 0⟩

/-- A context: its registers (R291, R292, R322, R358), semaphores, engine queues and child launches (R316). -/
structure Ctx where
  fxt : Bool
  relaxed : Bool
  debug : Bool
  qstall : Nat
  rbquota : Nat
  plim : Nat
  state : Nat
  fltpend : Bool
  part : Nat
  ptroot : Nat
  ptv : Bool
  seqbase : Nat
  seqsize : Nat
  pooltab : Nat
  egrtab : Nat
  egrcnt : Nat
  kvpunit : Nat
  colgrp : List (Nat × Nat)
  engshare : Nat
  flogbase : Nat
  flogctl : Nat
  flogCount : Nat
  sems : List (Nat × Sem)
  queues : List (Nat × Queue)
  childq : List (Nat × List Nat)
  childRun : List (Nat × Nat)
  childNo : Nat
  kvpHeld : Bool
deriving DecidableEq, Repr, Inhabited

def Ctx.fresh : Ctx :=
  { fxt := false, relaxed := false, debug := false, qstall := 0, rbquota := 0, plim := 0, state := 0, fltpend := false,
    part := 0, ptroot := 0, ptv := false, seqbase := 0, seqsize := 0, pooltab := 0, egrtab := 0, egrcnt := 0, kvpunit := 0,
    colgrp := [], engshare := 0, flogbase := 0, flogctl := 0, flogCount := 0, sems := [], queues := [], childq := [],
    childRun := [], childNo := 0, kvpHeld := false }

/-- The control context: elastic, RELAXED, fixed (R293, R296). Its state is not FREE: RUNNING. -/
def Ctx.control : Ctx := { Ctx.fresh with relaxed := true, state := 2 }

/-- The TDISP states (R375). -/
inductive Tdisp where
  | unlocked | locked | run | error
deriving DecidableEq, Repr, Inhabited

/-- The scheduler's copy of a submission queue (R308, R313, R315), with the copy of the record at its head: no words where it could not be read (R309). -/
structure SubQ where
  d0 : W64
  d1 : W64
  started : Nat
  status : Nat
  passes : Nat
  pinned : Bool
  completed : Nat
  running : List Nat
  head : Option (List Nat)
deriving DecidableEq, Repr, Inhabited

def SubQ.fresh : SubQ := ⟨0#64, 0#64, 0, 4, 0, false, 0, [], Option.none⟩

/-- A memory range register (R374), its key (none: keyless; else the number of the key draw) (R376, R377). -/
structure Pmem where
  v : Bool
  far : Bool
  base : Nat
  count : Nat
  zero : Bool
  key : Option Nat
deriving DecidableEq, Repr, Inhabited

def Pmem.fresh : Pmem := ⟨false, false, 0, 0, false, Option.none⟩

/-- A mask set: the eight applied masks, the staged ones, spread and HOLD (R334, R336). -/
structure MaskSet where
  masks : List Nat
  staged : List Nat
  spread : Nat
  hold : Bool
deriving DecidableEq, Repr, Inhabited

/-- Bit 7 for the pseudo-channel, bits 8–12 for the channel, nothing for the stack (R334). -/
def MaskSet.fresh : MaskSet :=
  let m := [2 ^ 7, 2 ^ 8, 2 ^ 9, 2 ^ 10, 2 ^ 11, 2 ^ 12, 0, 0]
  ⟨m, m, 0, false⟩

/-- A partition (R290, R307, R334, R374, R375). -/
structure Part where
  dies : Nat
  tiles : Nat
  tdisp : Tdisp
  sqtab : Nat
  sqen : Nat
  queues : List (Nat × SubQ)
  lastStart : List (Nat × Nat)
  suspended : List Nat
  masks : List (Nat × MaskSet)
  pmem : List (Nat × Pmem)
  report : List Byte
deriving DecidableEq, Repr, Inhabited

def Part.fresh : Part :=
  { dies := 0, tiles := 0, tdisp := .unlocked, sqtab := 0, sqen := 0, queues := [], lastStart := [], suspended := [],
    masks := [], pmem := [], report := [] }

/-- The agent a fault record names as stopped (R349, R350, R354). -/
inductive Agent where
  | none
  | region (r : Nat)
  | node (tile slot : Nat)
  | command (ctx eng uid : Nat)
  | unit (ctx eng uid : Nat)
deriving DecidableEq, Repr, Inhabited

/-- A fault record: its eight words (R352, R353), the agent and the region it names, and the cycle of its detection. -/
structure FltRec where
  words : List W64
  agent : Agent
  region : Option Nat
  cycle : Nat
deriving DecidableEq, Repr, Inhabited

/-- Where a launch came from (R308, R316, R299). -/
inductive Source where
  | queue (part q k : Nat)
  | child (ctx level entry : Nat)
  | psq (k : Nat)
deriving DecidableEq, Repr, Inhabited

/-- How far a launch is (R311, R312). -/
inductive LaunchPhase where
  | waiting | started | running | ended | refused | killed | complete
deriving DecidableEq, Repr, Inhabited

/-- A launch (R310, R312). -/
structure Launch where
  src : Source
  ctx : Nat
  level : Nat
  kernel : Nat
  args : Nat
  count : Nat
  want : Nat
  barrier : Bool
  crec : Nat
  csem : Nat
  cinc : Nat
  tag : Nat
  phase : LaunchPhase
  region : Nat
  exit : Nat
  cls : Nat
  detached : Bool
  preempted : Bool
  instants : Nat
  detail : Nat
  need : Nat
  order : Nat
  bad : Bool
deriving DecidableEq, Repr, Inhabited

/-- A slot-table entry (R303). -/
structure Slot where
  ctx : Nat
  v : Bool
  rsv : Bool
  wc : Bool
deriving DecidableEq, Repr, Inhabited

def Slot.fresh : Slot := ⟨0, false, false, false⟩

/-- An engine's slot table: the entries in force and those that take effect at the next table round (R303, R320); `last` is one past the cycle in which the
engine last advanced or started a command. -/
structure Table where
  now : List (Nat × Slot)
  next : List (Nat × Slot)
  cycle : Nat
  last : Nat
deriving DecidableEq, Repr, Inhabited

def Table.fresh : Table := ⟨[], [], 0, 0⟩

/-- A cached translation (R331). -/
structure TEntry where
  die : Nat
  ctx : Nat
  page : Nat
  bits : Nat
  entry : Nat
deriving DecidableEq, Repr, Inhabited

/-- What waits for a span link, or has left on it and is not yet acknowledged: sequence number, channel, partition, route word and at most
four beats, and how often it has been replayed (R390–R392). -/
structure TxFlit where
  seq : Nat
  vc : Nat
  partition : Nat
  route : Nat
  beats : List Payload
  replays : Nat
deriving DecidableEq, Repr, Inhabited

/-- A slot that MIGOUT has written an image of (R382): its number, its context and slot, where the image stands and its beats, and the part it has been
sent to. -/
structure Departure where
  no : Nat
  ctx : Nat
  slot : Nat
  image : Nat
  beats : Nat
  peer : Option Nat
deriving DecidableEq, Repr, Inhabited

/-- A MIGIN that the migration agent has issued for an image of a peer (R382): the command, the peer, and the image's number there. -/
structure Arrival where
  uid : Nat
  peer : Nat
  no : Nat
deriving DecidableEq, Repr, Inhabited

/-- A flit delivered in order: its channel and partition, the region of its route, and its beats (R373, R390, R394). -/
structure RxFlit where
  vc : Nat
  partition : Nat
  region : Nat
  beats : List Payload
deriving DecidableEq, Repr, Inhabited

/-- A span link (R390–R393): `txSeq` and `rxSeq` are the next sequence numbers to send and to receive, `replay` the unacknowledged flits,
`resend` how many of them, from the end, are yet to be replayed, `naking` that a NAK is owed, `ready` the peer's ready bits, `dropped` the flits
dropped and counted, `todo` what waits to be sent, `sent` the flits put on the wire as bytes, `got` the flits delivered. -/
structure LinkSt where
  en : Bool
  peer : Nat
  peerLink : Nat
  up : Bool
  degraded : Bool
  txSeq : Nat
  replay : List TxFlit
  resend : Nat
  rxSeq : Nat
  naking : Bool
  ready : Nat
  dropped : Nat
  todo : List TxFlit
  sent : List (List Byte)
  got : List RxFlit
deriving DecidableEq, Repr, Inhabited

def LinkSt.fresh : LinkSt :=
  { en := false, peer := 0, peerLink := 0, up := false, degraded := false, txSeq := 0, replay := [], resend := 0, rxSeq := 0,
    naking := false, ready := 0, dropped := 0, todo := [], sent := [], got := [] }

/-- What an SE knows of the refresh of the channel group that it owns in a near stack and the far stack behind it (R338, R399–R401): the cycle of
the last heartbeat, whether it has taken over, and by which heartbeat's loss (`lost` is the cycle of the last one before it), whether the BMS has been reset
since, the consecutive heartbeats since then, and the refreshes issued to each pseudo-channel of the group: bit 0 of the number is the
pseudo-channel, bit 1 the channel's, bit 2 far. Times are in cycles of 1 ns. -/
structure Refresher where
  lastBeat : Nat
  takeover : Bool
  lost : Nat
  resetting : Bool
  beats : Nat
  issued : List Nat
deriving DecidableEq, Repr, Inhabited

def Refresher.fresh : Refresher :=
  { lastBeat := 0, takeover := false, lost := 0, resetting := false, beats := 0, issued := List.replicate 8 0 }

/-- A near stack with its base die and the far stack behind it (R395–R404): MEMCTL's bits, and the 16 SEs that own its channels. Entries 12–23 stand for the far stacks, of which only the
last two fields are used: the rows repaired, and the channel replaced by the stack's spare (R404, R405). -/
structure Stack where
  mscen : Bool
  walloc : Bool
  farbyp : Bool
  alive : Bool
  throttle : Nat
  rpthr : Nat
  owners : List (Nat × Refresher)
  repaired : List Nat
  spareChannel : Option Nat
deriving DecidableEq, Repr, Inhabited

def Stack.fresh : Stack :=
  { mscen := true, walloc := true, farbyp := false, alive := true, throttle := 0, rpthr := 0, owners := [],
    repaired := [], spareChannel := Option.none }

/-- What the module controller, the mailbox and the host ports answered last: plain outputs of the part. -/
structure Outputs where
  host : List Byte
  window : Nat
  tdisp : List Nat
  mailbox : List Byte
  brk : List (Nat × Nat × Nat × Nat)
deriving DecidableEq, Repr, Inhabited

/-- The next agent to move: a node slot, the epilogue word or token of a matrix node, an engine's command, or an event. -/
inductive Act where
  | node (tile slot : Nat)
  | epi (tile : Nat)
  | token (tile : Nat)
  | cmd (ctx eng uid : Nat)
  | event (i : Instr)
deriving DecidableEq, Repr, Inhabited

/-- A move: the cycles that pass before it, and who moves. -/
structure Move where
  dt : Nat
  act : Act
deriving DecidableEq, Repr, Inhabited

/-- The state of the part. `mem` is keyed by location: the physical address that reaches it under the reset interleave masks (R335).
`wiped` are ranges (first byte, byte after the last, salt) whose DRAM was written under a destroyed key (R377): there `mem` holds
what is read XOR a free byte; salt 0 marks a range zeroed since. `counts` are the beat requests of each pseudo-channel, by the SE that owns its channel (R346). `tags` are granules last written under another key than that of the range that holds their
location, each with that key's number (R335, R376). `dcwait` are dies whose DCSPLIT waits to take a new split (R398). -/
structure State where
  -- the model's own bookkeeping
  agenda : List Move
  tick : Nat
  cursor : Act
  cycle : Nat
  accessNo : Nat
  uidNo : Nat
  -- fabric
  tiles : List (Nat × Tile)
  regions : List (Nat × Region)
  -- contexts, partitions, launches
  ctxs : List (Nat × Ctx)
  parts : List (Nat × Part)
  launches : List (Nat × Launch)
  tables : List (Nat × Table)
  -- part registers
  bootstat : Nat
  copyB : Bool
  recovery : Bool
  reloads : Nat
  fqbase : Nat
  fqsize : Nat
  fqhead : Nat
  fqtail : Nat
  fqdrop : Nat
  partid : Nat
  hrobase : Nat
  hrov : Bool
  clkCeil : Nat
  clkForce : Nat
  pwrCap : Nat
  thermal : Nat
  spanroute : List (Nat × Nat)
  lifesel : Nat
  life : List (Nat × Nat)
  lifeFlash : List (Nat × Nat)
  actctx : List (Nat × Nat)
  dcsplit : List (Nat × Nat)
  dcwait : List (Nat × Nat)
  psqN : Nat
  psqBase : Nat
  psqPost : Nat
  psqDone : Nat
  psqBusy : Bool
  -- faults
  held : List FltRec
  fq : List FltRec
  await : Option (Nat × Nat × Nat)
  -- memory
  mem : Memory
  tags : List (Nat × Nat)
  lines : List (Nat × Line)
  wiped : List (Nat × Nat × Nat)
  tcache : List TEntry
  badBeats : List Nat
  counts : List (Nat × Nat)
  -- links, memory system, module controller
  links : List (Nat × LinkSt)
  sessions : List (Nat × BitVec 256)
  departures : List Departure
  arrivals : List Arrival
  memStacks : List (Nat × Stack)
  mr : List (Nat × Nat)
  keyNo : Nat
  recordA : List Byte
  recordB : List Byte
  lanes : List (Nat × Nat)
  ways : List (Nat × Nat)
  overMs : Nat
  holdFxt : Bool
  ctlHalt : Bool
  hotHold : Bool
  out : Outputs
deriving DecidableEq, Repr, Inhabited

/-- Reasons the model stops with a fault of its own. -/
inductive Fault where
  /-- A step reached an address that no range of the physical map holds, with no agent of the part to take a translation
  fault for it. Raised by nothing that a program can do; safe. -/
  | noAddress
deriving DecidableEq, Repr, Inhabited

/-- Reasons the model refuses a step. -/
inductive Refusal where
  /-- The step has no meaning in this model yet; raised by an arm of exec only; safe. -/
  | notModelled (mnemonic : String)
  /-- The bits under the cursor are no instruction (R84 refuses such a block at load, so no loaded block holds one); raised by
  the fetch of step; safe. -/
  | noInstruction (why : Reject)
deriving DecidableEq, Repr, Inhabited

/-- The state right after power-on, before BOOT (R408): every register at its reset value. DESIGN CHOICE, notes/assumptions/42.md. -/
def State.reset : State :=
  { agenda := [], tick := 0, cursor := .event .lifeFlush, cycle := 0, accessNo := 1, uidNo := 1,
    tiles := [], regions := [], ctxs := [(0, Ctx.control)], parts := [], launches := [], tables := [],
    bootstat := 0, copyB := false, recovery := false, reloads := 0,
    fqbase := 0, fqsize := 8, fqhead := 0, fqtail := 0, fqdrop := 0, partid := 0, hrobase := 0, hrov := false,
    clkCeil := 140, clkForce := 140, pwrCap := 3000, thermal := 0, spanroute := [], lifesel := 0, life := [], lifeFlash := [],
    actctx := [], dcsplit := [], dcwait := [], psqN := 2, psqBase := 0, psqPost := 0, psqDone := 0, psqBusy := false,
    held := [], fq := [], await := Option.none, mem := [], tags := [], lines := [], wiped := [], tcache := [], badBeats := [], counts := [],
    links := [], sessions := [], departures := [], arrivals := [], memStacks := [], mr := [], keyNo := 0, recordA := [], recordB := [], lanes := [], ways := [], overMs := 0,
    holdFxt := false, ctlHalt := false, hotHold := false,
    out := { host := [], window := 0, tdisp := [], mailbox := [], brk := [] } }

end Sys2Proof.Machine

namespace Sys2Proof.Config

/-- Which agent moves next when the agenda is empty, and after how many cycles: the order of firing and of the agents is the
part's (R18, R46). DESIGN CHOICE, notes/assumptions/2.md. -/
opaque schedule : Nat → Sys2Proof.Machine.Move

end Sys2Proof.Config
end

