-- ==== Sys2Proof/Machine/Ops.lean ====
section
/-!
DEFINITION. The named operations over tables, memory, payloads, tiles, regions, contexts and semaphores, and taking a
fault: building its record and stopping what it names (R349–R353), the one operation that every detector calls.
-/
namespace Sys2Proof.Machine

/-! Tables. -/

/-- The entry of a number in a table, or the given one. -/
def tget {α : Type} (d : α) : List (Nat × α) → Nat → α
  | [], _ => d
  | (j, w) :: l, k => if j = k then w else tget d l k

def tget? {α : Type} : List (Nat × α) → Nat → Option α
  | [], _ => none
  | (j, w) :: l, k => if j = k then some w else tget? l k

/-- A table with one entry replaced or inserted in ascending order. -/
def tset {α : Type} : List (Nat × α) → Nat → α → List (Nat × α)
  | [], k, v => [(k, v)]
  | (j, w) :: l, k, v => if k < j then (k, v) :: (j, w) :: l else if k = j then (k, v) :: l else (j, w) :: tset l k v

def tdel {α : Type} : List (Nat × α) → Nat → List (Nat × α)
  | [], _ => []
  | (j, w) :: l, k => if j = k then tdel l k else (j, w) :: tdel l k

/-- The element of a list at a place, replaced. -/
def lset {α : Type} : List α → Nat → α → List α
  | [], _, _ => []
  | _ :: l, 0, v => v :: l
  | x :: l, i + 1, v => x :: lset l i v

/-- Removal of the first occurrence. -/
def ldrop (l : List Nat) (x : Nat) : List Nat := l.erase x

def lunion {α : Type} [BEq α] (a b : List α) : List α := a ++ b.filter fun x => !a.contains x

/-! Memory. -/

/-- The canonical form: addresses strictly rising, no pair holding 0. -/
def Memory.wfFrom : Nat → Memory → Bool
  | _, [] => true
  | lo, (a, b) :: m => lo ≤ a && b != 0#8 && Memory.wfFrom (a + 1) m

def Memory.wf (m : Memory) : Bool := Memory.wfFrom 0 m

/-- One byte; an unlisted address reads as 0. -/
def Memory.read (m : Memory) (a : Nat) : Byte := tget 0#8 m a

def Memory.write (m : Memory) (a : Nat) (b : Byte) : Memory := if b = 0#8 then tdel m a else tset m a b

/-- Bytes a, a + 1, … -/
def Memory.readN (m : Memory) : Nat → Nat → List Byte
  | _, 0 => []
  | a, n + 1 => m.read a :: Memory.readN m (a + 1) n

def Memory.writeN (m : Memory) : Nat → List Byte → Memory
  | _, [] => m
  | a, b :: bs => Memory.writeN (m.write a b) (a + 1) bs

/-- Bytes as a little-endian number (R2). -/
def leNat : List Byte → Nat
  | [] => 0
  | b :: bs => b.toNat + 256 * leNat bs

/-- The low n bytes of a number, little-endian (R2). -/
def leBytes : Nat → Nat → List Byte
  | 0, _ => []
  | n + 1, x => BitVec.ofNat 8 x :: leBytes n (x / 256)

def Memory.readNat (m : Memory) (a n : Nat) : Nat := leNat (m.readN a n)

/-! Payloads (R10, R47). -/

def payBytes (n : Nat) (x : Payload) : List Byte := leBytes n x.toNat
def payOf (bs : List Byte) : Payload := BitVec.ofNat 512 (leNat bs)

def elemsAux (w : Nat) : Nat → Nat → List Nat
  | 0, _ => []
  | n + 1, x => x % 2 ^ w :: elemsAux w n (x / 2 ^ w)

/-- The first n elements of w bits (R47). -/
def elems (w n : Nat) (x : Payload) : List Nat := elemsAux w n x.toNat

def packNat (w : Nat) : List Nat → Nat
  | [] => 0
  | e :: es => e % 2 ^ w + 2 ^ w * packNat w es

def pack (w : Nat) (es : List Nat) : Payload := BitVec.ofNat 512 (packNat w es)

/-- The elements of a beat of a type (R47). -/
def tyElems (t : Ty) (x : Payload) : List Nat := elems t.bits t.elems x
def tyPack (t : Ty) (es : List Nat) : Payload := pack t.bits es
/-- Every element of a beat. -/
def tySplat (t : Ty) (e : Nat) : Payload := pack t.bits (List.replicate t.elems e)

def lane32 (x : Payload) (i : Nat) : Nat := bitsNat x (32 * i) 32
def lane64 (x : Payload) (i : Nat) : Nat := bitsNat x (64 * i) 64
def lanes64 (xs : List Nat) : Payload := pack 64 xs
def lanes32 (xs : List Nat) : Payload := pack 32 xs
/-- Every 32-bit lane. -/
def splat32 (x : Nat) : Payload := pack 32 (List.replicate 16 x)

/-! CRC-32C (R72): reflected polynomial 0x82F63B78. -/

def crcBit (c : Nat) : Nat := if c % 2 = 1 then (c / 2) ^^^ 0x82F63B78 else c / 2
def crcByte (c : Nat) (b : Byte) : Nat :=
  crcBit (crcBit (crcBit (crcBit (crcBit (crcBit (crcBit (crcBit (c ^^^ b.toNat))))))))
def crc32c (bs : List Byte) : Nat := (bs.foldl crcByte 0xFFFFFFFF) ^^^ 0xFFFFFFFF

/-! Accessors. -/

def State.tile (s : State) (t : Nat) : Tile := tget Tile.fresh s.tiles t
def State.setTile (s : State) (t : Nat) (x : Tile) : State := { s with tiles := tset s.tiles t x }
def State.region (s : State) (r : Nat) : Region := tget Region.fresh s.regions r
def State.setRegion (s : State) (r : Nat) (x : Region) : State := { s with regions := tset s.regions r x }
def State.ctx (s : State) (c : Nat) : Ctx := tget (if c = 0 then Ctx.control else Ctx.fresh) s.ctxs c
def State.setCtx (s : State) (c : Nat) (x : Ctx) : State := { s with ctxs := tset s.ctxs c x }
def State.part (s : State) (p : Nat) : Part := tget Part.fresh s.parts p
def State.setPart (s : State) (p : Nat) (x : Part) : State := { s with parts := tset s.parts p x }
def State.link (s : State) (k : Nat) : LinkSt := tget LinkSt.fresh s.links k
def State.setLink (s : State) (k : Nat) (x : LinkSt) : State := { s with links := tset s.links k x }
def State.stack (s : State) (k : Nat) : Stack := tget Stack.fresh s.memStacks k
def State.setStack (s : State) (k : Nat) (x : Stack) : State := { s with memStacks := tset s.memStacks k x }
def Tile.node (x : Tile) (k : Nat) : NodeSt := x.nodes.getD k NodeSt.fresh
def Tile.setNode (x : Tile) (k : Nat) (n : NodeSt) : Tile := { x with nodes := lset x.nodes k n }
def Tile.inPort (x : Tile) (k : Nat) : InPort := tget InPort.fresh x.inPorts k
def Tile.setIn (x : Tile) (k : Nat) (p : InPort) : Tile := { x with inPorts := tset x.inPorts k p }
def Tile.out (x : Tile) (k : Nat) : OutPort := tget OutPort.fresh x.outs k
def Tile.setOut (x : Tile) (k : Nat) (p : OutPort) : Tile := { x with outs := tset x.outs k p }
def Tile.done (x : Tile) (k : Nat) : OutPort := tget OutPort.fresh x.dones k
def Tile.setDone (x : Tile) (k : Nat) (p : OutPort) : Tile := { x with dones := tset x.dones k p }
def Tile.cb (x : Tile) (k : Nat) : CBuf := x.cbufs.getD k CBuf.fresh
def Tile.setCb (x : Tile) (k : Nat) (c : CBuf) : Tile := { x with cbufs := lset x.cbufs k c }
/-- The typed buffer 0 W, 1 A, 2 C. -/
def Tile.buf (x : Tile) (b : Nat) : Memory := if b = 0 then x.w else if b = 1 then x.a else x.c
def Tile.setBuf (x : Tile) (b : Nat) (m : Memory) : Tile :=
  if b = 0 then { x with w := m } else if b = 1 then { x with a := m } else { x with c := m }
/-- Its declared size in bytes (R72). -/
def Tile.bufSize (x : Tile) (b : Nat) : Nat := 1024 * (if b = 0 then x.hdr.wbuf else if b = 1 then x.hdr.abuf else x.hdr.cbuf)
def Ctx.queue (c : Ctx) (e : Nat) : Queue := tget Queue.fresh c.queues e
def Ctx.setQueue (c : Ctx) (e : Nat) (q : Queue) : Ctx := { c with queues := tset c.queues e q }
def Ctx.sem (c : Ctx) (i : Nat) : Sem := tget Sem.fresh c.sems i
def Ctx.setSem (c : Ctx) (i : Nat) (x : Sem) : Ctx := { c with sems := tset c.sems i x }

/-- The entries of one region: the one of its number, and those of its further invocations. -/
def State.family (s : State) (g : Nat) : List Nat := (s.regions.map (·.1)).filter fun k => k % 1024 == g % 1024
/-- The region number of what the resident graphs issue: they run in no region (R296). No entry has this number. -/
def agentRegion : Nat := 2 ^ 20

/-- An SE's share of a stack's refresh (R399). -/
def Stack.owner (x : Stack) (se : Nat) : Refresher := tget Refresher.fresh x.owners se

/-- TAKEOVER: SEs own refresh (R396). -/
def Stack.takeover (x : Stack) : Bool := x.owners.any fun (_, o) => o.takeover

/-- The first tile of the migration agent (R296). -/
def agentTile : Nat := 4144

/-- What DETREV reads: arithmetic revision 1 (R380–R382). -/
def detrev : Nat := 1 + 2 ^ 16
/-- What a region's launch has, wherever its tile's invocation stands. -/
def State.home (s : State) (g : Nat) : Region := s.region (g % 1024)
def State.tileRegion (s : State) (t : Nat) : Region := s.region (s.tile t).region
def State.tileCtx (s : State) (t : Nat) : Nat := (s.tileRegion t).ctx

/-- ACTCTX of a control tile: context and PHYS (R298); bit 8 of the register is PHYS and its reset value is 1. -/
def State.act (s : State) (t : Nat) : Nat := tget 256 s.actctx (t - 4096)
/-- How the accesses of a tile are taken: the context whose tables apply, or none for physical addresses (R298). -/
def State.accessCtx (s : State) (t : Nat) : Option Nat :=
  if t < 4096 then some (s.tileCtx t)
  else if bitAt (BitVec.ofNat 16 (s.act t)) 8 then none else some (s.act t % 256)
/-- The context whose queues, semaphores and tables the tile's commands act on (R298). -/
def State.cmdCtx (s : State) (t : Nat) : Nat := (s.accessCtx t).getD 0
/-- Whether the tile's accesses follow DET rules (R43, R298). -/
def State.det (s : State) (t : Nat) : Bool := !(s.ctx (s.tileCtx t)).relaxed

/-- A number of the model's own: the next access, the next command. -/
def State.freshAccess (s : State) : Nat × State := (s.accessNo, { s with accessNo := s.accessNo + 1 })

/-! Taking a fault (R349–R354). -/

/-- What a detector knows of a fault. -/
structure Flt where
  cls : Nat
  cause : Nat
  resumable : Bool
  engine : Bool
  region : Option Nat
  ctx : Nat
  tile : Nat
  slot : Nat
  eng : Nat
  f1x : Nat
  inst : Nat
  addr : Nat
  f4 : Nat
  f5 : Nat
  issue : Nat
  f6 : Nat
  f7 : Nat
  agent : Agent
deriving DecidableEq, Repr, Inhabited

def Flt.zero : Flt :=
  { cls := 0, cause := 0, resumable := false, engine := false, region := none, ctx := 0, tile := 0, slot := 0, eng := 0,
    f1x := 0, inst := 0, addr := 0, f4 := 0, f5 := 0, issue := 0, f6 := 0, f7 := 0, agent := .none }

/-- In a fixed-timing context only KV_COW records are resumable (R349). -/
def Flt.res (s : State) (f : Flt) : Bool := f.resumable && (!(s.ctx f.ctx).fxt || f.cls == 0x0F)

/-- The eight words of a record (R352). -/
def Flt.words (s : State) (f : Flt) : List W64 :=
  let rg := f.region.getD 0 % 1024
  let gen := match f.region with | some r => (s.region r).gen | none => 0
  let f0 := f.cls + f.cause * 2 ^ 8 + boolNat (f.res s) * 2 ^ 16 + boolNat f.engine * 2 ^ 17
    + boolNat (f.agent != .none) * 2 ^ 18 + gen * 2 ^ 24 + rg * 2 ^ 32 + f.ctx * 2 ^ 42 + (s.ctx f.ctx).part * 2 ^ 50
  let f1 := f.tile + f.slot * 2 ^ 13 + f.eng * 2 ^ 20 + f.f1x * 2 ^ 30
  let f5 := f.f5 + (f.issue % 2 ^ 32) * 2 ^ 32
  [f0, f1, f.inst, f.addr, f.f4, f5, f.f6, f.f7].map (BitVec.ofNat 64)

/-- Stopping the agent that a fault names (R349, R350): a region begins no further instant; a node or a command takes no further
step until FLTACK settles its record. -/
def State.stopAgent (s : State) (a : Agent) : State :=
  match a with
  | .none => s
  | .region r => s.setRegion r { s.region r with phase := .stopped }
  | .node t k => s.setTile t ((s.tile t).setNode k { (s.tile t).node k with stopped := true })
  | .command c e u =>
    let q := (s.ctx c).queue e
    let f (l : List CmdSt) := l.map fun x => if x.uid = u then { x with phase := .stopped } else x
    s.setCtx c ((s.ctx c).setQueue e { q with entries := f q.entries, started := f q.started })
  | .unit c e u =>
    let q := (s.ctx c).queue e
    let f (l : List CmdSt) := l.map fun x => if x.uid = u then { x with phase := .stopped } else x
    s.setCtx c { (s.ctx c).setQueue e { q with entries := f q.entries, started := f q.started } with kvpHeld := true }

/-- What orders records of one region and cycle: engine-detected ones last, then tile and slot (R350). -/
def FltRec.rank (r : FltRec) : Nat :=
  bitsNat (r.words.getD 0 0#64) 17 1 * 2 ^ 20 + bitsNat (r.words.getD 1 0#64) 0 13 * 2 ^ 7 + bitsNat (r.words.getD 1 0#64) 13 7

/-- A record among those not yet written: in order of detection, those of one region and cycle by tile and slot (R350). -/
def insertHeld (r : FltRec) : List FltRec → List FltRec
  | [] => [r]
  | x :: xs => if r.region.isSome && x.region.map (· % 1024) == r.region.map (· % 1024) && x.cycle == r.cycle && r.rank < x.rank then r :: x :: xs else x :: insertHeld r xs

/-- The launch that a region runs, changed. -/
def State.setLaunch (s : State) (k : Nat) (f : Launch → Launch) : State :=
  match tget? s.launches k with
  | none => s
  | some l => { s with launches := tset s.launches k (f l) }

/-- Of the twelve banks of a typed buffer, those that a range of bytes lies in, by the size of a bank (R73, R364). -/
def banksOf (size a n : Nat) : List Nat := (List.range 12).filter fun k => k * size < a + n && a < (k + 1) * size

/-! Limits of a context (R28, R291, R293). -/

/-- The instant-stall limit in cycles (R28, R291). -/
def Ctx.stallLimit (c : Ctx) : Nat := 2 ^ (if c.qstall = 0 then 24 else c.qstall)

/-- The pre-emption limit in ns (R291). -/
def Ctx.preLimit (x : Ctx) : Nat := if x.plim = 0 then 2000000 else 2 ^ x.plim

/-- A region's watchdog restarts, with the limit that its context has now (R28, R293). -/
def State.rewatch (s : State) (r : Region) : Region := { r with lastFire := s.cycle, stallLim := (s.ctx r.ctx).stallLimit }

/-! Lifetime counters (R406). -/

def State.lifeAdd (s : State) (i n : Nat) : State :=
  { s with life := tset s.life i (min (tget 0 s.life i + n) (2 ^ 64 - 1)) }

/-- The counter that a fault adds to: uncorrectable errors by stack, none for one of SRAM, and watchdog events (R353, R357, R406). -/
def Flt.counter (f : Flt) : Option Nat :=
  match f.cls with
  | 0x0E => if f.f6 / 2 ^ 11 % 2 = 1 then none else some (0x20 + f.f6 % 16 % 12 + (if f.f6 / 2 ^ 10 % 2 = 1 then 12 else 0))
  | 0x0B => some 0xD0
  | 0x0C => some 0xD1
  | 0x14 => some 0xD2
  | 0x0A => some 0xD3
  | _ => none

def State.lifeFlt (s : State) (f : Flt) : State := match f.counter with | some i => s.lifeAdd i 1 | none => s

/-- The counters that R406 lists. -/
def lifeListed (i : Nat) : Bool :=
  i < 0x18 || (0x20 ≤ i && i < 0x38) || (0x40 ≤ i && i < 0x58) || (0x60 ≤ i && i < 0x6C) || (0x80 ≤ i && i < 0xB0) ||
    (0xB0 ≤ i && i < 0xB6) || (0xC0 ≤ i && i < 0xC5) || i == 0xC8 || (0xD0 ≤ i && i < 0xD4) || (0xE0 ≤ i && i < 0xF8)

/-- Taking a fault: it is counted where a lifetime counter counts it; the record is built and held by its detector, and what it names stops. A fault of a node of a resident graph
goes to the module controller instead, which halts the control region (R297); one on a supervisor slot kills that kernel, and its
completion record carries the class (R299). -/
def State.raise (s0 : State) (f : Flt) : State :=
  let s := s0.lifeFlt f
  let ctl := f.cls != 0x11 && f.ctx == 0 && !f.engine && decide (4096 ≤ f.tile)
  if ctl && 4100 ≤ f.tile && f.tile ≤ 4103 then
    let g := (s.tile f.tile).region
    let s1 := (s.family g).foldl (fun s k => if (s.region k).phase == .off then s else s.setRegion k { s.region k with phase := .stopped }) s
    (s1.setRegion (g % 1024) { s1.home g with killed := true }).setLaunch (s.home g).launch fun l => { l with phase := .killed, cls := f.cls }
  else if ctl then { s with ctlHalt := true }
  else { s.stopAgent f.agent with held := insertHeld ⟨f.words s, f.agent, f.region, s.cycle⟩ s.held }

/-- Whether an invocation of a region has stopped: no tile of the region begins an instant then, and no round commits (R350). -/
def State.halted (s : State) (g : Nat) : Bool := (s.family g).any fun k => (s.region k).phase == .stopped

/-- Whether a region is being killed: nothing of it fires or starts any more (R299, R361). -/
def State.dying (s : State) (g : Nat) : Bool := (s.home g).killed && (s.home g).valid

/-- Word positions that hold node words, with the word and the extension word that follows when X is set (R76). -/
def nodeWords : List W64 → Nat → List (Nat × W64 × Option W64)
  | [], _ => []
  | [w], k => [(k, w, none)]
  | w :: e :: ws, k =>
    if bitAt w 9 then (k, w, some e) :: nodeWords ws (k + 2) else (k, w, none) :: nodeWords (e :: ws) (k + 1)

/-- Whether every node of the block has fired in its instant (R29). -/
def Tile.allFired (x : Tile) : Bool := (nodeWords x.words 0).all fun (k, _, _) => (x.node k).fired

/-- The region's instant counter as R29 has it: the least instant that some tile has not ended. -/
def State.currentInst (s : State) (g : Nat) : Nat :=
  match (s.region g).tiles.map fun t => (let x := s.tile t; if x.begun && x.allFired then x.inst + 1 else x.inst) with
  | [] => (s.region g).inst
  | n :: ns => ns.foldl min n

/-- A fault detected by a node of a tile (R352: tile, slot and the region's instant, which is not past the one that the node fires in). DEDUCED, notes/assumptions/15.md. -/
def State.nodeFlt (s : State) (t k : Nat) : Flt :=
  { Flt.zero with region := some (s.tile t).region, ctx := s.tileCtx t, tile := t, slot := k, inst := min (s.currentInst (s.tile t).region) (s.tile t).inst }

/-- A node fault that stops the region (R349, R350): the node emits nothing. -/
def State.raiseNode (s : State) (t k : Nat) (f : Flt → Flt) : State :=
  let s1 := s.setTile t ((s.tile t).setNode k { (s.tile t).node k with stopped := true })
  s1.raise (f { s.nodeFlt t k with agent := .region (s.tile t).region })

/-! Semaphores (R132–R136). -/

/-- A new content of a semaphore; what it held before this cycle is kept for reads as of the cycle's start (R135). DEDUCED, notes/assumptions/24.md. -/
def State.semPut (s : State) (c i v : Nat) (sticky : Bool) (rel : List (Ord × Nat)) : State :=
  let x := (s.ctx c).sem i
  let y := if x.cyc = s.cycle then { x with value := v, sticky := sticky, rel := rel }
    else { value := v, sticky := sticky, rel := rel, cyc := s.cycle, oldValue := x.value, oldSticky := x.sticky, oldRel := x.rel }
  s.setCtx c ((s.ctx c).setSem i y)

/-- A semaphore as it stood at the start of a cycle (R135). DEDUCED, notes/assumptions/23.md. -/
def Sem.asOf (x : Sem) (cycle : Nat) : Sem :=
  if x.cyc = cycle then { x with value := x.oldValue, sticky := x.oldSticky, rel := x.oldRel } else x

/-- The increment of a semaphore, saturating, with the record that a first overflow raises (R132); `rel` are the releases it
carries (R136), `who` 0 node, 1 engine, 2 host (R353). -/
def State.semInc (s : State) (c i n who : Nat) (rel : List (Ord × Nat)) (f : Flt → Flt := id) : State :=
  let x := (s.ctx c).sem i
  let v := x.value + n
  let s1 := s.semPut c i (if v < 2 ^ 32 then v else 2 ^ 32 - 1) (x.sticky || 2 ^ 32 ≤ v) (x.rel ++ rel)
  if 2 ^ 32 ≤ v && !x.sticky then
    s1.raise { f Flt.zero with cls := 0x11, agent := .none, ctx := c, f6 := i + who * 256 }
  else s1

/-- SEMSET: value written, sticky bit cleared, releases dropped (R133, R136). -/
def State.semSet (s : State) (c i v : Nat) : State := s.semPut c i (v % 2 ^ 32) false []

/-! Rounds in fixed timing (R39). -/

/-- In a fixed-timing context a region that goes on after a halt starts its next instant at the first whole multiple of P that is not
yet past. DEDUCED, notes/assumptions/60.md. -/
def State.restartClock (s : State) (g : Nat) : State :=
  let r := s.region g
  if !(s.ctx r.ctx).fxt then s
  else
    let x := s.tile (r.tiles.headD 0)
    let p := max x.hdr.period 1
    let due := r.roundCycle + ((if x.begun then x.inst + 1 else x.inst) - r.roundBase) * p
    if s.cycle ≤ due then s else s.setRegion g { r with roundCycle := r.roundCycle + ceilDiv (s.cycle - due) p * p }

/-! Free values. -/

/-- A choice between the outcomes that an open order allows; each use takes the next one (R134, R302, R332). DESIGN CHOICE, notes/assumptions/3.md. -/
def State.choose (s : State) : Bool × State := (Config.choice s.tick, { s with tick := s.tick + 1 })

/-- n bytes of the free values at the state's counter. DESIGN CHOICE, notes/assumptions/4.md. -/
def State.freeBytes (s : State) (n : Nat) : List Byte × State :=
  (((List.range (ceilDiv n 64)).flatMap fun i => payBytes 64 (Config.freeBits (s.tick + i))).take n, { s with tick := s.tick + ceilDiv n 64 })

end Sys2Proof.Machine
end

