-- ==== Sys2Proof/Machine/Access.lean ====
section
/-!
DEFINITION. Reaching memory: the physical map and home slices (R149, R326), the page-table walk with its checks (R327–R332,
R339, R340, R344), the line part (R149, R150, R223–R226), and the round buffer (R165–R169, R173, R219).
-/
namespace Sys2Proof.Machine

/-! The physical map. -/

inductive PaClass where
  | near | far | host
deriving DecidableEq, Repr, Inhabited

/-- The range of a physical address (R326). -/
def paClass (pa : Nat) : Option PaClass :=
  if pa < 0xC000000000 then some .near
  else if 0x10000000000 ≤ pa ∧ pa < 0x1C000000000 then some .far
  else if 2 ^ 51 ≤ pa ∧ pa < 2 ^ 52 then some .host
  else none

/-- PA[39:36]: the stack of a device address (R326). -/
def paStack (pa : Nat) : Nat := pa / 2 ^ 36 % 16

/-- The XOR of the nine 5-bit fields of PA[51:7] (R149). -/
def foldSlice (pa : Nat) : Nat :=
  (List.range 9).foldl (fun acc i => acc ^^^ (pa / 2 ^ (7 + 5 * i) % 32)) 0

/-- The home die and slice of an address at its location: the die of the near stack that holds the line under the hash, or that its far stack is chained
behind (R149, R335). -/
def homeSlice (pa loc : Nat) : Nat × Nat :=
  (if paClass pa == some .host then pa % 2 ^ 51 / 2 ^ 12 % 6 else paStack loc / 2, foldSlice pa)

/-- Whether a device address lies in the memory attached to a partition by its PMEM registers (R374). -/
def State.attached (s : State) (p pa : Nat) : Bool :=
  (s.part p).pmem.any fun (_, m) =>
    m.v && (paClass pa == some (if m.far then .far else .near)) &&
      (let a := if m.far then pa - 0x10000000000 else pa
       m.base * 2 ^ 30 ≤ a && a < (m.base + m.count) * 2 ^ 30)

/-- Whether that memory has keys now (R375–R377): outside RUN every range is keyless. -/
def State.keyed (s : State) (p pa : Nat) : Bool := s.attached p pa && (s.part p).tdisp == .run

/-- The partition, if any, to which a device address is attached. -/
def State.partOf (s : State) (pa : Nat) : Option Nat := (List.range 24).find? fun p => s.attached p pa

/-! Interleave (R334, R335). -/

def parityOf (x : Nat) : Nat := ((List.range 64).filter fun i => x / 2 ^ i % 2 == 1).length % 2

/-- The lowest set bit of a mask, as a bit number. -/
def pivotOf (m : Nat) : Nat := ((List.range 36).find? fun i => m / 2 ^ i % 2 == 1).getD 36

/-- Output k of the hash (R335). -/
def maskOut (m : MaskSet) (pa k : Nat) : Nat := parityOf (pa % 2 ^ 36 &&& m.masks.getD k 0)

/-- Stack, channel and pseudo-channel of a device address under a mask set (R335). -/
def dramPlace (m : MaskSet) (pa : Nat) : Nat × Nat × Nat :=
  let st := paStack pa
  let low := 2 ^ m.spread
  let out := maskOut m pa
  (st / low * low + (st % low ^^^ (out 6 + 2 * out 7)) % low,
   out 1 + 2 * out 2 + 4 * out 3 + 8 * out 4 + 16 * out 5, out 0)

/-- The location of a device address under a mask set, as the address that reaches it under the reset masks (R335): the pivots of
outputs 0–5 leave the DRAM address, and the stack's own low bits stand in the stack pivots. DEDUCED, notes/assumptions/39.md. -/
def locOf (m : MaskSet) (pa : Nat) : Nat :=
  if m.masks == MaskSet.fresh.masks && m.spread == 0 then pa
  else
    let (st, ch, pc) := dramPlace m pa
    let pivots := (List.range 6).map fun k => pivotOf (m.masks.getD k 0)
    let bit (i : Nat) : Nat :=
      if 1 ≤ m.spread && i == pivotOf (m.masks.getD 6 0) then pa / 2 ^ 36 % 2
      else if m.spread == 2 && i == pivotOf (m.masks.getD 7 0) then pa / 2 ^ 37 % 2
      else pa / 2 ^ i % 2
    let rest := packNat 1 (((List.range 29).map (· + 7)).filter (fun i => !pivots.contains i) |>.map bit)
    pa / 2 ^ 40 * 2 ^ 40 + st * 2 ^ 36 + rest * 2 ^ 13 + ch * 2 ^ 8 + pc * 2 ^ 7 + pa % 2 ^ 7

/-- Whether a mask set leaves every address where the reset masks put it. -/
def State.flat (s : State) (part mask : Nat) : Bool :=
  let m := tget MaskSet.fresh (s.part part).masks mask
  m.masks == MaskSet.fresh.masks && m.spread == 0

/-- The location of an address reached through a leaf with a mask index, on behalf of a partition (R328, R334). Host pages have none. -/
def State.loc (s : State) (part mask pa : Nat) : Nat :=
  if paClass pa == some .host then pa else locOf (tget MaskSet.fresh (s.part part).masks mask) pa

/-- The number of the key under which a device address is written, 0 where no keyed range holds it (R376). -/
def State.keyNum (s : State) (pa : Nat) : Nat :=
  (s.parts.findSome? fun (_, p) => p.pmem.findSome? fun (_, m) =>
    let b := (if m.far then 0x10000000000 else 0) + m.base * 2 ^ 30
    if m.v && b ≤ pa && pa < b + m.count * 2 ^ 30 then m.key else none).getD 0

/-! Bytes of memory at locations. -/

/-- The free byte that hides a location written under a destroyed key (R377); 0 elsewhere. -/
def State.salt (s : State) (a : Nat) : Byte :=
  match s.wiped.find? fun (lo, hi, _) => lo ≤ a && a < hi with
  | some (_, _, k) => if k = 0 then 0#8 else Config.scrambled k a
  | none => 0#8

/-- Bytes a, a + 1, … as the device reads them. -/
def State.peekN (s : State) (a n : Nat) : List Byte :=
  if s.wiped.isEmpty then s.mem.readN a n
  else (s.mem.readN a n).zipWith (· ^^^ ·) ((List.range n).map fun i => s.salt (a + i))

/-- Memory after bytes are written at a. -/
def State.pokeN (s : State) (a : Nat) (bs : List Byte) : Memory :=
  if s.wiped.isEmpty then s.mem.writeN a bs
  else s.mem.writeN a (bs.zipWith (· ^^^ ·) ((List.range bs.length).map fun i => s.salt (a + i)))

def State.peekNat (s : State) (a n : Nat) : Nat := leNat (s.peekN a n)

/-! The line part: `mem` is memory as its coherent readers see it; under a line that some agent holds, DRAM has the line's image. -/

def byteOf (x : BitVec 1024) (i : Nat) : Byte := BitVec.ofNat 8 (x.toNat / 2 ^ (8 * i))
def setByte (x : BitVec 1024) (i : Nat) (b : Byte) : BitVec 1024 :=
  BitVec.ofNat 1024 (x.toNat - (x.toNat / 2 ^ (8 * i) % 256) * 2 ^ (8 * i) + b.toNat * 2 ^ (8 * i))

/-- Bytes put into an image from offset i on. -/
def putImage (img : BitVec 1024) : Nat → List Byte → BitVec 1024
  | _, [] => img
  | i, b :: bs => putImage (setByte img i b) (i + 1) bs

/-- A byte of DRAM, under any line held. -/
def State.dramByte (s : State) (pa : Nat) : Byte :=
  match tget? s.lines (pa / 128) with
  | some x => byteOf x.image (pa % 128)
  | none => leNat (s.peekN pa 1) |> BitVec.ofNat 8

/-- Bytes of DRAM: what a reader without snooping sees (R150, R225). -/
def State.rawN (s : State) (a n : Nat) : List Byte := if s.lines.isEmpty then s.peekN a n else (List.range n).map fun i => s.dramByte (a + i)

/-- The content of a line. -/
def State.lineImage (s : State) (line : Nat) : BitVec 1024 := BitVec.ofNat 1024 (leNat (s.peekN (line * 128) 128))

/-- The directory entry of a line, an empty one where none stands (R223). -/
def State.lineOf (s : State) (pa line : Nat) : Line :=
  (tget? s.lines line).getD
    { image := s.lineImage line, owner := none, dies := 0, shared := false, host := false, dirty := false, home := homeSlice pa (line * 128) }

/-- A line becomes Modified in a die's line part: the copies on every other die are invalidated, and the host's of a HOSTSHARED page, whose dirty data is
taken first (R223, R225). -/
def State.markLine (s : State) (die : Nat) (shared : Bool) (pa line : Nat) : State :=
  let x := s.lineOf pa line
  { s with lines := tset s.lines line { x with owner := some die, dies := 2 ^ die, shared := x.shared || shared, host := false, dirty := false } }

/-- A die's line part takes a copy of a line; one that another die or the host holds changed is brought up to date in DRAM first (R223, R225). -/
def State.shareLine (s : State) (die : Nat) (shared : Bool) (pa line : Nat) : State :=
  let x := s.lineOf pa line
  if x.owner == some die then s
  else
    let y := { x with image := if x.owner.isSome || x.dirty then s.lineImage line else x.image, owner := none, dies := x.dies ||| 2 ^ die,
                      shared := x.shared || shared, dirty := false }
    { s with lines := tset s.lines line y }

/-- A line after a die's line part is emptied (R398): what the die holds Modified is written back, and where no other copy stays the directory entry goes. -/
def Line.without (x : Line) (die line : Nat) : Option (Nat × Line) :=
  let dies := x.dies &&& (63 - 2 ^ die)
  if x.owner == some die || (dies == 0 && !x.host) then none else some (line, { x with dies := dies })

/-- The bytes of a line's image. -/
def imageBytes (x : BitVec 1024) : List Byte := (List.range 128).map (byteOf x)

/-- A line is written back, and no copy of it stays (R139, R150, R226): what an agent holds changed goes to DRAM, and under clean copies DRAM has what it
has. DEDUCED, notes/assumptions/19.md. -/
def State.writeBack (s : State) (line : Nat) : State :=
  let mem := match tget? s.lines line with
    | some x => if x.owner.isNone && !x.dirty && x.image != s.lineImage line then s.pokeN (line * 128) (imageBytes x.image) else s.mem
    | none => s.mem
  { s with mem := mem, lines := tdel s.lines line }

/-- The beats that a write covers whole are readable again (R357). -/
def State.mend (s : State) (a n : Nat) : List Nat := s.badBeats.filter fun g => !(a / 64 * 64 ≤ g * 64 && g * 64 + 64 ≤ a + n)

/-- A write by an agent of the device, uncached or through a window: line-part copies are written back and invalidated first (R150). -/
def State.devWrite (s : State) (pa : Nat) (bs : List Byte) : State :=
  let s1 := (List.range (bs.length / 128 + 2)).foldl (fun x i => x.writeBack (pa / 128 + i)) s
  { s1 with mem := s1.pokeN pa bs, badBeats := s1.mend pa bs.length }

/-- Bytes of one line written in DRAM without snooping: a line held keeps its content over the new image, unless it is a clean copy that has left the
line part by then, which is open. DESIGN CHOICE, notes/assumptions/3.md. -/
def State.rawPart (s : State) (a : Nat) (bs : List Byte) : State :=
  match tget? s.lines (a / 128) with
  | none => { s with mem := s.pokeN a bs, badBeats := s.mend a bs.length }
  | some x =>
    if x.owner.isNone && !x.dirty && Config.choice s.tick then
      let s1 := s.writeBack (a / 128)
      { s1 with mem := s1.pokeN a bs, badBeats := s.mend a bs.length, tick := s.tick + 1 }
    else
      { s with lines := tset s.lines (a / 128) { x with image := putImage x.image (a % 128) bs }, badBeats := s.mend a bs.length, tick := s.tick + 1 }

def rawRun : Nat → State → Nat → List Byte → State
  | 0, s, _, _ => s
  | n + 1, s, a, bs =>
    if bs.isEmpty then s
    else
      let k := 128 - a % 128
      rawRun n (s.rawPart a (bs.take k)) (a + k) (bs.drop k)

/-- A write in DRAM without snooping: to a STRM page, or by the host to a page that is not HOSTSHARED (R150, R224, R225). -/
def State.rawWrite (s : State) (a : Nat) (bs : List Byte) : State := if s.lines.isEmpty then s.devWrite a bs else rawRun (bs.length / 128 + 2) s a bs

/-- The line part of a die in 2 MiB steps (R398). -/
def State.linePart (s : State) (die : Nat) : Nat := tget 16 s.dcsplit die

/-- Attributes of a leaf (R328). -/
structure Leaf4 where
  w : Bool
  strm : Bool
  shared : Bool
  roHost : Bool
  kv : Bool
  mask : Nat
deriving DecidableEq, Repr, Inhabited

/-- The lines that a range of bytes touches. -/
def linesAt (a n : Nat) : List Nat := (List.range ((a + n - 1) / 128 + 1 - a / 128)).map (a / 128 + ·)

/-- A write through the gateways of a die: of a STRM page in DRAM, uncached; else its lines become Modified in the die's line part, or the write goes
uncached to the home slice where that line part is 0 MiB (R149, R223–R225). -/
def State.lineWrite (s : State) (die : Nat) (strm shared : Bool) (pa loc : Nat) (bs : List Byte) : State :=
  if strm then s.rawWrite loc bs
  else if s.linePart die == 0 then s.devWrite loc bs
  else
    let s1 := (linesAt loc bs.length).foldl (fun x l => x.markLine die shared pa l) s
    { s1 with mem := s1.pokeN loc bs, badBeats := s1.mend loc bs.length }

/-! Translation. -/

/-- F6 of an UNCORRECTABLE record for a physical address at a location (R353): stack, channel, pc, FAR. -/
def placeCode (pa loc : Nat) : Nat :=
  let (st, ch, pc) := dramPlace MaskSet.fresh loc
  st + ch * 16 + pc * 512 + boolNat (paClass pa == some .far) * 1024

/-- The SE that owns a channel of a stack, near or far: its die and its number there (R338, R395). -/
def ownerSe (stack channel : Nat) : Nat × Nat := (stack / 2, 16 * (stack % 2) + channel / 2)

/-- The count of a location: that of its pseudo-channel among those its owning SE keeps, near and far apart (R338, R346). SEs are numbered as engines
(R303). -/
def ownerKey (loc : Nat) : Nat :=
  let (st, ch, pc) := dramPlace MaskSet.fresh loc
  let (die, se) := ownerSe st ch
  (die + se * 32) * 8 + boolNat (paClass loc == some .far) * 4 + ch % 2 * 2 + pc

/-- A translation, protection or UNCORRECTABLE fault of an access: class, cause, the address, the level and entry of the walk
(R339, R353, R357); an UNCORRECTABLE one holds F6 in `level` and the physical address in `entry`. An `addr` from 2^57 on stands for a pool
descriptor's, which the record names instead of the access's (R344). -/
structure XFault where
  cls : Nat
  cause : Nat
  addr : Nat
  level : Nat
  entry : Nat
deriving DecidableEq, Repr, Inhabited

/-- The address that a record names for an access whose first byte is at `va`. -/
def XFault.at_ (x : XFault) (va : Nat) : Nat := if 2 ^ 57 ≤ x.addr then x.addr - 2 ^ 57 else va

/-- A translation: physical address and location, how far an access runs on in one piece (to the page's end, or to the end of a 128-byte line where masks
scatter lines), attributes, and the page it caches. -/
structure Xlat where
  pa : Nat
  loc : Nat
  step : Nat
  attr : Leaf4
  page : Nat
  bits : Nat
  entry : Nat
deriving DecidableEq, Repr, Inhabited

/-- The index of a level (R327). -/
def vaIndex (level va : Nat) : Nat :=
  match level with
  | 4 => va / 2 ^ 36 % 2 ^ 21
  | 3 => va / 2 ^ 30 % 64
  | 2 => va / 2 ^ 21 % 512
  | _ => va / 2 ^ 16 % 32

/-- The page-size bits of a leaf at a level (R327). -/
def leafBits (level : Nat) : Nat :=
  match level with
  | 4 => 36 | 3 => 30 | 2 => 21 | _ => 16

/-- The table size bits of the level below (R327). -/
def tableBits (level : Nat) : Nat :=
  match level with
  | 3 => 9 | 2 => 12 | _ => 8

def leafAttr (e : Nat) : Leaf4 :=
  { w := e / 4 % 2 == 1, strm := e / 8 % 2 == 1, shared := e / 16 % 2 == 1, roHost := e / 32 % 2 == 1, kv := e / 64 % 2 == 1,
    mask := e / 2 ^ 52 % 8 }

/-- Whether an entry breaks a field rule of R328 at a level. -/
def badPte (level e : Nat) : Bool :=
  let leaf := e / 2 % 2 == 1
  let addr := e / 2 ^ 8 % 2 ^ 44 * 256
  let host := leaf && paClass addr == some .host
  (level == 1 && !leaf) || e / 2 ^ 7 % 2 == 1 || e / 2 ^ 55 != 0 ||
    (if leaf then
      addr % 2 ^ leafBits level != 0 || (host && (e / 8 % 16 != 0 || e / 2 ^ 52 % 8 != 0)) || (e / 16 % 2 == 1 && e / 64 % 2 == 1)
     else e / 4 % 32 != 0 || e / 2 ^ 52 % 8 != 0 || addr % 2 ^ tableBits (level - 1) != 0)

/-- The walk from a table at a level (R329), without the protection checks. -/
def walkFrom (s : State) (va : Nat) : Nat → Nat → Except XFault Xlat
  | 0, _ => .error ⟨2, 3, va, 0, 0⟩
  | level + 1, t =>
    let a := t + 8 * vaIndex (level + 1) va
    if s.badBeats.contains (a / 64) then .error ⟨0x0E, 0, va, placeCode a a, a⟩
    else
      let e := s.peekNat a 8
      if e % 2 = 0 then .error ⟨2, 2, va, level + 1, e⟩
      else if badPte (level + 1) e then .error ⟨2, 3, va, level + 1, e⟩
      else if e / 2 % 2 = 1 then
        let b := leafBits (level + 1)
        let pa := e / 2 ^ 8 % 2 ^ 44 * 256 + va % 2 ^ b
        if paClass pa = none then .error ⟨2, 4, va, level + 1, e⟩
        else .ok ⟨pa, pa, 2 ^ 16, leafAttr e, va / 2 ^ b * 2 ^ b, b, e⟩
      else walkFrom s va level (e / 2 ^ 8 % 2 ^ 44 * 256)

def walk (s : State) (ctx va : Nat) : Except XFault Xlat :=
  if !(s.ctx ctx).ptv then .error ⟨2, 1, va, 0, 0⟩ else walkFrom s va 4 (s.ctx ctx).ptroot

/-- The cached translation of an address on a die, if any (R331). -/
def cachedXlat (s : State) (die ctx va : Nat) : Option Xlat :=
  (s.tcache.find? fun c => c.die == die && c.ctx == ctx && va / 2 ^ c.bits * 2 ^ c.bits == c.page).map fun c =>
    let pa := c.entry / 2 ^ 8 % 2 ^ 44 * 256 + va % 2 ^ c.bits
    ⟨pa, pa, 2 ^ 16, leafAttr c.entry, c.page, c.bits, c.entry⟩

/-- The translation an access uses: the cached one, or a fresh walk; where both exist and differ, either (R332). -/
def translate (s : State) (die ctx va : Nat) : Except XFault Xlat :=
  match cachedXlat s die ctx va, walk s ctx va with
  | none, w => w
  | some x, .ok y => if x = y || Config.choice s.tick then .ok x else .ok y
  | some x, .error f => if Config.choice s.tick then .ok x else .error f

/-- A pool's frame range (R269, R344): first byte and the byte after the last; none where it describes none. -/
def poolRange (d : List Nat) : Option (Nat × Nat) :=
  let frames := d.getD 1 0 % 2 ^ 57
  let pages := d.getD 2 0 % 2 ^ 32
  let pp := 8 * 2 ^ (d.getD 0 0 / 2 ^ 57 % 4)
  let pbytes := d.getD 2 0 / 2 ^ 32
  if pages = 0 || pbytes = 0 || pbytes % 64 != 0 then none else some (frames, frames + pages * pp * pbytes)

/-- The table level that holds the leaf of a translation (R327, R353). -/
def Xlat.level (x : Xlat) : Nat := ((List.range 5).find? fun l => 1 ≤ l && leafBits l == x.bits).getD 0

/-- The key that a granule of a location was last written under (R335, R376). -/
def State.keyAt (s : State) (g : Nat) : Nat := (tget? s.tags g).getD (s.keyNum (g * 64))

/-- Bytes at a location decrypted for a reader of address `pa`: free where they were written under another key (R376). DESIGN CHOICE,
notes/assumptions/7.md. -/
def State.unveil (s : State) (pa loc : Nat) (bs : List Byte) : List Byte :=
  let k := s.keyNum pa
  (bs.zip (List.range bs.length)).map fun (b, i) =>
    let w := s.keyAt ((loc + i) / 64)
    if w == k then b else b ^^^ Config.scrambled (2 ^ 64 + k * 2 ^ 32 + w) (loc + i)

/-- Bytes as a reader through a translation sees them: of a STRM page DRAM's own (R150, R224); under the key of the range that its address lies in
(R376). -/
def State.xlatBytes (s : State) (x : Xlat) (loc n : Nat) : List Byte :=
  let bs := if x.attr.strm then s.rawN loc n else s.peekN loc n
  if (s.tags.isEmpty && x.step != 128) || paClass x.pa == some .host then bs else s.unveil x.pa loc bs

/-- A granule about to be written in part under another key than it holds: the rest of it is read and written again under the new one (R376). -/
def State.rekey (s : State) (pa g : Nat) : State :=
  let k := s.keyNum pa
  if s.keyAt g == k then s
  else
    let m := s.pokeN (g * 64) (s.unveil pa (g * 64) (s.peekN (g * 64) 64))
    { s with mem := m, tags := if s.keyNum (g * 64) == k then tdel s.tags g else tset s.tags g k }

/-- Keys of the granules that a write of n bytes reaches. -/
def State.rekeyAll (s : State) (x : Xlat) (n : Nat) : State :=
  if (s.tags.isEmpty && x.step != 128) || paClass x.pa == some .host then s
  else ((List.range ((x.loc + n - 1) / 64 + 1 - x.loc / 64)).map (x.loc / 64 + ·)).foldl (fun s g => s.rekey x.pa g) s

/-- A pool descriptor as the walker reads it, through the context's own tables and with every check but KVRANGE (R344). -/
def kvDesc (s : State) (ctx va : Nat) : Except XFault (List Nat) :=
  let c := s.ctx ctx
  if 2 ^ 57 ≤ va then .error ⟨2, 5, 0, 0, 0⟩
  else
    match walk s ctx va with
    | .error f => .error f
    | .ok y =>
      let loc := s.loc c.part y.attr.mask y.pa
      if paClass y.pa != some .host && !s.keyed c.part y.pa then .error ⟨3, 0x12, 0, y.level, y.entry⟩
      else if s.badBeats.contains (loc / 64) then .error ⟨0x0E, 0, 0, placeCode y.pa loc, y.pa⟩
      else .ok ((List.range 8).map fun i => leNat (s.xlatBytes y (loc + 8 * i) 8))

/-- The KVRANGE check of a leaf (R344): the descriptors at POOLTAB read through the context's own tables. -/
def kvCheck (s : State) (ctx : Nat) (x : Xlat) : Except XFault Bool :=
  let c := s.ctx ctx
  if c.pooltab = 0 then .ok x.attr.kv
  else
    let lo := x.page
    let hi := x.page + 2 ^ x.bits
    let rec go : Nat → Bool → Bool → Except XFault Bool
      | 0, inside, ovr => .ok (if x.attr.kv then !inside else ovr)
      | k + 1, inside, ovr =>
        let va := c.pooltab + 64 * (15 - k)
        match kvDesc s ctx va with
        | .error f => .error { f with addr := va % 2 ^ 57 + 2 ^ 57 }
        | .ok d =>
          match poolRange d with
          | none => go k inside ovr
          | some (a, b) => go k (inside || (a ≤ lo && hi ≤ b)) (ovr || (lo < b && a < hi))
    go 16 false false

/-- The protection checks of a leaf, in the order of R340; the failing entry is the leaf (R353). -/
def protect (s : State) (ctx va : Nat) (write : Bool) (x : Xlat) : Except XFault Xlat :=
  if write && !x.attr.w then .error ⟨3, 0x11, va, x.level, x.entry⟩
  else if paClass x.pa != some .host && !s.keyed (s.ctx ctx).part x.pa then .error ⟨3, 0x12, va, x.level, x.entry⟩
  else match kvCheck s ctx x with
    | .error f => .error f
    | .ok true => .error ⟨3, 0x13, va, x.level, x.entry⟩
    | .ok false => .ok x

/-- TDISP states CONFIG_LOCKED, RUN and ERROR guard a partition's memory against supervisor slots (R299). -/
def Part.guarded (p : Part) : Bool := p.tdisp != .unlocked

/-- The whole path of one address: range, translation and protection of an access on behalf of a tile or engine; `actx` none is a
physical address (R298), `sup` a supervisor slot (R299). -/
def reach (s : State) (die : Nat) (actx : Option Nat) (sup : Bool) (va : Nat) (write : Bool) : Except XFault Xlat :=
  let foreign (x : Xlat) : Bool :=
    sup && (match s.partOf x.pa with | some p => (s.part p).guarded | none => false)
  match actx with
  | none =>
    if 2 ^ 57 ≤ va then .error ⟨2, 5, va % 2 ^ 57, 0, 0⟩
    else if 2 ^ 52 ≤ va || paClass va == none then .error ⟨2, 4, va % 2 ^ 57, 0, 0⟩
    else
      let x : Xlat := ⟨va, va, 2 ^ 16, ⟨true, false, false, false, false, 0⟩, va / 2 ^ 16 * 2 ^ 16, 16, 0⟩
      if foreign x then .error ⟨3, 0x12, va, 0, 0⟩ else .ok x
  | some c =>
    if 2 ^ 57 ≤ va then .error ⟨2, 5, va % 2 ^ 57, 0, 0⟩
    else
      match translate s die c va with
      | .error f => .error f
      | .ok x =>
        match protect s c va write x with
        | .error f => .error f
        | .ok y =>
          if foreign y then .error ⟨3, 0x12, va, y.level, y.entry⟩
          else .ok { y with loc := s.loc (s.ctx c).part y.attr.mask y.pa, step := if s.flat (s.ctx c).part y.attr.mask then 2 ^ 16 else 128 }

/-- A run of bytes of one page: its translation and how many bytes. -/
structure Piece where
  x : Xlat
  va : Nat
  len : Nat
deriving DecidableEq, Repr, Inhabited

/-- A range of n bytes piece by piece (R179, R330); `fuel` bounds the pieces. -/
def reachRange (s : State) (die : Nat) (actx : Option Nat) (sup write : Bool) : Nat → Nat → Nat → Except XFault (List Piece)
  | 0, _, _ => .ok []
  | fuel + 1, va, n =>
    if n = 0 then .ok []
    else
      match reach s die actx sup va write with
      | .error f => .error f
      | .ok x =>
        let k := min n (x.step - va % x.step)
        match reachRange s die actx sup write fuel (va + k) (n - k) with
        | .error f => .error f
        | .ok ps => .ok (⟨x, va, k⟩ :: ps)

/-- Translations kept in the die's caches (R331); physical accesses cache nothing. -/
def State.cacheAll (s : State) (die : Nat) (actx : Option Nat) (ps : List Piece) : State :=
  match actx with
  | none => s
  | some c =>
    ps.foldl (fun s p =>
      if s.tcache.any fun e => e.die == die && e.ctx == c && e.page == p.x.page && e.bits == p.x.bits && e.entry == p.x.entry then s
      else { s with tcache := ⟨die, c, p.x.page, p.x.bits, p.x.entry⟩ :: s.tcache }) s

/-- The uncorrectable beat among the pieces, if any, as F7 and F6 (R353, R357, R403). -/
def State.badIn (s : State) (ps : List Piece) : Option (Nat × Nat) :=
  ps.findSome? fun p =>
    ((List.range ((p.x.loc + p.len - 1) / 64 + 1 - p.x.loc / 64)).find? fun i => s.badBeats.contains (p.x.loc / 64 + i)).map fun i =>
      let loc := (p.x.loc / 64 + i) * 64
      let pa := p.x.pa + (loc - p.x.loc) - (p.x.loc - loc)
      (pa, placeCode pa loc)

/-- The same for a read that its memory reports as uncorrectable (R357). -/
def State.badRead (s : State) (bad : Bool) (ps : List Piece) : Option (Nat × Nat) :=
  if bad then some ((ps.headD default).x.pa, placeCode (ps.headD default).x.pa (ps.headD default).x.loc) else s.badIn ps

/-- The beat whose read came back uncorrectable: the error may be one of the cells, which lasts until the beat is rewritten, or of the read alone
(R357: the retry reads DRAM again). -/
def State.spoil (s : State) (bad : Bool) (ps : List Piece) : State :=
  if !bad then s
  else
    let s1 := { s with tick := s.tick + 1 }
    if Config.choice s.tick && !s.badBeats.contains ((ps.headD default).x.loc / 64) then
      { s1 with badBeats := (ps.headD default).x.loc / 64 :: s.badBeats }
    else s1

/-- Bytes of the pieces as the device sees memory. -/
def State.readPieces (s : State) (ps : List Piece) : List Byte := ps.flatMap fun p => s.xlatBytes p.x p.x.loc p.len

/-- Bytes written to a piece: through the gateways of a die, or by an engine or window, which does not snoop for a STRM page (R150). -/
def State.writePiece (s0 : State) (gate : Option Nat) (p : Piece) (bs : List Byte) : State :=
  let s := s0.rekeyAll p.x bs.length
  match gate with
  | some die => s.lineWrite die p.x.attr.strm p.x.attr.shared p.x.pa p.x.loc bs
  | none => if p.x.attr.strm then s.rawWrite p.x.loc bs else s.devWrite p.x.loc bs

/-- Bytes written to the pieces in order. -/
def State.writePieces (s : State) (gate : Option Nat) : List Piece → List Byte → State
  | [], _ => s
  | p :: ps, bs => State.writePieces (s.writePiece gate p (bs.take p.len)) gate ps (bs.drop p.len)

/-- The lines of a read through the gateways of a die enter its line part (R149, R223). -/
def State.fillLines (s : State) (die : Nat) (ps : List Piece) : State :=
  if s.linePart die == 0 then s
  else ps.foldl (fun s p => if p.x.attr.strm then s else (linesAt p.x.loc p.len).foldl (fun s l => s.shareLine die p.x.attr.shared p.x.pa l) s) s

/-- An engine's read of a range: bytes and the state with the translations cached, or the fault (R196, R330). -/
def State.engRead (s : State) (die : Nat) (actx : Option Nat) (sup : Bool) (va n : Nat) : Except XFault (List Byte × State) :=
  match reachRange s die actx sup false (n / 128 + 2) va n with
  | .error f => .error f
  | .ok ps =>
    match s.badIn ps with
    | some (pa, place) => .error ⟨0x0E, 0, va, place, pa⟩
    | none => .ok (s.readPieces ps, s.cacheAll die actx ps)

/-- An engine's write of a range, performed as it is made (R215). -/
def State.engWrite (s : State) (die : Nat) (actx : Option Nat) (sup : Bool) (va : Nat) (bs : List Byte) : Except XFault State :=
  match reachRange s die actx sup true (bs.length / 128 + 2) va bs.length with
  | .error f => .error f
  | .ok ps => .ok ((s.cacheAll die actx ps).writePieces none ps bs)

/-! The round buffer. -/

/-- Whether entry `e` was ordered before a load on canonical tile `canon` (R167, R212). -/
def precedes (ords : List Ord) (canon : Nat) (e : RbEntry) : Bool :=
  ords.any fun o => o.acc == e.access && (1 ≤ o.cap || e.canon == canon)

/-- One granule byte after one entry (R166, R181): the bytes it stores, or the atomic's new value. -/
def atomNew (op : Nat) (ty : Ty) (m v v2 : Nat) : Nat :=
  let w := ty.bits
  match op with
  | 0 => (m + v) % 2 ^ w
  | 1 => ((Val.ofBits 23 m).add .rne (Val.ofBits 23 v)).toBits 23 .rne
  | 2 => if ty.signed then (if toSigned w v < toSigned w m then v else m) else min m v
  | 3 => if ty.signed then (if toSigned w m < toSigned w v then v else m) else max m v
  | 4 => m &&& v
  | 5 => m ||| v
  | 6 => m ^^^ v
  | 7 => v
  | _ => if m = v then v2 else m

/-- A granule's 64 bytes after one entry. -/
def RbEntry.applyTo (e : RbEntry) (g : List Byte) : List Byte :=
  match e.op with
  | .store => e.bytes.foldl (fun g (o, b) => lset g o b) g
  | .atom op ty v v2 =>
    let o := (e.bytes.headD (0, 0#8)).1
    let n := ty.bits / 8
    let m := leNat ((g.drop o).take n)
    g.take o ++ leBytes n (atomNew op ty m v v2) ++ g.drop (o + n)

/-- Entries in the order of R166. -/
def RbEntry.before (a b : RbEntry) : Bool :=
  a.canon < b.canon || (a.canon == b.canon && (a.slot < b.slot || (a.slot == b.slot && a.seq ≤ b.seq)))

def insertEntry (e : RbEntry) : List RbEntry → List RbEntry
  | [] => [e]
  | x :: xs => if RbEntry.before e x && e != x then e :: x :: xs else x :: insertEntry e xs

def sortEntries (es : List RbEntry) : List RbEntry := es.foldl (fun acc e => insertEntry e acc) []

/-- The granule at a location as the view of R167 shows it to a load through a translation. -/
def State.viewGranule (s : State) (r : Region) (canon : Nat) (ords : List Ord) (x : Xlat) (g : Nat) : List Byte :=
  (sortEntries (r.entries.filter fun e => e.loc == g && precedes ords canon e)).foldl (fun m e => e.applyTo m) (s.xlatBytes x (g * 64) 64)

/-- n bytes at a translation's location in that view. -/
def State.viewBytes (s : State) (r : Region) (canon : Nat) (ords : List Ord) (x : Xlat) (n : Nat) : List Byte :=
  let g0 := x.loc / 64
  let gs := (List.range ((x.loc + n - 1) / 64 + 1 - g0)).flatMap fun i => s.viewGranule r canon ords x (g0 + i)
  (gs.drop (x.loc % 64)).take n

/-- Bytes of pieces for a load of a tile: the round-start view in DET (R167), performed memory in RELAXED (R169). -/
def State.loadPieces (s : State) (t : Nat) (ords : List Ord) (ps : List Piece) : List Byte :=
  if s.det t then ps.flatMap fun p => s.viewBytes (s.tileRegion t) (s.tile t).canon ords p.x p.len else s.readPieces ps

/-- A granule of an access: its physical number, its location's, the offsets with bytes (R165, R179), the attributes of its leaf, and the virtual address of
its first byte. -/
structure Gran where
  g : Nat
  loc : Nat
  cells : List (Nat × Byte)
  attr : Leaf4
  va : Nat
deriving DecidableEq, Repr, Inhabited

/-- The bytes of a piece cut at granules. -/
def cutGranules (attr : Leaf4) : Nat → Nat → Nat → Nat → List Byte → List Gran
  | 0, _, _, _, _ => []
  | fuel + 1, va, pa, loc, bs =>
    if bs.isEmpty then []
    else
      let k := min bs.length (64 - pa % 64)
      ⟨pa / 64, loc / 64, ((List.range k).map (pa % 64 + ·)).zip (bs.take k), attr, va⟩ ::
        cutGranules attr fuel (va + k) (pa + k) (loc + k) (bs.drop k)

def granulesOf : List Piece → List Byte → List Gran
  | [], _ => []
  | p :: ps, bs => cutGranules p.x.attr (p.len / 64 + 2) p.va p.x.pa p.x.loc (bs.take p.len) ++ granulesOf ps (bs.drop p.len)

/-- The basic default of 256 entries (R168). -/
def Ctx.rbq (c : Ctx) : Nat := if c.rbquota = 0 then 256 else c.rbquota

/-- The home slice of a granule at its location. -/
def pairSlice (g loc : Nat) : Nat × Nat := homeSlice (g * 64) (loc * 64)

/-- Round-buffer entries of one region's invocations in a slice (R165, R168). -/
def State.entriesAt (s : State) (sl : Nat × Nat) (k : Nat) : Nat := ((s.region k).entries.filter fun e => pairSlice e.granule e.loc == sl).length
def State.readsAt (s : State) (sl : Nat × Nat) (k : Nat) : Nat := ((s.region k).reads.filter fun e => pairSlice e.granule e.loc == sl).length

/-- Whether one more entry of a region in the slice of a granule passes the region's quota or finds the slice full (R168). -/
def State.rbFull (s : State) (r : Nat) (c : Gran) : Bool :=
  let sl := pairSlice c.g c.loc
  (s.ctx (s.region r).ctx).rbq ≤ ((s.family r).map (s.entriesAt sl)).foldl (· + ·) 0 ||
    2048 ≤ ((s.regions.map (·.1)).map (s.entriesAt sl)).foldl (· + ·) 0

/-- The same for the read records (R219). -/
def State.rdFull (s : State) (r : Nat) (c : Gran) : Bool :=
  let sl := pairSlice c.g c.loc
  2 * (s.ctx (s.region r).ctx).rbq ≤ ((s.family r).map (s.readsAt sl)).foldl (· + ·) 0 ||
    4096 ≤ ((s.regions.map (·.1)).map (s.readsAt sl)).foldl (· + ·) 0

end Sys2Proof.Machine
end

