-- ==== Sys2Proof/Machine/Flags.lean ====
section
/-!
DEFINITION. Predicates (R48, R119): the part has no flags register; a condition travels as a pred beat, one bit per element.
-/
namespace Sys2Proof.Machine

/-- A pred beat from booleans; bits beyond them are 0 (R48). -/
def predOf (bs : List Bool) : Payload := pack 1 (bs.map boolNat)

def predBit (x : Payload) (j : Nat) : Bool := x.getLsbD j

def allOnes (n : Nat) : Payload := BitVec.ofNat 512 (2 ^ n - 1)

/-- Some bit below n is 1. -/
def predAny (x : Payload) (n : Nat) : Bool := x.toNat % 2 ^ n != 0
/-- Every bit below n is 1. -/
def predAll (x : Payload) (n : Nat) : Bool := x.toNat % 2 ^ n == 2 ^ n - 1

/-- The tests of STEER and GATE over k bits, inverted by INV (R119). -/
def predTest (test : Nat) (inv : Bool) (k : Nat) (x : Payload) : Bool :=
  let v := match test with
    | 0 => predBit x 0
    | 1 => predAny x k
    | _ => predAll x k
  if inv then !v else v

/-- Elements of a result under a mask: where bit j is 0 the kept element (R88). -/
def maskElems (m : Payload) : List Nat → List Nat → Nat → List Nat
  | r :: rs, k :: ks, j => (if predBit m j then r else k) :: maskElems m rs ks (j + 1)
  | rs, _, _ => rs

end Sys2Proof.Machine
end

