-- ==== Sys2Proof/Machine/MxLayout.lean ====
section
/-!
DEFINITION. Matrix tokens: their operand regions (R231, R232), latencies and start cycles (R237), the epilogue words that run (R243),
and what a write to a typed buffer does to a token that is running (R236).
-/
namespace Sys2Proof

/-! Geometry (R228, R231, R232). -/

def MxTok.rows (t : MxTok) : Nat := mxDim t.mc
def MxTok.cols (t : MxTok) : Nat := mxDim t.nc
def MxTok.steps (t : MxTok) : Nat := t.kg.toNat + 1
def MxTok.gran (t : MxTok) : Nat := (mxGranule t.afmt t.wfmt).getD 128
def MxTok.aTy (t : MxTok) : Ty := (Ty.ofCode t.afmt.toNat).getD .raw
def MxTok.wTy (t : MxTok) : Ty := (Ty.ofCode t.wfmt.toNat).getD .raw

/-- Multiplications per cycle (R231). -/
def MxTok.rate (t : MxTok) : Nat :=
  if t.aTy == .bf16 then 512 else if t.aTy == .of8 || t.wTy == .of8 then 1024 else 2048

/-- Element bytes and scale bytes of a block (R232). -/
def blkBytes (t : Ty) : Nat := if t == .of8 || t == .ds8 then 128 else 64
def blkScale (t : Ty) : Nat := match t with | .of8 | .ds8 => 1 | .of4 => 2 | _ => 0

/-- Where an operand's scales and side lists begin, and its bytes in all: p rows of g blocks (R232). -/
def scalesAt (t : Ty) (p g : Nat) : Nat := p * g * blkBytes t
def sidesAt (t : Ty) (p g : Nat) : Nat := scalesAt t p g + ceilDiv (p * g * blkScale t) 64 * 64
def operandBytes (t : Ty) (p g : Nat) : Nat := sidesAt t p g + (if t == .of4 then p * g * 32 else 0)

def MxTok.aBytes (t : MxTok) : Nat := operandBytes t.aTy t.rows t.steps
def MxTok.wBytes (t : MxTok) : Nat := operandBytes t.wTy t.cols t.steps
def MxTok.cBytes (t : MxTok) : Nat := t.rows * t.cols * 4

/-- The regions of a token: buffer, first byte, bytes (R232, R239). -/
def MxTok.regions (op : Nat) (t : MxTok) : List (Nat × Nat × Nat) :=
  (if op ≤ 1 && !t.afeed then [(1, t.aoff.toNat * 64, t.aBytes)] else []) ++
    (if op ≤ 1 && !t.wfeed then [(0, t.woff.toNat * 64, t.wBytes)] else []) ++ [(2, t.coff.toNat * 64, t.cBytes)]

end Sys2Proof

namespace Sys2Proof.Machine

/-- The first region that passes the declared size of its buffer. -/
def Tile.mxOutside (x : Tile) (op : Nat) (t : MxTok) : Option (Nat × Nat) :=
  ((t.regions op).find? fun (b, a, n) => x.bufSize b < a + n).map fun (b, a, _) => (b, a)

/-! The program of a DRAIN (R242, R243). -/

/-- The words that run: up to the first END. -/
def runWords : List W16 → List W16
  | [] => []
  | w :: ws => if bitsNat w 12 4 == 0xD then [w] else w :: runWords ws

/-- The kind of rows after a word (R244). -/
def kindAfter (k : OutKind) (w : W16) : OutKind :=
  if bitsNat w 12 4 == 7 then
    (match bitsNat w 0 4 with | 0 => .f32 | 1 => .bf16 | d => .narrow ((Ty.ofCode d).getD .raw))
  else k

def OutKind.isNarrow : OutKind → Bool
  | .narrow _ => true | _ => false

/-- A-buffer bytes that a word may reach: first byte and count (R244, R246). -/
def epiRange (w : W16) (m n : Nat) : Option (Nat × Nat) :=
  let a := bitsNat w 0 12 * 64
  match bitsNat w 12 4 with
  | 2 | 3 => some (a, n * 4)
  | 4 => some (a, m * n * 2)
  | 6 => some (a, 8)
  | 8 => some (a, m * n / 128)
  | 9 | 10 => some (a, m * 4)
  | 11 => some (a, m * n * 4)
  | _ => none

/-! Timing (R237). -/

/-- Busy cycles, and cycles to completion. -/
def mxBusy (op : Nat) (t : MxTok) (prog : List W16) : Nat :=
  match op with
  | 3 => ceilDiv (t.rows * t.cols * 4) 256 + 4
  | 2 => 12 + t.rows * (runWords prog).length
  | _ => max (ceilDiv (t.rows * t.cols * (t.steps * t.gran)) t.rate) (4 * t.steps)

def mxLatency (op : Nat) (t : MxTok) (prog : List W16) : Nat := mxBusy op t prog + (if op ≤ 1 then 20 else 0)

def MxEntry.op (e : MxEntry) : Nat := bitsNat e.word 0 2
def MxEntry.tok (e : MxEntry) : MxTok := decodeTokenFields e.word

/-- The cycle at which a token may start, after the last busy period, the last completion, and whether that was a multiplication. -/
def mxStartAt (busy fin : Nat) (wasMm : Bool) (accepted op : Nat) : Nat := max accepted (if op ≤ 1 && wasMm then busy else fin)

/-- Beats that a token takes from a feed (R239). -/
def MxEntry.feedBeats (e : MxEntry) (fed : Bool) (n : Nat) : Nat := if e.op ≤ 1 && fed then ceilDiv n 64 else 0

/-- The cycle at which each queued token starts (R237), with the beats in the two feeds and what is known of the token before: busy
period, completion, and whether it was a multiplication. None for a token behind one whose feeds are not yet complete (R239). -/
def mxStarts (af wf : Nat) : List MxEntry → Option (Nat × Nat × Bool) → List (Option Nat)
  | [], _ => []
  | e :: es, prev =>
    let st := match e.started with
      | some st => some st
      | none => prev.map fun (busy, fin, wasMm) => mxStartAt busy fin wasMm e.accepted e.op
    let na := e.feedBeats e.tok.afeed e.tok.aBytes
    let nw := e.feedBeats e.tok.wfeed e.tok.wBytes
    let fin := if e.finish != 0 then some e.finish
      else if na ≤ af && nw ≤ wf then st.map (· + mxLatency e.op e.tok e.prog)
      else none
    st :: mxStarts (af - na) (wf - nw) es
      (fin.map fun f => (f - mxLatency e.op e.tok e.prog + mxBusy e.op e.tok e.prog, f, decide (e.op ≤ 1)))

def Mx.starts (m : Mx) : List (Option Nat) :=
  mxStarts m.afeed.length m.wfeed.length m.queue (some (m.lastBusy, m.lastFinish, m.lastWasMm))

/-- Whether a token has started by a cycle. -/
def startedBy (cycle : Nat) (st : Option Nat) : Bool := match st with | some x => decide (x ≤ cycle) | none => false

/-- Whether the token queue holds 4 that have not started by a cycle (R227). DEDUCED, notes/assumptions/58.md. -/
def Mx.full (m : Mx) (cycle : Nat) : Bool := 4 ≤ (m.starts.filter fun st => !startedBy cycle st).length

/-- The queued tokens, each marked where a write of some bytes falls on a region of it while it runs (R236). -/
def Mx.taint (m : Mx) (hit : MxEntry → Bool) (cycle : Nat) : List MxEntry :=
  List.zipWith (fun e st => if startedBy cycle st && hit e then { e with undef := true } else e) m.queue m.starts

/-- Whether a token reads or writes one of n bytes at a of buffer b. -/
def MxEntry.touches (b a n : Nat) (e : MxEntry) : Bool :=
  ((e.tok.regions e.op).any fun (b', a', n') => b == b' && a < a' + n' && a' < a + n) ||
    (e.op == 2 && b == 1 && (runWords e.prog).any fun w =>
      match epiRange w e.tok.rows e.tok.cols with | some (a', n') => a < a' + n' && a' < a + n | none => false)

/-- Whether one of n bytes at a of typed buffer b has an uncorrectable error (R357, R403). -/
def Tile.isSpoilt (x : Tile) (b a n : Nat) : Bool := x.spoilt.any fun (b', g) => b' == b && a < g * 64 + 64 && g * 64 < a + n

/-- What a token reads of its typed buffers: operands, C where it is not written afresh, and a program with what its words name (R232, R242–R244). -/
def MxEntry.reads (e : MxEntry) (progByte : Nat) : List (Nat × Nat × Nat) :=
  (e.tok.regions e.op).filter (fun (b, _, _) => b != 2 || e.op == 0 || e.op == 2) ++
    (if e.op == 2 then
       (1, progByte, 64) :: (runWords e.prog).filterMap fun w =>
         if [9, 10, 11].contains (bitsNat w 12 4) then none
         else (epiRange w e.tok.rows e.tok.cols).map fun (a, n) => (1, a, n)
     else [])

/-- The beats that a write of n bytes at a covers are whole again. -/
def Tile.rewrite (x : Tile) (b a n : Nat) : Tile :=
  { x with spoilt := x.spoilt.filter fun (b', g) => !(b' == b && a ≤ g * 64 && g * 64 + 64 ≤ a + n) }

/-- F6 of an uncorrectable error in a tile's SRAM or in a window (R353). -/
def sramCode : Nat := 2 ^ 11

/-- Bytes of a typed buffer written by a node or an engine: a running token that reads or writes them has undefined results (R236). -/
def Tile.bufWrite (x : Tile) (cycle b a : Nat) (bs : List Byte) : Tile :=
  let m := x.mx
  { (x.setBuf b ((x.buf b).writeN a bs)).rewrite b a bs.length with
      mx := { m with queue := m.taint (MxEntry.touches b a bs.length) cycle } }

end Sys2Proof.Machine
end

