-- ==== Sys2Proof/Machine/Operands.lean ====
section
/-!
DEFINITION. What a node reads and where its beats go: connected slots and their statuses (R9, R12), the firing condition
(R17), the absence policies (R19), immediates (R80), the targets (R77), and the frame of every firing (R18).
-/
namespace Sys2Proof.Machine

/-! The words of a block. -/

/-- The raw target fields of a node word and its extension, A B C D (R75, R79). -/
def targetFields (w : W64) (e : Option W64) : List Nat :=
  bitsNat w 38 10 :: bitsNat w 28 10 :: (match e with | some x => [bitsNat x 22 10, bitsNat x 12 10] | none => [])

/-- The position of the node that names a target, if any (R78: at most one does). -/
def producerOf (ws : List W64) (f : Nat) : Option Nat :=
  ((nodeWords ws 0).find? fun (_, w, e) => (targetFields w e).contains f).map (·.1)

def slotField (w : SlotName) (k : Nat) : Nat := w.code * 128 + k

/-- Whether an input slot has a producer (R9). -/
def Tile.connected (x : Tile) (w : SlotName) (k : Nat) : Bool := (producerOf x.words (slotField w k)).isSome

/-- The opcode at a word position, if it holds a node word (R76). -/
def opAt (ws : List W64) (k : Nat) : Option Op :=
  ((nodeWords ws 0).find? fun (j, _, _) => j == k).bind fun (_, w, _) => Op.ofCode (bitsNat w 56 8)

/-- The node at a word position with its opcode. -/
def nodeAt (ws : List W64) (k : Nat) : Option (Op × Node) :=
  match (nodeWords ws 0).find? fun (j, _, _) => j == k with
  | none => none
  | some (_, w, e) => (decodeNode w e).toOption

/-- Positions of the nodes of a block whose opcode passes a test. -/
def opsWhere (ws : List W64) (p : Op → Bool) : List Nat :=
  (nodeWords ws 0).filterMap fun (j, w, _) =>
    match Op.ofCode (bitsNat w 56 8) with
    | some o => if p o then some j else none
    | none => none

/-! Arrival of beats. -/

def NodeSt.get (n : NodeSt) (w : SlotName) : Option Beat :=
  match w with
  | .l => n.l | .r => n.r | .p => n.p

def NodeSt.put (n : NodeSt) (w : SlotName) (b : Beat) : NodeSt :=
  match w with
  | .l => { n with l := some b } | .r => { n with r := some b } | .p => { n with p := some b }

/-- The slots that hold a PRESENT beat, as bits L, R, P (R353). -/
def NodeSt.presentMask (n : NodeSt) : Nat :=
  let f (b : Option Beat) := match b with | some x => boolNat x.present | none => 0
  f n.l + 2 * f n.r + 4 * f n.p

/-- The slots with the immediate in input R, where I is set: it reads as PRESENT (R80). -/
def NodeSt.withImm (n : NodeSt) (nd : Node) : NodeSt := if nd.i then { n with r := some (Beat.val 0#512) } else n

/-- How many slots hold a PRESENT beat. -/
def NodeSt.presentCount (n : NodeSt) : Nat :=
  let f (b : Option Beat) := match b with | some x => boolNat x.present | none => 0
  f n.l + f n.r + f n.p

/-- A beat reaches an input slot of a node of its own tile (R12, R17). A second PRESENT input of a MERGEA raises MERGE_CONFLICT
as it arrives (R122); an ABSENT input of an ORP under FAULT raises ABSENT_USE as it arrives (R125). DEDUCED, notes/assumptions/13.md. -/
def State.slotArrive (s : State) (t : Nat) (w : SlotName) (k : Nat) (b : Beat) : State :=
  let x := s.tile t
  let n := (x.node k).put w b
  let s1 := s.setTile t (x.setNode k n)
  match nodeAt x.words k with
  | some (.mergea, nd) =>
    let m := n.withImm nd
    if b.present && m.presentCount == 2 then s1.raiseNode t k fun f => { f with cls := 0x06, f6 := m.presentMask } else s1
  | some (.orp, nd) =>
    if b.kind == .absent && nd.pol == .fault then s1.raiseNode t k fun f => { f with cls := 0x05 } else s1
  | _ => s1

/-- The orders of a beat that leaves a tile (R212): from there on they reach no farther than the scope of the read that made them; one that holds on that
tile alone, as the order that a read's data gives an access of the read's own tile, ends. -/
def leaveOrds (l : List Ord) : List Ord := (l.filter fun o => o.rd != 0).map fun o => { o with cap := min o.cap o.rd, rd := 5 }

/-- The accesses a beat orders, as they leave its tile (R212). -/
def Beat.leave (b : Beat) : Beat := { b with cov := leaveOrds b.cov, dcov := leaveOrds b.dcov }

/-- A beat put on the channel of an input port; a channel whose consumer is not resident (an identifier from 8192 on) carries nothing (R318). -/
def State.portSend (s : State) (d : Nat × Nat) (b : Beat) : State :=
  if 8192 ≤ d.1 then s else
  let x := s.tile d.1
  let p := x.inPort d.2
  s.setTile d.1 (x.setIn d.2 { p with flight := p.flight ++ [b] })

/-- A beat sent on an output port or done edge: to the channels it feeds; PRESENT beats of a port that feeds none wait for a write
traverse (R153). `nextOwed` counts the PRESENT beats since the restart instant (R129, R366). -/
def State.outSend (s : State) (t : Nat) (done : Bool) (k : Nat) (b : Beat) : State :=
  let x := s.tile t
  let o := if done then x.done k else x.out k
  if o.dests.isEmpty then
    if done || !b.present then s
    else if o.discard then s.setTile t { x with errCount := x.errCount + 1 }
    else s.setTile t (x.setOut k { o with q := o.q ++ [(x.beginCycle, b)], nextOwed := o.nextOwed + 1 })
  else
    let s1 := o.dests.foldl (fun s d => s.portSend d b.leave) s
    let now := if (producerOf x.words (3 * 128 + k)).isSome then x.inst else o.nextSend - 1
    if o.resize.isEmpty then s1
    else
      let s2 := (o.resize.filter fun (i, _) => i ≤ now).foldl (fun s (_, d) => o.dests.foldl (fun s p => s.portSend p (Beat.ctl 2 d)) s) s1
      s2.setTile t ((s2.tile t).setOut k { o with resize := o.resize.filter fun (i, _) => now < i })

/-- One beat to one target (R77); `k` of a delay register of the high half of a pair is given by `hi` (R89). -/
def State.sendTo (s : State) (t : Nat) (b : Beat) (tg : Target) : State :=
  match tg with
  | .slot w k => s.slotArrive t w k b
  | .out k => s.outSend t false k b
  | .done k => s.outSend t true k b
  | .dl k => let x := s.tile t; s.setTile t { x with dlN := tset x.dlN k b }
  | .mx k =>
    let x := s.tile t
    let m := x.mx
    let m' := match k with
      | 0 => { m with ctl := some b, ctlInst := x.inst, ctlCycle := s.cycle, ctlAt := x.beginCycle + 10 }
      | 1 => { m with ain := some b }
      | _ => { m with win := some b }
    s.setTile t { x with mx := m' }
  | .none => s

/-! Room (R14). -/

/-- Whether an input port's channel has a free slot. -/
def InPort.room (p : InPort) : Bool := p.flight.length + p.buf.length < p.depth

/-- A channel whose consumer is not resident holds its producer as a full one does (R318). -/
def State.destsRoom (s : State) (o : OutPort) : Bool := o.dests.all fun d => d.1 < 8192 && ((s.tile d.1).inPort d.2).room

/-- DEDUCED, notes/assumptions/17.md. -/
def Tile.targetRoom (s : State) (x : Tile) (tg : Target) : Bool :=
  match tg with
  | .out k => s.destsRoom (x.out k)
  | .done k => s.destsRoom (x.done k)
  | .mx 0 => x.mx.ctl.isNone && !x.mx.full s.cycle
  | .mx 1 => x.mx.ain.isNone && x.mx.afeed.length < 64
  | .mx _ => x.mx.win.isNone && x.mx.wfeed.length < 64
  | _ => true

def nodeTargets (n : Node) : List Target :=
  n.a :: n.b :: (match n.ext with | some e => [e.c, e.d] | none => [])

/-- The nodes that a node feeds within the instant. -/
def Tile.slotNext (x : Tile) (k : Nat) : List Nat :=
  match nodeAt x.words k with
  | some (_, n) => (nodeTargets n).filterMap fun t => match t with | .slot _ j => some j | _ => none
  | none => []

/-- What a set of nodes reaches in up to n steps. -/
def reachFrom (next : Nat → List Nat) : Nat → List Nat → List Nat → List Nat
  | 0, _, seen => seen
  | n + 1, front, seen =>
    let new := ((front.flatMap next).eraseDups).filter fun k => !seen.contains k
    if new.isEmpty then seen else reachFrom next n new (seen ++ new)

/-! Inputs. -/

/-- An input as a node sees it: unconnected, ABSENT, or PRESENT with its payload (R9, R12). -/
inductive Arg where
  | off
  | absent
  | val (x : Payload)
deriving DecidableEq, Repr, Inhabited

def Arg.isAbsent : Arg → Bool
  | .absent => true | _ => false
def Arg.isOn : Arg → Bool
  | .off => false | _ => true
def Arg.get : Arg → Payload
  | .val x => x | _ => 0#512

def argOf (b : Option Beat) : Arg :=
  match b with
  | none => .off
  | some x => if x.present then .val x.data else .absent

/-- The inputs of a firing, with what they order (R212). -/
structure Args where
  l : Arg
  r : Arg
  p : Arg
  cov : List Ord
  dcov : List Ord
  pscope : Nat
deriving DecidableEq, Repr, Inhabited

/-- The beat of an immediate R input (R80). -/
def immBeat (n : Node) : Payload := tySplat n.ty ((widenImm n.ty n.imm n.ext).getD 0)

/-- A done token's scope: byte 0, codes 5–255 as TILE (R137). -/
def tokenScope (x : Payload) : Nat := let c := bitsNat x 0 8; if c < 5 then c else 0

/-- Whether a node's own state holds data of beats of earlier instants, so that what it sends depends on them (R107, R114–R116, R123, R212, R255). -/
def Local.gathers (l : Local) : Bool :=
  match l with
  | .collect _ | .rowstat _ _ | .rowbuf _ _ | .rowscl _ _ _ | .hash _ => true
  | _ => false

/-- The inputs of a node: its beats, and the immediate in place of R under I (R80). -/
def Tile.args (x : Tile) (n : Node) (k : Nat) : Args :=
  let st := x.node k
  let on (w : SlotName) : Option Beat := if x.connected w k then st.get w else none
  let bs := [on .l, on .r, on .p].filterMap id
  let r := if n.i then Arg.val (immBeat n) else argOf (on .r)
  let ps := match on .p with
    | some b => if b.present then (b.dcov.map fun o => { o with cap := min o.cap (tokenScope b.data) }) else []
    | none => []
  { l := argOf (on .l), r := r, p := argOf (on .p), cov := bs.foldl (fun a b => lunion a b.cov) st.cov,
    dcov := ps, pscope := match on .p with | some b => tokenScope b.data | none => 0 }

/-- Whether every connected slot is resolved (R17). -/
def Tile.resolved (x : Tile) (k : Nat) : Bool :=
  [SlotName.l, .r, .p].all fun w => !x.connected w k || ((x.node k).get w).isSome

/-! Firing. -/

/-- What a firing sends (R18, R89, R117, R172); `stop`: the node has raised a fault and sends nothing. -/
inductive Out where
  | same (b : Beat)
  | pair (lo hi : Beat)
  | split (ac bd : Beat)
  | absentUse
  | stop
deriving DecidableEq, Repr, Inhabited

/-- Whether a node may fire at all: its tile is in an instant, the region runs or finishes its last instant (R350), the node has
not fired and is not stopped. -/
def State.mayFire (s : State) (t k : Nat) : Bool :=
  let x := s.tile t
  let n := x.node k
  x.begun && k < x.nodes.length && !n.fired && !n.stopped && !(s.ctlHalt && decide (4096 ≤ t)) &&
    (let ph := (s.region x.region).phase; ph == .running || ph == .stopped) && !s.dying x.region

/-- The whole condition of an ordinary firing (R14, R17). -/
def State.ready (s : State) (n : Node) (t k : Nat) : Bool :=
  s.mayFire t k && (s.tile t).resolved k && (nodeTargets n).all (Tile.targetRoom s (s.tile t))

/-- The bookkeeping of a firing: the node has fired and its region's watchdog restarts (R18, R28). -/
def State.markFired (s : State) (t k : Nat) : State :=
  let x := s.tile t
  let n := x.node k
  let cov := if n.loc.gathers then [n.l, n.r, n.p].foldl (fun c b => match b with | some b => lunion c b.cov | none => c) n.cov else []
  let s1 := s.setTile t (x.setNode k { n with fired := true, issued := false, cov := cov })
  let r := s1.region x.region
  s1.setRegion x.region (s1.rewatch { r with firedInst := true })

/-- The beats of a firing to the targets A, B, C, D (R18, R79, R89). -/
def State.emit (s : State) (t k : Nat) (n : Node) (o : Out) : State :=
  let c := match n.ext with | some e => e.c | none => .none
  let d := match n.ext with | some e => e.d | none => .none
  match o with
  | .same b => (nodeTargets n).foldl (fun s tg => s.sendTo t b tg) (s.markFired t k)
  | .split x y =>
    ((((s.markFired t k).sendTo t x n.a).sendTo t y n.b).sendTo t x c).sendTo t y d
  | .pair lo hi =>
    let one (s : State) (b : Beat) (tg : Target) : State :=
      match tg with
      | .dl j => (s.sendTo t lo (.dl j)).sendTo t hi (.dl (j + 1))
      | _ => s.sendTo t b tg
    one (one (one (one (s.markFired t k) lo n.a) hi n.b) lo c) hi d
  | .absentUse => s.raiseNode t k fun f => { f with cls := 0x05 }
  | .stop => s

/-- The firing of a node whose result depends on its inputs alone: waits until it is ready, then sends what `f` gives (R17, R18, R87). -/
def fireNode (n : Node) (s : State) (f : Args → Out) : State :=
  match s.cursor with
  | .node t k => if s.ready n t k then s.emit t k n (f ((s.tile t).args n k)) else s
  | _ => s

/-- The firing of a node that also reads or changes its tile, region or context: `f` gives the state after its effect and what it
sends, or none when the node waits. -/
def fireWith (n : Node) (s : State) (f : Nat → Nat → Args → Option (State × Out)) : State :=
  match s.cursor with
  | .node t k =>
    if s.ready n t k then
      match f t k ((s.tile t).args n k) with
      | none => s
      | some (s1, o) => s1.emit t k n o
    else s
  | _ => s

/-- A node's own state, replaced (R32). -/
def State.setLoc (s : State) (t k : Nat) (l : Local) : State :=
  let x := s.tile t
  s.setTile t (x.setNode k { x.node k with loc := l })

/-! The absence policies (R19). -/

/-- A value result, carrying what the inputs order. -/
def Args.out (a : Args) (x : Payload) : Out := .same (Beat.val x a.cov)

/-- Data inputs under a policy with no identity: ABSENT_USE under FAULT, ABSENT otherwise, else the result (R19). -/
def noIdent (n : Node) (ins : List Arg) (res : Out) : Out :=
  if ins.any Arg.isAbsent then (if n.pol == .fault then .absentUse else .same Beat.none) else res

/-- A trigger or data input L without identity (R117). -/
def onTrigger (n : Node) (a : Args) (res : Out) : Out := noIdent n [a.l] res

/-- Two data inputs with identities: `f` is given the operands that are PRESENT (R19, R90). -/
def withIdent (n : Node) (l r : Arg) (f : Option Payload → Option Payload → Option Out) : Out :=
  match l, r with
  | .val x, .val y => (f (some x) (some y)).getD (.same Beat.none)
  | .val x, _ =>
    if n.pol == .fault then .absentUse else if n.pol == .ident then (f (some x) none).getD (.same Beat.none) else .same Beat.none
  | _, .val y =>
    if n.pol == .fault then .absentUse else if n.pol == .ident then (f none (some y)).getD (.same Beat.none) else .same Beat.none
  | _, _ => if n.pol == .fault then .absentUse else .same Beat.none

end Sys2Proof.Machine
end

