-- ==== Sys2Proof/Machine/IntNodes.lean ====
section
/-!
DEFINITION. The integer nodes (R87–R91, R99–R101).
-/
namespace Sys2Proof.Machine

/-- Least and greatest patterns of an integer type (R49). -/
def intMin (t : Ty) : Nat := if t.signed then 2 ^ (t.bits - 1) else 0
def intMax (t : Ty) : Nat := if t.signed then 2 ^ (t.bits - 1) - 1 else 2 ^ t.bits - 1

/-- The integer an element stands for. -/
def intOf (t : Ty) (x : Nat) : Int := if t.signed then toSigned t.bits x else (x : Int)

/-- l < r by the type's signedness. -/
def intLt (t : Ty) (a b : Nat) : Bool := decide (intOf t a < intOf t b)

/-- A node whose data inputs are L and R and whose P is a mask, computed element by element; `idL`, `idR` are the identities where
the table gives them (R88, R90, R99, R100). -/
def laneMask2 (n : Node) (idL idR : Option Nat) (f : Nat → Nat → Nat) (a : Args) : Out :=
  if a.p.isAbsent then .same Beat.none
  else
    withIdent n a.l a.r fun x y =>
      let run (x y : Payload) : Out :=
        let ls := tyElems n.ty x
        let res := List.zipWith f ls (tyElems n.ty y)
        a.out (tyPack n.ty (match a.p with | .val m => maskElems m res ls 0 | _ => res))
      match x, y with
      | some x, some y => some (run x y)
      | some x, none => idR.map fun e => run x (tySplat n.ty e)
      | none, some y => idL.map fun e => run (tySplat n.ty e) y
      | none, none => none

/-- One data input and a mask (R88, R99). -/
def laneMask1 (n : Node) (f : Nat → Nat) (a : Args) : Out :=
  if a.p.isAbsent then .same Beat.none
  else
    noIdent n [a.l]
      (let ls := tyElems n.ty a.l.get
       let res := ls.map f
       a.out (tyPack n.ty (match a.p with | .val m => maskElems m res ls 0 | _ => res)))

/-- A comparison: pred result, masked bits 0 (R88, R99). -/
def laneCmp (n : Node) (f : Nat → Nat → Bool) (a : Args) : Out :=
  if a.p.isAbsent then .same Beat.none
  else
    noIdent n [a.l, a.r]
      (let bs := List.zipWith f (tyElems n.ty a.l.get) (tyElems n.ty a.r.get)
       let x := predOf bs
       a.out (match a.p with | .val m => x &&& m | _ => x))

/-- A bitwise operation: element by element under a mask, or on all 512 bits for pred and raw (R99, R100). -/
def bitwise2 (n : Node) (id : Nat) (f : Payload → Payload → Payload) (g : Nat → Nat → Nat) (a : Args) : Out :=
  if n.ty == .pred || n.ty == .raw then
    withIdent n a.l a.r fun x y =>
      let e : Payload := if id = 0 then 0#512 else BitVec.allOnes 512
      match x, y with
      | none, none => none
      | _, _ => some (a.out (f (x.getD e) (y.getD e)))
  else laneMask2 n (some (if id = 0 then 0 else 2 ^ n.ty.bits - 1)) (some (if id = 0 then 0 else 2 ^ n.ty.bits - 1)) g a

/-- Leading zero bits of a w-bit pattern (R99). -/
def clzOf (w x : Nat) : Nat := if x = 0 then w else w - 1 - lg x

/-- One bits among the low n. -/
def popcOf : Nat → Nat → Nat
  | 0, _ => 0
  | n + 1, x => x % 2 + popcOf n (x / 2)

/-- Arithmetic right shift; by w or more every bit is the top bit (R99). -/
def sarOf (w x k : Nat) : Nat := ofSigned w (toSigned w x / ((2 ^ min k w : Nat) : Int))

/-- Left rotation by k mod w (R99). -/
def rotOf (w x k : Nat) : Nat := let r := k % w; (x * 2 ^ r + x / 2 ^ (w - r)) % 2 ^ w

/-- The CMP kinds (R99). -/
def cmpKind (t : Ty) (kind : Nat) (a b : Nat) : Bool :=
  match kind with
  | 0 => a == b
  | 1 => a != b
  | 2 => intLt t a b
  | 3 => !intLt t b a
  | 4 => intLt t b a
  | _ => !intLt t a b

/-- The value of an integer element clamped to the type's range (R101). -/
def satOf (t : Ty) (x : Int) : Nat := ofSigned t.bits (clampInt t.signed t.bits x)

/-- High w bits of the exact product (R101). -/
def mulhOf (t : Ty) (a b : Nat) : Nat := ofSigned t.bits (intOf t a * intOf t b / ((2 ^ t.bits : Nat) : Int))

abbrev Res := Host.Outcome State Fault Refusal

def execAdd (n : Node) (s : State) : Res :=
  .next (fireNode n s (laneMask2 n (some 0) (some 0) fun a b => (a + b) % 2 ^ n.ty.bits))
def execSub (n : Node) (s : State) : Res :=
  .next (fireNode n s (laneMask2 n none (some 0) fun a b => (a + 2 ^ n.ty.bits - b) % 2 ^ n.ty.bits))
def execMul (n : Node) (s : State) : Res :=
  .next (fireNode n s (laneMask2 n (some 1) (some 1) fun a b => (a * b) % 2 ^ n.ty.bits))
def execMulh (n : Node) (s : State) : Res :=
  .next (fireNode n s (laneMask2 n none none (mulhOf n.ty)))

/-- MAD: three data inputs with identities 1, 1, 0 (R99). -/
def madOut (n : Node) (a : Args) : Out :=
  let ins := [a.l, a.r, a.p]
  if ins.all Arg.isAbsent then (if n.pol == .fault then .absentUse else .same Beat.none)
  else if ins.any Arg.isAbsent && n.pol == .fault then .absentUse
  else if ins.any Arg.isAbsent && n.pol == .prop then .same Beat.none
  else
    let sub (x : Arg) (e : Nat) : List Nat := match x with | .val y => tyElems n.ty y | _ => List.replicate n.ty.elems e
    a.out (tyPack n.ty (List.zipWith (fun lr p => (lr + p) % 2 ^ n.ty.bits)
      (List.zipWith (fun l r => l * r) (sub a.l 1) (sub a.r 1)) (sub a.p 0)))

def execMad (n : Node) (s : State) : Res := .next (fireNode n s (madOut n))
def execAnd (n : Node) (s : State) : Res := .next (fireNode n s (bitwise2 n 1 (· &&& ·) (· &&& ·)))
def execOr (n : Node) (s : State) : Res := .next (fireNode n s (bitwise2 n 0 (· ||| ·) (· ||| ·)))
def execXor (n : Node) (s : State) : Res := .next (fireNode n s (bitwise2 n 0 (· ^^^ ·) (· ^^^ ·)))

/-- NOT acts on 512 bits for pred and raw; it has no identity (R99, R100). On pred the result's bits beyond the 512 of the type do not exist. -/
def notOut (n : Node) (a : Args) : Out :=
  if n.ty == .pred || n.ty == .raw then noIdent n [a.l] (a.out (~~~ a.l.get))
  else laneMask1 n (fun x => 2 ^ n.ty.bits - 1 - x) a

def execNot (n : Node) (s : State) : Res := .next (fireNode n s (notOut n))
def execShl (n : Node) (s : State) : Res :=
  .next (fireNode n s (laneMask2 n none (some 0) fun a b => if b < n.ty.bits then (a * 2 ^ b) % 2 ^ n.ty.bits else 0))
def execShr (n : Node) (s : State) : Res :=
  .next (fireNode n s (laneMask2 n none (some 0) fun a b => if b < n.ty.bits then a / 2 ^ b else 0))
def execSar (n : Node) (s : State) : Res :=
  .next (fireNode n s (laneMask2 n none (some 0) (sarOf n.ty.bits)))
def execRot (n : Node) (s : State) : Res :=
  .next (fireNode n s (laneMask2 n none (some 0) (rotOf n.ty.bits)))
def execMin (n : Node) (s : State) : Res :=
  .next (fireNode n s (laneMask2 n (some (intMax n.ty)) (some (intMax n.ty)) fun a b => if intLt n.ty b a then b else a))
def execMax (n : Node) (s : State) : Res :=
  .next (fireNode n s (laneMask2 n (some (intMin n.ty)) (some (intMin n.ty)) fun a b => if intLt n.ty a b then b else a))
def execAbs (n : Node) (s : State) : Res :=
  .next (fireNode n s (laneMask1 n fun a => ofSigned n.ty.bits (((intOf n.ty a).natAbs : Nat) : Int)))
def execNeg (n : Node) (s : State) : Res :=
  .next (fireNode n s (laneMask1 n fun a => (2 ^ n.ty.bits - a) % 2 ^ n.ty.bits))
def execClz (n : Node) (s : State) : Res := .next (fireNode n s (laneMask1 n (clzOf n.ty.bits)))
def execPopc (n : Node) (s : State) : Res := .next (fireNode n s (laneMask1 n (popcOf n.ty.bits)))
def execCmp (n : Node) (s : State) : Res := .next (fireNode n s (laneCmp n (cmpKind n.ty n.mod.toNat)))

/-- SEL picks whole elements by P, which is a predicate (R99). -/
def selOut (n : Node) (a : Args) : Out :=
  if a.p.isAbsent then .same Beat.none
  else
    noIdent n [a.l, a.r]
      (let ls := tyElems n.ty a.l.get
       a.out (tyPack n.ty (maskElems a.p.get ls (tyElems n.ty a.r.get) 0)))

def execSel (n : Node) (s : State) : Res := .next (fireNode n s (selOut n))
def execAdds (n : Node) (s : State) : Res :=
  .next (fireNode n s (laneMask2 n (some 0) (some 0) fun a b => satOf n.ty (intOf n.ty a + intOf n.ty b)))
def execSubs (n : Node) (s : State) : Res :=
  .next (fireNode n s (laneMask2 n none (some 0) fun a b => satOf n.ty (intOf n.ty a - intOf n.ty b)))

end Sys2Proof.Machine
end

