-- ==== Sys2Proof/Machine/FloatNodes.lean ====
section
/-!
DEFINITION. The floating-point nodes (R51–R53, R90, R102–R104).
-/
namespace Sys2Proof.Machine

def nodeRnd (n : Node) : Rnd := Rnd.ofCode n.mod.toNat

/-- An element with every NaN made canonical (R50, R90). -/
def canonNan (mb x : Nat) : Nat := if (Val.ofBits mb x).isNan then nanBits mb else x

/-- FADD, FSUB, FMUL: an absent operand leaves the other unchanged but for a canonical NaN; a masked element whose L is absent takes
the present operand too (R88, R90). -/
def fArith (n : Node) (identL : Bool) (f : Val → Val → Val) (a : Args) : Out :=
  let mb := fracBits n.ty
  if a.p.isAbsent then .same Beat.none
  else
    withIdent n a.l a.r fun x y =>
      match x, y with
      | some x, some y =>
        let ls := tyElems n.ty x
        let res := List.zipWith (fun l r => (f (Val.ofBits mb l) (Val.ofBits mb r)).toBits mb (nodeRnd n)) ls (tyElems n.ty y)
        some (a.out (tyPack n.ty (match a.p with | .val m => maskElems m res ls 0 | _ => res)))
      | some x, none =>
        let ls := tyElems n.ty x
        let res := ls.map (canonNan mb)
        some (a.out (tyPack n.ty (match a.p with | .val m => maskElems m res ls 0 | _ => res)))
      | none, some y => if identL then some (a.out (tyPack n.ty ((tyElems n.ty y).map (canonNan mb)))) else none
      | none, none => none

def execFadd (n : Node) (s : State) : Res := .next (fireNode n s (fArith n true (Val.add (nodeRnd n))))
def execFsub (n : Node) (s : State) : Res := .next (fireNode n s (fArith n false fun a b => Val.add (nodeRnd n) a b.neg))
def execFmul (n : Node) (s : State) : Res := .next (fireNode n s (fArith n true Val.mul))

/-- FFMA: one rounding; identities 1, 1 and no addend (R102, R103). -/
def ffmaOut (n : Node) (a : Args) : Out :=
  let mb := fracBits n.ty
  let ins := [a.l, a.r, a.p]
  if ins.all Arg.isAbsent then (if n.pol == .fault then .absentUse else .same Beat.none)
  else if ins.any Arg.isAbsent && n.pol == .fault then .absentUse
  else if ins.any Arg.isAbsent && n.pol == .prop then .same Beat.none
  else
    let one := (⟨false, 1, 0⟩ : Dy).toBits mb .rne
    let sub (x : Arg) : List Nat := match x with | .val y => tyElems n.ty y | _ => List.replicate n.ty.elems one
    let ps := List.zipWith (fun l r => Val.mul (Val.ofBits mb l) (Val.ofBits mb r)) (sub a.l) (sub a.r)
    a.out (tyPack n.ty
      (match a.p with
       | .val y => List.zipWith (fun v p => (Val.add (nodeRnd n) v (Val.ofBits mb p)).toBits mb (nodeRnd n)) ps (tyElems n.ty y)
       | _ => ps.map fun v => v.toBits mb (nodeRnd n)))

def execFfma (n : Node) (s : State) : Res := .next (fireNode n s (ffmaOut n))

/-- The order of R102: −0 < +0; NaN gives the canonical NaN. -/
def fminBits (mb l r : Nat) : Nat :=
  let a := Val.ofBits mb l
  let b := Val.ofBits mb r
  if a.isNan || b.isNan then nanBits mb
  else if a.lt b then l else if b.lt a then r else if a.sign then l else r

def fmaxBits (mb l r : Nat) : Nat :=
  let a := Val.ofBits mb l
  let b := Val.ofBits mb r
  if a.isNan || b.isNan then nanBits mb
  else if a.lt b then r else if b.lt a then l else if a.sign then r else l

def execFmin (n : Node) (s : State) : Res :=
  let mb := fracBits n.ty
  .next (fireNode n s (laneMask2 n (some (infBits mb false)) (some (infBits mb false)) (fminBits mb)))
def execFmax (n : Node) (s : State) : Res :=
  let mb := fracBits n.ty
  .next (fireNode n s (laneMask2 n (some (infBits mb true)) (some (infBits mb true)) (fmaxBits mb)))

def fabsBits (mb x : Nat) : Nat := if (Val.ofBits mb x).isNan then nanBits mb else x % 2 ^ (mb + 8)
def fnegBits (mb x : Nat) : Nat := if (Val.ofBits mb x).isNan then nanBits mb else (x + 2 ^ (mb + 8)) % 2 ^ (mb + 9)

def execFabs (n : Node) (s : State) : Res := .next (fireNode n s (laneMask1 n (fabsBits (fracBits n.ty))))
def execFneg (n : Node) (s : State) : Res := .next (fireNode n s (laneMask1 n (fnegBits (fracBits n.ty))))

/-- The FCMP kinds (R102). -/
def fcmpKind (mb kind l r : Nat) : Bool :=
  let a := Val.ofBits mb l
  let b := Val.ofBits mb r
  match kind with
  | 0 => a.eqv b
  | 1 => a.lt b
  | 2 => a.lt b || a.eqv b
  | _ => a.isNan || b.isNan

def execFcmp (n : Node) (s : State) : Res := .next (fireNode n s (laneCmp n (fcmpKind (fracBits n.ty) n.mod.toNat)))

/-- A function of one element (R53). -/
def fUnary (n : Node) (f : Nat → Rnd → Val → Nat) : Args → Out :=
  laneMask1 n fun x => f (fracBits n.ty) (nodeRnd n) (Val.ofBits (fracBits n.ty) x)

def execFrcp (n : Node) (s : State) : Res := .next (fireNode n s (fUnary n frcpBits))
def execFsqrt (n : Node) (s : State) : Res := .next (fireNode n s (fUnary n fsqrtBits))
def execFrsq (n : Node) (s : State) : Res := .next (fireNode n s (fUnary n frsqBits))
def execFexp2 (n : Node) (s : State) : Res := .next (fireNode n s (fUnary n fexp2Bits))
def execFlog2 (n : Node) (s : State) : Res := .next (fireNode n s (fUnary n flog2Bits))
def execFtanh (n : Node) (s : State) : Res := .next (fireNode n s (fUnary n ftanhBits))

/-- The class bit of R104. -/
def fclassBits (mb x : Nat) : Nat :=
  let s := x / 2 ^ (mb + 8) % 2 == 1
  let e := x / 2 ^ mb % 256
  let f := x % 2 ^ mb
  if e = 255 then (if f = 0 then (if s then 1 else 128) else 256)
  else if e = 0 then (if f = 0 then (if s then 8 else 16) else if s then 4 else 32)
  else if s then 2 else 64

/-- FCLASS: n32 or n16 elements, masked elements 0 (R88, R104). -/
def fclassOut (n : Node) (a : Args) : Out :=
  if a.p.isAbsent then .same Beat.none
  else
    noIdent n [a.l]
      (let res := (tyElems n.ty a.l.get).map (fclassBits (fracBits n.ty))
       a.out (tyPack n.ty (match a.p with | .val m => maskElems m res (res.map fun _ => 0) 0 | _ => res)))

def execFclass (n : Node) (s : State) : Res := .next (fireNode n s (fclassOut n))

end Sys2Proof.Machine
end

