-- ==== Sys2Proof/Machine/Narrow.lean ====
section
/-!
DEFINITION. The narrow formats of8, of4, ds8 with their block scales: decoding (R54–R60), choice of a scale (R61), block
conversion with escapes (R62–R64).
-/
namespace Sys2Proof.Machine

/-- The value of a code of a narrow format without its scale (R54–R56); the of8 NaN codes and the of4 escape have none here. -/
def narrowVal (t : Ty) (c : Nat) : Dy :=
  match t with
  | .of8 =>
    let e := (c / 8) % 16
    let m := c % 8
    if e = 0 then ⟨128 ≤ c, m, -9⟩ else ⟨128 ≤ c, 8 + m, (e : Int) - 10⟩
  | .of4 =>
    let e := (c / 2) % 4
    let m := c % 2
    if e = 0 then ⟨8 ≤ c, m, -1⟩ else ⟨8 ≤ c, 2 + m, (e : Int) - 2⟩
  | _ =>
    let term (s k : Nat) : Int := if k = 7 then 0 else if s = 1 then -((2 ^ (6 - k) : Nat) : Int) else ((2 ^ (6 - k) : Nat) : Int)
    Dy.ofUnits false (term (c / 128 % 2) (c / 16 % 8) + term (c / 8 % 2) (c % 8)) (-6)

/-- Largest finite magnitude: 448 = 7 × 2^6, 6 = 3 × 2, 2 (R61). -/
def narrowMax (t : Ty) : Dy :=
  match t with
  | .of8 => ⟨false, 7, 6⟩ | .of4 => ⟨false, 3, 1⟩ | _ => ⟨false, 1, 1⟩

/-- Decode of a block's elements in order (R59); `out` the bf16 outliers, `cnt` their count. -/
def decodeBlockAux (t : Ty) (scale cnt : Nat) (allZero : Bool) (out : List Nat) : List Nat → Nat → List Val
  | [], _ => []
  | c :: cs, i =>
    if t == .of4 && c == 8 then
      (if i < cnt then Val.ofBits 7 (out.getD i 0) else .nan) :: decodeBlockAux t scale cnt allZero out cs (i + 1)
    else
      (if scale == 255 || (t != .ds8 && allZero) || (t == .of8 && c % 128 == 127) then Val.nan
       else .fin { narrowVal t c with e := (narrowVal t c).e + scale - 127 }) :: decodeBlockAux t scale cnt allZero out cs i

def decodeBlock (t : Ty) (codes : List Nat) (scale cnt : Nat) (out : List Nat) : List Val :=
  decodeBlockAux t scale cnt (codes.all (· == 0)) out codes 0

/-- The greatest finite magnitude among the elements whose index is not in `esc`. -/
def maxMag (esc : List Nat) : List Val → Nat → Dy → Dy
  | [], _, m => m
  | .fin d :: vs, i, m => maxMag esc vs (i + 1) (if !esc.contains i && m.magLt d then { d with neg := false } else m)
  | _ :: vs, i, m => maxMag esc vs (i + 1) m

/-- The block scale of R61. -/
def bscale (t : Ty) (xs : List Val) (esc : List Nat) : Nat :=
  if t == .ds8 && xs.any Val.isNan then 255
  else
    let m := maxMag esc xs 0 ⟨false, 0, 0⟩
    if m.m = 0 then 127
    else
      let f := narrowMax t
      let l : Int := (lg m.m : Int) + m.e - ((lg f.m : Int) + f.e)
      let e := if Dy.lt { f with e := f.e + l } m then l + 1 else l
      (max 0 (min 254 (e + 127))).toNat

/-- The magnitudes, in units of 2^−6, that two ds8 terms reach (R56). -/
def ds8Mags : List Nat :=
  (List.range 129).filter fun v =>
    v == 0 || (List.range 7).any fun a => v == 2 ^ a || (List.range 7).any fun b => v == 2 ^ a + 2 ^ b || v + 2 ^ b == 2 ^ a

/-- The canonical ds8 code of a magnitude in units of 2^−6 (R56). -/
def ds8Code (neg : Bool) (v : Nat) : Nat :=
  let s := if neg then 1 else 0
  if v = 0 then 0x77
  else
    match (List.range 7).find? fun k => 2 ^ (6 - k) == v with
    | some k => s * 128 + k * 16 + 7
    | none =>
      match (List.range 49).find? fun i => 2 ^ (6 - i / 7) + 2 ^ (6 - i % 7) == v with
      | some i => s * 128 + (i / 7) * 16 + s * 8 + i % 7
      | none =>
        match (List.range 49).find? fun i => 2 ^ (6 - i / 7) == v + 2 ^ (6 - i % 7) with
        | some i => s * 128 + (i / 7) * 16 + (1 - s) * 8 + i % 7
        | none => 0x77

/-- A magnitude rounded to the ds8 set (R62): the two neighbours of d in the set and the mode choose. -/
def ds8Round (r : Rnd) (d : Dy) : Nat :=
  let mag := { d with neg := false }
  let at_ (v : Nat) : Dy := ⟨false, v, -6⟩
  let lo := (ds8Mags.filter fun v => !mag.lt (at_ v)).foldl max 0
  if mag.eqv (at_ lo) || lo == 128 then lo
  else
    let hi := (ds8Mags.filter fun v => lo < v).foldl min 128
    let up :=
      match r with
      | .rne => Dy.lt ⟨false, lo + hi, -7⟩ mag
      | .rtz => false
      | .rup => !d.neg
      | .rdn => d.neg
    if up then hi else lo

/-- One element under scale v (R62): its code, and whether it overflowed. -/
def narrowElem (t : Ty) (r : Rnd) (satn : Bool) (v : Nat) : Val → Nat × Bool
  | .nan => (if t == .of8 then 0x7F else if t == .of4 then 0 else 0x77, false)
  | .inf n =>
    (match t with
     | .of8 => if satn then 0x7F else (if n then 0xFE else 0x7E)
     | .of4 => if n then 15 else 7
     | _ => ds8Code n 128, true)
  | .fin d0 =>
    let d := { d0 with e := d0.e + 127 - v }
    match t with
    | .of8 =>
      let c := magCode 3 (-9) r d false
      if 0x7E < c then (if satn then 0x7F else (if d.neg then 0xFE else 0x7E), true)
      else (if c = 0 then 0 else (if d.neg then 128 + c else c), false)
    | .of4 =>
      let c := magCode 1 (-1) r d false
      if 7 < c then (if d.neg then 15 else 7, true)
      else (if c = 0 then 0 else (if d.neg then 8 + c else c), false)
    | _ =>
      if Dy.lt ⟨false, 128, -6⟩ { d with neg := false } then (ds8Code d.neg 128, true)
      else (ds8Code d.neg (ds8Round r d), false)

/-- A converted block: scale, element codes, outliers (16 slots) and their count. -/
structure Block where
  scale : Nat
  codes : List Nat
  out : List Nat
  cnt : Nat
deriving DecidableEq, Repr, Inhabited

/-- Indices at which a test holds, in order. -/
def indicesOf (p : Val → Bool) : List Val → Nat → List Nat
  | [], _ => []
  | x :: xs, i => if p x then i :: indicesOf p xs (i + 1) else indicesOf p xs (i + 1)

/-- The index of the largest nonzero error among those not yet escaped, the lower index on a tie (R63 step 3). -/
def worstError (esc : List Nat) : List Dy → Nat → Option (Nat × Dy) → Option Nat
  | [], _, best => best.map (·.1)
  | d :: ds, i, best =>
    if d.m == 0 || esc.contains i then worstError esc ds (i + 1) best
    else match best with
      | none => worstError esc ds (i + 1) (some (i, d))
      | some (j, b) => worstError esc ds (i + 1) (if b.magLt d then some (i, d) else some (j, b))

/-- Escapes added until `n` exist (R63 step 3). -/
def addEscapes (errs : List Dy) : Nat → List Nat → List Nat
  | 0, esc => esc
  | k + 1, esc =>
    match worstError esc errs 0 none with
    | none => esc
    | some i => addEscapes errs k (i :: esc)

/-- A run of codes with the escapes written 1000 and the rest from `cs`. -/
def withEscapes (esc : List Nat) (z : Bool) : List Nat → Nat → List Nat
  | [], _ => []
  | c :: cs, i => (if esc.contains i then 8 else if z then 0 else c) :: withEscapes esc z cs (i + 1)

/-- The outliers of the escaped elements in element order (R63 step 4). -/
def outliersOf (esc : List Nat) : List Val → Nat → List Nat
  | [], _ => []
  | x :: xs, i => if esc.contains i then x.toBits 7 .rne :: outliersOf esc xs (i + 1) else outliersOf esc xs (i + 1)

def pad16 (xs : List Nat) : List Nat := xs ++ List.replicate (16 - xs.length) 0

/-- The conversion of 128 values to a block of a narrow format with escape limit n (R61–R64). -/
def encodeBlock (t : Ty) (r : Rnd) (satn : Bool) (n : Nat) (xs : List Val) : Block :=
  match t with
  | .of4 =>
    let special := indicesOf Val.isNan xs 0 ++ indicesOf (fun x => match x with | .inf _ => true | _ => false) xs 0
    if n < special.length then
      let esc := special.take n
      ⟨255, withEscapes esc true (xs.map fun _ => 0) 0, pad16 (outliersOf esc xs 0), n⟩
    else
      let v := bscale .of4 xs special
      let cs := xs.map (narrowElem .of4 r satn v)
      let ovr := (indicesOf (fun _ => true) xs 0).any fun i => !special.contains i && (cs.getD i (0, false)).2
      let codes := cs.map (·.1)
      if satn && ovr then
        ⟨255, withEscapes special true codes 0, pad16 (outliersOf special xs 0), special.length⟩
      else
        let errs := (xs.zip codes).map fun (x, c) =>
          match x with
          | .fin d => d.add .rne { narrowVal .of4 c with neg := !(narrowVal .of4 c).neg, e := (narrowVal .of4 c).e + v - 127 }
          | _ => ⟨false, 0, 0⟩
        let esc := addEscapes errs (n - special.length) special
        let codes' := withEscapes esc false codes 0
        if codes'.all (· == 0) then ⟨v, 8 :: codes'.drop 1, pad16 [0], 1⟩
        else ⟨v, codes', pad16 (outliersOf esc xs 0), esc.length⟩
  | .of8 =>
    let v := bscale .of8 xs []
    let codes := xs.map fun x => (narrowElem .of8 r satn v x).1
    if codes.all (· == 0) then ⟨v, 0x80 :: codes.drop 1, pad16 [], 0⟩ else ⟨v, codes, pad16 [], 0⟩
  | _ =>
    let v := bscale .ds8 xs []
    let cs := xs.map (narrowElem .ds8 r satn v)
    if v = 255 || (satn && cs.any (·.2)) then ⟨255, xs.map fun _ => 0x77, pad16 [], 0⟩
    else ⟨v, cs.map (·.1), pad16 [], 0⟩

end Sys2Proof.Machine
end

