-- ==== Sys2Proof/Machine/ConvNodes.lean ====
section
/-!
DEFINITION. The conversion nodes CVT, BSCALE, OFESC, PACK and UNPACK (R58–R65, R105–R110).
-/
namespace Sys2Proof.Machine

/-- The exact value of an element of a float or integer type. -/
def elemVal (t : Ty) (x : Nat) : Val := if t.isFloat then Val.ofBits (fracBits t) x else Val.ofInt (intOf t x)

/-- One element converted between types that are not block-scaled (R65). -/
def convElem (src dst : Ty) (r : Rnd) (x : Nat) : Nat :=
  if dst.isFloat then (elemVal src x).toBits (fracBits dst) r
  else if src.isFloat then ofSigned dst.bits ((elemVal src x).toInt r dst.signed dst.bits)
  else satOf dst (intOf src x)

/-- Elements p × d to p × d + d − 1. -/
def part (d p : Nat) (xs : List α) : List α := (xs.drop (p * d)).take d

/-- A block as two or one element beats with its scale or side beat (R106). -/
structure BlockBeats where
  l : Payload
  r : Payload
  p : Payload
deriving DecidableEq, Repr, Inhabited

/-- The 128 exact values of a block read through L, R and P (R59, R106). -/
def readBlock (t : Ty) (l r p : Payload) : List Val :=
  match t with
  | .of4 =>
    decodeBlock .of4 (tyElems .of4 l) (bitsNat p 8 8) (bitsNat p 4 4)
      ((List.range 16).map fun i => bitsNat p (8 * (32 + 2 * i)) 16)
  | _ => decodeBlock t (tyElems t l ++ tyElems t r) (bitsNat p 0 8) 0 []

/-- The scale beat and the side beat of a block (R106). -/
def scaleBeat (b : Block) : Payload := BitVec.ofNat 512 b.scale
def sideBeat (b : Block) : Payload :=
  BitVec.ofNat 512 (b.scale * 256 + b.cnt * 16 + 2 ^ 256 * packNat 16 b.out)

/-- The two beats an encode emits (R106). -/
def blockPair (t : Ty) (b : Block) : Payload × Payload :=
  match t with
  | .of4 => (pack 4 b.codes, sideBeat b)
  | _ => (pack 8 (b.codes.take 64), pack 8 (b.codes.drop 64))

def nodeSrc (n : Node) : Ty := (Ty.ofCode (bitsNat n.aux 0 4)).getD .raw
def nodePart (n : Node) : Nat := bitsNat n.aux 4 3
def nodePair (n : Node) : Bool := bitAt n.aux 7
def satn (n : Node) : Bool := bitAt n.mod 2

/-- Collecting a block (R107): the values so far, and the block when it is complete. -/
def collect (src : Ty) (l : Local) (x : Payload) : Local × Option (List Val) :=
  let got := (match l with | .collect bs => bs | _ => []) ++ [x]
  if got.length < 128 / src.elems then (.collect got, none)
  else (.idle, some (got.flatMap fun b => (tyElems src b).map (Val.ofBits (fracBits src))))

/-- The block an Encode or Re-encode forms in this firing, with the node's state after it (R106–R109). -/
def blockIn (n : Node) (l : Local) (a : Args) : Local × Option (List Val) :=
  let src := nodeSrc n
  if src.isBlock then (l, some (readBlock src a.l.get a.r.get a.p.get))
  else collect src l a.l.get

def pairNone : Out := .pair Beat.none Beat.none

/-- Encode and re-encode with an escape limit (R107, R109): `res` makes the beats of the finished block. -/
def encodeNode' (n : Node) (limit : Nat) (absentOut : Out) (res : Args → Block → Out) (t k : Nat) (s : State) (a : Args) :
    Option (State × Out) :=
  let ins := if (nodeSrc n).isBlock then [a.l, a.r, a.p] else [a.l]
  if ins.any Arg.isAbsent then some (s, if n.pol == .fault then .absentUse else absentOut)
  else
    let (l', vs) := blockIn n ((s.tile t).node k).loc a
    some (s.setLoc t k l',
      match vs with
      | none => absentOut
      | some xs => res a (encodeBlock n.ty (nodeRnd n) (satn n) limit xs))

def pairOut (n : Node) (a : Args) (b : Block) : Out :=
  let p := blockPair n.ty b
  .pair (Beat.val p.1 a.cov) (Beat.val p.2 a.cov)

/-- One part of a result, or two as a pair (R89, R106). -/
def partsOut (n : Node) (a : Args) (f : Nat → Payload) : Out :=
  let p := nodePart n
  if nodePair n then .pair (Beat.val (f p) a.cov) (Beat.val (f (p + 1)) a.cov) else a.out (f p)

/-- CVT between types that are not block-scaled: same width, widening or narrowing; decode of a block (R106). -/
def cvtOut (n : Node) (a : Args) : Out :=
  let src := nodeSrc n
  let none' : Out := if nodePair n then pairNone else .same Beat.none
  if [a.l, a.r, a.p].any Arg.isAbsent then (if n.pol == .fault then .absentUse else none')
  else if src.isBlock then
    let vs := readBlock src a.l.get a.r.get a.p.get
    partsOut n a fun p => tyPack n.ty ((part n.ty.elems p vs).map fun v => v.toBits (fracBits n.ty) (nodeRnd n))
  else
    let conv := (tyElems src a.l.get).map (convElem src n.ty (nodeRnd n))
    if n.ty.elems ≤ src.elems then partsOut n a fun p => tyPack n.ty (part n.ty.elems p conv)
    else
      let base := match a.r with | .val y => tyElems n.ty y | _ => List.replicate n.ty.elems 0
      partsOut n a fun p => tyPack n.ty (base.take (p * src.elems) ++ conv ++ base.drop (p * src.elems + src.elems))

def execCvt (n : Node) (s : State) : Res :=
  .next (if n.ty.isBlock then fireWith n s fun t k a => encodeNode' n 0 pairNone (pairOut n) t k s a
         else fireNode n s (cvtOut n))

def execBscale (n : Node) (s : State) : Res :=
  .next (fireWith n s fun t k a => encodeNode' n n.imm.toNat (.same Beat.none) (fun a b => a.out (scaleBeat b)) t k s a)

def execOfesc (n : Node) (s : State) : Res :=
  .next (fireWith n s fun t k a => encodeNode' n n.imm.toNat pairNone (pairOut n) t k s a)

/-- PACK (R110): L gives the low half of the narrow elements, R the high half. -/
def packOut (n : Node) (a : Args) : Out :=
  noIdent n [a.l, a.r]
    (let w := 2 * n.ty.bits
     let one (x : Nat) : Nat :=
       if n.mod == 1#4 then ofSigned n.ty.bits (clampInt n.ty.signed n.ty.bits (if n.ty.signed then toSigned w x else (x : Int)))
       else x % 2 ^ n.ty.bits
     a.out (tyPack n.ty ((elems w (n.ty.elems / 2) a.l.get ++ elems w (n.ty.elems / 2) a.r.get).map one)))

def execPack (n : Node) (s : State) : Res := .next (fireNode n s (packOut n))

/-- UNPACK (R110): the halves widened, as a pair. -/
def unpackOut (n : Node) (a : Args) : Out :=
  if a.l.isAbsent then (if n.pol == .fault then .absentUse else pairNone)
  else
    let w := 2 * n.ty.bits
    let xs := (tyElems n.ty a.l.get).map fun x => ofSigned w (intOf n.ty x)
    .pair (Beat.val (pack w (xs.take (n.ty.elems / 2))) a.cov) (Beat.val (pack w (xs.drop (n.ty.elems / 2))) a.cov)

def execUnpack (n : Node) (s : State) : Res := .next (fireNode n s (unpackOut n))

end Sys2Proof.Machine
end

