-- ==== Sys2Proof/Machine/LaneRow.lean ====
section
/-!
DEFINITION. Lane and row nodes (R68, R69, R111–R116).
-/
namespace Sys2Proof.Machine

/-- One level of the pairwise tree of R68. -/
def treeLevel (f : Nat → Nat → Nat) : List Nat → List Nat
  | a :: b :: xs => f a b :: treeLevel f xs
  | xs => xs

/-- The pairwise tree of R68 over `levels` levels. -/
def treeRed (f : Nat → Nat → Nat) : Nat → List Nat → Nat
  | 0, xs => xs.headD 0
  | k + 1, xs => treeRed f k (treeLevel f xs)

/-! Reductions split by a header (R70). -/

/-- One level of the tree over parts: an empty part leaves the other operand as it is, and two empty ones stay empty. -/
def partLevel (f : Nat → Nat → Nat) : List (Option Nat) → List (Option Nat)
  | some a :: some b :: xs => some (f a b) :: partLevel f xs
  | a :: b :: xs => a.or b :: partLevel f xs
  | xs => xs

def partTree (f : Nat → Nat → Nat) : Nat → List (Option Nat) → Option Nat
  | 0, xs => xs.headD none
  | k + 1, xs => partTree f k (partLevel f xs)

/-- The parts of a reduction over some operands split into 2^split: part p has the indices from p × c, c of them, and is reduced in its element's own order. -/
def splitParts (own : List Nat → Nat) (split : Nat) (xs : List Nat) : List (Option Nat) :=
  let c := ceilDiv xs.length (2 ^ split)
  (List.range (2 ^ split)).map fun p => let ys := (xs.drop (p * c)).take c; if ys.isEmpty then none else some (own ys)

/-- A reduction split by the header field split (R70). The spec names no element whose reduction the header governs: LRED, ROWSTAT and the epilogue fix their
own order (R68, R69), and a group's commands split by rank (R204). DESIGN CHOICE, notes/assumptions/97.md. -/
def splitRed (f : Nat → Nat → Nat) (own : List Nat → Nat) (split : Nat) (xs : List Nat) : Option Nat := partTree f split (splitParts own split xs)

/-- The steps of the inclusive scan of R68 after element 0. -/
def scanFrom (f : Nat → Nat → Nat) : Nat → List Nat → List Nat
  | _, [] => []
  | acc, x :: xs => f acc x :: scanFrom f (f acc x) xs

/-- The inclusive scan of R68 (R111); element 0 is passed as it stands, a NaN with its payload, since no operation makes it (R50). DESIGN CHOICE,
notes/assumptions/95.md. -/
def scanRed (f : Nat → Nat → Nat) : List Nat → List Nat
  | [] => []
  | x :: xs => x :: scanFrom f x xs

/-- f32 or bf16 addition, rounded once (R52). -/
def faddBits (mb : Nat) (r : Rnd) (x y : Nat) : Nat := ((Val.ofBits mb x).add r (Val.ofBits mb y)).toBits mb r
def fmulBits (mb : Nat) (r : Rnd) (x y : Nat) : Nat := ((Val.ofBits mb x).mul (Val.ofBits mb y)).toBits mb r
def fsubBits (mb : Nat) (r : Rnd) (x y : Nat) : Nat := ((Val.ofBits mb x).add r (Val.ofBits mb y).neg).toBits mb r

/-- The combining operation of LRED and LSCAN (R111): 0 SUM, 1 MAX, 2 MIN, 3 AND, 4 OR, 5 XOR. -/
def redOp (t : Ty) (kind : Nat) (r : Rnd) : Nat → Nat → Nat :=
  let mb := fracBits t
  match kind with
  | 0 => if t.isFloat then faddBits mb r else fun a b => (a + b) % 2 ^ t.bits
  | 1 => if t.isFloat then fmaxBits mb else fun a b => if intLt t a b then b else a
  | 2 => if t.isFloat then fminBits mb else fun a b => if intLt t b a then b else a
  | 3 => (· &&& ·)
  | 4 => (· ||| ·)
  | _ => (· ^^^ ·)

/-- LRED: the tree's value in element 0 (R111). A beat of one element is its own reduction. -/
def lredOut (n : Node) (a : Args) : Out :=
  onTrigger n a (a.out (tyPack n.ty [treeRed (redOp n.ty n.mod.toNat (Rnd.ofCode n.aux.toNat)) (lg n.ty.elems) (tyElems n.ty a.l.get)]))

def lscanOut (n : Node) (a : Args) : Out :=
  onTrigger n a (a.out (tyPack n.ty (scanRed (redOp n.ty n.mod.toNat (Rnd.ofCode n.aux.toNat)) (tyElems n.ty a.l.get))))

def execLred (n : Node) (s : State) : Res := .next (fireNode n s (lredOut n))
def execLscan (n : Node) (s : State) : Res := .next (fireNode n s (lscanOut n))
def execLbcast (n : Node) (s : State) : Res :=
  .next (fireNode n s fun a => onTrigger n a (a.out (tySplat n.ty ((tyElems n.ty a.l.get).getD n.imm.toNat 0))))

/-- G of a REORD (R113). -/
def reordG (n : Node) : Nat := if n.mod == 0#4 then n.ty.elems else n.aux.toNat

/-- Output beat t of a group's permutation (R113). -/
def reordBeat (n : Node) (prev : List Beat) (t : Nat) : Payload :=
  let at_ (i : Nat) : Payload := (prev.getD i Beat.none).data
  match n.mod.toNat with
  | 0 => tyPack n.ty ((List.range n.ty.elems).map fun j => (tyElems n.ty (at_ j)).getD t 0)
  | 1 => at_ (reordG n - 1 - t)
  | _ => at_ (t * n.imm.toNat % reordG n)

def execReord (n : Node) (s : State) : Res :=
  .next (fireWith n s fun t k a =>
    if a.l.isAbsent && n.pol == .fault then some (s, .absentUse)
    else
      let (cur, prev) := match ((s.tile t).node k).loc with | .reord c p => (c, p) | _ => ([], [])
      let i := cur.length
      let out : Out :=
        if prev.isEmpty || prev.any (fun b => !b.present) then .same Beat.none
        else .same (Beat.val (reordBeat n prev i) (prev.foldl (fun c b => lunion c b.cov) a.cov))
      let b := match a.l with | .val x => Beat.val x a.cov | _ => Beat.none
      let cur' := cur ++ [b]
      some (s.setLoc t k (if cur'.length = reordG n then .reord [] cur' else .reord cur' prev), out))

/-- The statistic of one beat (R69, R115): 0 SUM, 1 MAX, 2 SUMSQ. -/
def beatStat (kind : Nat) (x : Payload) : Nat :=
  let xs := tyElems .f32 x
  match kind with
  | 1 => treeRed (fmaxBits 23) 4 xs
  | 2 => treeRed (faddBits 23 .rne) 4 (xs.map fun e => fmulBits 23 .rne e e)
  | _ => treeRed (faddBits 23 .rne) 4 xs

def execRowstat (n : Node) (s : State) : Res :=
  .next (fireWith n s fun t k a =>
    let kind := n.mod.toNat
    let ident : Payload := splat32 (if kind = 1 then infBits 23 true else 0)
    let step (x : Payload) : State × Out :=
      let (c, acc) := match ((s.tile t).node k).loc with | .rowstat c acc => (c, acc) | _ => (0, 0)
      let v := beatStat kind x
      let acc' := if c = 0 then v else if kind = 1 then fmaxBits 23 acc v else faddBits 23 .rne acc v
      if c + 1 = n.imm.toNat then (s.setLoc t k .idle, a.out (splat32 acc'))
      else (s.setLoc t k (.rowstat (c + 1) acc'), .same Beat.none)
    match a.l with
    | .val x => some (step x)
    | _ =>
      match n.pol with
      | .fault => some (s, .absentUse)
      | .ident => some (step ident)
      | .prop => some (s, .same Beat.none))

/-- Length B and A-buffer base of a ROWBUF (R114). -/
def rowLen (n : Node) : Nat := n.imm.toNat % 1024
def rowBase (n : Node) : Nat := n.imm.toNat / 1024 * 4096

def rowState (l : Local) : Nat × Nat := match l with | .rowbuf r q => (r, q) | _ => (0, 0)

/-- ROWBUF: its store is in the A-buffer at once, as a matrix node's or an engine's is, for the rule gives BUFWR alone the end of the instant (R97, R115).
DESIGN CHOICE, notes/assumptions/95.md. -/
def execRowbuf (n : Node) (s : State) : Res :=
  .next (fireWith n s fun t k a =>
    match a.l with
    | .val x =>
      let (rows, q) := rowState ((s.tile t).node k).loc
      let b := rowLen n
      let y := s.tile t
      let s1 := s.setTile t (y.bufWrite s.cycle 1 (rowBase n + ((rows % 2) * b + q) * 64) (payBytes 64 x))
      some (s1.setLoc t k (if q + 1 = b then .rowbuf (rows + 1) 0 else .rowbuf rows (q + 1)), a.out x)
    | _ => some (s, if n.pol == .fault then .absentUse else .same Beat.none))

/-- The ROWBUF of a unit in a block (R114). -/
def rowbufOf (ws : List W64) (u : Nat) : Option (Nat × Node) :=
  (nodeWords ws 0).findSome? fun (j, w, e) =>
    match decodeNode w e with
    | .ok (.rowbuf, n) => if n.aux.toNat % 4 = u then some (j, n) else none
    | _ => none

/-- One released beat (R116): 0 MUL, 1 ADD, 2 SUB, 3 SUBEXP. -/
def rowScale (mode s x : Nat) : Nat :=
  match mode with
  | 0 => fmulBits 23 .rne x s
  | 1 => faddBits 23 .rne x s
  | 2 => fsubBits 23 .rne x s
  | _ => fexp2Bits 23 .rne (Val.ofBits 23 (fmulBits 23 .rne (fsubBits 23 .rne x s) 0x3FB8AA3B))

def execRowscl (n : Node) (s : State) : Res :=
  .next (fireWith n s fun t k a =>
    match rowbufOf (s.tile t).words (n.aux.toNat % 4) with
    | none => none
    | some (j, rb) =>
      if !((s.tile t).node j).fired then none
      else
        let b := rowLen rb
        let c := (rowState ((s.tile t).node j).loc).1
        let cur := ((s.tile t).node k).loc
        let rel := match a.l with
          | .val x => some ((c + 1) % 2 * boolNat (c != 0), 0, lane32 x 0)
          | _ => match cur with | .rowscl h q v => some (h, q, v) | _ => none
        match rel with
        | none => some (s, .same Beat.none)
        | some (h, q, v) =>
          let x := (s.tile t).a.readN (rowBase rb + (h * b + q) * 64) 64
          let ys := (tyElems .f32 (payOf x)).map (rowScale n.mod.toNat v)
          some (s.setLoc t k (if q + 1 = b then .idle else .rowscl h (q + 1) v), .same (Beat.val (tyPack .f32 ys) (lunion a.cov ((s.tile t).node j).cov))))

end Sys2Proof.Machine
end

