-- ==== Sys2Proof/Machine/Moves.lean ====
section
/-!
DEFINITION. Moves and ports: IN, MOV, CONST, LANEI, DLRD, SXLD, SXST, BUFRD, BUFWR (R15, R21, R92–R98, R152, R197).
-/
namespace Sys2Proof.Machine

/-- Whether instants of a tile's region before n may still issue a command: an ENG node of the region that has not fired for
them (R152, R197). -/
def State.engPending (s : State) (r n : Nat) : Bool :=
  (s.region r).tiles.any fun t =>
    let x := s.tile t
    (opsWhere x.words (fun o => o == .eng)).any fun k =>
      x.inst + 1 < n || (x.inst < n && !(x.node k).fired)

/-- The endpoint of a command as W6 gives it, W4 of a REPLAY: kind, canonical index, port (R155, R201, R266); commands that name no endpoint have none. -/
def cmdEndpoint (ws : List W64) : Option (Nat × Nat × Nat) :=
  match ws with
  | [h, _, _, _, w4, w5, w6, _] =>
    let cls := bitsNat h 56 8
    let kind := bitsNat h 48 8
    let e (w : W64) := some (bitsNat w 0 2, bitsNat w 2 13, bitsNat w 15 4)
    if cls == 1 then e w6
    else if cls == 2 && bitAt w5 24 then e w6
    else if cls == 6 && kind == 7 then e w4
    else none
  | _ => none

/-- Whether a command issued before instant n that names this port still waits for its check (R152). -/
def State.uncheckedFor (s : State) (t k n : Nat) : Bool :=
  let x := s.tile t
  (s.ctx (s.cmdCtx t)).queues.any fun (_, q) => q.entries.any fun c =>
    c.region == x.region && c.phase == .queued && (c.inst < n || c.bound) &&
      (match cmdEndpoint c.words with
       | some (kind, canon, port) => (kind == 2) || (kind == 0 && canon == x.canon && port == k)
       | none => false)

/-- Whether a token of an instant before n may still be accepted: its beat waits at the matrix node (R227, R238). -/
def Tile.tokenPending (x : Tile) (n : Nat) : Bool :=
  match x.mx.ctl with | some b => b.present && x.mx.ctlInst < n | none => false

/-- Whether the legend has an entry that delivers at an input port (R93, R159). -/
def Tile.bound (x : Tile) (k : Nat) : Bool := (tget? x.inPorts k).isSome

/-- What an input port reads in instant n: ABSENT at a port that the legend does not bind; else nothing yet, or a beat with the port after it (R12, R15, R93, R152, R197). -/
def State.portRead (s : State) (t k n : Nat) : Option (Beat × InPort) :=
  let p := (s.tile t).inPort k
  if !(s.tile t).bound k then some (Beat.none, p)
  else if p.sampled then some (p.latched.getD Beat.none, { p with latched := none })
  else match p.bind with
    | .channel =>
      (match p.buf with
       | b :: bs => if b.kind == .value || b.kind == .absent then some (b, { p with buf := bs }) else none
       | [] => none)
    | _ =>
      (match tget? p.arrived n with
       | some b => some (b, { p with arrived := tdel p.arrived n, due := p.due.filter fun o => !(o.start + o.count ≤ n + 1) })
       | none =>
         match p.due.find? fun o => o.start ≤ n && n < o.start + o.count with
         | some o => if o.dead then some (Beat.none, p) else none
         | none =>
           if s.engPending (s.tile t).region n || s.uncheckedFor t k n || (p.bind == .engine 4 && (s.tile t).tokenPending n) then none
           else some (Beat.none, p))

def execIn (n : Node) (s : State) : Res :=
  .next (fireWith n s fun t _ _ =>
    let k := n.aux.toNat % 16
    match s.portRead t k (s.tile t).inst with
    | none => none
    | some (b, p) => some (s.setTile t ((s.tile t).setIn k p), .same b))

/-- MOV: L unchanged (R93). -/
def execMov (n : Node) (s : State) : Res :=
  .next (fireNode n s fun a => onTrigger n a (a.out a.l.get))

def execConst (n : Node) (s : State) : Res :=
  .next (fireNode n s fun a => a.out (immBeat n))

def execLanei (n : Node) (s : State) : Res :=
  .next (fireNode n s fun a =>
    a.out (tyPack n.ty ((List.range n.ty.elems).map fun j => ((widenImm n.ty n.imm n.ext).getD 0 + j) % 2 ^ n.ty.bits)))

/-- A delay register as it reads in the tile's instant (R21). -/
def Tile.dlRead (x : Tile) (k : Nat) : Beat := tget Beat.none x.dl k

def execDlrd (n : Node) (s : State) : Res :=
  .next (fireWith n s fun t _ _ =>
    let k := n.aux.toNat % 64
    let x := s.tile t
    some (s, if bitAt n.aux 7 then .pair (x.dlRead k) (x.dlRead (k + 1)) else .same (x.dlRead k)))

/-- A soft-token register as it stood at the start of the instant (R95). -/
def Tile.sxRead (x : Tile) (k : Nat) : Payload := tget 0#512 x.sx k

def execSxld (n : Node) (s : State) : Res :=
  .next (fireWith n s fun t _ a => some (s, a.out ((s.tile t).sxRead (n.aux.toNat % 8))))

/-- A write of a soft-token register, in force from the end of the tile's instant (R95). -/
def State.sxWrite (s : State) (t k : Nat) (x : Payload) : State :=
  let y := s.tile t
  s.setTile t { y with sxN := tset y.sxN k x }

def execSxst (n : Node) (s : State) : Res :=
  .next (fireWith n s fun t _ a =>
    match a.l with
    | .val x => some (s.sxWrite t (n.aux.toNat % 8) x, a.out x)
    | _ => some (s, onTrigger n a (.same Beat.none)))

/-- The byte offset of BUFRD and BUFWR (R96); none when the index is ABSENT. A BUFWR whose I is set takes imm16 both as its base and as the immediate
index of R80, so that they add. DESIGN CHOICE, notes/assumptions/95.md. -/
def bufOffset (n : Node) (idx : Arg) : Option Nat :=
  match idx with
  | .off => some (n.imm.toNat * 64)
  | .val x => some ((n.imm.toNat + lane32 x 0) * 64)
  | .absent => none

/-- A BUFRANGE fault at a node (R73, R353). -/
def State.bufRange (s : State) (t k buf off : Nat) : State :=
  s.raiseNode t k fun f => { f with cls := 0x0D, f6 := buf + off % 2 ^ 24 * 256 }

/-- A read of SRAM that cannot be corrected: no data is delivered, and the tile is due for a spare (R357, R405). -/
def State.sramError (s : State) (t k : Nat) : State :=
  (s.setTile t { s.tile t with spareDue := true }).raiseNode t k fun f => { f with cls := 0x0E, f6 := sramCode }

def execBufrd (n : Node) (s : State) : Res :=
  .next (fireWith n s fun t k a =>
    let b := n.aux.toNat % 4
    match bufOffset n a.l with
    | none => some (s, onTrigger n a (.same Beat.none))
    | some off =>
      if (s.tile t).bufSize b < off + 64 then some (s.bufRange t k b off, .stop)
      else if (s.tile t).isSpoilt b off 64 then some (s.sramError t k, .stop)
      else some (s, a.out (payOf (((s.tile t).buf b).readN off 64))))

/-- BUFWR: the range is checked before the data is looked at (R96); in force from the end of the instant, the higher word position last (R97). -/
def execBufwr (n : Node) (s : State) : Res :=
  .next (fireWith n s fun t k a =>
    let b := n.aux.toNat % 4
    match bufOffset n a.r with
    | none => some (s, noIdent n [a.l, a.r] (.same Beat.none))
    | some off =>
        if (s.tile t).bufSize b < off + 64 then some (s.bufRange t k b off, .stop)
        else if a.l.isAbsent then some (s, noIdent n [a.l, a.r] (.same Beat.none))
        else
          let x := s.tile t
          some (s.setTile t { x with bufN := x.bufN ++ [(k, b, off, a.l.get)] }, a.out a.l.get))

end Sys2Proof.Machine
end

