-- ==== Sys2Proof/Machine/Control.lean ====
section
/-!
DEFINITION. Control, loop-counter, identity and round nodes (R117–R131).
-/
namespace Sys2Proof.Machine

/-- The L beat sent unchanged when PRESENT, ABSENT otherwise. -/
def passL (a : Args) : Out :=
  match a.l with | .val x => a.out x | _ => .same Beat.none

def nodeTest (n : Node) (x : Payload) : Bool := predTest n.mod.toNat (bitAt n.aux 0) n.ty.elems x

/-- STEER (R120). -/
def steerOut (n : Node) (a : Args) : Out :=
  match a.l, a.p with
  | .val x, .val p =>
    if nodeTest n p then .split (Beat.val x a.cov) Beat.none else .split Beat.none (Beat.val x a.cov)
  | _, _ => .split Beat.none Beat.none

def execSteer (n : Node) (s : State) : Res := .next (fireNode n s (steerOut n))

/-- GATE (R120). -/
def gateOut (n : Node) (a : Args) : Out :=
  match a.l, a.p with
  | .val x, .val p => if nodeTest n p then a.out x else .same Beat.none
  | _, _ => .same Beat.none

def execGate (n : Node) (s : State) : Res := .next (fireNode n s (gateOut n))

/-- The PRESENT inputs in the order L, R, P. -/
def Args.presents (a : Args) : List Payload :=
  [a.l, a.r, a.p].filterMap fun x => match x with | .val y => some y | _ => none

def execMerge (n : Node) (s : State) : Res :=
  .next (fireWith n s fun t k a =>
    match a.presents with
    | [] => some (s, .same Beat.none)
    | [x] => some (s, a.out x)
    | x :: _ =>
      if n.mod == 0#4 then
        some (s.raiseNode t k fun f => { f with cls := 0x06, f6 := (((s.tile t).node k).withImm n).presentMask }, .stop)
      else some (s, a.out x))

/-- An early firing (R17): `f` gives the result once it may fire on the inputs resolved so far. -/
def fireEarly (n : Node) (s : State) (f : Bool → Args → Option Out) : State :=
  match s.cursor with
  | .node t k =>
    let x := s.tile t
    if s.mayFire t k && (nodeTargets n).all (Tile.targetRoom s x) then
      match f (x.resolved k) (x.args n k) with
      | some o => s.emit t k n o
      | none => s
    else s
  | _ => s

/-- MERGEA fires on any PRESENT input, or on all ABSENT (R122). -/
def mergeaOut (all : Bool) (a : Args) : Option Out :=
  match a.presents with
  | x :: _ => some (a.out x)
  | [] => if all then some (.same Beat.none) else none

def execMergea (n : Node) (s : State) : Res := .next (fireEarly n s mergeaOut)

def execCarry (n : Node) (s : State) : Res :=
  .next (fireWith n s fun t k a =>
    let clear := match a.p with | .val x => predBit x 0 | _ => false
    let h := match ((s.tile t).node k).loc with | .carry b => if clear then none else some b | _ => none
    match a.l, h with
    | .val x, _ => some (s.setLoc t k (.carry (Beat.val x a.cov)), a.out x)
    | _, some b => some (s.setLoc t k (.carry b), .same b)
    | _, none => some (s.setLoc t k .idle, .same Beat.none))

def execPres (n : Node) (s : State) : Res :=
  .next (fireNode n s fun a => a.out (match a.l with | .val _ => allOnes 512 | _ => 0#512))
def execAbsn (n : Node) (s : State) : Res :=
  .next (fireNode n s fun a => a.out (match a.l with | .val _ => 0#512 | _ => allOnes 512))

/-- DFLT (R124). -/
def dfltOut (a : Args) : Out :=
  match a.l, a.r with
  | .val x, _ => a.out x
  | _, .val y => a.out y
  | _, _ => .same Beat.none

def execDflt (n : Node) (s : State) : Res := .next (fireNode n s dfltOut)

/-- ORP over bits 0 to n − 1 (R125); an ABSENT input under FAULT has raised ABSENT_USE as it arrived. With I set, imm16 is both n − 1 and the immediate
of R (R80, R118). DESIGN CHOICE, notes/assumptions/95.md. -/
def orpOut (n : Node) (all : Bool) (a : Args) : Option Out :=
  let bits := n.imm.toNat + 1
  if a.presents.any fun x => predAny x bits then some (a.out (allOnes bits))
  else if !all then none
  else if [a.l, a.r, a.p].any Arg.isAbsent then
    some (match n.pol with | .prop => .same Beat.none | .ident => a.out 0#512 | .fault => .absentUse)
  else some (a.out 0#512)

def execOrp (n : Node) (s : State) : Res := .next (fireEarly n s (orpOut n))

/-- A loop counter as at the start of the instant (R126). -/
def Tile.lcRead (x : Tile) (k : Nat) : Nat := tget 0 x.lc k

def execNest (n : Node) (s : State) : Res :=
  .next (fireWith n s fun t _ a =>
    match a.l with
    | .val x =>
      let y := s.tile t
      let k := n.aux.toNat % 4
      let c := y.lcRead k
      let wrap := c + 1 == n.imm.toNat + 1
      some (s.setTile t { y with lcN := tset y.lcN k (if wrap then 0 else c + 1) },
        .split (Beat.val (splat32 c) a.cov) (if wrap then Beat.val x a.cov else Beat.none))
    | _ => some (s, if n.pol == .fault then .absentUse else .split Beat.none Beat.none))

def execLcrd (n : Node) (s : State) : Res :=
  .next (fireWith n s fun t _ a => some (s, a.out (splat32 ((s.tile t).lcRead (n.aux.toNat % 4)))))

def execInst (n : Node) (s : State) : Res :=
  .next (fireWith n s fun t _ a => some (s, a.out (tySplat .n64 (s.tile t).inst)))

/-- CYC: cycles since round start as of the instant's start (R39, R41). -/
def execCyc (n : Node) (s : State) : Res :=
  .next (fireWith n s fun t _ a =>
    some (s, a.out (tySplat .n64 (((s.tile t).inst - (s.tileRegion t).roundBase) * (s.tile t).hdr.period))))

def execCores (n : Node) (s : State) : Res :=
  .next (fireWith n s fun t _ a =>
    some (s, a.out (splat32 (if s.det t then (s.tileRegion t).canon else (s.home (s.tile t).region).allTiles.length))))

def execTileid (n : Node) (s : State) : Res :=
  .next (fireWith n s fun t _ a =>
    some (s, a.out (splat32 (if n.mod == 0#4 || s.det t then (s.tile t).canon else t))))

def execRegid (n : Node) (s : State) : Res :=
  .next (fireWith n s fun t _ a =>
    let leaf := (s.tile t).leaf
    some (s, a.out (lanes32 [leaf, tget 0 (s.home (s.tile t).region).doneInv leaf])))

/-- A round ends after instant n (R31); the earliest instant stands. -/
def Region.endRound (r : Region) (n : Nat) : Region :=
  { r with ended := some (match r.ended with | some m => min m n | none => n) }

def execMerid (n : Node) (s : State) : Res :=
  .next (fireWith n s fun t _ a =>
    match a.l with
    | .val _ =>
      some (s.setRegion (s.tile t).region ((s.tileRegion t).endRound (s.tile t).inst), passL a)
    | _ => some (s, onTrigger n a (.same Beat.none)))

def execEnd (n : Node) (s : State) : Res :=
  .next (fireWith n s fun t k a =>
    match a.l with
    | .val x =>
      let r := (s.tileRegion t).endRound (s.tile t).inst
      let c := (s.tile t).canon
      let better := !r.ending || c < r.exit.1 || (c == r.exit.1 && k < r.exit.2.1)
      some (s.setRegion (s.tile t).region
        { r with ending := true, exit := if better then (c, k, lane32 x 0) else r.exit }, passL a)
    | _ => some (s, onTrigger n a (.same Beat.none)))

def execRmark (n : Node) (s : State) : Res :=
  .next (fireWith n s fun t k a =>
    match a.l with
    | .val _ =>
      let x := s.tile t
      some (if x.hdr.acr && x.hdr.restart == k then s.setTile t { x with mark := some x.inst } else s, passL a)
    | _ => some (s, onTrigger n a (.same Beat.none)))

/-- RESIZE: the CONTROL beat goes directly behind the port's beat of this instant (R131). -/
def execResize (n : Node) (s : State) : Res :=
  .next (fireWith n s fun t _ a =>
    match a.l with
    | .val x =>
      let k := n.aux.toNat % 16
      let d := min (lane32 x 0) 32
      if d = 0 then some (s, passL a)
      else
        let y := s.tile t
        let o := y.out k
        let sent := match producerOf y.words (3 * 128 + k) with | some j => (y.node j).fired | none => y.inst < o.nextSend
        some (if sent then o.dests.foldl (fun s p => s.portSend p (Beat.ctl 2 d)) s
              else s.setTile t (y.setOut k { o with resize := o.resize ++ [(y.inst, d)] }), passL a)
    | _ => some (s, onTrigger n a (.same Beat.none)))

end Sys2Proof.Machine
end

