-- ==== Sys2Proof/Machine/Sync.lean ====
section
/-!
DEFINITION. Semaphores, done tokens, fences, traps and breakpoints (R132–R141).
-/
namespace Sys2Proof.Machine

/-- The releases a SEMSIG of a scope carries: the accesses that its P covers, at the narrower scope (R136). -/
def sigRel (scope region : Nat) (a : Args) : List (Ord × Nat) :=
  a.dcov.map fun o => ({ o with cap := min o.cap scope }, region)

/-- The SEMSIG and SEMSET nodes of a block on one semaphore, in ascending word position. -/
def semOps (ws : List W64) (sem : Nat) : List (Nat × Op × Node) :=
  (nodeWords ws 0).filterMap fun (j, w, e) =>
    match decodeNode w e with
    | .ok (o, n) => if (o == .semsig || o == .semset) && n.aux.toNat == sem then some (j, o, n) else none
    | _ => none

/-- One operation on a semaphore with its inputs (R133): nothing where an input it needs is ABSENT. -/
def State.semApply (s : State) (t j : Nat) (o : Op) (n : Node) (a : Args) : State :=
  match a.l with
  | .val _ =>
    if o == .semset then (match a.r with | .val v => s.semSet (s.cmdCtx t) n.aux.toNat (lane32 v 0) | _ => s)
    else s.semInc (s.cmdCtx t) n.aux.toNat n.imm.toNat 0 (sigRel n.mod.toNat (s.tile t).region a) fun _ => s.nodeFlt t j
  | _ => s

/-- Operations that have fired, from the first of a list on. -/
def State.semRun (s : State) (t : Nat) : List (Nat × Op × Node) → State
  | [] => s
  | (j, o, n) :: l => if ((s.tile t).node j).fired then State.semRun (s.semApply t j o n ((s.tile t).args n j)) t l else s

/-- The operation of node k, which fires now: those of one tile's instant on one semaphore apply in ascending word position (R134), so it waits for the
ones below it, and applies with those above it that have waited for it. -/
def State.semFire (s : State) (t k : Nat) (o : Op) (n : Node) (a : Args) : State :=
  let ops := semOps (s.tile t).words n.aux.toNat
  if (ops.filter fun p => p.1 < k).all fun p => ((s.tile t).node p.1).fired then (s.semApply t k o n a).semRun t (ops.filter fun p => k < p.1)
  else s

/-- SEMSIG (R133, R134). -/
def execSemsig (n : Node) (s : State) : Res :=
  .next (fireWith n s fun t k a =>
    match a.l with
    | .val _ => some (s.semFire t k .semsig n a, passL a)
    | _ => some (if n.pol == .fault then s else s.semFire t k .semsig n a, onTrigger n a (.same Beat.none)))

/-- SEMSET (R133, R134). -/
def execSemset (n : Node) (s : State) : Res :=
  .next (fireWith n s fun t k a =>
    match a.l, a.r with
    | .val _, .val _ => some (s.semFire t k .semset n a, passL a)
    | .val _, _ => some (if n.pol == .fault then s else s.semFire t k .semset n a, noIdent n [a.r] (.same Beat.none))
    | _, _ => some (if n.pol == .fault then s else s.semFire t k .semset n a, onTrigger n a (.same Beat.none)))

/-- The semaphore as of the start of the instant (R135). -/
def Tile.semAt (x : Tile) (i : Nat) : Sem := tget Sem.fresh x.sems i

/-- What a read of the semaphore acquires: the releases whose increments its value includes (R136, R216). -/
def Sem.acquire (x : Sem) : List Ord := x.rel.map (·.1)

/-- The threshold: imm32 under X, else imm16 (R80, R118). -/
def semThr (n : Node) : Nat := match n.ext with | some e => e.imm32.toNat | none => n.imm.toNat

def execSemwait (n : Node) (s : State) : Res :=
  .next (fireWith n s fun t _ a =>
    match a.l with
    | .val x =>
      let m := (s.tile t).semAt n.aux.toNat
      some (s, if semThr n ≤ m.value then .same (Beat.val x (lunion a.cov m.acquire)) else .same Beat.none)
    | _ => some (s, onTrigger n a (.same Beat.none)))

def execSemrd (n : Node) (s : State) : Res :=
  .next (fireWith n s fun t _ a =>
    match a.l with
    | .val _ =>
      let m := (s.tile t).semAt n.aux.toNat
      some (s, .same (Beat.val (lanes32 [m.value, boolNat m.sticky]) (lunion a.cov m.acquire)))
    | _ => some (s, onTrigger n a (.same Beat.none)))

/-- A done token of a scope that covers accesses (R137). -/
def doneBeat (scope : Nat) (cov dcov : List Ord) : Beat := ⟨.value, BitVec.ofNat 512 scope, cov, dcov⟩

/-- The PRESENT beats on the connected slots of a node. -/
def Tile.presentBeats (x : Tile) (k : Nat) : List Beat :=
  [SlotName.l, .r, .p].filterMap fun w =>
    if x.connected w k then (match (x.node k).get w with | some b => if b.present then some b else none | none => none) else none

/-- DJOIN (R138). -/
def djoinOut (n : Node) (a : Args) (bs : List Beat) : Out :=
  let absent := [a.l, a.r, a.p].any Arg.isAbsent
  if absent && n.pol == .fault then .absentUse
  else if bs.isEmpty || (absent && n.pol == .prop) then .same Beat.none
  else .same (doneBeat ((bs.map fun b => tokenScope b.data).foldl min 4) a.cov (bs.foldl (fun acc b => lunion acc b.dcov) []))

def execDjoin (n : Node) (s : State) : Res :=
  .next (fireWith n s fun t k a => some (s, djoinOut n a ((s.tile t).presentBeats k)))

/-- Whether L of a FENCE is a done input: its producer emits done tokens (R139). -/
def doneProducer (x : Tile) (k : Nat) : Bool :=
  match producerOf x.words (slotField .l k) with
  | none => false
  | some j =>
    match nodeAt x.words j with
    | some (o, m) =>
      (match o with
       | .djoin | .fence => true
       | .st | .stx => true
       | .agen => m.mod == 1#4 || (m.mod == 0#4 && (m.b == .slot .l k || (m.ext.map (·.d)) == some (.slot .l k)))
       | .ld | .ldx | .atom => m.b == .slot .l k || (m.ext.map (·.d)) == some (.slot .l k)
       | .inp => (x.inPort (m.aux.toNat % 16)).doneEdge
       | _ => false)
    | none => false

/-- Whether a node's own state holds a write of an instant before n that has not left it (R139, R177). -/
def NodeSt.holds (n : Nat) (x : NodeSt) : Bool := match x.loc with | .agen _ _ _ _ h => !h.isEmpty && x.since < n | _ => false

/-- Lines of an access, or of a tile's earlier accesses, written back (R139). -/
def State.writeBackFor (s : State) (r canon inst : Nat) (accs : List Nat) : State :=
  ((s.region r).wrote.filter fun w => (w.tile == canon && w.inst < inst) || accs.contains w.access).foldl
    (fun s w => s.writeBack w.line) s

def execFence (n : Node) (s : State) : Res :=
  .next (fireWith n s fun t k a =>
    let x := s.tile t
    let r := s.region x.region
    let c := n.mod.toNat
    let isDone := doneProducer x k
    let lcov := if isDone then (match (x.node k).l with | some b => b.dcov | none => []) else []
    let mine (e : RbEntry) : Bool := e.canon == x.canon && e.inst < x.inst
    let covered (e : RbEntry) : Bool := mine e || lcov.any fun o => o.acc == e.access
    let held := x.nodes.any (NodeSt.holds x.inst)
    if held || (2 ≤ c && r.entries.any covered) then none
    else
      let s1 := if c = 4 then s.writeBackFor x.region x.canon x.inst (lcov.map (·.acc)) else s
      let own := (r.entries.filter mine).map fun e => Ord.full e.access
      some (s1, onTrigger n a (.same (doneBeat c a.cov (lunion lcov own)))))

def execTrap (n : Node) (s : State) : Res :=
  .next (fireWith n s fun t k a =>
    match a.l with
    | .val x =>
      some (s.raiseNode t k fun f => { f with cls := 0x12, resumable := true, f6 := n.imm.toNat, f7 := lane64 x 0 }, .stop)
    | _ => some (s, onTrigger n a (.same Beat.none)))

/-- BRK: L passes; with debugging on, a PRESENT L halts the region and sends a record to the debugger (R141, R293). -/
def execBrk (n : Node) (s : State) : Res :=
  .next (fireWith n s fun t k a =>
    match a.l with
    | .val _ =>
      let x := s.tile t
      if x.dbg then
        let s1 := s.setRegion x.region { s.region x.region with brkAt := some x.inst }
        some ({ s1 with out := { s1.out with brk := s1.out.brk ++ [(x.region, t, k, n.imm.toNat)] } }, passL a)
      else some (s, passL a)
    | _ => some (s, onTrigger n a (.same Beat.none)))

/-- Whether a BRK holds a region, whichever of its invocations it fired in (R141). -/
def State.broken (s : State) (g : Nat) : Bool := (s.family g).any fun k => (s.region k).brkAt.isSome

/-- The debugger resumes a region: no value changes (R141). -/
def execBrkResume (region : Nat) (s : State) : Res :=
  .next ((s.family region).foldl (fun s k => (s.setRegion k { s.region k with brkAt := none }).restartClock k) s)

end Sys2Proof.Machine
end

