-- ==== Sys2Proof/Machine/MemNodes.lean ====
section
/-!
DEFINITION. The memory elements AGEN, LD, ST, LDX, STX, ATOM, and HANDOVER (R163–R183, R212–R219), the firing of a
read element with its data, and the walks made for them (R329, R331).
-/
namespace Sys2Proof.Machine

/-! Addresses of an element. -/

/-- One access of a firing: lane, virtual address (exact, R326) and bytes. -/
structure Acc where
  lane : Nat
  va : Int
  len : Nat
deriving DecidableEq, Repr, Inhabited

/-- A word of an AGEN descriptor (R175). -/
def gword (d : List W64) (i : Nat) : W64 := d.getD i 0#64

/-- Bytes per access (R175). -/
def agenEsz (d : List W64) : Nat :=
  match bitsNat (gword d 0) 57 3 with | 0 => 1 | 1 => 2 | 2 => 4 | 3 => 8 | _ => 64

def agenBase (d : List W64) : Int := (bitsNat (gword d 0) 0 57 : Nat)
def agenStride (d : List W64) (i : Nat) : Int := toSigned 40 (bitsNat (gword d (i + 1)) 0 40)
def agenCount (d : List W64) (i : Nat) : Nat := bitsNat (gword d (i + 1)) 40 20

/-- The nest position of an AGEN (R176). -/
def agenPos (l : Local) : Nat × Nat × Nat × Bool × List Host.Cell :=
  match l with | .agen i j k e h => (i, j, k, e, h) | _ => (0, 0, 0, false, [])

/-- The optional offset: R's lane 0 as i64 (R176, R180). -/
def offOf (a : Arg) : Int := match a with | .val x => toSigned 64 (lane64 x 0) | _ => 0

/-- The address of the current iteration (R176). -/
def agenAddr (d : List W64) (l : Local) (off : Arg) : Int :=
  let (i, j, k, _, _) := agenPos l
  agenBase d + offOf off + (i : Int) * agenStride d 0 + (j : Int) * agenStride d 1 + (k : Int) * agenStride d 2

/-- The next position: i0 fastest; at the end WRAP or exhausted (R176). -/
def agenNext (d : List W64) (l : Local) : Local :=
  let (i, j, k, e, h) := agenPos l
  if i < agenCount d 0 then .agen (i + 1) j k e h
  else if j < agenCount d 1 then .agen 0 (j + 1) k e h
  else if k < agenCount d 2 then .agen 0 0 (k + 1) e h
  else if bitAt (gword d 1) 62 then .agen 0 0 0 e h
  else .agen i j k true h

/-- The last iteration (R176). -/
def agenLast (d : List W64) (l : Local) : Bool :=
  let (i, j, k, _, _) := agenPos l
  i == agenCount d 0 && j == agenCount d 1 && k == agenCount d 2

def agenDesc (x : Tile) (n : Node) : List W64 := x.agens.getD (n.aux.toNat / 16) []

/-- LDX and STX lanes that are not skipped (R180). -/
def idxAccs (t : Ty) (d : List W64) (idx : Payload) (off : Int) : List Acc :=
  let e := t.bits / 8
  (List.range (64 / e)).filterMap fun j =>
    let x := lane32 idx j
    if x = 0x80000000 then none else some ⟨j, agenBase d + off + toSigned 32 x * e, e⟩

/-- The accesses that a firing of a memory element makes (R176, R179–R181). -/
def elemAccs (x : Tile) (k : Nat) (o : Op) (n : Node) (a : Args) : List Acc :=
  match o with
  | .ld | .st => [⟨0, (lane64 a.l.get 0 : Nat), n.imm.toNat + 1⟩]
  | .atom => [⟨0, (lane64 a.l.get 0 : Nat), n.ty.bits / 8⟩]
  | .ldx => idxAccs n.ty (agenDesc x n) a.l.get (offOf a.r)
  | .stx => idxAccs n.ty (agenDesc x n) a.l.get 0
  | .agen => [⟨0, agenAddr (agenDesc x n) (x.node k).loc a.r, agenEsz (agenDesc x n)⟩]
  | _ => []

/-! Faults of an element. -/

/-- F4 of an AGEN stop: i0, i1, i2 (R352). -/
def agenF4 (l : Local) : Nat :=
  match l with | .agen i j k _ _ => i + j * 2 ^ 20 + k * 2 ^ 40 | _ => 0

/-- A translation, protection or UNCORRECTABLE fault of an element: it stops with nothing of the firing performed (R178, R179, R353, R354). -/
def State.elemFault (s : State) (t k : Nat) (x : XFault) (write atom : Bool) (lane : Nat) : State :=
  s.raise { s.nodeFlt t k with
    cls := x.cls, cause := x.cause, resumable := true, addr := x.addr, f4 := agenF4 ((s.tile t).node k).loc, f5 := lane * 2 ^ 20,
    f6 := if x.cls = 0x0E then x.level
          else boolNat write + 2 * boolNat atom + x.level * 16,
    f7 := x.entry, agent := .node t k }

/-- Whether the tile is a supervisor slot (R299). -/
def isSup (t : Nat) : Bool := 4100 ≤ t && t ≤ 4103

/-- The pieces of one access of an element under a setting of how addresses are taken, with the range check of R326; a fault on any byte names the
access's first (R179, R180). -/
def State.reachAs (s : State) (t : Nat) (actx : Option Nat) (write : Bool) (c : Acc) : Except XFault (List Piece) :=
  if c.va < 0 || ((2 ^ 57 : Nat) : Int) ≤ c.va then .error ⟨2, 5, (c.va % ((2 ^ 57 : Nat) : Int)).toNat, 0, 0⟩
  else
    match reachRange s (Config.dieOf t) actx (isSup t) write 3 c.va.toNat c.len with
    | .error f => .error { f with addr := f.at_ (c.va.toNat % 2 ^ 57) }
    | .ok ps => .ok ps

/-- The same under the tile's present setting (R298). -/
def State.elemReach (s : State) (t : Nat) (write : Bool) (c : Acc) : Except XFault (List Piece) := s.reachAs t (s.accessCtx t) write c

/-- All accesses of a firing, or the first fault with its lane. -/
def State.reachAllAs (s : State) (t : Nat) (actx : Option Nat) (write : Bool) : List Acc → Except (XFault × Nat) (List (Acc × List Piece))
  | [] => .ok []
  | c :: cs =>
    match s.reachAs t actx write c with
    | .error f => .error (f, c.lane)
    | .ok ps =>
      match State.reachAllAs s t actx write cs with
      | .error f => .error f
      | .ok r => .ok ((c, ps) :: r)

def State.elemReachAll (s : State) (t : Nat) (write : Bool) (cs : List Acc) : Except (XFault × Nat) (List (Acc × List Piece)) :=
  s.reachAllAs t (s.accessCtx t) write cs

/-- How the accesses that a node has issued, or holds to be flushed, are taken: as its tile's ACTCTX stood when it issued them (R298). -/
def State.nodeCtx (s : State) (t k : Nat) : Option Nat := if t < 4096 then s.accessCtx t else ((s.tile t).node k).act

/-- An element of a tile issues a read that its memory owes it from then on (R171, R298). -/
def State.issue (s : State) (t k : Nat) : State :=
  s.setTile t ((s.tile t).setNode k { (s.tile t).node k with issued := true, act := s.accessCtx t })

/-! Ownership (R163, R164, R182). -/

/-- An element as an owner word: leaf, instance within the leaf, word position (R182). -/
def ownerWord (r : Region) (x : Tile) (k : Nat) : Nat :=
  x.leaf + (x.canon - (r.leaves.getD x.leaf default).firstCanon) * 2 ^ 10 + k * 2 ^ 23

def OwnRange.owner (o : OwnRange) (i : Nat) : Nat := o.owners.getD i 0 % 2 ^ 30
def OwnRange.overlaps (o : OwnRange) (va len : Nat) : Bool := va < o.start + o.len && o.start < va + len

/-- The bounding range of an affine pattern of a traverse record (R155, R158). DEDUCED, notes/assumptions/20.md. -/
def travRange (ws : List W64) : Int × Int :=
  let base : Int := (bitsNat (ws.getD 1 0#64) 0 57 : Nat)
  let ext (i : Nat) : Int := toSigned 40 (bitsNat (ws.getD (2 + i) 0#64) 0 40) * (bitsNat (ws.getD (2 + i) 0#64) 40 20 : Nat)
  let lo := (List.range 4).foldl (fun a i => a + min 0 (ext i)) base
  let hi := (List.range 4).foldl (fun a i => a + max 0 (ext i)) base
  let esz : Nat := match bitsNat (ws.getD 1 0#64) 61 3 with | 0 => 1 | 1 => 2 | 2 => 4 | 3 => 8 | _ => 64
  (lo, hi + esz)

def isTravwr (c : CmdSt) : Bool := bitsNat (c.words.getD 0 0#64) 48 16 == 0x0102

/-- What owns a written range against an element: the list entry and owner word of another owner, if any (R163). -/
def State.ownedByOther (s : State) (t k va len : Nat) : Option (Nat × Nat) :=
  let x := s.tile t
  let r := s.region x.region
  let me := ownerWord r x k
  match (r.owners.zip (List.range r.owners.length)).find? fun (o, _) => o.overlaps va len && o.owner o.cur != me with
  | some (o, i) => some (i, o.owner o.cur)
  | none =>
    let travs := (s.ctx (s.cmdCtx t)).queues.flatMap fun (_, q) =>
      (q.entries.filter (·.phase == .checked) ++ q.started).filter fun c => isTravwr c && c.phase != .faulted && c.phase != .refused
    match travs.find? fun c => let (lo, hi) := travRange c.words; (va : Int) < hi && lo < ((va + len : Nat) : Int) with
    | some c => some (255, ownerWord (s.tileRegion c.tile) (s.tile c.tile) c.slot)
    | none => none

/-- Whether an access waits for a HANDOVER beat on its way to its own element (R164). -/
def State.awaitsHandover (s : State) (t k va len : Nat) : Bool :=
  let x := s.tile t
  let r := s.region x.region
  r.owners.any fun o => o.moving && o.overlaps va len && o.owner o.cur == ownerWord r x k

/-- Whether the gateways of a tile's die hold new accesses, while a new split of the die waits (R398). -/
def State.gateShut (s : State) (t : Nat) : Bool := (tget? s.dcwait (Config.dieOf t)).isSome

/-! Writing. -/

/-- How an access of an element ends. -/
inductive AccEnd where
  | ok (s : State)
  | fault (s : State)
  | wait
deriving DecidableEq, Repr, Inhabited

/-- A ROUNDOVF record (R168, R219, R353). -/
def State.roundOvf (s : State) (t k : Nat) (c : Gran) (read : Bool) : State :=
  let (d, sl) := pairSlice c.g c.loc
  let q := (s.ctx (s.tileCtx t)).rbq
  s.raiseNode t k fun f =>
    { f with cls := 0x09, f6 := d + sl * 8 + boolNat read * 256 + (if read then 2 * q else q) * 2 ^ 16 }

/-- The offsets of a granule's bytes that lie in owned ranges, which are not checked for races (R163). -/
def Region.ownedOffs (r : Region) (c : Gran) : List Nat :=
  if r.owners.isEmpty then []
  else
    let first := (c.cells.headD (0, 0#8)).1
    (c.cells.map (·.1)).filter fun o => r.owners.any fun w => w.overlaps (c.va + (o - first)) 1

/-- Entries of one access added to the round buffer in ascending address, or the granule whose slice is full (R165, R168, R173). -/
def State.enter (s : State) (t k acc : Nat) (op : RbOp) : List Gran → Except Gran State
  | [] => .ok s
  | c :: gs =>
    let x := s.tile t
    if s.rbFull x.region c then .error c
    else
      let n := x.node k
      let r := s.region x.region
      let e : RbEntry :=
        { granule := c.g, loc := c.loc, bytes := c.cells, op := op, canon := x.canon, slot := k, seq := n.seq,
          group := ((r.groups.find? fun p => p.1 == (x.canon, k)).map (·.2)).getD (x.canon, k), access := acc, inst := x.inst,
          strm := c.attr.strm, shared := c.attr.shared, va := c.va, mask := c.attr.mask, owned := r.ownedOffs c }
      let s1 := s.setTile t (x.setNode k { n with seq := n.seq + 1 })
      State.enter (s1.setRegion x.region { s1.region x.region with entries := r.entries ++ [e] }) t k acc op gs

/-- Lines that a RELAXED write left Modified, remembered for FENCE and kernel completion (R139, R226). -/
def State.noteWrites (s : State) (t acc : Nat) (ps : List Piece) : State :=
  let x := s.tile t
  let ws := (ps.filter fun p => !p.x.attr.strm && !p.x.attr.shared).flatMap fun p =>
    (linesAt p.x.loc p.len).map fun l => (⟨acc, x.canon, x.inst, l⟩ : WrRec)
  s.setRegion x.region { s.region x.region with wrote := (s.region x.region).wrote ++ ws }

/-- The granules of one access after those of the accesses before it: bytes of the same lane that fall into the granule before join it (R165, R177). -/
def joinGrans : List (Nat × Gran) → List Gran
  | [] => []
  | [(_, c)] => [c]
  | (l, c) :: (l', d) :: gs =>
    match joinGrans ((l', d) :: gs) with
    | e :: es => if l == l' && c.g == d.g && c.loc == d.loc then { c with cells := c.cells ++ e.cells } :: es else c :: e :: es
    | [] => [c]

/-- The writes of one firing: translation, ownership, then the round buffer in DET or memory in RELAXED (R163–R169, R173). -/
def State.storeAs (s : State) (t k : Nat) (actx : Option Nat) (ws : List (Acc × List Byte)) : AccEnd :=
  match s.reachAllAs t actx true (ws.map (·.1)) with
  | .error (f, lane) => .fault (s.elemFault t k f true false lane)
  | .ok rs =>
    if s.gateShut t || ws.any fun (c, _) => s.awaitsHandover t k c.va.toNat c.len then .wait
    else
      match ws.findSome? fun (c, _) => s.ownedByOther t k c.va.toNat c.len with
      | some (i, w) =>
        .fault (s.raiseNode t k fun f =>
          { f with cls := 0x08, f6 := w, f7 := ownerWord (s.tileRegion t) (s.tile t) k, f1x := i % 256 })
      | none =>
        let (acc, s0) := s.freshAccess
        let s1 := rs.foldl (fun s (_, ps) => s.cacheAll (Config.dieOf t) actx ps) s0
        if s.det t then
          let gs := (rs.zip ws).flatMap fun ((c, ps), (_, bs)) => (granulesOf ps bs).map fun g => (c.lane, g)
          match s1.enter t k acc .store (joinGrans gs) with
          | .error g => .fault (s.roundOvf t k g false)
          | .ok s2 => .ok s2
        else
          .ok ((rs.zip ws).foldl (fun s ((_, ps), (_, bs)) => (s.writePieces (some (Config.dieOf t)) ps bs).noteWrites t acc ps) s1)

/-- The same under the tile's present setting (R298). -/
def State.storeAll (s : State) (t k : Nat) (ws : List (Acc × List Byte)) : AccEnd := s.storeAs t k (s.accessCtx t) ws

/-- The scope of a write element's done token (R174). -/
def writeScope (s : State) (t scope : Nat) : Nat := if s.det t then min scope 1 else scope

/-- A write of a RELAXED tile whose token has SYSTEM scope is written back before the token goes out (R173, R174, R210). -/
def State.performAt (s : State) (t acc scope : Nat) : State :=
  if writeScope s t scope = 4 then s.writeBackFor (s.tile t).region (s.tile t).canon 0 [acc] else s

/-- What a memory access is ordered after: its inputs' orders and its done token (R212). DEDUCED, notes/assumptions/16.md. -/
def Args.ords (a : Args) : List Ord := lunion a.cov a.dcov

/-- What an access's done token orders besides the access: an order made by a read's data holds for the access on its own tile alone, so it does not leave
that tile with the token (R212). -/
def Args.tokenOrds (a : Args) : List Ord := lunion (a.cov.map fun o => if o.rd < 5 then { o with rd := 0 } else o) a.dcov

/-- The done token of an access numbered `acc` (R137, R174). -/
def accToken (scope acc : Nat) (a : Args) : Beat := doneBeat scope [] (lunion a.tokenOrds [Ord.full acc])

def memScope (n : Node) : Nat := n.aux.toNat % 8 % 5

/-- A write element: done token to every target (R171, R172). -/
def writeElem (n : Node) (s : State) (t k : Nat) (a : Args) (ins : List Arg) (ws : List (Acc × List Byte)) : Option (State × Out) :=
  if ins.any Arg.isAbsent then some (s, noIdent n ins (.same Beat.none))
  else
    match s.storeAll t k ws with
    | .wait => none
    | .fault s1 => some (s1, .stop)
    | .ok s1 => some (s1.performAt t s.accessNo (memScope n), .same (accToken (writeScope s t (memScope n)) s.accessNo a))

def execSt (n : Node) (s : State) : Res :=
  .next (fireWith n s fun t k a =>
    writeElem n s t k a [a.l, a.r]
      ((elemAccs (s.tile t) k .st n a).map fun c => (c, payBytes c.len a.r.get)))

def execStx (n : Node) (s : State) : Res :=
  .next (fireWith n s fun t k a =>
    writeElem n s t k a [a.l, a.r]
      ((elemAccs (s.tile t) k .stx n a).map fun c => (c, leBytes c.len ((tyElems n.ty a.r.get).getD c.lane 0))))

/-! Reading. -/

/-- A read element accepts its inputs: the request goes out once its address translates; ABSENT inputs make no access (R171). A read
element's own firing is its response. -/
def issueRead (n : Node) (s : State) (o : Op) (ins : Args → List Arg) : State :=
  fireWith n s fun t k a =>
    if (ins a).any Arg.isAbsent then some (s, noIdent n (ins a) (.same Beat.none))
    else if ((s.tile t).node k).issued then none
    else
      let accs := elemAccs (s.tile t) k o n a
      if o == .atom && (accs.headD ⟨0, 0, 1⟩).va % (n.ty.bits / 8 : Nat) != 0 then
        some (s.elemFault t k ⟨3, 0x14, (accs.headD ⟨0, 0, 1⟩).va.toNat % 2 ^ 57, 0, 0⟩ true true 0, .stop)
      else if s.gateShut t || accs.any fun c => s.awaitsHandover t k c.va.toNat c.len then none
      else
        match s.elemReachAll t (o == .atom) accs with
        | .error (f, lane) => some (s.elemFault t k f (o == .atom) (o == .atom) lane, .stop)
        | .ok rs =>
          let s1 := rs.foldl (fun s (_, ps) => s.cacheAll (Config.dieOf t) (s.accessCtx t) ps) s
          some (s1.issue t k, .stop)

def execLd (n : Node) (s : State) : Res := .next (issueRead n s .ld fun a => [a.l])
def execLdx (n : Node) (s : State) : Res := .next (issueRead n s .ldx fun a => [a.l, a.r])
def execAtom (n : Node) (s : State) : Res := .next (issueRead n s .atom fun a => [a.l, a.r])

/-- Read records of a firing's bytes (R219), or the granule whose table is full. The number counts entries (R173): an ATOM's record has its
entry's. DEDUCED, notes/assumptions/34.md. -/
def State.recordReads (s : State) (t k : Nat) (atomic : Bool) : List Gran → Except Gran State
  | [] => .ok s
  | c :: gs =>
    let x := s.tile t
    if s.rdFull x.region c then .error c
    else
      let n := x.node k
      let r := s.region x.region
      let e : RdRec :=
        { granule := c.g, loc := c.loc, offs := c.cells.map (·.1), atomic := atomic, canon := x.canon, slot := k, seq := n.seq,
          group := ((r.groups.find? fun p => p.1 == (x.canon, k)).map (·.2)).getD (x.canon, k), inst := x.inst,
          owned := r.ownedOffs c }
      let s1 := s.setTile t (x.setNode k { n with seq := n.seq + boolNat (!atomic) })
      State.recordReads (s1.setRegion x.region { s1.region x.region with reads := r.reads ++ [e] }) t k atomic gs

/-- What a read delivers to targets A and C, and its done token to B and D (R172, R174, R212): what depends on the data depends on the read's inputs too,
whose orders stand as they came; an access that the read's done token covers is ordered at the read's scope once the data leaves the tile. -/
def readOut (n : Node) (a : Args) (acc : Nat) (x : Payload) (atomic det : Bool) : Out :=
  let sc := memScope n
  let cov := lunion a.cov (a.dcov.map fun o => { o with rd := sc })
  .split ⟨.value, x, cov, []⟩
    (doneBeat (if atomic && det then min sc 1 else sc) [] (if atomic then lunion a.tokenOrds [Ord.full acc] else a.tokenOrds))

/-- The data of a read element's accesses (R176, R179–R181). -/
def readData (o : Op) (n : Node) (rs : List (Acc × List Byte)) : Payload :=
  match o with
  | .ldx =>
    tyPack n.ty ((List.range n.ty.elems).map fun j =>
      match rs.find? fun (c, _) => c.lane == j with | some (_, bs) => leNat bs | none => 0)
  | _ => payOf ((rs.map (·.2)).headD [])

/-- The firing of a read element with its data (R167, R171, R181, R219). DEDUCED, notes/assumptions/89.md. -/
def State.respond (s : State) (t k : Nat) (o : Op) (n : Node) (a : Args) (bad : Bool) : State :=
  let accs := elemAccs (s.tile t) k o n a
  match s.reachAllAs t (s.nodeCtx t k) (o == .atom) accs with
  | .error (f, lane) => s.elemFault t k f (o == .atom) (o == .atom) lane
  | .ok rs =>
    let ps := rs.flatMap (·.2)
    match s.badRead bad ps with
    | some (pa, place) =>
      let hit := ((rs.find? fun (_, qs) => (s.badRead false qs).isSome).map (·.1)).getD (accs.headD ⟨0, 0, 0⟩)
      (s.spoil bad ps).elemFault t k ⟨0x0E, 0, hit.va.toNat, place, pa⟩ false false hit.lane
    | none =>
      let (acc, sa) := s.freshAccess
      let s0 := sa.fillLines (Config.dieOf t) ps
      let det := s.det t
      let data := rs.map fun (c, ps) => (c, s.loadPieces t a.ords ps)
      let cells := (rs.zip data).flatMap fun ((_, ps), (_, bs)) => granulesOf ps bs
      match (if det then s0.recordReads t k (o == .atom) cells else .ok s0) with
      | .error g => s.roundOvf t k g true
      | .ok s1 =>
        let x := readData o n data
        let finish (s2 : State) : State :=
          let s3 := if o == .agen then s2.setLoc t k (agenNext (agenDesc (s2.tile t) n) ((s2.tile t).node k).loc) else s2
          s3.emit t k n (readOut n a acc x (o == .atom) det)
        if o == .atom then
          let v := (tyElems n.ty a.r.get).headD 0
          let v2 := (tyElems n.ty a.r.get).getD 1 0
          match accs.findSome? fun c => s.ownedByOther t k c.va.toNat c.len with
          | some (i, w) =>
            s.raiseNode t k fun f => { f with cls := 0x08, f6 := w, f7 := ownerWord (s.tileRegion t) (s.tile t) k, f1x := i % 256 }
          | none =>
            if det then
              match s1.enter t k acc (.atom n.mod.toNat n.ty v v2) cells with
              | .error g => s.roundOvf t k g false
              | .ok s2 => finish s2
            else
              finish (((s1.writePieces (some (Config.dieOf t)) ps
                (leBytes (n.ty.bits / 8) (atomNew n.mod.toNat n.ty ((tyElems n.ty x).headD 0) v v2))).noteWrites t acc ps).performAt t acc (memScope n))
        else finish s1

/-- Whether the next firing of a memory element makes an access (R171, R176): not with an input ABSENT, nor as an AGEN ADDR or an exhausted AGEN. -/
def makesAccess (o : Op) (n : Node) (a : Args) (l : Local) : Bool :=
  !a.l.isAbsent && !a.r.isAbsent && !(o == .agen && (n.mod == 2#4 || (agenPos l).2.2.2.1))

/-- The walk that a waiting element's access needs (R329, R331): its translation enters the die's caches, or its fault is raised for
the element (R339). -/
def execTranslationWalk (t k : Nat) (s : State) : Res :=
  .next
    (let x := s.tile t
     if s.mayFire t k && x.resolved k then
       match nodeAt x.words k with
       | none => s
       | some (o, n) =>
         let a := x.args n k
         let write := o == .st || o == .stx || o == .atom || (o == .agen && n.mod == 1#4)
         let actx := if (x.node k).issued then s.nodeCtx t k else s.accessCtx t
         if !makesAccess o n a (x.node k).loc then s
         else
           match s.reachAllAs t actx write (elemAccs x k o n a) with
           | .error (f, lane) => s.elemFault t k f write (o == .atom) lane
           | .ok rs => rs.foldl (fun s (_, ps) => s.cacheAll (Config.dieOf t) actx ps) s
     else s)

/-! AGEN. -/

/-- Runs of consecutive held bytes, as writes. -/
def heldRuns : List Host.Cell → List (Nat × List Byte)
  | [] => []
  | (a, b) :: cs =>
    match heldRuns cs with
    | (a', bs) :: rs => if a + 1 = a' then (a, b :: bs) :: rs else (a, [b]) :: (a', bs) :: rs
    | [] => [(a, [b])]

def heldWrites (h : List Host.Cell) : List (Acc × List Byte) :=
  (heldRuns h).map fun (a, bs) => (⟨0, (a : Nat), bs.length⟩, bs)

/-- The coalescing buffer flushed as one access (R177). -/
def State.flushHeld (s : State) (t k : Nat) : AccEnd :=
  let (i, j, l, e, h) := agenPos ((s.tile t).node k).loc
  if h.isEmpty then .ok s
  else
    match s.storeAs t k (s.nodeCtx t k) (heldWrites h) with
    | .ok s1 => .ok (s1.setLoc t k (.agen i j l e []))
    | r => r

/-- Whether a write merges into the held granules (R177): together they lie within two contiguous granules. -/
def mergesHeld (h : List Host.Cell) (va len : Nat) : Bool :=
  match h with
  | [] => true
  | (a, _) :: _ =>
    let g0 := min (a / 64) (va / 64)
    let g1 := max ((h.getLastD (a, 0#8)).1 / 64) ((va + len - 1) / 64)
    g1 ≤ g0 + 1

/-- A write added to the coalescing buffer of an AGEN (R177): how its address is taken and, where it is the oldest held, its instant stay with it
(R139, R298). -/
def State.hold (s : State) (t k va : Nat) (bs : List Byte) : State :=
  let x := s.tile t
  let n := x.node k
  let (i, j, m, e, h) := agenPos n.loc
  let h' := ((List.range bs.length).zip bs).foldl (fun h (o, b) => tset h (va + o) b) h
  s.setTile t (x.setNode k { n with loc := .agen i j m e h', since := if h.isEmpty then x.inst else n.since, act := s.accessCtx t })

/-- An AGEN WR with no connected done output coalesces (R177). -/
def agenCoalesces (n : Node) : Bool := (nodeTargets n).all fun t => t == .none

def agenWrite (n : Node) (s : State) (t k : Nat) (a : Args) : Option (State × Out) :=
  let x := s.tile t
  let d := agenDesc x n
  let l := (x.node k).loc
  let acc : Acc := ⟨0, agenAddr d l a.r, agenEsz d⟩
  let bs := payBytes (agenEsz d) a.l.get
  if !agenCoalesces n then
    match s.storeAll t k [(acc, bs)] with
    | .wait => none
    | .fault s1 => some (s1, .stop)
    | .ok s1 =>
      some ((s1.setLoc t k (agenNext d ((s1.tile t).node k).loc)).performAt t s.accessNo (memScope n),
            .same (accToken (writeScope s t (memScope n)) s.accessNo a))
  else
    match s.elemReach t true acc with
    | .error f => some (s.elemFault t k f true false 0, .stop)
    | .ok _ =>
      let va := acc.va.toNat
      let merge := mergesHeld (agenPos l).2.2.2.2 va acc.len && ((agenPos l).2.2.2.2.isEmpty || s.nodeCtx t k == s.accessCtx t)
      match (if merge then AccEnd.ok s else s.flushHeld t k) with
      | .wait => none
      | .fault s1 => some (s1, .stop)
      | .ok s1 =>
        let s2 := s1.hold t k va bs
        match (if (agenPos ((s2.tile t).node k).loc).2.2.2.2.length = 128 then s2.flushHeld t k else AccEnd.ok s2) with
        | .wait => none
        | .fault s3 => some (s3, .stop)
        | .ok s3 => some (s3.setLoc t k (agenNext d ((s3.tile t).node k).loc), .same (doneBeat 0 [] []))

/-- AGEN ADDR: the address and position beat (R176). -/
def agenAddrBeat (d : List W64) (l : Local) (off : Arg) : Payload :=
  let (i, j, k, _, _) := agenPos l
  lanes64 [(agenAddr d l off).toNat, i, j, k, boolNat (agenLast d l)]

def execAgen (n : Node) (s : State) : Res :=
  .next
    (if n.mod == 0#4 then
       (match s.cursor with
        | .node t k =>
          if (agenPos ((s.tile t).node k).loc).2.2.2.1 then
            fireNode n s fun a => noIdent n [a.l, a.r] (.same Beat.none)
          else issueRead n s .agen fun a => [a.l, a.r]
        | _ => s)
     else
       fireWith n s fun t k a =>
         let l := ((s.tile t).node k).loc
         let d := agenDesc (s.tile t) n
         if a.l.isAbsent || a.r.isAbsent then some (s, noIdent n [a.l, a.r] (.same Beat.none))
         else if (agenPos l).2.2.2.1 then some (s, .same Beat.none)
         else if n.mod == 1#4 then agenWrite n s t k a
         else
           let va := agenAddr d l a.r
           if va < 0 || ((2 ^ 57 : Nat) : Int) ≤ va then
             some (s.elemFault t k ⟨2, 5, (va % ((2 ^ 57 : Nat) : Int)).toNat, 0, 0⟩ false false 0, .stop)
           else some (s.setLoc t k (agenNext d l), a.out (agenAddrBeat d l a.r)))

/-! HANDOVER. -/

/-- The tile of an owner, and the port by which a CONTROL beat reaches it from tile t: that of a channel from t, if it has one, else port 0.
DEDUCED, notes/assumptions/25.md. -/
def State.ownerPort (s : State) (t owner : Nat) : Option (Nat × Nat) :=
  let x := s.tile t
  let r := s.region x.region
  ((s.home x.region).allTiles.find? fun u => !(s.tile u).words.isEmpty && ownerWord r (s.tile u) 0 % 2 ^ 23 == owner % 2 ^ 23).map fun u =>
    (u, ((x.outs.flatMap fun (_, o) => o.dests).find? fun d => d.1 == u).elim 0 (·.2))

/-- HANDOVER (R164, R183): the old owner flushes, ownership passes and the CONTROL beat, which names the list entry, goes to the new owner. -/
def execHandover (n : Node) (s : State) : Res :=
  .next (fireWith n s fun t k a =>
    match a.l with
    | .val _ =>
      let x := s.tile t
      let r := s.region x.region
      let e := n.aux.toNat
      let o := r.owners.getD e default
      let cur := o.owner o.cur
      let here := ownerWord r x 0
      let slot := cur / 2 ^ 23
      let nxt := o.owners.getD (o.cur + 1) 0
      let conflict := (r.owners.zip (List.range r.owners.length)).any fun (q, i) =>
        i != e && q.owner q.cur == nxt % 2 ^ 30 && q.overlaps o.start o.len
      if cur % 2 ^ 23 != here % 2 ^ 23 || nxt / 2 ^ 30 % 2 != 1 || conflict then
        some (s.raiseNode t k fun f => { f with cls := 0x08, f6 := cur, f7 := ownerWord r x k, f1x := e }, .stop)
      else
        match s.flushHeld t slot with
        | .wait => none
        | .fault s1 => some (s1, .stop)
        | .ok s1 =>
          let r1 := s1.region x.region
          let to_ := s1.ownerPort t nxt
          let s2 := s1.setRegion x.region
            { r1 with owners := lset r1.owners e { o with cur := o.cur + 1, moving := to_.isSome } }
          let s2 := match to_ with | some d => s2.portSend d (Beat.ctl 3 e) | none => s2
          some (s2, .same (doneBeat 1 a.cov (lunion a.dcov (if s.accessNo == s1.accessNo then [] else [Ord.full s.accessNo]))))
    | _ => some (s, onTrigger n a (.same Beat.none)))

end Sys2Proof.Machine
end

