-- ==== Sys2Proof/Machine/EngNodes.lean ====
section
/-!
DEFINITION. ENG and LAUNCH, and the circular-buffer nodes BFILL and BFREE (R147, R184, R189, R190, R194, R198, R207).
-/
namespace Sys2Proof.Machine

/-! Circular buffers (R147, R184). -/

/-- A BUFRANGE of a circular-buffer counter (R147, R353). -/
def State.ctrRange (s : State) (t k i : Nat) : State :=
  s.raiseNode t k fun f => { f with cls := 0x0D, f6 := ((s.tile t).cb i).buf + 4 + i * 8 }

/-- Whether the BFILL and BFREE nodes of the same buffer at lower positions have fired: operations of one instant apply in
ascending word position (R184). -/
def cbTurn (x : Tile) (k i : Nat) : Bool :=
  (nodeWords x.words 0).all fun (j, w, _) =>
    !(j < k && (bitsNat w 56 8 == Op.bfill.code || bitsNat w 56 8 == Op.bfree.code) && bitsNat w 0 3 == i) || (x.node j).fired

/-- A slot beat (R184). -/
def slotBeat (c : CBuf) (slot : Nat) : Payload := lanes32 [slot, c.base + slot * 2 ^ c.size, 2 ^ c.size]

def CBuf.acquireW (c : CBuf) : CBuf := { c with free := c.free - 1, wc := (c.wc + 1) % c.slots }
def CBuf.acquireR (c : CBuf) : CBuf := { c with filled := c.filled - 1, rc := (c.rc + 1) % c.slots }

/-- The common part of the four nodes: an ABSENT trigger does nothing; `f` acts on the buffer, none when the node waits or its turn
has not come. -/
def cbNode (n : Node) (s : State) (f : Nat → Nat → Nat → Args → CBuf → Option (State × Out)) : State :=
  fireWith n s fun t k a =>
    let i := n.aux.toNat % 8
    if a.l.isAbsent then some (s, onTrigger n a (.same Beat.none))
    else if !cbTurn (s.tile t) k i then none
    else f t k i a ((s.tile t).cb i)

def execBfillAcqw (n : Node) (s : State) : Res :=
  .next (cbNode n s fun t _ i a c =>
    if c.free = 0 then none
    else some (s.setTile t ((s.tile t).setCb i { c.acquireW with acqW := c.acqW ++ [c.wc] }), a.out (slotBeat c c.wc)))

def execBfillPub (n : Node) (s : State) : Res :=
  .next (cbNode n s fun t k i a c =>
    match c.acqW with
    | [] => some (s.ctrRange t k i, .stop)
    | _ :: rest =>
      if c.filled = c.slots then some (s.ctrRange t k i, .stop)
      else some (s.setTile t ((s.tile t).setCb i { c with filled := c.filled + 1, acqW := rest }), passL a))

def execBfreeAcqr (n : Node) (s : State) : Res :=
  .next (cbNode n s fun t _ i a c =>
    if c.filled = 0 then none
    else some (s.setTile t ((s.tile t).setCb i { c.acquireR with acqR := c.acqR ++ [c.rc] }), a.out (slotBeat c c.rc)))

def execBfreeRel (n : Node) (s : State) : Res :=
  .next (cbNode n s fun t k i a c =>
    match c.acqR with
    | [] => some (s.ctrRange t k i, .stop)
    | _ :: rest =>
      if c.free = c.slots then some (s.ctrRange t k i, .stop)
      else some (s.setTile t ((s.tile t).setCb i { c with free := c.free + 1, acqR := rest }), passL a))

/-! ENG. -/

/-- The engine that a command's class goes to (R194, R259), numbered as lane 0 of SLOTW (R303); a class the table does not list goes to
the tile's SE, which refuses it (R192). -/
def State.engOf (s : State) (t cls : Nat) : Nat :=
  let die := Config.dieOf t
  match cls with
  | 3 => die + 1 * 8
  | 4 => die + 2 * 8
  | 5 => (s.ctx (s.cmdCtx t)).kvpunit + 3 * 8
  | 6 => (s.ctx (s.cmdCtx t)).kvpunit + 3 * 8
  | _ => die + Config.seOf t * 32

def payWords (x : Payload) : List W64 := (elems 64 8 x).map (BitVec.ofNat 64)

/-- Bits [56:0] of a word plus a patch lane, modulo 2^57 (R190). -/
def patchWord (w : W64) (p : Nat) : W64 :=
  BitVec.ofNat 64 (w.toNat / 2 ^ 57 * 2 ^ 57 + (w.toNat % 2 ^ 57 + p) % 2 ^ 57)

def cmdClass (ws : List W64) : Nat := bitsNat (ws.getD 0 0#64) 56 8
def cmdKind (ws : List W64) : Nat := bitsNat (ws.getD 0 0#64) 48 8

/-- The command that an ENG forms: its words, and whether lane 1 of the patch is refused (R190). -/
def engWords (x : Tile) (n : Node) (a : Args) : List W64 × Bool :=
  let ws := if bitAt n.aux 5 then x.tmpls.getD n.imm.toNat (List.replicate 8 0#64) else payWords a.l.get
  match a.r with
  | .val p =>
    let w1 := patchWord (ws.getD 1 0#64) (lane64 p 0)
    if cmdClass ws == 2 then (lset (lset ws 1 w1) 2 (patchWord (ws.getD 2 0#64) (lane64 p 1)), false)
    else (lset ws 1 w1, lane64 p 1 != 0)
  | _ => (ws, false)

/-- Whether a command issued at (instant, canonical tile, word position) precedes another (R190). -/
def issuedBefore (i c k i' c' k' : Nat) : Bool := i < i' || (i == i' && (c < c' || (c == c' && k < k')))

/-- Whether every ENG of the region that precedes one, of this instant or an earlier one, has entered its queue or emitted ABSENT
(R190); the next instant each still has to fire in decides. DEDUCED, notes/assumptions/33.md. -/
def State.engTurn (s : State) (t k : Nat) : Bool :=
  let me := s.tile t
  (s.region me.region).tiles.all fun u =>
    let x := s.tile u
    (opsWhere x.words (fun o => o == .eng)).all fun j =>
      !issuedBefore (x.inst + boolNat (x.node j).fired) x.canon j me.inst me.canon k

/-- A command entered among the queued ones: those of one region and instant in ascending (canonical tile, word position). -/
def enterQueue (c : CmdSt) : List CmdSt → List CmdSt
  | [] => [c]
  | x :: xs =>
    if x.region == c.region && x.inst == c.inst && issuedBefore c.inst c.canon c.slot x.inst x.canon x.slot then c :: x :: xs
    else x :: enterQueue c xs

/-- The issue number of the next command to a queue, as an invocation counts it: the context's commands to that queue since the invocation began (R190).
DEDUCED, notes/assumptions/32.md. -/
def Region.issueNo (r : Region) (eng : Nat) : Nat := (r.issued.filter fun p => p.1 == eng).length

/-- The instant owed to a completion or stream on a port, `count` instants long, for something issued in instant i (R152, R197). DEDUCED, notes/assumptions/47.md. -/
def InPort.owe (p : InPort) (who i count : Nat) : InPort × Nat :=
  let st := max i p.nextOwed
  ({ p with due := p.due ++ [⟨who, st, count, false⟩], nextOwed := st + count }, st)

/-- A completion of a command issued in one instant, on a port that later commands of that instant already name: it takes the first of their instants, and
each of them the next one's (R197). -/
def InPort.oweBefore (p : InPort) (who i : Nat) (later : List Nat) : InPort :=
  let p1 := (p.owe who i 1).1
  let starts := (p1.due.filter fun o => o.by_ == who || later.contains o.by_).map (·.start)
  let next (a : Nat) : Nat := ((starts.filter (a < ·)).foldl (fun m b => match m with | none => some b | some c => some (min b c)) none).getD a
  { p1 with due := p1.due.map fun o => if o.by_ == who then { o with start := starts.foldl min o.start }
                                       else if later.contains o.by_ then { o with start := next o.start } else o }

/-- A command counted by every invocation of a context that runs (R190); `at_` is its mark in its own entry `k`: one past its instant, 0 for a binding. -/
def State.countIssue (s : State) (c k e at_ : Nat) : State :=
  { s with regions := s.regions.map fun (j, r) =>
             if j == k then (j, { r with issued := r.issued ++ [(e, at_)] })
             else if r.ctx == c && r.valid && r.phase != .off then (j, { r with issued := r.issued ++ [(e, r.inst + 1)] }) else (j, r) }

/-- A new command at its queue (R190, R197). -/
def State.submit (s : State) (t k : Nat) (ws : List W64) (bad bound : Bool) (cport : Option Nat) (cov : List Ord) : State × Nat :=
  let x := s.tile t
  let r := s.region x.region
  let e := s.engOf t (cmdClass ws)
  let c := s.cmdCtx t
  let no := r.issueNo e
  let cmd : CmdSt :=
    { uid := s.uidNo, issue := no, region := x.region, gen := r.gen, tile := t, canon := x.canon, slot := k, inst := x.inst, words := ws,
      actx := s.accessCtx t, cov := cov, cport := cport, bound := bound, phase := .queued, cycle := x.beginCycle, pos := 0, bytes := 0,
      first := 0, lanes := [], row := [], acq := [], mark := boolNat bad, reason := 0, cut := [], beats := 0, delay := 0, extra := 0, host := false, since := 0, kept := [], head := 0, tail := 0 }
  let q := (s.ctx c).queue e
  let es := if bound then q.entries ++ [cmd] else enterQueue cmd q.entries
  let s1 := { s.setCtx c ((s.ctx c).setQueue e { q with entries := es }) with uidNo := s.uidNo + 1 }
  let s2 := s1.countIssue c x.region e (if bound then 0 else x.inst + 1)
  match cport with
  | none => (s2, no)
  | some p =>
    let y := s2.tile t
    let later := (q.entries.filter fun d =>
      d.tile == t && d.cport == some p && d.region == x.region && d.inst == x.inst && !d.bound && issuedBefore x.inst x.canon k d.inst d.canon d.slot).map (·.uid)
    if (y.inPort p).sampled then (s2, no)
    else (s2.setTile t (y.setIn p ((y.inPort p).oweBefore s.uidNo (x.inst + 1) later)), no)

/-- Whether a queue holds the 64 commands that it has room for (R194). -/
def State.queueFull (s : State) (t cls : Nat) : Bool :=
  64 ≤ (((s.ctx (s.cmdCtx t)).queue (s.engOf t cls)).entries).length

def execEng (n : Node) (s : State) : Res :=
  .next (fireWith n s fun t k a =>
    if a.l.isAbsent then some (s, onTrigger n a (.same Beat.none))
    else
      let (ws, bad) := engWords (s.tile t) n a
      if s.queueFull t (cmdClass ws) || (s.det t && !s.engTurn t k) then none
      else
        let (s1, no) := s.submit t k ws bad false (if bitAt n.aux 4 then some (n.aux.toNat % 16) else none) a.dcov
        some (s1, a.out (lanes64 [no])))

/-- The bindings of an invocation that have room enter their queues, each queue's in order of definition (R194, R421). -/
def State.bindMore (s : State) (k : Nat) : State :=
  (s.region k).unbound.foldl (fun s (t, ws) =>
    let e := s.engOf t (cmdClass ws)
    if s.queueFull t (cmdClass ws) || (s.region k).unbound.find? (fun (u, vs) => s.engOf u (cmdClass vs) == e) != some (t, ws) then s
    else
      let s1 := (s.submit t 0 ws false true none []).1
      s1.setRegion k { s1.region k with unbound := (s1.region k).unbound.erase (t, ws) }) s

/-- The same for every invocation of a context, when a queue of its has lost its head. -/
def State.bindAll (s : State) (c : Nat) : State :=
  ((s.regions.filter fun (_, r) => r.ctx == c && !r.unbound.isEmpty).map (·.1)).foldl State.bindMore s

/-! LAUNCH (R189, R207, R316). -/

/-- The key of a child table entry of the kernel that a region runs. -/
def childKey (region c : Nat) : Nat := region % 1024 * 16 + c

def execLaunch (n : Node) (s : State) : Res :=
  .next (fireWith n s fun t k a =>
    if a.l.isAbsent then some (s, onTrigger n a (.same Beat.none))
    else
      let r := (s.tile t).region
      let c := s.tileCtx t
      let key := childKey r (n.aux.toNat % 16)
      if (tget? (s.ctx c).childRun key).isSome then none
      else
        let e := (s.region r).childTab.getD (n.aux.toNat % 16) []
        let w := e.getD 2 0
        let arg : Acc := ⟨0, ((e.getD 1 0) % 2 ^ 57 : Nat), 64⟩
        match s.elemReach t true arg with
        | .error f => some (s.elemFault t k f true false 0, .stop)
        | .ok ps =>
          let s1 := (s.cacheAll (Config.dieOf t) (s.accessCtx t) ps).writePieces none ps (payBytes 64 a.r.get)
          let x := s1.ctx c
          let id := s1.launches.length
          let l : Launch :=
            { src := .child c (w / 2 ^ 24 % 256) key, ctx := c, level := w / 2 ^ 24 % 256, kernel := e.getD 0 0 % 2 ^ 57,
              args := e.getD 1 0 % 2 ^ 57, count := n.imm.toNat + 1, want := 0, barrier := false, crec := e.getD 3 0 % 2 ^ 57,
              csem := w % 256, cinc := w / 2 ^ 8 % 2 ^ 16, tag := x.childNo, phase := .waiting, region := 0, exit := 0, cls := 0,
              detached := false, preempted := false, instants := 0, detail := 0, need := 0, order := 0, bad := false }
          let q := tget [] x.childq l.level
          let s2 := { s1 with launches := tset s1.launches id l }
          let s3 := s2.setCtx c { x with childq := tset x.childq l.level (q ++ [id]), childRun := tset x.childRun key id,
                                         childNo := x.childNo + 1 }
          some (s3, a.out (lanes64 [x.childNo])))

end Sys2Proof.Machine
end

