-- ==== Sys2Proof/Machine/Matrix.lean ====
section
/-!
DEFINITION. The matrix node: accepting tokens (R227, R230, R242), its feeds (R239), the tokens (R233–R237), its completions (R238) and
the beats it sends on its output ports (R247).
-/
namespace Sys2Proof.Machine

/-! Output ports fed by the matrix node (R247). -/

/-- The output ports that no node of the block targets. -/
def Tile.mxPorts (x : Tile) : List Nat :=
  (x.outs.filter fun (k, _) => (producerOf x.words (3 * 128 + k)).isNone).map (·.1)

/-- The beat of instant i on port k, when it can be told: an owed one once produced, ABSENT where none is owed (R247). -/
def Tile.stoBeat (x : Tile) (k i : Nat) : Option (Beat × OutPort) :=
  let o := x.out k
  if x.tokenPending i then none
  else if o.due.any fun d => d.start ≤ i && i < d.start + d.count then
    match o.sto with
    | [] => none
    | b :: bs => some (b, { o with sto := bs, nextSend := i + 1, due := o.due.filter fun d => i + 1 < d.start + d.count })
  else some (Beat.none, { o with nextSend := i + 1 })

/-- Beats of the tile's instants sent on port k as far as they can be, at most `fuel`; after the round's last instant the MERIDIAN
(R13, R31). DEDUCED, notes/assumptions/92.md. -/
def pumpPort (t k : Nat) : Nat → State → State
  | 0, s => s
  | n + 1, s =>
    let x := s.tile t
    let o := x.out k
    if !s.destsRoom o then s
    else if x.begun && o.nextSend ≤ x.inst then
      match x.stoBeat k o.nextSend with
      | none => s
      | some (b, o1) => pumpPort t k n ((s.setTile t (x.setOut k o1)).outSend t false k b)
    else if x.begun && !o.merSent && (s.region x.region).ended == some x.inst && x.allFired then
      (s.setTile t (x.setOut k { o with merSent := true })).outSend t false k Beat.mer
    else s

/-- Every port that the matrix node feeds. -/
def State.pumpSto (s : State) (t : Nat) : State := (s.tile t).mxPorts.foldl (fun s k => pumpPort t k 128 s) s

/-! Acceptance. -/

/-- A record of the matrix node (R230, R232). -/
def State.mxFlt (s : State) (t : Nat) : Flt := { s.nodeFlt t 0 with agent := .region (s.tile t).region }

/-- The program checks of R243 that need the block, word by word from the row's kind and the number of narrow CVTs so far. -/
def progBad (x : Tile) (mn : Nat) : List W16 → OutKind → Nat → Bool
  | [], _, _ => false
  | w :: ws, k, narrow =>
    let cvt := bitsNat w 12 4 == 7 && 2 ≤ bitsNat w 0 4
    (match decodeEpi w with | .ok _ => false | .error _ => true) || (cvt && (narrow != 0 || mn % 128 != 0)) ||
      (bitsNat w 12 4 == 8 && !k.isNarrow) || (bitsNat w 12 4 == 0xC && (producerOf x.words (3 * 128 + bitsNat w 0 4)).isSome) ||
      progBad x mn ws (kindAfter k w) (narrow + boolNat cvt)

/-- The lowest bit of the token field that fails a check of R230, 0xFF for a program. -/
def acceptFault (x : Tile) (w : W64) (prog : List W16) : Option Nat :=
  let t := decodeTokenFields w
  let op := bitsNat w 0 2
  match tokenFault w with
  | some b => some b
  | none =>
    if op ≤ 1 && t.afeed && 4096 < t.aBytes then some 60
    else if op ≤ 1 && t.wfeed && 4096 < t.wBytes then some 61
    else if op == 2 && progBad x (t.rows * t.cols) (runWords prog) .f32 0 then some 0xFF
    else none

/-- The A-buffer byte of program p, negative where the beat lies below offset 0 (R242). -/
def progAt (x : Tile) (p : Nat) : Int := (x.hdr.abuf * 1024 : Nat) - ((64 * (p + 1) : Nat) : Int)

def readProg (x : Tile) (a : Nat) : List W16 := (elemsAux 16 32 (x.a.readNat a 64)).map (BitVec.ofNat 16)

/-- Beats that a row's STO of a kind makes (R246). -/
def stoBeats (k : OutKind) (n : Nat) (complete : Bool) : Nat :=
  match k with
  | .f32 => ceilDiv (n * 4) 64
  | .bf16 => 1
  | .narrow _ => if complete then 2 else 0

/-- Beats that the STO words for one port make in all rows (R246, R247). -/
def owedSto (port m n : Nat) (prog : List W16) : Nat :=
  ((List.range m).map fun row =>
    (prog.foldl (fun (acc : Nat × OutKind) w =>
      (if bitsNat w 12 4 == 0xC && bitsNat w 0 4 == port then acc.1 + stoBeats acc.2 n ((row + 1) * n % 128 == 0) else acc.1,
        kindAfter acc.2 w)) (0, .f32)).1).foldl (· + ·) 0

/-- The port bound to the matrix node's completions (R238). -/
def Tile.mxPort (x : Tile) : Option Nat := (x.inPorts.find? fun (_, p) => p.bind == .engine 4).map (·.1)

/-- The instants that an accepted token owes: one on the completion port, its beats on each STO port (R238, R247). -/
def oweToken (x : Tile) (e : MxEntry) : Tile × MxEntry :=
  let (x1, owed) := match x.mxPort with
    | some p => if (x.inPort p).sampled then (x, 0) else let (q, st) := (x.inPort p).owe 0 (e.inst + 1) 1; (x.setIn p q, st)
    | none => (x, 0)
  let prog := runWords e.prog
  if e.op == 2 then
    let (x2, total) := (List.range 16).foldl (fun (acc : Tile × Nat) k =>
      let n := owedSto k e.tok.rows e.tok.cols prog
      if n == 0 then acc
      else
        let o := acc.1.out k
        let st := max (e.inst + 1) o.owedTo
        (acc.1.setOut k { o with due := o.due ++ [⟨0, st, n, false⟩], owedTo := st + n }, acc.2 + n)) (x1, 0)
    (x2, { e with owed := owed, owedBeats := total })
  else (x1, { e with owed := owed })

/-- A token accepted in instant i (R227, R230); a program beat below offset 0 raises BUFRANGE once the token starts (R232, R242). -/
def State.acceptToken (s : State) (t : Nat) (w : W64) (cycle : Nat) : State :=
  let x := s.tile t
  let m := x.mx
  let op := bitsNat w 0 2
  let a := progAt x (bitsNat w 20 5)
  let prog := if op == 2 && 0 ≤ a then readProg x a.toNat else []
  let x1 := { x with mx := { m with ctl := none, nextSeq := (m.nextSeq + 1) % 2 ^ 32 } }
  if m.failed then s.setTile t x1
  else
    match (if op == 2 && a < 0 then tokenFault w else acceptFault x w prog) with
    | some bit =>
      (s.setTile t { x1 with mx := { x1.mx with failed := true } }).raise
        { s.mxFlt t with cls := 1, cause := 0x44,
                                   addr := 0x44 * 2 ^ 56 + 0x81 * 2 ^ 48 + bit * 2 ^ 40 + x.leaf * 2 ^ 24 + t * 2 ^ 11 }
    | none =>
      let e : MxEntry := { word := w, seq := m.nextSeq, inst := m.ctlInst, accepted := cycle, prog := prog, started := none, finish := 0,
                           owed := 0, owedBeats := 0, undef := false, cov := (match m.ctl with | some b => b.cov | none => []) }
      let (x2, e1) := oweToken x1 e
      s.setTile t { x2 with mx := { x2.mx with queue := x2.mx.queue ++ [e1] } }

/-- Whether the beat at `mx.ctl` had not reached the node by the cycle at which its token is accepted in fixed timing (R237). -/
def Mx.late (m : Mx) : Bool := decide (m.ctlAt < m.ctlCycle) || m.full m.ctlAt

/-- MX_TOKEN_ACCEPT (R227, R237): a VALUE beat becomes a token, any other beat goes; in fixed timing at cycle 10 of its instant. -/
def execMxTokenAccept (t : Nat) (s : State) : Res :=
  .next
    (let s := s.pumpSto t
     let x := s.tile t
     let m := x.mx
     match m.ctl with
     | none => s
     | some b =>
       if !b.present then s.setTile t { x with mx := { m with ctl := none } }
       else if !(s.ctx (s.tileCtx t)).fxt && m.full s.cycle then s
       else if (s.ctx (s.tileCtx t)).fxt then
         if s.cycle < m.ctlAt || m.late then s else s.acceptToken t (BitVec.ofNat 64 (lane64 b.data 0)) m.ctlAt
       else s.acceptToken t (BitVec.ofNat 64 (lane64 b.data 0)) s.cycle)

/-! Feeds (R239). -/

/-- Whether the feeds hold a token's operands. -/
def feedsReady (m : Mx) (op : Nat) (t : MxTok) : Bool :=
  2 ≤ op || ((!t.afeed || t.aBytes ≤ 64 * m.afeed.length) && (!t.wfeed || t.wBytes ≤ 64 * m.wfeed.length))

/-- The head token, its finish known once it has started and its feeds are complete. -/
def Mx.settleHead (m : Mx) (cycle : Nat) : Mx :=
  match m.queue with
  | e :: es =>
    (match e.started with
     | some st =>
       if e.finish == 0 && feedsReady m e.op e.tok then { m with queue := { e with finish := max st cycle + mxLatency e.op e.tok e.prog } :: es }
       else m
     | none => m)
  | [] => m

/-- MX_FEED: which 0 is `mx.a`, 1 `mx.w` (R239): a PRESENT beat is appended while its queue has room, any other goes. -/
def execMxFeed (t which : Nat) (s : State) : Res :=
  .next
    (let x := s.tile t
     let m := x.mx
     match (if which == 0 then m.ain else m.win) with
     | none => s
     | some b =>
       let q := if which == 0 then m.afeed else m.wfeed
       if b.present && 64 ≤ q.length then s
       else
         let q1 := if b.present then q ++ [b.data] else q
         let c1 := (if which == 0 then m.acov else m.wcov) ++ (if b.present then [b.cov] else [])
         let m1 := if which == 0 then { m with ain := none, afeed := q1, acov := c1 } else { m with win := none, wfeed := q1, wcov := c1 }
         s.setTile t { x with mx := m1.settleHead s.cycle })

/-! Reading operands (R232, R233). -/

/-- Block (p, s) of an operand of P rows of G blocks. -/
def operandBlock (t : Ty) (bs : List Byte) (rows g p k : Nat) : List Val :=
  let i := p * g + k
  let codes := (bs.drop (i * blkBytes t)).take (blkBytes t)
  let rec_ := leNat ((bs.drop (scalesAt t rows g + i * blkScale t)).take (blkScale t))
  match t with
  | .bf16 => (elemsAux 16 32 (leNat codes)).map (Val.ofBits 7)
  | .of4 =>
    decodeBlock .of4 (elemsAux 4 128 (leNat codes)) (rec_ / 256) (rec_ / 16 % 16)
      (elemsAux 16 16 (leNat ((bs.drop (sidesAt t rows g + i * 32)).take 32)))
  | _ => decodeBlock t (codes.map BitVec.toNat) rec_ 0 []

/-- Every block of an operand, by row and step. -/
def operandRows (t : Ty) (bs : List Byte) (rows g : Nat) : List (List (List Val)) :=
  (List.range rows).map fun p => (List.range g).map fun k => operandBlock t bs rows g p k

/-- ⌊log2⌋ of the greatest magnitude among products that are not all zero. -/
def topExp : List Val → Option Int → Option Int
  | [], e => e
  | .fin d :: vs, e =>
    if d.m == 0 then topExp vs e
    else let x := (lg d.m : Int) + d.e; topExp vs (some (match e with | some y => max x y | none => x))
  | _ :: vs, e => topExp vs e

/-- A product truncated toward zero, in units of 2^u. -/
def truncUnits (u : Int) : Val → Int
  | .fin d =>
    let m := if u ≤ d.e then d.m * 2 ^ (d.e - u).toNat else d.m / 2 ^ (u - d.e).toNat
    if d.neg then -(m : Int) else (m : Int)
  | _ => 0

/-- The sum of one K-step's products, rounded to f32 (R67). -/
def stepSum (ps : List Val) : Nat :=
  let infs := ps.filterMap fun v => match v with | .inf n => some n | _ => none
  if ps.any Val.isNan || (infs.contains true && infs.contains false) then nanBits 23
  else if !infs.isEmpty then infBits 23 (infs.contains true)
  else
    match topExp ps none with
    | none => if ps.all Val.sign then 2 ^ 31 else 0
    | some e => (Dy.ofUnits false ((ps.map (truncUnits (e - 50))).foldl (· + ·) 0) (e - 50)).toBits 23 .rne

/-- One K-step (R67). -/
def kstep (c : Nat) (a w : List Val) : Nat := faddBits 23 .rne c (stepSum (List.zipWith Val.mul a w))

/-! Tokens. -/

/-- Bytes that a token writes: undefined where its operands were overwritten while it ran (R236). -/
def State.resultBytes (s : State) (e : MxEntry) (bs : List Byte) : List Byte × State := if e.undef then s.freeBytes bs.length else (bs, s)

/-- A typed buffer written by the matrix node, all its bytes at once: an unordered BUFRD sees it whole or not at all, one of the outcomes that R97 allows.
DESIGN CHOICE, notes/assumptions/95.md. -/
def State.mxWrite (s : State) (t : Nat) (e : MxEntry) (b a : Nat) (bs : List Byte) : State :=
  let (ys, s1) := s.resultBytes e bs
  let x := s1.tile t
  let x1 := (x.setBuf b ((x.buf b).writeN a ys)).rewrite b a bs.length
  s1.setTile t (if b == 1 then { x1 with abanks := lunion x1.abanks ((List.range 12).filter fun k => k * 16384 < a + bs.length && a < (k + 1) * 16384) }
                else x1)

/-- What the head token took from its feeds orders its completion and what C holds after it (R212). -/
def Mx.takeCov (m : Mx) (t : MxTok) (op : Nat) : Mx :=
  let na := if op ≤ 1 && t.afeed then ceilDiv t.aBytes 64 else 0
  let nw := if op ≤ 1 && t.wfeed then ceilDiv t.wBytes 64 else 0
  let got := (m.acov.take na ++ m.wcov.take nw).foldl lunion []
  match m.queue with
  | [] => m
  | e :: es =>
    let cov := lunion e.cov got
    { m with queue := { e with cov := if op == 2 then lunion cov m.ccov else cov } :: es, acov := m.acov.drop na, wcov := m.wcov.drop nw,
             ccov := if op == 2 then m.ccov else lunion m.ccov cov }

/-- The head token is over; its completion is to be presented (R237, R238). -/
def State.endToken (s : State) (t : Nat) : State :=
  let x := s.tile t
  let m := x.mx
  match m.queue with
  | [] => s
  | e :: es =>
    s.setTile t { x with mx := { m with
      queue := es, drain := none, done := m.done ++ [e], lastFinish := e.finish,
      lastBusy := e.finish - mxLatency e.op e.tok e.prog + mxBusy e.op e.tok e.prog, lastWasMm := e.op ≤ 1 } }

/-- The head token starts, or raises BUFRANGE and makes no access (R232, R237), or reads SRAM that cannot be corrected (R357). -/
def State.startToken (s : State) (t op : Nat) (k : MxTok) (e : MxEntry) (st : Nat) (d : Option Drain) : State :=
  let x := s.tile t
  let m := x.mx
  let a := progAt x k.epi.toNat
  match (if op == 2 && a < 0 then some (1, (a % ((2 ^ 24 : Nat) : Int)).toNat) else x.mxOutside op k) with
  | some (b, a) =>
    (s.setTile t { x with mx := { m with queue := m.queue.drop 1 } }).raise { s.mxFlt t with cls := 0x0D, f6 := b + a * 256, f7 := e.seq }
  | none =>
    if (e.reads a.toNat).any fun (b, a, n) => x.isSpoilt b a n then
      (s.setTile t { x with spareDue := true, mx := { m with queue := m.queue.drop 1 } }).raise { s.mxFlt t with cls := 0x0E, f6 := sramCode }
    else
    let fin := if feedsReady m op k then st + mxLatency op k e.prog else 0
    let m1 := { m with queue := { e with started := some st, finish := fin } :: m.queue.drop 1, drain := d }
    s.setTile t { x with mx := if op == 2 then m1.takeCov k 2 else m1 }

/-- The token under the cursor, the head of its matrix node's queue (R236): it starts at its cycle, and `perform` runs once its time has
passed. -/
def atToken (s : State) (op : Nat) (k : MxTok) (d : Option Drain) (perform : Nat → MxEntry → State → State) : State :=
  match s.cursor with
  | .token t =>
    let m := (s.tile t).mx
    (match m.queue with
     | [] => s
     | e :: _ =>
       match e.started with
       | none =>
         let st := mxStartAt m.lastBusy m.lastFinish m.lastWasMm e.accepted op
         if s.cycle < st then s else s.startToken t op k e st d
       | some _ => if e.finish == 0 || s.cycle < e.finish then s else perform t e s)
  | _ => s

/-- The bytes of an operand, and the beats left in its feed (R239). -/
def takeOperand (mem : Memory) (feed : List Payload) (fed : Bool) (a n : Nat) : List Byte × List Payload :=
  if fed then ((feed.take (ceilDiv n 64)).flatMap (payBytes 64) |>.take n, feed.drop (ceilDiv n 64)) else (mem.readN a n, feed)

/-- The C elements that a multiplication leaves, in row-major order (R234). -/
def mxProduct (k : MxTok) (as ws : List Byte) (c : Nat → Nat) : List Nat :=
  let wr := operandRows k.wTy ws k.cols k.steps
  ((operandRows k.aTy as k.rows k.steps).zip (List.range k.rows)).flatMap fun (ar, i) =>
    (wr.zip (List.range k.cols)).map fun (wc, j) =>
      (ar.zip wc).foldl (fun acc (x, y) => kstep acc x y) (c (i * k.cols + j))

/-- MMA and MMAZ: the product accumulated onto C or onto +0 (R234). -/
def mxMultiply (k : MxTok) (acc : Bool) (t : Nat) (e : MxEntry) (s : State) : State :=
  let x := s.tile t
  let m := x.mx
  let (as, af) := takeOperand x.a m.afeed k.afeed (k.aoff.toNat * 64) k.aBytes
  let (ws, wf) := takeOperand x.w m.wfeed k.wfeed (k.woff.toNat * 64) k.wBytes
  let cAt := k.coff.toNat * 64
  let old := elemsAux 32 (k.rows * k.cols) (x.c.readNat cAt k.cBytes)
  let out := mxProduct k as ws fun i => if acc then old.getD i 0 else 0
  ((s.setTile t { x with mx := { m.takeCov k (boolNat (!acc)) with afeed := af, wfeed := wf } }).mxWrite t e 2 cAt (out.flatMap (leBytes 4))).endToken t

def execMma (k : MxTok) (s : State) : Res := .next (atToken s 0 k none (mxMultiply k true))
def execMmaz (k : MxTok) (s : State) : Res := .next (atToken s 1 k none (mxMultiply k false))

/-- CLR: C becomes +0 (R234). -/
def execClr (k : MxTok) (s : State) : Res :=
  .next (atToken s 3 k none fun t e s => ((s.setTile t { s.tile t with mx := (s.tile t).mx.takeCov k 3 }).mxWrite t e 2 (k.coff.toNat * 64) (List.replicate k.cBytes 0#8)).endToken t)

/-- A DRAIN at its first row (R244). -/
def Drain.begin (n : Nat) : Drain := { row := 0, pc := 0, v := List.replicate n 0, kind := .f32, asm := [], blocks := 0, block := none }

/-- DRAIN: its program's words run from here on, one step each (R235, R244). -/
def execDrain (k : MxTok) (s : State) : Res := .next (atToken s 2 k (some (Drain.begin k.cols)) fun _ _ s => s)

/-! Completions (R238). -/

/-- The completion beat. -/
def MxEntry.doneBeat (e : MxEntry) : Beat := Beat.val (lanes32 [0, e.seq, e.op, e.owedBeats]) e.cov

/-- Whether the node has something to do whose cycle has passed: a completion that a sampled port has room for, the head token, or a beat at
`mx.ctl` (R237). -/
def Tile.mxOverdue (x : Tile) (cycle : Nat) : Bool :=
  let m := x.mx
  (m.done.any (·.finish < cycle) && (match x.mxPort with | some p => !(x.inPort p).sampled || decide ((x.inPort p).held.length < 8) | none => true)) ||
    (match m.queue, m.starts with
     | e :: _, some st :: _ => if e.finish != 0 then decide (e.finish < cycle) else feedsReady m e.op e.tok && decide (st + mxLatency e.op e.tok e.prog < cycle)
     | _, _ => false) ||
    (match m.ctl with | some b => b.present && decide (m.ctlAt < cycle) | none => false)

/-- MX_COMPLETION: the oldest completion whose cycle has come reaches the completion port; a sampled port holds at most 8 (R15). In fixed
timing it arrives in the cycle that R237 gives. -/
def execMxCompletion (t : Nat) (s : State) : Res :=
  .next
    (let s := s.pumpSto t
     let x := s.tile t
     let m := x.mx
     match m.done with
     | [] => s
     | e :: es =>
       if s.cycle < e.finish then s
       else
         let x1 := { x with mx := { m with done := es } }
         match x.mxPort with
         | none => s.setTile t x1
         | some p =>
           let y := x.inPort p
           if y.sampled then
             (if y.held.length < 8 then s.setTile t (x1.setIn p { y with held := y.held ++ [(if (s.ctx (s.tileCtx t)).fxt then e.finish else s.cycle, e.doneBeat)] }) else s)
           else s.setTile t (x1.setIn p { y with arrived := tset y.arrived e.owed e.doneBeat }))

end Sys2Proof.Machine
end

