-- ==== Sys2Proof/Machine/SoftNodes.lean ====
section
/-!
DEFINITION. Soft-token descriptors, their content hash, and the nodes SXSET, SXMIX, SXHID, SXEMB, SXKIND, SXHASH, COLLAPSE
(R251–R258); the response step of every read element stands at the end (R171).
-/
namespace Sys2Proof.Machine

/-! Descriptors (R251). -/

def payByte (x : Payload) (i : Nat) : Nat := bitsNat x (8 * i) 8
/-- Bytes lo to hi − 1 all zero. -/
def zeroBytes (x : Payload) (lo hi : Nat) : Bool := bitsNat x (8 * lo) (8 * (hi - lo)) == 0

def sxKindByte (x : Payload) : Nat := payByte x 0
def sxFlags (x : Payload) : Nat := payByte x 2
def sxTextId (x : Payload) : Nat := lane32 x 1
def sxFormat (x : Payload) : Nat := payByte x 1
def sxDim (x : Payload) : Nat := lane32 x 1
def sxAddr (x : Payload) : Nat := lane64 x 1 % 2 ^ 57
def sxHidHash (x : Payload) : Nat := lane64 x 2
def sxCount (x : Payload) : Nat := payByte x 1
def sxId (x : Payload) (i : Nat) : Nat := lane32 x (1 + i)
def sxWeight (x : Payload) (i : Nat) : Nat := bitsNat x (8 * 36 + 16 * i) 16
def sxMixHash (x : Payload) : Nat := lane64 x 7

/-- A descriptor that breaks R251. -/
def sxMalformed (x : Payload) : Bool :=
  match sxKindByte x with
  | 0 => !zeroBytes x 0 64
  | 1 => 4 ≤ sxFlags x || payByte x 1 != 0 || payByte x 3 != 0 || !zeroBytes x 8 64
  | 2 =>
    4 ≤ sxFlags x || 2 ≤ sxFormat x || payByte x 3 != 0 || sxDim x < 16 || 65536 < sxDim x || sxDim x % 16 != 0 ||
      lane64 x 1 % 64 != 0 || 2 ^ 57 ≤ lane64 x 1 || !zeroBytes x 24 64
  | 3 =>
    let n := sxCount x
    4 ≤ sxFlags x || n == 0 || 8 < n || payByte x 3 != 0 || !zeroBytes x 52 56 ||
      (List.range 8).any fun i => n ≤ i && (sxId x i != 0 || sxWeight x i != 0)
  | _ => true

/-- The kind as nodes see it: 0–3, or 255 (R256). -/
def sxKind (x : Payload) : Nat := if sxMalformed x then 255 else sxKindByte x

def sxEsz (fmt : Nat) : Nat := if fmt = 0 then 4 else 2

/-! The content hash (R252). -/

def hashMix (x : Nat) : Nat :=
  let x := x ^^^ (x / 2 ^ 31)
  let x := x * 0xD3A15E974C08B6F3 % 2 ^ 64
  let x := x ^^^ (x / 2 ^ 29)
  let x := x * 0xA56B2E4D91F73C09 % 2 ^ 64
  x ^^^ (x / 2 ^ 32)

def hashWords : Nat → List Byte → Nat → Nat
  | 0, _, h => h
  | k + 1, bs, h => hashWords k (bs.drop 8) (hashMix (h ^^^ leNat (bs.take 8)))

def contentHash (bs : List Byte) : Nat :=
  let len := bs.length
  hashMix (hashWords (ceilDiv len 8) bs (0x51A7C3E90B6D2F85 ^^^ (len * 0x9C4F6B1DE273A05B % 2 ^ 64)) ^^^ len)

/-- Content bytes of a TEXT or MIXTURE (R252). -/
def sxContent (x : Payload) : List Byte :=
  if sxKindByte x = 1 then leBytes 4 (sxTextId x)
  else
    let n := sxCount x
    leBytes 1 n ++ (List.range n).flatMap (fun i => leBytes 4 (sxId x i)) ++ (List.range n).flatMap fun i => leBytes 2 (sxWeight x i)

/-! Building descriptors (R254). -/

def sxText (id flags : Nat) : Payload := lanes32 [1 + flags * 2 ^ 16, id % 2 ^ 32]

def sxHidden (fmt d addr hash flags : Nat) : Payload :=
  lanes64 [2 + fmt * 2 ^ 8 + flags * 2 ^ 16 + d % 2 ^ 32 * 2 ^ 32, addr % 2 ^ 57, hash]

/-- A mixture without its hash. -/
def sxMixRaw (ids ws : List Nat) (flags : Nat) : Payload :=
  BitVec.ofNat 512 (3 + ids.length * 2 ^ 8 + flags * 2 ^ 16 + packNat 32 ids * 2 ^ 32 + packNat 16 ws * 2 ^ 288)

def sxWithHash (x : Payload) (h : Nat) : Payload := BitVec.ofNat 512 (x.toNat % 2 ^ 448 + h % 2 ^ 64 * 2 ^ 448)

def sxMixture (ids ws : List Nat) (flags : Nat) : Payload :=
  let x := sxMixRaw ids ws flags
  sxWithHash x (contentHash (sxContent x))

/-! Nodes. -/

def sxReg (n : Node) : Nat := n.aux.toNat % 8

def execSxset (n : Node) (s : State) : Res :=
  .next (fireWith n s fun t _ a =>
    match a.l with
    | .val x => some (s.sxWrite t (sxReg n) (sxText (lane32 x 0) 0), a.out (sxText (lane32 x 0) 0))
    | _ => some (s, onTrigger n a (.same Beat.none)))

def mixOf (n : Node) (ids ws : Payload) : Payload :=
  let c := n.imm.toNat + 1
  sxMixture ((elems 32 8 ids).take c) (((elems 16 8 ws).take c).map (canonNan 7)) 0

def execSxmix (n : Node) (s : State) : Res :=
  .next (fireWith n s fun t _ a =>
    match a.l, a.r with
    | .val x, .val w => some (s.sxWrite t (sxReg n) (mixOf n x w), a.out (mixOf n x w))
    | _, _ => some (s, noIdent n [a.l, a.r] (.same Beat.none)))

def hidOf (n : Node) (addr h : Payload) : Payload :=
  sxHidden (if n.ty == .bf16 then 1 else 0) (16 * (n.imm.toNat + 1)) (lane64 addr 0) (lane64 h 0) 0

def execSxhid (n : Node) (s : State) : Res :=
  .next (fireWith n s fun t _ a =>
    match a.l, a.r with
    | .val x, .val h => some (s.sxWrite t (sxReg n) (hidOf n x h), a.out (hidOf n x h))
    | _, _ => some (s, noIdent n [a.l, a.r] (.same Beat.none)))

/-- The lanes of SXKIND (R256). -/
def sxKindLanes (x : Payload) : List Nat :=
  match sxKind x with
  | 0 => [0]
  | 1 => [1, 0, 0, sxFlags x, 0, 0, sxTextId x]
  | 2 => [2, sxDim x, sxFormat x, sxFlags x, sxHidHash x % 2 ^ 32, sxHidHash x / 2 ^ 32]
  | 3 => [3, sxCount x, 0, sxFlags x, sxMixHash x % 2 ^ 32, sxMixHash x / 2 ^ 32]
  | _ => [255]

def execSxkind (n : Node) (s : State) : Res :=
  .next (fireWith n s fun t _ a => some (s, onTrigger n a (a.out (lanes32 (sxKindLanes ((s.tile t).sxRead (sxReg n)))))))

/-- SXHASH DESC (R255). -/
def sxHashDesc (x : Payload) : Nat :=
  match sxKind x with
  | 1 => contentHash (sxContent x)
  | 2 => sxHidHash x
  | 3 => contentHash (sxContent x)
  | _ => 0

def execSxhash (n : Node) (s : State) : Res :=
  .next (fireWith n s fun t k a =>
    match a.l with
    | .val x =>
      if n.mod == 0#4 then some (s, a.out (lanes64 [sxHashDesc ((s.tile t).sxRead (sxReg n))]))
      else
        let got := (match ((s.tile t).node k).loc with | .hash bs => bs | _ => []) ++ [x]
        if got.length = n.imm.toNat + 1 then
          some (s.setLoc t k .idle, a.out (lanes64 [contentHash (got.flatMap (payBytes 64))]))
        else some (s.setLoc t k (.hash got), .same Beat.none)
    | _ => some (s, onTrigger n a (.same Beat.none)))

/-- Whether bf16 weight u ranks above v in ARGMAX; a NaN ranks below every number (R258). -/
def weightAbove (u v : Nat) : Bool :=
  let a := Val.ofBits 7 u
  let b := Val.ofBits 7 v
  if a.isNan then false else if b.isNan then true else Val.lt b a

def weightSame (u v : Nat) : Bool :=
  let a := Val.ofBits 7 u
  let b := Val.ofBits 7 v
  (a.isNan && b.isNan) || Val.eqv a b

/-- The id of the greatest weight, ties to the lowest id (R258). -/
def mixBest (x : Payload) : Nat :=
  ((List.range (sxCount x)).foldl (fun best i =>
    let here := (sxId x i, sxWeight x i)
    if weightAbove here.2 best.2 || (weightSame here.2 best.2 && here.1 < best.1) then here else best)
    (sxId x 0, sxWeight x 0)).1

/-- What COLLAPSE answers: id or status (R258). -/
def collapseOf (mode : Nat) (x : Payload) (r : Arg) : Except Nat Nat :=
  let samp : Except Nat Nat :=
    match r with | .val y => if lane32 y 0 = 0 then .ok (lane32 y 2) else .error 3 | _ => .error 3
  match sxKind x with
  | 1 => if mode = 1 then samp else .ok (sxTextId x)
  | 3 => if mode = 0 then .ok (mixBest x) else if mode = 1 then samp else .error 1
  | 2 => if mode = 1 then samp else .error 1
  | _ => .error 2

def execCollapse (n : Node) (s : State) : Res :=
  .next (fireWith n s fun t _ a =>
    if a.l.isAbsent || a.r.isAbsent then some (s, noIdent n [a.l, a.r] (.same Beat.none))
    else
      let x := (s.tile t).sxRead (sxReg n)
      match collapseOf n.mod.toNat x a.r with
      | .ok id => some (s.sxWrite t (sxReg n) (sxText id 1), a.out (lanes32 [id, 0, sxKind x]))
      | .error st => some (s, a.out (lanes32 [0, st, sxKind x])))

/-! SXEMB (R257). -/

def embK (n : Node) : Nat := n.ty.elems

/-- Beat number and descriptor of the next embedding beat. -/
def embNow (s : State) (t k : Nat) (n : Node) : Nat × Payload :=
  match ((s.tile t).node k).loc with
  | .emb b d => if b = 0 then (0, (s.tile t).sxRead (sxReg n)) else (b, d)
  | _ => (0, (s.tile t).sxRead (sxReg n))

/-- Whether beat 0 raises SXFORM. -/
def sxFormBad (n : Node) (d : Payload) (r : Payload) : Bool :=
  let dim := lane64 r 1
  sxKind d == 0 || sxKind d == 255 || (sxKind d == 2 && sxDim d != dim) || dim == 0 || 65536 < dim || dim % embK n != 0

/-- The reads of beat b: one per row or vector (R257). -/
def embAccs (n : Node) (b : Nat) (d r : Payload) : List Acc :=
  let k := embK n
  let row (id : Nat) (lane : Nat) : Acc := ⟨lane, ((lane64 r 0 + id * lane64 r 2 + 2 * b * k : Nat) : Int), 2 * k⟩
  match sxKind d with
  | 1 => [row (sxTextId d) 0]
  | 3 => (List.range (sxCount d)).map fun i => row (sxId d i) i
  | _ => let e := sxEsz (sxFormat d); [⟨0, ((sxAddr d + b * k * e : Nat) : Int), k * e⟩]

/-- An f32 element in the output format. -/
def embRound (n : Node) (v : Nat) : Nat := if n.ty == .bf16 then (Val.ofBits 23 v).toBits 7 .rne else v

/-- The elements of a beat from the bytes read (R257). -/
def embData (n : Node) (d : Payload) (rows : List (List Byte)) : Payload :=
  let k := embK n
  let half (bs : List Byte) (j : Nat) : Nat := leNat ((bs.drop (2 * j)).take 2)
  let wide (x : Nat) : Nat := (Val.ofBits 7 x).toBits 23 .rne
  let elem (j : Nat) : Nat :=
    match sxKind d with
    | 1 => wide (half (rows.headD []) j)
    | 3 =>
      let term (i : Nat) : Val := (Val.ofBits 7 (sxWeight d i)).mul (Val.ofBits 7 (half (rows.getD i []) j))
      (List.range (sxCount d - 1)).foldl (fun acc i => ((Val.ofBits 23 acc).add .rne (term (i + 1))).toBits 23 .rne)
        ((term 0).toBits 23 .rne)
    | _ => if sxFormat d = 0 then leNat (((rows.headD []).drop (4 * j)).take 4) else wide (half (rows.headD []) j)
  tyPack n.ty ((List.range k).map fun j => embRound n (elem j))

/-- A translation, protection or UNCORRECTABLE stop at beat b. DEDUCED, notes/assumptions/12.md. -/
def State.embFault (s : State) (t k b : Nat) (x : XFault) (reg : Nat) : State :=
  s.raise { s.nodeFlt t k with
    cls := x.cls, cause := x.cause, resumable := true, addr := x.addr, f4 := b, f5 := reg * 2 ^ 20,
    f6 := if x.cls = 0x0E then x.level else x.level * 16, f7 := x.entry, agent := .node t k }

/-- SXEMB accepts its trigger: the form check at beat 0, then the translations; its firing is its response (R171, R257). -/
def execSxemb (n : Node) (s : State) : Res :=
  .next (fireWith n s fun t k a =>
    if a.l.isAbsent || a.r.isAbsent then some (s, noIdent n [a.l, a.r] (.same Beat.none))
    else if ((s.tile t).node k).issued then none
    else
      let (b, d) := embNow s t k n
      if b = 0 && sxFormBad n d a.r.get then some (s.embFault t k 0 ⟨3, 0x15, 0, 0, 0⟩ (sxReg n), .stop)
      else
        match s.elemReachAll t false (embAccs n b d a.r.get) with
        | .error (f, _) => some (s.embFault t k b f 0, .stop)
        | .ok rs =>
          let s1 := rs.foldl (fun s (_, ps) => s.cacheAll (Config.dieOf t) (s.accessCtx t) ps) s
          some (s1.issue t k, .stop))

/-- The firing of SXEMB with its data; its reads are not race-checked. -/
def State.embRespond (s : State) (t k : Nat) (n : Node) (a : Args) (bad : Bool) : State :=
  let (b, d) := embNow s t k n
  match s.reachAllAs t (s.nodeCtx t k) false (embAccs n b d a.r.get) with
  | .error (f, _) => s.embFault t k b f 0
  | .ok rs =>
    let ps := rs.flatMap (·.2)
    match s.badRead bad ps with
    | some (pa, place) => (s.spoil bad ps).embFault t k b ⟨0x0E, 0, ((rs.headD default).1.va).toNat, place, pa⟩ 0
    | none =>
      let data := rs.map fun (_, ps) => s.loadPieces t a.ords ps
      let next := if (b + 1) * embK n < lane64 a.r.get 1 then Local.emb (b + 1) d else .idle
      ((s.fillLines (Config.dieOf t) ps).setLoc t k next).emit t k n (.same (Beat.val (embData n d data) a.ords))

/-- Data returns for a read element that has issued: it fires (R171); an uncorrectable error stops it with no data delivered (R357). -/
def execMemResponse (t k : Nat) (bad : Bool) (s : State) : Res :=
  .next
    (let x := s.tile t
     if s.mayFire t k && (x.node k).issued then
       match nodeAt x.words k with
       | some (o, n) =>
         if (nodeTargets n).all (Tile.targetRoom s x) then
           (if o == .sxemb then s.embRespond t k n (x.args n k) bad else s.respond t k o n (x.args n k) bad)
         else s
       | none => s
     else s)

end Sys2Proof.Machine
end

