-- ==== Sys2Proof/Machine/Regions.lean ====
section
/-!
DEFINITION. Regions, partitions and slot tables as wholes: generations (R295, R304), killing a region (R361), the fate of a partition
that loses its keys (R377), submission queues switched on and off (R308), slot tables and their rewriting (R303, R320–R323).
-/
namespace Sys2Proof.Machine

/-! Slot tables (R303, R320, R321). -/

def State.table (s : State) (e : Nat) : Table := tget Table.fresh s.tables e

/-- The entries in force at a cycle. -/
def Table.at (x : Table) (cycle : Nat) : List (Nat × Slot) := if x.cycle ≤ cycle then x.next.foldl (fun l (i, v) => tset l i v) x.now else x.now

def Table.slot (x : Table) (cycle i : Nat) : Slot := tget Slot.fresh (x.at cycle) i

/-- The entry as the last SLOTW left it. -/
def Table.pending (x : Table) (i : Nat) : Slot := tget (tget Slot.fresh x.now i) x.next i

/-- An entry written, in force from the engine's next 64-cycle table round (R303). -/
def Table.write (x : Table) (cycle i : Nat) (v : Slot) : Table :=
  let x1 := if x.cycle ≤ cycle then { x with now := x.at cycle, next := [] } else x
  { x1 with next := tset x1.next i v, cycle := (cycle / 64 + 1) * 64 }

def State.slotWrite (s : State) (e i : Nat) (v : Slot) : State :=
  { s with tables := tset s.tables e ((s.table e).write s.cycle i v) }

def Slot.ofNat (v : Nat) : Slot := { ctx := v % 256, v := v / 2 ^ 8 % 2 == 1, rsv := v / 2 ^ 9 % 2 == 1, wc := v / 2 ^ 10 % 2 == 1 }
def Slot.toNat (x : Slot) : Nat := x.ctx + boolNat x.v * 2 ^ 8 + boolNat x.rsv * 2 ^ 9 + boolNat x.wc * 2 ^ 10

/-- How many reserved entries a context holds on an engine (R325). -/
def State.rsvCount (s : State) (c e : Nat) : Nat :=
  ((List.range 64).filter fun i => let y := (s.table e).slot s.cycle i; y.v && y.rsv && y.ctx == c).length

/-! Rewriting the tables from the shares (R323). -/

/-- The share of an engine kind in ENGSHARE (R322). -/
def Ctx.share (c : Ctx) (kind : Nat) : Nat := c.engshare / 2 ^ (7 * kind) % 2 ^ 7
def Ctx.expert (c : Ctx) : Bool := c.engshare / 2 ^ 28 % 2 == 1
def Ctx.rsvBit (c : Ctx) : Bool := c.engshare / 2 ^ 29 % 2 == 1

/-- Non-FREE contexts of the partitions that may use a die. -/
def State.dieCtxs (s : State) (die : Nat) : List Nat :=
  (s.ctxs.filter fun (c, x) => c != 0 && x.state != 0 && (s.part x.part).dies / 2 ^ die % 2 == 1).map (·.1)

/-- The context with the greatest credit; ties to the lowest number. -/
def bestCredit : List (Nat × Int) → Nat × Int
  | [] => (256, 0)
  | [x] => x
  | x :: xs => let y := bestCredit xs; if y.2 ≤ x.2 then x else y

/-- Entries 63 − n and up, placed by credit; `stay` says which entries keep their content. -/
def placeSlots (shares : List (Nat × Nat)) (rsv : Nat → Bool) (stay : Nat → Bool) : Nat → List (Nat × Int) → List (Nat × Slot)
  | 0, _ => []
  | n + 1, credit =>
    let i := 63 - n
    if stay i then placeSlots shares rsv stay n credit
    else
      let c1 := credit.map fun (c, v) => (c, v + (tget 0 shares c : Nat))
      let w := (bestCredit c1).1
      let c2 := c1.map fun (c, v) => if c == w then (c, v - 64) else (c, v)
      (i, if w == 256 then Slot.fresh else ⟨w, true, rsv w, true⟩) :: placeSlots shares rsv stay n c2

/-- The engines of a die with their kinds (R303). -/
def dieEngines (die : Nat) : List (Nat × Nat) :=
  (List.range 32).map (fun i => (die + i * 32, 0)) ++ [(die + 8, 1), (die + 16, 2), (die + 24, 3)]

def State.rewriteTable (s : State) (die e kind : Nat) : State :=
  let placed := (s.dieCtxs die).filter fun c => !(s.ctx c).expert
  let shares := placed.map fun c => (c, (s.ctx c).share kind)
  let idle := 64 - (shares.map (·.2)).foldl (· + ·) 0
  let all := shares ++ [(256, idle)]
  let x := s.table e
  let stay (i : Nat) : Bool :=
    let y := x.pending i
    y.v && ((s.ctx y.ctx).expert || (y.rsv && (s.ctx y.ctx).fxt && (s.ctx y.ctx).state == 2))
  (placeSlots all (fun c => (s.ctx c).rsvBit) stay 64 (all.map fun (c, _) => (c, 0))).foldl (fun s (i, v) => s.slotWrite e i v) s

/-- The scheduler rewrites every table of a die (R323). -/
def State.rewriteDie (s : State) (die : Nat) : State :=
  (dieEngines die).foldl (fun s (e, k) => s.rewriteTable die e k) s

/-- The tables of every die of a partition's mask. -/
def State.rewriteDies (s : State) (mask : Nat) : State :=
  ((List.range 6).filter fun d => mask / 2 ^ d % 2 == 1).foldl State.rewriteDie s

/-! Submission queues (R308). -/

/-- D2 of a queue descriptor written by the scheduler. -/
def State.writeD2 (s : State) (p q : Nat) (x : SubQ) : State :=
  s.devWrite ((s.part p).sqtab + 64 * q + 16) (leBytes 8 (x.started % 2 ^ 32 + x.status * 2 ^ 32))

def State.setQ (s : State) (p q : Nat) (x : SubQ) : State :=
  let y := s.setPart p { s.part p with queues := tset (s.part p).queues q x }
  y.writeD2 p q x

def State.subq (s : State) (p q : Nat) : SubQ := tget SubQ.fresh (s.part p).queues q

/-- Whether a descriptor is BAD for partition p. -/
def badQueue (s : State) (p : Nat) (d : List Nat) : Bool :=
  let d0 := d.getD 0 0
  let d1 := d.getD 1 0
  d0 % 2 ^ 57 % 64 != 0 || d0 / 2 ^ 57 % 16 < 2 || d0 / 2 ^ 61 != 0 || d1 / 2 ^ 18 != 0 || d1 % 256 == 0 ||
    (s.ctx (d1 % 256)).part != p || (d.drop 3).any (· != 0)

/-- Bit q of SQEN goes from 0 to 1: the scheduler takes its copy of D0 and D1 and writes D2. -/
def State.enableQ (s : State) (p q : Nat) : State :=
  let d := (List.range 8).map fun i => s.peekNat ((s.part p).sqtab + 64 * q + 8 * i) 8
  let x := s.subq p q
  s.setQ p q { x with d0 := BitVec.ofNat 64 (d.getD 0 0), d1 := BitVec.ofNat 64 (d.getD 1 0), started := 0,
                      status := if badQueue s p d then 2 else 0, passes := 0, pinned := false, completed := 0, running := [], head := none }

/-- Bit q goes from 1 to 0: the queue starts nothing more. -/
def State.disableQ (s : State) (p q : Nat) : State := s.setQ p q { s.subq p q with status := 4, pinned := false, passes := 0, head := none }

/-- SQEN written (R307, R308). -/
def State.writeSqen (s : State) (p v : Nat) : State :=
  let old := (s.part p).sqen
  let s1 := s.setPart p { s.part p with sqen := v }
  (List.range 64).foldl (fun s q =>
    let o := old / 2 ^ q % 2
    let n := v / 2 ^ q % 2
    if o == 0 && n == 1 then s.enableQ p q else if o == 1 && n == 0 then s.disableQ p q else s) s1

/-! Regions. -/

/-- A tile freed: its block, beats and node state go; what its router has counted stays (R361). -/
def State.freeTile (s : State) (t : Nat) : State :=
  let x := s.tile t
  s.setTile t { Tile.fresh with errCount := x.errCount, detachCount := x.detachCount, spareDue := x.spareDue, spoilt := x.spoilt }

/-- Replies still on their way to a region's nodes: one for each read issued (R295). -/
def State.repliesOwed (s : State) (r : Nat) : Nat :=
  ((s.home r).allTiles.map fun t => ((s.tile t).nodes.filter NodeSt.issued).length).foldl (· + ·) 0

/-- The generation moves on, in every entry of the region; replies of the old one become late (R295, R304). -/
def State.bump (s : State) (r : Nat) : State :=
  let x := s.home r
  let gen := (x.gen + 1) % 256
  let s1 := (s.family r).foldl (fun s k => s.setRegion k { s.region k with gen := gen }) s
  s1.setRegion (r % 1024) { s1.home r with gen := gen, late := x.late ++ List.replicate (s.repliesOwed r) x.gen }

/-- Whether a reply on its way carries a generation: a late one, or one of a command started under it (R304). -/
def State.genInFlight (s : State) (r gen : Nat) : Bool :=
  (s.home r).late.contains gen ||
    s.ctxs.any fun (_, c) => c.queues.any fun (_, q) => q.started.any fun x => x.region % 1024 == r % 1024 && x.region != agentRegion && x.gen == gen

/-- Every queue of every context changed: the context, the queue's engine. -/
def State.mapQueues (s : State) (f : Queue → Queue) : State :=
  { s with ctxs := s.ctxs.map fun (c, x) => (c, { x with queues := x.queues.map fun (e, q) => (e, f q) }) }

/-- An entry's commands that have not started leave their queues, whichever context's these are (R298, R361, R366): all, or those issued in instant m and
later. -/
def State.dropQueued (s : State) (r : Nat) (from_ : Option Nat) : State :=
  s.mapQueues fun q => { q with entries := q.entries.filter fun x =>
    !(x.region == r && (match from_ with | none => true | some m => m ≤ x.inst && !x.bound)) }

/-- Every region of a context that holds it. -/
def State.regionsOf (s : State) (c : Nat) : List Nat := (s.regions.filter fun (k, x) => k < 1024 && x.valid && x.ctx == c).map (·.1)

/-- Started commands of an entry that only it or a decision on a record could bring to their end: a write traverse, which takes no beat any more, and a
command that a fault has stopped. They end without a signal, and a unit held by one goes on (R354, R361). DEDUCED, notes/assumptions/46.md. -/
def State.endHeld (s : State) (r : Nat) : State :=
  let gen := (s.region r).gen
  let ends (x : CmdSt) : Bool := x.region == r && x.gen == gen && (x.phase == .stopped || (isTravwr x && x.phase == .started))
  let free (x : Ctx) : Bool := x.queues.any fun (e, q) => e / 8 % 4 == 3 && q.started.any fun c => c.phase == .stopped && ends c
  let s1 : State := { s with ctxs := s.ctxs.map fun p => (p.1, { p.2 with kvpHeld := p.2.kvpHeld && !free p.2 }) }
  s1.mapQueues fun q =>
    { q with started := q.started.map fun x => if ends x then { x with phase := .faulted } else x }

/-- The counters of a region's invocations: those that have ended and those that run (R312). -/
def State.instants (s : State) (r : Nat) : Nat :=
  (s.family r).foldl (fun n k => if (s.region k).phase == .off then n else n + (s.region k).inst) (s.home r).sumInst

/-- An entry whose invocation is over. -/
def Region.close (x : Region) : Region :=
  { x with phase := .off, valid := false, tiles := [], entries := [], reads := [], owners := [], ended := none, ending := false, brkAt := none, unbound := [] }

/-- Killing a region (R361): `cls` goes to the completion record, which LAUNCH_COMPLETE writes once its commands are done (R196). -/
def State.killRegion (s : State) (r cls : Nat) : State :=
  let x := s.home r
  let fam := lunion [r % 1024] (s.family r)
  let n := s.instants r
  let det := fam.any fun k => (s.region k).detached
  let s1 := fam.foldl (fun s k => (s.dropQueued k none).endHeld k) s
  let s2 := x.allTiles.foldl State.freeTile (s1.bump r)
  let s3 := fam.foldl (fun s k => s.setRegion k (s.region k).close) s2
  let y := s3.home r
  let s4 := s3.setRegion (r % 1024)
    { y with susp := false, busy := false, allTiles := [], waiting := [], killed := true, preempted := false, parked := [], parkedCmds := [],
             req := false, saved := none, plan := [] }
  s4.setLaunch x.launch fun l =>
    if l.phase == .complete then l
    else { l with phase := .killed, cls := cls, instants := n, detached := l.detached || det, preempted := l.preempted || x.preempted }

/-! The end of a launch. -/

/-- How the accesses on a launch's behalf are taken: through its context's tables, or physically for the supervisor's queue (R298, R299, R340). -/
structure Via where
  actx : Option Nat
  sup : Bool
deriving DecidableEq, Repr, Inhabited

/-- A launch as the loader reaches what it names. -/
def Launch.isPsq (l : Launch) : Bool := match l.src with | .psq _ => true | _ => false
def Launch.via (l : Launch) : Via := if l.isPsq then ⟨none, true⟩ else ⟨some l.ctx, false⟩

/-- A queue's count of passes, kept without its descriptor (child queues have none). -/
def State.setPasses (s : State) (p q : Nat) (f : SubQ → SubQ) : State :=
  s.setPart p { s.part p with queues := tset (s.part p).queues q (f (s.subq p q)) }

/-- The completion record (R312). DEDUCED, notes/assumptions/67.md. -/
def recordBytes (l : Launch) : List Byte :=
  let ok := l.phase == .ended
  let status := match l.phase with | .killed => 1 | .refused => 2 | _ => 0
  leBytes 8 l.tag ++ leBytes 4 (if ok then l.exit else 0) ++ leBytes 1 status ++ leBytes 1 (if l.phase == .killed then l.cls else 0) ++
    leBytes 1 (boolNat l.detached + 2 * boolNat l.preempted) ++ leBytes 1 0 ++ leBytes 8 (if l.phase == .refused then 0 else l.instants) ++
    leBytes 8 (if l.phase == .refused then l.detail else 0)

/-- Whether every command issued on a region's behalf has completed (R196). -/
def State.commandsDone (s : State) (g : Nat) : Bool :=
  s.ctxs.all fun (_, c) => c.queues.all fun (_, q) => (q.entries ++ q.started).all fun d => d.region % 1024 != g || d.region == agentRegion

/-- A region whose launch is over: its tiles are freed. -/
def State.closeRegion (s : State) (g : Nat) : State :=
  let ts := (s.home g).allTiles
  let s1 := (lunion [g % 1024] (s.family g)).foldl (fun s k => s.setRegion k (s.region k).close) s
  ts.foldl State.freeTile (s1.setRegion (g % 1024) { s1.home g with susp := false, busy := false, allTiles := [], waiting := [], plan := [], parked := [],
                                                                    parkedCmds := [], saved := none })

/-- A launch that has ended, or will not run, completes (R226, R312): the lines that the kernel wrote are written back, the record is written, then the
semaphore is incremented, both with SYSTEM-scope release. None while the record cannot be written: the launch has not completed then.
DEDUCED, notes/assumptions/67.md. -/
def State.completeLaunch (s : State) (launch : Nat) : Option State :=
  match tget? s.launches launch with
  | none => none
  | some l1 =>
    let g := l1.region
    let ran := l1.phase == .ended || l1.phase == .killed
    let l := if l1.phase == .ended then
        { l1 with instants := s.instants g, detached := l1.detached || (s.family g).any (fun k => (s.region k).detached),
                  preempted := l1.preempted || (s.home g).preempted }
      else l1
    let wrote := if ran then (s.family g).flatMap fun k => (s.region k).wrote else []
    let s1 := wrote.foldl (fun s w => s.writeBack w.line) s
    let written : Option State :=
      if l.crec == 0 || l.crec % 32 != 0 then some s1
      else match s1.engWrite 0 l.via.actx l.via.sup l.crec (recordBytes l) with | .ok s2 => some s2 | .error _ => none
    written.map fun s2 =>
      let s3 := if ran then s2.closeRegion g else s2
      let s4 := { s3 with launches := tset s3.launches launch { l with phase := .complete } }
      let s5 := if l.cinc == 0 then s4 else s4.semInc l.ctx l.csem l.cinc 0 (wrote.map fun w => (Ord.full w.access, g))
      match l.src with
      | .queue p q _ =>
        s5.setPasses p q fun x => if x.running.contains launch then { x with completed := x.completed + 1, running := x.running.erase launch } else x
      | .child c _ key => s5.setCtx c { s5.ctx c with childRun := tdel (s5.ctx c).childRun key }
      | .psq _ => { s5 with psqDone := s5.psqDone + 1, psqBusy := false }

/-! The fate of a partition's keys (R377). -/

/-- Started commands of a region completed FAULTED with no signal (R377): its region is gone, so no beat is delivered. -/
def State.dropStarted (s : State) (c : Nat) : State :=
  (s.ctx c).queues.foldl (fun s (e, _) =>
    let q := (s.ctx c).queue e
    s.setCtx c { (s.ctx c).setQueue e { q with started := [] } with kvpHeld := false }) s

/-- Memory as DRAM holds it under some lines: what they hold beyond it is lost (R377 step 3). -/
def State.dropLines (s : State) (p : Nat → Bool) : State :=
  (s.lines.filter fun (l, _) => p l).foldl (fun s (l, x) =>
    { s with mem := s.pokeN (l * 128) (imageBytes x.image), lines := tdel s.lines l }) s

/-- Whether a line belongs to a range (R377): by the key that its granules were written under, where the range has one; else by its place. -/
def State.lineIn (s : State) (lo hi : Nat) (key : Option Nat) (l : Nat) : Bool :=
  match key with
  | some k => s.keyAt (2 * l) == k || s.keyAt (2 * l + 1) == k
  | none => lo ≤ l * 128 && l * 128 < hi

/-- What a range's locations hold is hidden under a number, or, under number 0, replaced with zeros; granules that other ranges' addresses reach
keep what they hold (R335, R374, R376). -/
def State.wipe (s : State) (lo hi n : Nat) : State :=
  let kept := (s.tags.filter fun (g, _) => lo ≤ g * 64 && g * 64 < hi).map fun (g, _) => (g, s.peekN (g * 64) 64)
  let s1 := if n == 0 then
      { s with mem := s.mem.filter fun c => !(lo ≤ c.1 && c.1 < hi),
               badBeats := s.badBeats.filter fun g => !(lo ≤ g * 64 && g * 64 < hi) || (tget? s.tags g).isSome }
    else s
  kept.foldl (fun s (g, bs) => { s with mem := s.pokeN (g * 64) bs }) { s1 with wiped := (lo, hi, n) :: s1.wiped }

def Pmem.range (m : Pmem) : Nat × Nat :=
  let b := (if m.far then 0x10000000000 else 0) + m.base * 2 ^ 30
  (b, b + m.count * 2 ^ 30)

/-- The records of the launches that a partition's end kills, written while its ranges still have keys (R377 step 1). -/
def State.recordKilled (s : State) (cs : List Nat) : State :=
  ((s.launches.filter fun (_, l) => l.phase == .killed && cs.contains l.ctx).map (·.1)).foldl (fun s k => (s.completeLaunch k).getD s) s

/-- A partition leaves RUN or CONFIG_LOCKED: steps 1–4 of R377. DESIGN CHOICE, notes/assumptions/7.md. -/
def State.unkey (s : State) (p : Nat) : State :=
  let cs := (s.ctxs.filter fun (c, x) => c != 0 && x.part == p).map (·.1)
  let s1 := cs.foldl (fun s c => (s.regionsOf c).foldl (fun s r => s.killRegion r 0) (s.dropStarted c)) s
  let s2 := { (s1.recordKilled cs).writeSqen p 0 with departures := s1.departures.filter fun d => !cs.contains d.ctx }
  (s2.part p).pmem.foldl (fun s (i, m) =>
    if m.v then
      let (lo, hi) := m.range
      let s1 := s.dropLines (s.lineIn lo hi m.key)
      let s2 := if m.key.isSome then s1.wipe lo hi (s1.keyNo + 1) else s1
      { s2.setPart p { s2.part p with pmem := tset (s2.part p).pmem i { m with key := none } } with keyNo := s2.keyNo + 1 }
    else s) s2

/-- RUN → ERROR (R375): a write of PARTCTL or PMEM attempted, an IDE failure, or a key-store error. DEDUCED, notes/assumptions/83.md. -/
def State.interfaceFail (s : State) (p : Nat) : State :=
  if (s.part p).tdisp == .run then
    let s1 := s.unkey p
    s1.setPart p { s1.part p with tdisp := .error }
  else s

end Sys2Proof.Machine
end

