-- ==== Sys2Proof/Machine/Commands.lean ====
section
/-!
DEFINITION. A command's fields, its affine pattern and beats (R155, R158), its endpoint (R155, R157, R160), and what of it is a stream (R364).
-/
namespace Sys2Proof.Machine

/-! Fields. -/

def CmdSt.w (c : CmdSt) (i : Nat) : W64 := c.words.getD i 0#64
def CmdSt.f (c : CmdSt) (i lo n : Nat) : Nat := bitsNat (c.w i) lo n
def CmdSt.cls (c : CmdSt) : Nat := cmdClass c.words
def CmdSt.kind (c : CmdSt) : Nat := cmdKind c.words
def CmdSt.inc (c : CmdSt) : Nat := c.f 0 8 8
def CmdSt.ssem (c : CmdSt) : Nat := c.f 0 16 8
def CmdSt.scope (c : CmdSt) : Nat := c.f 0 5 3
def CmdSt.thr (c : CmdSt) : Nat := c.f 0 24 16
def CmdSt.wsem (c : CmdSt) : Nat := c.f 0 40 8
def CmdSt.barrier (c : CmdSt) : Bool := c.f 0 4 1 == 1
def CmdSt.slotIx (c : CmdSt) : Nat := c.f 1 0 12

/-- The affine pattern of a traverse record (R155, R158); counts are as used. -/
structure Trav where
  base : Nat
  esz : Nat
  n : List Nat
  stride : List Int
deriving DecidableEq, Repr, Inhabited

def eszOf (code : Nat) : Nat := match code with | 0 => 1 | 1 => 2 | 2 => 4 | 3 => 8 | _ => 64

def CmdSt.trav (c : CmdSt) : Trav :=
  { base := c.f 1 0 57, esz := eszOf (c.f 1 61 3),
    n := (List.range 4).map fun i => c.f (2 + i) 40 20 + 1,
    stride := (List.range 4).map fun i => toSigned 40 (c.f (2 + i) 0 40) }

def Trav.count (t : Trav) (i : Nat) : Nat := t.n.getD i 1
/-- Elements of a row, beats of a row, rows, beats in all (R158). -/
def Trav.rowBytes (t : Trav) : Nat := t.count 0 * t.esz
def Trav.rowBeats (t : Trav) : Nat := ceilDiv t.rowBytes 64
def Trav.rows (t : Trav) : Nat := t.count 1 * t.count 2 * t.count 3
def Trav.beats (t : Trav) : Nat := t.rows * t.rowBeats
def Trav.elems (t : Trav) : Nat := t.rows * t.count 0
/-- The indices of element p. -/
def Trav.index (t : Trav) (p : Nat) : Nat × Nat × Nat × Nat :=
  (p % t.count 0, p / t.count 0 % t.count 1, p / (t.count 0 * t.count 1) % t.count 2, p / (t.count 0 * t.count 1 * t.count 2))
def Trav.addr (t : Trav) (p : Nat) : Int :=
  let (i0, i1, i2, i3) := t.index p
  (t.base : Int) + (i0 : Int) * t.stride.getD 0 0 + (i1 : Int) * t.stride.getD 1 0 + (i2 : Int) * t.stride.getD 2 0
    + (i3 : Int) * t.stride.getD 3 0

/-! Endpoints (R155 W6, R157). -/

/-- The endpoint word of a command: W6, or W4 of a REPLAY (R266); none where the command has no endpoint. -/
def CmdSt.endWord (c : CmdSt) : Option W64 :=
  if c.cls == 1 then some (c.w 6)
  else if c.cls == 2 && c.f 5 24 1 == 1 then some (c.w 6)
  else if c.cls == 6 && c.kind == 7 then some (c.w 4)
  else none

structure EndPt where
  ekind : Nat
  canon : Nat
  port : Nat
  buf : Nat
  offset : Nat
  circ : Bool
  group : Nat
deriving DecidableEq, Repr, Inhabited

def endOf (w : W64) : EndPt :=
  { ekind := bitsNat w 0 2, canon := bitsNat w 2 13, port := bitsNat w 15 4, buf := bitsNat w 19 2, offset := bitsNat w 21 13,
    circ := bitAt w 34, group := bitsNat w 35 8 }

def CmdSt.endPt (c : CmdSt) : Option EndPt := c.endWord.map endOf

/-- Whether the region the command was issued for has moved on (R295). -/
def State.stale (s : State) (c : CmdSt) : Bool := (s.region c.region).gen != c.gen

/-- The tile that holds an instance of a region, if it is loaded (R157). -/
def State.holder (s : State) (r canon : Nat) : Option Nat :=
  (s.home r).allTiles.find? fun t => (s.tile t).canon == canon && !(s.tile t).words.isEmpty && (s.tile t).next.isNone

/-- The ports that a command's beats go to: an input port, or those of a multicast group (R155, R160). -/
def State.endPorts (s : State) (c : CmdSt) : List (Nat × Nat) :=
  match c.endPt with
  | some e =>
    if e.ekind == 0 then (match s.holder c.region e.canon with | some t => [(t, e.port)] | none => [])
    else if e.ekind == 2 then
      (s.region c.region).cfg.groups.filterMap fun (g, canon, port) =>
        if g == e.group then (s.holder c.region canon).map fun t => (t, port) else none
    else []
  | none => []

/-- Whether every instance that the endpoint names is loaded (R157). -/
def State.endLoaded (s : State) (c : CmdSt) : Bool :=
  match c.endPt with
  | some e =>
    if e.ekind == 2 then
      (s.region c.region).cfg.groups.all fun (g, canon, _) => g != e.group || (s.holder c.region canon).isSome
    else (s.holder c.region e.canon).isSome
  | none => true

/-- Whether the command takes beats from an output port (TRAVWR). -/
def CmdSt.isWrite (c : CmdSt) : Bool := c.cls == 1 && c.kind == 2

/-- How many beats a command owes its input ports (R152, R202, R266). -/
def CmdSt.portBeats (c : CmdSt) : Nat :=
  match c.endPt with
  | some e =>
    if c.isWrite then 0
    else if e.ekind == 1 then 0
    else if c.cls == 1 then c.trav.beats
    else if c.cls == 2 then c.f 3 0 40
    else 1
  | none => 0

/-! Beats of a pattern (R158). -/

/-- The first element of a beat and how many it holds. -/
def Trav.beatElems (t : Trav) (b : Nat) : Nat × Nat :=
  let per := 64 / t.esz
  let k := b % t.rowBeats * per
  (b / t.rowBeats * t.count 0 + k, min per (t.count 0 - k))

/-- The beat that holds an element. -/
def Trav.beatOf (t : Trav) (p : Nat) : Nat := p / t.count 0 * t.rowBeats + p % t.count 0 * t.esz / 64

/-! Streams. -/

def setUp (c : CmdSt) : Bool := c.mark / 2 % 2 == 1
def CmdSt.markSetUp (c : CmdSt) : CmdSt := if setUp c then c else { c with mark := c.mark + 2 }

/-- Whether a command is a stream bound to its region's ports (R364). -/
def CmdSt.isStream (c : CmdSt) : Bool :=
  match c.endPt with
  | some e => e.ekind != 1 && (c.cls == 1 || c.cls == 2)
  | none => false

/-- Beats that a stream has delivered or written. -/
def CmdSt.beatsOut (c : CmdSt) : Nat :=
  if c.cls == 1 then (let t := c.trav; t.beatOf (c.pos - (if c.row.isEmpty then 0 else 1)) + (if c.row.isEmpty && t.elems ≤ c.pos then 1 else 0))
  else c.pos

/-- A command that is done leaves the started ones; the turn stays with the command it stood at (R320). -/
def State.dropCmd (s : State) (ctx eng uid : Nat) : State :=
  let q := (s.ctx ctx).queue eng
  let i := (q.started.findIdx? fun x => x.uid == uid).getD q.started.length
  s.setCtx ctx ((s.ctx ctx).setQueue eng { q with started := q.started.filter fun x => x.uid != uid, turn := if i < q.turn then q.turn - 1 else q.turn })

/-- The commands of a region that stand in queues, changed. -/
def State.retag (s : State) (g : Nat) (f : CmdSt → CmdSt) : State :=
  let c := (s.home g).ctx
  (s.ctx c).queues.foldl (fun s (e, _) =>
    let q := (s.ctx c).queue e
    let h (x : CmdSt) : CmdSt := if x.region % 1024 == g % 1024 then f x else x
    s.setCtx c ((s.ctx c).setQueue e { q with entries := q.entries.map h })) s

end Sys2Proof.Machine
end

