-- ==== Sys2Proof/Machine/Cut.lean ====
section
/-!
DEFINITION. Rewinding a region's streams, and the restart-mark cut of pre-emption (R129, R130, R152, R162, R241, R363, R364, R366).
-/
namespace Sys2Proof.Machine

/-! Streams. -/

/-- A stream at the start of beat b. -/
def CmdSt.atBeat (c : CmdSt) (b : Nat) : CmdSt :=
  let t := c.trav
  let p := if c.cls == 1 then (if t.beats ≤ b then t.elems else (t.beatElems b).1) else b
  { c with pos := p, row := [], head := c.tail, phase := .started,
           bytes := if c.isWrite then p * t.esz else if c.beatsOut = 0 then 0 else c.bytes / c.beatsOut * b }

/-- A read stream at its beat of instant m, if it is past it. -/
def CmdSt.rewind (c : CmdSt) (m : Nat) : CmdSt := if m - c.first < c.beatsOut then c.atBeat (m - c.first) else c

/-- Whether a stream was issued after the restart instant: it is issued again when the region resumes (R130). -/
def CmdSt.issuedFrom (c : CmdSt) (m : Nat) : Bool := !c.bound && m ≤ c.inst

/-- A completed stream brought back: it has signalled and completed once. -/
def CmdSt.again (c : CmdSt) : CmdSt :=
  { c with words := lset c.words 0 (c.w 0 &&& ~~~ (0xFF00#64)), cport := none, phase := .started }

/-- Whether a command is a stream of an entry that still feeds it or takes from it. -/
def CmdSt.feeds (c : CmdSt) (k gen : Nat) : Bool :=
  c.region == k && c.gen == gen && c.isStream && (c.phase == .started || c.phase == .performed)

/-- The instants that a stream owes stand on its ports again. -/
def State.oweAgain (s : State) (c : CmdSt) : State :=
  (s.endPorts c).foldl (fun s (t, k) =>
    let x := s.tile t
    let p := x.inPort k
    if (p.due.any fun o => o.by_ == c.uid) then s
    else s.setTile t (x.setIn k { p with due := ⟨c.uid, c.first, c.portBeats, false⟩ :: p.due })) s

/-- The read streams of an entry start again from their beats of instant m, completed ones included; what they delivered for later instants is gone
from their ports (R363, R366). DEDUCED, notes/assumptions/30.md. -/
def State.rewindReads (s : State) (k m gen new : Nat) : State :=
  let r := s.region k
  let c := r.ctx
  let back := r.past.filter fun (_, d) => !d.isWrite && !d.issuedFrom m && m < d.first + d.portBeats
  let s1 := (s.ctx c).queues.foldl (fun s (e, _) =>
    let q := (s.ctx c).queue e
    let again := back.filterMap fun (e', d) => if e' == e then some { (d.rewind m).again with gen := new } else none
    let f (d : CmdSt) : CmdSt := if d.feeds k gen then { (if d.isWrite then d else d.rewind m) with gen := new } else d
    s.setCtx c ((s.ctx c).setQueue e { q with started := q.started.map f ++ again })) s
  let s2 := s1.setRegion k { s1.region k with past := r.past.filter fun (_, d) => d.isWrite }
  let all := ((s2.ctx c).queues.flatMap fun (_, q) => q.started).filter fun d => d.feeds k new && !d.isWrite
  all.foldl (fun s d =>
    (s.endPorts d).foldl (fun s (t, p) =>
      let x := s.tile t
      let y := x.inPort p
      s.setTile t (x.setIn p { y with arrived := y.arrived.filter fun (i, _) => !(m ≤ i && d.first ≤ i && i < d.first + d.portBeats) }))
      (s.oweAgain d)) s2

/-- Beats that a write traverse has taken. -/
def CmdSt.taken (c : CmdSt) : Nat :=
  let t := c.trav
  if c.row.isEmpty then (if t.elems ≤ c.pos then t.beats else t.beatOf c.pos) else t.beatOf c.pos + 1

/-- The beats that a port had sent by the start of instant m. -/
def Tile.sentAt (x : Tile) (m k : Nat) : Nat :=
  match x.marks.find? fun p => p.1 == m with | some (_, _, cs) => tget 0 cs k | none => (x.out k).nextOwed

/-- A started command of a context by its number, with its engine. -/
def Ctx.startedBy (x : Ctx) (uid : Nat) : Option (Nat × CmdSt) :=
  x.queues.findSome? fun (e, q) => (q.started.find? fun c => c.uid == uid).map fun c => (e, c)

def State.putStarted (s : State) (ctx eng : Nat) (c : CmdSt) : State :=
  let q := (s.ctx ctx).queue eng
  let l := if q.started.any (fun x => x.uid == c.uid) then q.started.map (fun x => if x.uid == c.uid then c else x) else q.started ++ [c]
  s.setCtx ctx ((s.ctx ctx).setQueue eng { q with started := l })

/-- The write traverses of a port give back the last n beats they took: the one that takes its beats now, then the one before it. -/
def State.takeBack (s : State) (k t p n : Nat) : State :=
  let r := s.region k
  let x := s.tile t
  let (s1, left) := match (x.out p).trav.bind (s.ctx r.ctx).startedBy with
    | some (e, c) =>
      if n ≤ c.taken then (s.putStarted r.ctx e (c.atBeat (c.taken - n)), 0)
      else (s.putStarted r.ctx e { c.atBeat 0 with mark := if setUp c then c.mark - 2 else c.mark }, n - c.taken)
    | none => (s, n)
  if left = 0 then s1
  else
    match (r.past.reverse).find? fun (_, c) => c.isWrite && (match c.endPt with | some e => e.canon == x.canon && e.port == p | none => false) with
    | some (e, c) =>
      let s2 := s1.putStarted r.ctx e (c.again.atBeat (c.trav.beats - left))
      (s2.setTile t ((s2.tile t).setOut p { (s2.tile t).out p with trav := some c.uid })).setRegion k
        { s2.region k with past := r.past.filter fun (_, d) => d.uid != c.uid }
    | none => s1

/-- An output port as of the start of instant m. -/
def State.rewindOut (s : State) (k t p m : Nat) : State :=
  let x := s.tile t
  let o := x.out p
  let n := x.sentAt m p
  let excess := o.nextOwed - n
  let drop := min excess o.q.length
  let s1 := s.setTile t (x.setOut p { o with q := o.q.take (o.q.length - drop), nextOwed := n })
  if excess = drop then s1 else s1.takeBack k t p (excess - drop)

/-! The end of a tile's instant. -/

/-- Writes in force from the end of the instant: delay, loop and soft-token registers (R21, R95, R126), typed buffers, the higher word position last
(R97). -/
def Tile.endInstant (x : Tile) (cycle : Nat) : Tile :=
  let later (l : List (Nat × Nat × Nat × Payload)) (k : Nat) := l.filter fun w => w.1 == k
  let ws := (List.range x.nodes.length).flatMap (later x.bufN)
  let x1 := ws.foldl (fun x (_, b, a, d) =>
    let y := x.bufWrite cycle b a (payBytes 64 d)
    if b == 1 then { y with abanks := lunion y.abanks (banksOf 16384 a 64) } else y) x
  { x1 with dl := x.dlN.foldl (fun l (k, b) => tset l k b) x.dl, lc := x.lcN.foldl (fun l (k, v) => tset l k v) x.lc,
            sx := x.sxN.foldl (fun l (k, v) => tset l k v) x.sx, dlN := [], lcN := [], sxN := [], bufN := [] }

/-! The cut. -/

/-- The instant after a tile's restart instant, where `base` is the round's first (R129). -/
def Tile.restartNext (x : Tile) (base : Nat) : Nat :=
  match (if x.begun && x.allFired then x.mark else x.restart) with | some n => n + 1 | none => base

/-- The instant at which an invocation resumes: after the earliest restart instant of its blocks. DEDUCED, notes/assumptions/27.md. -/
def State.restartAt (s : State) (k : Nat) : Nat :=
  let r := s.region k
  match r.tiles.map fun t => (s.tile t).restartNext r.roundBase with
  | [] => r.roundBase
  | n :: ns => ns.foldl min n

/-- The port of a tile after the cut: no beat is in flight; the instants owed by streams and by commands still queued stand. -/
def InPort.cut (p : InPort) (keep : Nat → Bool) : InPort :=
  let due := p.due.filter fun o => keep o.by_
  { p with flight := [], buf := [], arrived := [], held := [], latched := none, due := due,
           nextOwed := due.foldl (fun m o => max m (o.start + o.count)) 0 }

/-- A tile that resumes at instant m: node state, matrix node, feeds, delay registers and beats go; AGEN positions are those of the restart
instant (R130, R241, R364). Where the instant before m has just ended, what it wrote is in force (R95, R97). -/
def Tile.cut (x0 : Tile) (r : Region) (m cycle : Nat) (keep : Nat → Bool) : Tile :=
  let x := if x0.begun && x0.inst + 1 == m then x0.endInstant cycle else x0
  let locs := match x.marks.find? fun p => p.1 == m with | some (_, l, _) => l | none => []
  let seqOf (k : Nat) : Nat :=
    (r.entries.filter fun e => e.canon == x.canon && e.slot == k && e.inst < m).length +
      (r.reads.filter fun e => e.canon == x.canon && e.slot == k && e.inst < m).length
  let nodes := (List.range x.nodes.length).map fun k => { NodeSt.fresh with loc := tget .idle locs k, seq := seqOf k }
  let outs (os : List (Nat × OutPort)) := os.map fun (k, o) => (k, { o with due := [], sto := [], owedTo := 0, nextSend := m, merSent := false, resize := [] })
  let mark := if r.roundBase < m then some (m - 1) else none
  { x with nodes := nodes, inst := m, begun := false, dl := [], dlN := [], lc := [], lcN := [], sxN := [], bufN := [],
           inPorts := x.inPorts.map fun (k, p) => (k, p.cut keep), outs := outs x.outs, dones := outs x.dones,
           mx := { Mx.fresh with nextSeq := x.mx.nextSeq, failed := x.mx.failed }, mark := mark, restart := mark,
           marks := x.marks.filter fun p => p.1 ≤ m }

/-- The C-buffer after the cut is undefined (R130, R241). -/
def State.freeC (s : State) (t : Nat) : State :=
  let n := (s.tile t).hdr.cbuf * 1024
  let (bs, s1) := s.freeBytes n
  s1.setTile t { s1.tile t with c := Memory.writeN [] 0 bs }

/-- The streams that an entry issued after its restart instant leave their engines: they had no position to be rewound to, and are issued again (R129, R130,
R366). A write traverse stays that has taken beats of earlier instants. DEDUCED, notes/assumptions/30.md. -/
def State.dropLater (s : State) (k m gen : Nat) : State :=
  let c := (s.region k).ctx
  let later := (s.ctx c).queues.flatMap fun (e, q) =>
    (q.started.filter fun d => d.feeds k gen && d.issuedFrom m && (!d.isWrite || d.taken == 0)).map fun d => (e, d)
  later.foldl (fun s (e, d) =>
    let s1 := s.dropCmd c e d.uid
    match (if d.isWrite then d.endPt.bind fun p => (s1.holder k p.canon).map fun t => (t, p.port) else none) with
    | some (t, p) =>
      let o := (s1.tile t).out p
      if o.trav == some d.uid then s1.setTile t ((s1.tile t).setOut p { o with trav := none }) else s1
    | none => s1) s

/-- The started commands of an entry that are no streams go on under the new generation: they complete and signal (R366). One that the region issues again
delivers no completion beat. -/
def State.goOn (s : State) (k m gen new : Nat) : State :=
  s.mapQueues fun q => { q with started := q.started.map fun d =>
    if d.region == k && d.gen == gen && !d.isStream then { d with gen := new, cport := if d.issuedFrom m then none else d.cport } else d }

/-- The coalescing buffers of a tile flushed, at the instant before m (R177). -/
def State.flushTile (s : State) (t m : Nat) : State :=
  let s1 := s.setTile t { s.tile t with inst := m - 1 }
  let s2 := (List.range (s.tile t).nodes.length).foldl (fun s k =>
    match s.flushHeld t k with | .ok s1 => s1 | .fault s1 => s1 | .wait => s) s1
  s2.setTile t { s2.tile t with inst := m }

/-- One invocation cut at its restart instant; `gen` is its generation before the cut (R366). -/
def State.cutEntry (s : State) (k gen : Nat) : State :=
  let r := s.region k
  let m := s.restartAt k
  let s1 := r.tiles.foldl (fun s t => (s.tile t).outs.foldl (fun s (p, _) => s.rewindOut k t p m) s) s
  let s2 := (((s1.dropQueued k (some m)).dropLater k m gen).rewindReads k m gen r.gen).goOn k m gen r.gen
  let s3 := s2.retag k fun c => if c.region == k then { c with gen := r.gen } else c
  let queued := (s3.ctx r.ctx).queues.flatMap fun (_, q) => (q.entries.filter fun c => c.region == k) ++ q.started.filter fun c => c.feeds k r.gen || (c.region == k && c.gen == r.gen && c.cport.isSome)
  let keep (u : Nat) : Bool := queued.any fun c => c.uid == u
  let s4 := r.tiles.foldl (fun s t => (s.setTile t ((s.tile t).cut r m s.cycle keep)).freeC t) s3
  let s5 := s4.setRegion k
    { s4.region k with phase := .suspended, inst := m, ended := none, ending := false, firedInst := false,
                       entries := r.entries.filter (fun e => e.inst < m), reads := r.reads.filter (fun e => e.inst < m),
                       issued := r.issued.filter fun p => p.2 ≤ m }
  r.tiles.foldl (fun s t => s.flushTile t m) s5

/-- Whether no agent of a region is stopped: the cut waits for FLTACK of its record. DEDUCED, notes/assumptions/29.md. -/
def State.noneStopped (s : State) (g : Nat) : Bool :=
  (s.family g).all fun k =>
    let r := s.region k
    r.phase != .stopped && (r.tiles.all fun t => (s.tile t).nodes.all fun n => !n.stopped) &&
      (s.ctx r.ctx).queues.all fun (_, q) => q.started.all fun c => c.region != k || c.phase != .stopped

/-- The restart-mark cut of a region, once no agent of it is stopped (R366). -/
def State.restartCut (s : State) (g : Nat) : State :=
  if s.noneStopped g then
    let gen := (s.home g).gen
    (s.family g).foldl (fun s k => if (s.region k).phase == .running then s.cutEntry k gen else s) (s.bump g)
  else s

/-- Forks of a region that goes on after n cycles of suspension: the time does not count for their branches (R161). -/
def State.resumeForks (s : State) (ctx g n : Nat) : State :=
  (s.ctx ctx).queues.foldl (fun s (e, _) =>
    let q := (s.ctx ctx).queue e
    let f (c : CmdSt) : CmdSt := if c.region % 1024 == g && c.cls == 1 && c.kind == 3 then { c with since := c.since + n } else c
    s.setCtx ctx ((s.ctx ctx).setQueue e { q with started := q.started.map f })) s

end Sys2Proof.Machine
end

