-- ==== Sys2Proof/Machine/RegWrites.lean ====
section
/-!
DEFINITION. The privileged registers (R288–R294, R298, R307, R322, R333, R334–R337, R358, R362, R374, R381, R386, R393, R396–R398,
R406, R411, R414): reading, and writing with the checks and effects that each register's table states. The steps named after a
register's write stand at the end.
-/
namespace Sys2Proof.Machine

/-! Reading. -/

def Ctx.ctl (c : Ctx) : Nat :=
  boolNat c.fxt + boolNat c.relaxed * 2 + boolNat c.debug * 4 + c.qstall * 2 ^ 8 + c.rbquota * 2 ^ 20 + c.plim * 2 ^ 32

def Tdisp.code : Tdisp → Nat
  | .unlocked => 0 | .locked => 1 | .run => 2 | .error => 3

def Part.ctl (p : Part) : Nat := p.dies + p.tiles * 2 ^ 8 + p.tdisp.code * 2 ^ 24

def Pmem.toNat (m : Pmem) : Nat := boolNat m.v + boolNat m.far * 2 + m.base * 2 ^ 2 + m.count * 2 ^ 12 + boolNat m.zero * 2 ^ 22

def Stack.ctl (k : Stack) : Nat :=
  boolNat k.mscen + boolNat k.walloc * 2 + boolNat k.farbyp * 4 + boolNat k.alive * 16 + boolNat k.takeover * 32
    + k.throttle * 64 + k.rpthr * 256

def LinkSt.ctl (k : LinkSt) : Nat :=
  boolNat k.en + k.peer * 2 + k.peerLink * 32 + boolNat k.up * 512 + boolNat k.degraded * 1024

def MaskSet.imctl (m : MaskSet) : Nat := m.spread + boolNat m.hold * 4

def Region.ctl (r : Region) : Nat := r.gen + r.ctx * 2 ^ 8 + boolNat r.valid * 2 ^ 16 + boolNat r.susp * 2 ^ 17

/-- REGPRE (R362): REQ and RESUME act when written; GATED is kept. -/
def Region.pre (r : Region) : Nat := boolNat r.req + boolNat r.gated * 2 + boolNat r.busy * 8 + boolNat r.form * 16

/-- A part-space register (R289, R298, R381, R386, R393, R396, R398, R406, R411, R414). -/
def readPart (s : State) (o : Nat) : Option Nat :=
  if o = 0x000 then some (s.bootstat + boolNat s.copyB * 8 + boolNat s.recovery * 16 + s.reloads * 256)
  else if o = 0x010 then some s.fqbase
  else if o = 0x011 then some s.fqsize
  else if o = 0x012 then some s.fqhead
  else if o = 0x013 then some s.fqtail
  else if o = 0x014 then some s.fqdrop
  else if o = 0x020 then some detrev
  else if o = 0x021 then some s.partid
  else if o = 0x022 then some (s.hrobase + boolNat s.hrov)
  else if o = 0x023 then some (s.clkCeil + s.clkForce * 256)
  else if o = 0x024 then some (s.pwrCap + s.thermal * 2 ^ 12)
  else if 0x030 ≤ o ∧ o ≤ 0x03B then some (s.link (o - 0x030)).ctl
  else if o = 0x040 then some s.lifesel
  else if o = 0x041 then some (tget 0 s.life s.lifesel)
  else if 0x050 ≤ o ∧ o ≤ 0x05F then some (tget 0 s.spanroute (o - 0x050))
  else if 0x100 ≤ o ∧ o ≤ 0x10B then some (s.stack (o - 0x100)).ctl
  else if 0x110 ≤ o ∧ o ≤ 0x115 then some (tget 16 s.dcsplit (o - 0x110))
  else if 0x200 ≤ o ∧ o ≤ 0x23F then some (tget 256 s.actctx (o - 0x200))
  else none

/-- A partition-space register (R290, R307, R334, R374). -/
def readPartition (s : State) (p o : Nat) : Option Nat :=
  let x := s.part p
  if o = 0x000 then some x.ctl
  else if o = 0x001 then some x.sqtab
  else if o = 0x002 then some x.sqen
  else if 0x040 ≤ o ∧ o ≤ 0x07F then some ((tget MaskSet.fresh x.masks ((o - 0x040) / 8)).masks.getD (o % 8) 0)
  else if 0x080 ≤ o ∧ o ≤ 0x087 then some (tget MaskSet.fresh x.masks (o - 0x080)).imctl
  else if 0x0C0 ≤ o ∧ o ≤ 0x0CF then some (tget Pmem.fresh x.pmem (o - 0x0C0)).toNat
  else none

/-- A context-space register (R291, R292, R322, R333, R358). -/
def readContext (s : State) (c o : Nat) : Option Nat :=
  let x := s.ctx c
  if o = 0x000 then some x.ctl
  else if o = 0x001 then some (x.state + boolNat x.fltpend * 8)
  else if o = 0x002 then some x.part
  else if o = 0x003 then some (x.ptroot + boolNat x.ptv)
  else if o = 0x004 then some x.seqbase
  else if o = 0x005 then some x.seqsize
  else if o = 0x006 then some x.pooltab
  else if o = 0x007 then some x.egrtab
  else if o = 0x008 then some x.egrcnt
  else if o = 0x009 then some x.kvpunit
  else if o = 0x00A then some x.engshare
  else if o = 0x00B then some 0
  else if o = 0x00C then some x.flogbase
  else if o = 0x00D then some x.flogctl
  else if 0x010 ≤ o ∧ o ≤ 0x01F then some (tget 0 x.colgrp (o - 0x010))
  else if 0x100 ≤ o ∧ o ≤ 0x1FF then
    let m := x.sem (o - 0x100)
    some (m.value + boolNat m.sticky * 2 ^ 32)
  else none

/-- A region-space register (R294, R362). -/
def readRegion (s : State) (r o : Nat) : Option Nat :=
  let x := s.region r
  if o = 0 then some x.ctl
  else if o = 1 then some x.tilesAddr
  else if o = 2 then some x.canon
  else if o = 3 then some x.inst
  else if o = 4 then some x.stale
  else if o = 5 then some x.pre
  else none

/-- The register at an address; none where it is unmapped (R288). -/
def regRead (s : State) (a : Nat) : Option Nat :=
  let o := a % 2 ^ 16
  let obj := a / 2 ^ 16 % 2 ^ 13
  if a / 2 ^ 32 != 0 then none
  else match a / 2 ^ 29 % 8 with
    | 0 => if obj = 0 then readPart s o else none
    | 1 => if obj < 24 then readPartition s obj o else none
    | 2 => if obj < 256 then readContext s obj o else none
    | 3 => if obj < 1024 then readRegion s obj o else none
    | _ => none

/-! Writing. A write answers the state after it and a status (R300), or none while it waits to take effect. -/

inductive RegStatus where
  | ok | refused | noreg | state | rdonly
deriving DecidableEq, Repr, Inhabited

def RegStatus.code : RegStatus → Nat
  | .ok => 0 | .refused => 1 | .noreg => 2 | .state => 3 | .rdonly => 4

abbrev RegRes := Option (State × RegStatus)

def regOk (s : State) : RegRes := some (s, .ok)
def regRefuse (s : State) : RegRes := some (s, .refused)
def regState (s : State) : RegRes := some (s, .state)
def regRdonly (s : State) : RegRes := some (s, .rdonly)

/-- Bits [lo + w − 1 : lo]. -/
def fld (v lo w : Nat) : Nat := v / 2 ^ lo % 2 ^ w

/-! Memory ranges and interleave (R334–R337, R374). -/

/-- Whether a whole stack is attached to a partition: near or far stack k (R335, R374). -/
def stackWhole (ranges : List Pmem) (far : Bool) (k : Nat) : Bool :=
  (List.range 64).all fun g => ranges.any fun m => m.v && m.far == far && m.base ≤ 64 * k + g && 64 * k + g < m.base + m.count

def stackTouched (ranges : List Pmem) (far : Bool) (k : Nat) : Bool :=
  ranges.any fun m => m.v && m.far == far && m.base < 64 * (k + 1) && 64 * k < m.base + m.count

/-- Whether a set is valid for a partition that holds given ranges (R335). -/
def maskValid (ranges : List Pmem) (masks : List Nat) (spread : Nat) : Bool :=
  let used (k : Nat) : Bool := k < 6 || (k == 6 && 1 ≤ spread) || (k == 7 && spread == 2)
  let m (k : Nat) := masks.getD k 0
  spread ≤ 2 &&
  ((List.range 8).all fun k => if used k then m k != 0 else m k == 0) &&
  ((List.range 8).all fun j => (List.range 8).all fun k => j == k || !(used j && used k) || m k / 2 ^ pivotOf (m j) % 2 == 0) &&
  (spread == 0 || [false, true].all fun far => (List.range 12).all fun k =>
    !stackTouched ranges far k ||
      (List.range (2 ^ spread)).all fun j => stackWhole ranges far (k / 2 ^ spread * 2 ^ spread + j))

def Part.ranges (p : Part) : List Pmem := p.pmem.map (·.2)
def Part.maskSet (p : Part) (i : Nat) : MaskSet := tget MaskSet.fresh p.masks i
def State.setMaskSet (s : State) (p i : Nat) (m : MaskSet) : State :=
  s.setPart p { s.part p with masks := tset (s.part p).masks i m }

/-! Accesses under way. -/

/-- The context and pieces of each read that a node has issued and memory still owes (R171, R257). -/
def State.owedReads (s : State) : List (Option Nat × List Piece) :=
  s.tiles.flatMap fun (t, x) => ((List.range x.nodes.length).filter fun k => (x.node k).issued).map fun k =>
    let c := s.nodeCtx t k
    match nodeAt x.words k with
    | none => (c, [])
    | some (o, n) =>
      let a := x.args n k
      let accs := if o == .sxemb then (let (b, d) := embNow s t k n; embAccs n b d a.r.get) else elemAccs x k o n a
      (c, match s.reachAllAs t c (o == .atom) accs with | .ok rs => rs.flatMap (·.2) | .error _ => [])

/-- Whether a translated access that is not yet performed passes a test of its context, virtual address, location, mask set and bytes: an entry of a round
buffer, or a read that memory owes. -/
def State.underWay (s : State) (hit : Nat → Nat → Nat → Nat → Nat → Bool) : Bool :=
  (s.regions.any fun (_, r) => r.entries.any fun e => hit r.ctx (e.va / 64 * 64) (e.loc * 64) e.mask 64) ||
    s.owedReads.any fun (c, ps) => match c with | some c => ps.any fun p => hit c p.va p.x.loc p.x.attr.mask p.len | none => false

/-- The same for device memory of a stack, physical accesses included (R397). -/
def State.stackBusy (s : State) (k : Nat) : Bool :=
  (s.regions.any fun (_, r) => r.entries.any fun e => paClass (e.loc * 64) != some .host && paStack (e.loc * 64) == k) ||
    s.owedReads.any fun (_, ps) => ps.any fun p => paClass p.x.pa != some .host && paStack p.x.loc == k

/-- Whether accesses translated under a mask set of a partition are not yet performed at their channels: a change of the set waits for them (R337). -/
def State.maskBusy (s : State) (p i : Nat) : Bool := s.underWay fun c _ _ mask _ => mask == i && (s.ctx c).part == p

/-- A set's new values in force, once nothing translated under the old ones is under way (R337). -/
def State.changeSet (s : State) (p i : Nat) (m : MaskSet) : RegRes :=
  let old := (s.part p).maskSet i
  if (m.masks != old.masks || m.spread != old.spread) && s.maskBusy p i then none else regOk (s.setMaskSet p i m)

/-- A KWR to IMASK s,k (R334, R336, R337). -/
def writeImask (s : State) (p i k v : Nat) : RegRes :=
  let m := (s.part p).maskSet i
  if v % 2 ^ 7 != 0 || v / 2 ^ 36 != 0 then regRefuse s
  else if m.hold then regOk (s.setMaskSet p i { m with staged := lset m.staged k v })
  else
    let ms := lset m.masks k v
    if maskValid (s.part p).ranges ms m.spread then s.changeSet p i { m with masks := ms, staged := ms } else regRefuse s

/-- A KWR to IMCTL s (R334, R336, R337). -/
def writeImctl (s : State) (p i v : Nat) : RegRes :=
  let m := (s.part p).maskSet i
  if v % 4 == 3 || v / 8 != 0 then regRefuse s
  else
    let hold := fld v 2 1 == 1
    let ms := if m.hold && !hold then m.staged else m.masks
    if m.hold && hold then
      (if maskValid (s.part p).ranges m.masks (v % 4) then s.changeSet p i { m with spread := v % 4 } else regRefuse s)
    else if maskValid (s.part p).ranges ms (v % 4) then
      s.changeSet p i { masks := ms, staged := ms, spread := v % 4, hold := hold }
    else if m.hold && !hold then
      some (s.setMaskSet p i { m with staged := m.masks, hold := false }, .refused)
    else regRefuse s

/-- A KWR to PMEM i (R335, R374). -/
def writePmem (s : State) (p i v : Nat) : RegRes :=
  let x := s.part p
  if x.tdisp != .unlocked then some (s.interfaceFail p, .state)
  else
    let m : Pmem := { v := fld v 0 1 == 1, far := fld v 1 1 == 1, base := fld v 2 10, count := fld v 12 10, zero := fld v 22 1 == 1,
                      key := none }
    let clash (q : Nat) (y : Part) : Bool := y.pmem.any fun (j, o) =>
      !(q == p && j == i) && o.v && o.far == m.far && m.base < o.base + o.count && o.base < m.base + m.count
    let y := { x with pmem := tset x.pmem i m }
    if 768 ≤ m.base || 768 < m.base + m.count || (m.v && m.count == 0) then regRefuse s
    else if m.v && s.parts.any fun (q, y) => clash q y then regRefuse s
    else if !(x.masks.all fun (_, ms) => maskValid y.ranges ms.masks ms.spread) then regRefuse s
    else regOk (s.setPart p y)

/-- Whether the shares of one field, over the non-FREE contexts of one of the dies, pass 64 (R322). DEDUCED,
notes/assumptions/91.md. -/
def State.sharesOver (s : State) (dies : Nat) : Bool :=
  (List.range 6).any fun d => dies / 2 ^ d % 2 == 1 &&
    (List.range 4).any fun k => 64 < ((s.dieCtxs d).map fun e => (s.ctx e).share k).foldl (· + ·) 0

/-- Whether a context's new registers would make them pass 64. -/
def shareOver (s : State) (c : Nat) (x : Ctx) : Bool := (s.setCtx c x).sharesOver (s.part x.part).dies

/-- A KWR to PARTCTL (R290, R374); a changed DIES mask rewrites slot tables (R323), and is refused where shares would pass 64 (R322). -/
def writePartctl (s : State) (p v : Nat) : RegRes :=
  let x := s.part p
  if x.tdisp != .unlocked then some (s.interfaceFail p, .state)
  else
    let dies := fld v 0 6
    let tiles := fld v 8 13
    let ovr := (List.range 6).any fun d => dies / 2 ^ d % 2 == 1 &&
      4 ≤ (s.parts.filter fun (q, y) => q != p && y.dies / 2 ^ d % 2 == 1).length
    if 4096 < tiles || ovr then regRefuse s
    else
      let s1 := s.setPart p { x with dies := dies, tiles := tiles }
      if dies == x.dies then regOk s1
      else if s1.sharesOver dies then regRefuse s
      else regOk (s1.rewriteDies (dies ||| x.dies))

/-! Context registers. -/

/-- A KWR to CTXCTL (R291, R293): while RUNNING or SUSPENDED only DEBUG, qstall and plim may change. -/
def writeCtxctl (s : State) (c v : Nat) : RegRes :=
  let x := s.ctx c
  let y := { x with fxt := fld v 0 1 == 1, relaxed := fld v 1 1 == 1, debug := fld v 2 1 == 1, qstall := fld v 8 6,
                    rbquota := fld v 20 12, plim := fld v 32 6 }
  if (x.state == 2 || x.state == 3) && !(y.fxt == x.fxt && y.relaxed == x.relaxed && y.rbquota == x.rbquota) then regState s
  else if (y.qstall != 0 && (y.qstall < 16 || 32 < y.qstall)) || (y.rbquota != 0 && (y.rbquota < 16 || 2048 < y.rbquota)) ||
      (y.plim != 0 && (y.plim < 20 || 40 < y.plim)) then regRefuse s
  else regOk (s.setCtx c y)

/-- A KWR to CTXSTATE (R292, R293, R323); a context that leaves FREE brings its shares, which may not pass 64 (R322). DEDUCED, notes/assumptions/85.md. -/
def writeCtxstate (s : State) (c v : Nat) : RegRes :=
  let x := s.ctx c
  let n := fld v 0 3
  if 4 ≤ n || (x.state == 0 && n != 0 && shareOver s c { x with state := n }) then regRefuse s
  else
    let s1 := s.setCtx c { x with state := n }
    regOk (if (n == 0) == (x.state == 0) then s1 else s1.rewriteDies (s.part x.part).dies)

/-- A KWR to ENGSHARE (R322, R323). -/
def writeEngshare (s : State) (c v : Nat) : RegRes :=
  let x := s.ctx c
  if x.state == 2 || x.state == 3 then regState s
  else
    let y := { x with engshare := v % 2 ^ 30 }
    if (List.range 4).any fun k => 64 < y.share k then regRefuse s
    else if shareOver s c y then regRefuse s
    else regOk ((s.setCtx c y).rewriteDies (s.part x.part).dies)

/-- A KWR to TINV (R333): every cached translation of the context that overlaps the page goes, once every access that used one has been performed at DEVICE
scope; until then it waits. -/
def writeTinv (s : State) (c v : Nat) : RegRes :=
  let size := match fld v 1 2 with | 0 => 16 | 1 => 21 | 2 => 30 | _ => 36
  let va := fld v 16 41 * 2 ^ 16
  let all := fld v 0 1 == 1
  if (s.ctx c).state == 0 then regState s
  else if fld v 3 13 != 0 || v / 2 ^ 57 != 0 || (!all && va % 2 ^ size != 0) then regRefuse s
  else
    let hit (e : TEntry) : Bool := e.ctx == c && (all || (e.page < va + 2 ^ size && va < e.page + 2 ^ e.bits))
    if s.underWay fun c' a _ _ n => c' == c && (all || (a < va + 2 ^ size && va < a + n)) then none
    else regOk { s with tcache := s.tcache.filter fun e => !hit e }

/-- The other context registers (R292, R358): closed while RUNNING or SUSPENDED, semaphores apart (R293). -/
def writeContext (s : State) (c o v : Nat) : RegRes :=
  let x := s.ctx c
  let closed := x.state == 2 || x.state == 3
  let put (y : Ctx) (ok : Bool) : RegRes := if closed then regState s else if ok then regOk (s.setCtx c y) else regRefuse s
  let a := v % 2 ^ 57
  if c = 0 then (if (readContext s c o).isSome then regState s else some (s, .noreg))
  else if o = 0x000 then writeCtxctl s c v
  else if o = 0x001 then writeCtxstate s c v
  else if o = 0x002 then put { x with part := fld v 0 5 } (fld v 0 5 < 24 && !(x.state != 0 && shareOver s c { x with part := fld v 0 5 }))
  else if o = 0x003 then put { x with ptroot := v % 2 ^ 52 / 2 ^ 12 * 2 ^ 12, ptv := fld v 0 1 == 1 } true
  else if o = 0x004 then put { x with seqbase := a } (a % 64 == 0)
  else if o = 0x005 then put { x with seqsize := fld v 0 13 } (fld v 0 13 ≤ 4096)
  else if o = 0x006 then put { x with pooltab := a } (a % 64 == 0)
  else if o = 0x007 then put { x with egrtab := a } (a % 32 == 0)
  else if o = 0x008 then put { x with egrcnt := v % 2 ^ 16 } true
  else if o = 0x009 then put { x with kvpunit := fld v 0 3 } (fld v 0 3 < 6)
  else if o = 0x00A then writeEngshare s c v
  else if o = 0x00B then writeTinv s c v
  else if o = 0x00C then put { x with flogbase := a } (a % 4096 == 0)
  else if o = 0x00D then put { x with flogctl := v % 2 ^ 36 } (fld v 16 4 ≤ 8)
  else if 0x010 ≤ o ∧ o ≤ 0x01F then put { x with colgrp := tset x.colgrp (o - 0x010) a } (a % 64 == 0)
  else if 0x100 ≤ o ∧ o ≤ 0x1FF then regOk (s.semPut c (o - 0x100) (v % 2 ^ 32) (fld v 32 1 == 1) [])
  else some (s, .noreg)

/-! Region registers. -/

/-- Requesting pre-emption (R362): every block of the region's configuration has ACR and GATED is clear, the restart-mark form; else
the gated form. -/
def Region.request (r : Region) (gated cycle limit : Nat) (acr : Bool) : Region :=
  { r with req := true, gated := gated == 1, busy := true, form := acr && gated == 0, reqCycle := cycle, preLim := limit }

def State.allAcr (s : State) (r : Nat) : Bool := (s.home r).allTiles.all fun t => (s.tile t).hdr.acr || (s.tile t).words.isEmpty

/-- A request: the restart-mark form cuts at once (R366), the gated form waits for the meridian (R363). -/
def State.requestPre (s : State) (r gated : Nat) : State :=
  let s1 := s.setRegion r ((s.region r).request gated s.cycle (s.ctx (s.region r).ctx).preLimit (s.allAcr r))
  if (s1.region r).form then s1.restartCut r else s1

/-- RESUME of a suspended region: it continues, after a restart mark at the instant after it, after a gated pre-emption in the next
round (R362, R368). -/
def State.resumeRegion (s : State) (r : Nat) : State :=
  let s1 := (s.family r).foldl (fun s k =>
    let x := s.region k
    if x.phase == .suspended then (s.setRegion k (s.rewatch { x with phase := .running })).restartClock k else s) s
  let x := s1.home r
  let s2 := s1.setRegion (r % 1024) { x with susp := false, saved := none }
  s2.resumeForks x.ctx (r % 1024) (s.cycle - x.reqCycle)

/-- A KWR to REGPRE (R362); the control region is never pre-empted (R296). -/
def writeRegpre (s : State) (r v : Nat) : RegRes :=
  let x := s.region r
  let req := fld v 0 1 == 1
  let resume := fld v 2 1 == 1
  if req && (!x.valid || x.susp) then regState s
  else if resume && !x.susp then regState s
  else
    let s1 := s.setRegion r { x with gated := fld v 1 1 == 1 }
    let s2 := if req && !x.busy && x.ctx != 0 then s1.requestPre r (fld v 1 1) else s1
    regOk (if resume then s2.resumeRegion r else s2)

/-- The region registers (R294, R362). -/
def writeRegion (s : State) (r o v : Nat) : RegRes :=
  let x := s.region r
  let closed := x.valid && !x.susp
  if o = 0 then (if closed then regState s else regOk (s.setRegion r { x with ctx := fld v 8 8, valid := fld v 16 1 == 1 }))
  else if o = 1 then (if closed then regState s else regOk (s.setRegion r { x with tilesAddr := v % 2 ^ 57, tilesOwn := false }))
  else if o = 2 then
    (if closed then regState s
     else if fld v 0 13 == 0 || 4096 < fld v 0 13 then regRefuse s
     else regOk (s.setRegion r { x with canon := fld v 0 13 }))
  else if o = 3 || o = 4 then regRdonly s
  else if o = 5 then writeRegpre s r v
  else some (s, .noreg)

/-! Part and partition registers. -/

def writePartition (s : State) (p o v : Nat) : RegRes :=
  let x := s.part p
  if o = 0x000 then writePartctl s p v
  else if o = 0x001 then
    (if x.sqen != 0 then regState s
     else if v % 2 ^ 57 % 4096 != 0 then regRefuse s
     else regOk (s.setPart p { x with sqtab := v % 2 ^ 57 }))
  else if o = 0x002 then regOk (s.writeSqen p (v % 2 ^ 64))
  else if 0x040 ≤ o ∧ o ≤ 0x07F then writeImask s p ((o - 0x040) / 8) (o % 8) v
  else if 0x080 ≤ o ∧ o ≤ 0x087 then writeImctl s p (o - 0x080) v
  else if 0x0C0 ≤ o ∧ o ≤ 0x0CF then writePmem s p (o - 0x0C0) v
  else some (s, .noreg)

/-- MSCEN, WALLOC, FARBYP and RPTHR of a MEMCTL (R396, R397): no value changes; a change of the first three waits for the requests that are under way to
the stacks. -/
def writeMemctlCache (s : State) (k v : Nat) : RegRes :=
  let x := s.stack k
  let y := { x with mscen := fld v 0 1 == 1, walloc := fld v 1 1 == 1, farbyp := fld v 2 1 == 1, rpthr := fld v 8 8 }
  if (y.mscen != x.mscen || y.walloc != x.walloc || y.farbyp != x.farbyp) && s.stackBusy k then none else regOk (s.setStack k y)

/-- RESET of a MEMCTL (R396, R401): the BMS restarts with ALIVE clear. -/
def writeMemctlReset (s : State) (k v : Nat) : RegRes :=
  let x := s.stack k
  if fld v 3 1 == 1 then
    (if !x.takeover then regState s
     else regOk (s.setStack k { x with alive := false,
                                       owners := x.owners.map fun (i, o) => (i, if o.takeover then { o with resetting := true, beats := 0 } else o) }))
  else regOk s

/-- A KWR to MEMCTL: both parts of it. -/
def writeMemctl (s : State) (k v : Nat) : RegRes :=
  match writeMemctlReset s k v with
  | some (s1, .ok) => writeMemctlCache s1 k v
  | r => r

/-- Bytes of the windows of started traverses of a die (R151, R155). -/
def State.windowBytes (s : State) (die : Nat) : Nat :=
  (s.ctxs.flatMap fun (_, x) => x.queues.flatMap fun (e, q) =>
    if e % 8 == die && e / 8 % 4 == 0 then
      (q.started.filter fun c => cmdClass c.words == 1).map fun c =>
        let w := bitsNat (c.words.getD 7 0#64) 0 16
        (if w = 0 then 64 else w) * 4096
    else []).foldl (· + ·) 0

/-- A KWR to DCSPLIT (R398): waits until the windows fit; the lines that the die's line part holds are written back. DEDUCED, notes/assumptions/90.md. -/
def writeDcsplit (s : State) (die v : Nat) : RegRes :=
  let n := fld v 0 6
  if 32 < n then regRefuse s
  else if (192 - 2 * n) * 2 ^ 20 < s.windowBytes die then none
  else
    let s0 := (s.lines.filter fun (l, x) => (Line.without x die l).isNone).foldl (fun s (l, _) => s.writeBack l) s
    let s1 := { s0 with lines := s.lines.filterMap fun (l, x) => Line.without x die l }
    regOk { s1 with dcsplit := tset s1.dcsplit die n, dcwait := tdel s1.dcwait die }

/-- Members of a collective group: (part, region, canonical index) by rank (R292, R394); none where the table is malformed. -/
def groupMembers (s : State) (ctx : Nat) (actx : Option Nat) (g : Nat) : Option (List (Nat × Nat × Nat)) :=
  let a := tget 0 (s.ctx ctx).colgrp g
  if 16 ≤ g || a == 0 then none
  else
    match s.engRead 0 actx false a 4 with
    | .error _ => none
    | .ok (hd, _) =>
      let m := leNat hd
      if m == 0 || 4096 < m then none
      else
        match s.engRead 0 actx false (a + 4) (4 * m) with
        | .error _ => none
        | .ok (bs, _) =>
          let es := elemsAux 32 m (leNat bs)
          if es.any fun e => e / 2 ^ 26 != 0 then none
          else some (es.map fun e => (e / 2 ^ 22 % 16, e % 2 ^ 10, e / 2 ^ 10 % 2 ^ 12))

/-- Whether a command is a collective of a group that needs a link: one with a member on a part whose route is that link (R393, R394). -/
def State.needsLink (s : State) (ctx k : Nat) (c : CmdSt) : Bool :=
  cmdClass c.words == 3 &&
    (match groupMembers s ctx c.actx (bitsNat (c.words.getD 4 0#64) 0 16) with
     | some ms => ms.any fun (p, _, _) => p != s.partid && (let r := tget 0 s.spanroute p; r / 16 % 2 == 1 && r % 16 == k)
     | none => false)

/-- Whether a command is neither done nor already ended. -/
def CmdSt.unfinished (c : CmdSt) : Bool := c.phase != .performed && c.phase != .refused && c.phase != .faulted

/-- A link goes down: every unfinished command of a group that needs it completes FAULTED (R394). -/
def State.linkDown (s : State) (k : Nat) : State :=
  let s1 := s.ctxs.foldl (fun s (c, x) =>
    x.queues.foldl (fun s (e, q) =>
      let hit (d : CmdSt) : Bool := d.unfinished && s.needsLink c k d
      if (q.entries ++ q.started).any hit then
        s.setCtx c ((s.ctx c).setQueue e
          { q with entries := q.entries.filter fun d => !hit d,
                   started := (q.started ++ q.entries.filter hit).map fun d => if hit d then { d with phase := .faulted } else d })
      else s) s) s
  s1.setLink k { s1.link k with up := false }

/-- A KWR to SPANCTL k (R393): a link that is enabled comes up with its sequence numbers at 0; one that is disabled goes down. -/
def writeSpanctl (s : State) (k v : Nat) : RegRes :=
  let on := fld v 0 1 == 1
  if fld v 1 4 == s.partid || 12 ≤ fld v 5 4 then regRefuse s
  else
    let s1 := if (s.link k).en && !on then s.linkDown k else s
    let x := if on && !(s.link k).en then { LinkSt.fresh with up := true } else s1.link k
    regOk (s1.setLink k { x with en := on, peer := fld v 1 4, peerLink := fld v 5 4 })

/-- A KWR to ACTCTX t from a tile (R298, R299). -/
def writeActctx (s : State) (who t v : Nat) : RegRes :=
  if isSup who && !isSup (4096 + t) then regState s
  else if (fld v 8 1 == 0 && v % 256 == 0) || (s.ctx (v % 256)).state == 0 then regRefuse s
  else regOk { s with actctx := tset s.actctx t (v % 512) }

def writePart (s : State) (who o v : Nat) : RegRes :=
  if o = 0x010 then
    (if s.fqtail != s.fqhead then regState s
     else if v % 2 ^ 57 % 4096 != 0 then regRefuse s
     else regOk { s with fqbase := v % 2 ^ 57 })
  else if o = 0x011 then
    (if s.fqtail != s.fqhead then regState s
     else if fld v 0 5 < 4 || 16 < fld v 0 5 then regRefuse s
     else regOk { s with fqsize := fld v 0 5 })
  else if o = 0x022 then regOk { s with hrobase := v % 2 ^ 52 / 2 ^ 12 * 2 ^ 12, hrov := fld v 0 1 == 1 }
  else if o = 0x023 then
    (if fld v 0 8 < 50 || 140 < fld v 0 8 then regRefuse s
     else regOk { s with clkCeil := fld v 0 8, clkForce := min s.clkForce (fld v 0 8) |> fun f => if s.thermal = 0 then fld v 0 8 else f })
  else if o = 0x024 then
    (if fld v 0 12 < 1500 || 3000 < fld v 0 12 then regRefuse s else regOk { s with pwrCap := fld v 0 12 })
  else if 0x030 ≤ o ∧ o ≤ 0x03B then writeSpanctl s (o - 0x030) v
  else if o = 0x040 then (if lifeListed (v % 2 ^ 16) then regOk { s with lifesel := v % 2 ^ 16 } else regRefuse s)
  else if 0x050 ≤ o ∧ o ≤ 0x05F then
    (if 12 ≤ fld v 0 4 then regRefuse s else regOk { s with spanroute := tset s.spanroute (o - 0x050) (v % 32) })
  else if 0x100 ≤ o ∧ o ≤ 0x10B then writeMemctl s (o - 0x100) v
  else if 0x110 ≤ o ∧ o ≤ 0x115 then writeDcsplit s (o - 0x110) v
  else if 0x200 ≤ o ∧ o ≤ 0x23F then writeActctx s who (o - 0x200) v
  else if (readPart s o).isSome then regRdonly s
  else some (s, .noreg)

/-- A write of a privileged register by a control tile (R299, R302). -/
def regWrite (s : State) (who a v : Nat) : RegRes :=
  let o := a % 2 ^ 16
  let obj := a / 2 ^ 16 % 2 ^ 13
  if a / 2 ^ 32 != 0 then some (s, .noreg)
  else match a / 2 ^ 29 % 8 with
    | 0 => if obj = 0 then writePart s who o v else some (s, .noreg)
    | 1 => if obj < 24 then writePartition s obj o v else some (s, .noreg)
    | 2 => if obj < 256 then writeContext s obj o v else some (s, .noreg)
    | 3 => if obj < 1024 then writeRegion s obj o v else some (s, .noreg)
    | _ => some (s, .noreg)

/-- What a write leaves: the state after it, or the state as it was while it waits. -/
def RegRes.after (r : RegRes) (s : State) : State := match r with | some (s1, _) => s1 | none => s

/-- A write of a register at an address that waits: a new split of a die holds the die's new windows and gateway accesses from then on (R398 step 1). -/
def State.regWait (s : State) (a v : Nat) : State :=
  if 0x110 ≤ a ∧ a ≤ 0x115 then { s with dcwait := tset s.dcwait (a - 0x110) (fld v 0 6) } else s

/-! The writes that the opcode table lists as steps of their own. -/

def execEngshareWrite (ctx : Nat) (v : BitVec 64) (s : State) : Res := .next ((writeContext s ctx 0x00A v.toNat).after s)
def execTinvWrite (ctx : Nat) (v : BitVec 64) (s : State) : Res := .next ((writeContext s ctx 0x00B v.toNat).after s)
def execImaskWrite (part set k : Nat) (v : BitVec 64) (s : State) : Res := .next ((writeImask s part set k v.toNat).after s)
def execImctlWrite (part set : Nat) (v : BitVec 64) (s : State) : Res := .next ((writeImctl s part set v.toNat).after s)
def execDcsplitWrite (die : Nat) (v : BitVec 64) (s : State) : Res := .next ((writeDcsplit s die v.toNat).after (s.regWait (0x110 + die) v.toNat))
def execMemctlCacheWrite (stack : Nat) (v : BitVec 64) (s : State) : Res := .next ((writeMemctlCache s stack v.toNat).after s)
def execMemctlReset (stack : Nat) (v : BitVec 64) (s : State) : Res := .next ((writeMemctlReset s stack v.toNat).after s)
def execPmemWrite (part i : Nat) (v : BitVec 64) (s : State) : Res := .next ((writePmem s part i v.toNat).after s)
def execCtxstateWrite (ctx : Nat) (v : BitVec 64) (s : State) : Res := .next ((writeContext s ctx 0x001 v.toNat).after s)
def execPartctlWrite (part : Nat) (v : BitVec 64) (s : State) : Res := .next ((writePartctl s part v.toNat).after s)
def execSpanctlWrite (k : Nat) (v : BitVec 64) (s : State) : Res := .next ((writeSpanctl s k v.toNat).after s)

/-- SQEN bit q set: the scheduler takes the queue (R307, R308). -/
def execSqenEnable (part q : Nat) (s : State) : Res := .next (s.writeSqen part ((s.part part).sqen ||| 2 ^ q))

/-- SQEN bit q cleared: the queue starts nothing more (R308). -/
def execSqenDisable (part q : Nat) (s : State) : Res :=
  .next (s.writeSqen part (if (s.part part).sqen / 2 ^ q % 2 = 1 then (s.part part).sqen - 2 ^ q else (s.part part).sqen))

/-- A host write of PSQPOST (R387): below the current value, or more than a ring above PSQDONE, it is dropped. -/
def State.psqPosted (s : State) (v : Nat) : State :=
  if v / 2 ^ 32 != 0 || v < s.psqPost || 2 ^ s.psqN < v - s.psqDone then s else { s with psqPost := v }

/-- PSQPOST_WRITE. -/
def execPsqpostWrite (v : BitVec 64) (s : State) : Res := .next (s.psqPosted v.toNat)

end Sys2Proof.Machine
end

