-- ==== Sys2Proof/Machine/Engines.lean ====
section
/-!
DEFINITION. What every engine command shares: the checks of its fields (R155, R156, R193, R201, R203, R259, R268), its stops and records (R330, R352–R354), the
instants that it owes (R152, R197), and its completion (R41, R196, R197, R324, R325).
-/
namespace Sys2Proof.Machine

/-! Formats (R66). -/

def convertible (t : Ty) : Bool := t.isFloat || t.isInt
/-- Whether a router may convert one format to another. -/
def fmtJoin (a b : Ty) : Bool := a == b || (convertible a && convertible b && a.elems ≤ b.elems)

/-- A beat's payload converted by a router (R66). -/
def convPayload (src dst : Ty) (rescale : Nat) (x : Payload) : Payload :=
  if src == dst then x
  else
    tyPack dst ((tyElems src x).map fun e =>
      let v := (elemVal src e).scale ((rescale : Int) - 127)
      if dst.isFloat then v.toBits (fracBits dst) .rne else ofSigned dst.bits (v.toInt .rne dst.signed dst.bits))

/-! Checks at the queue head. -/

/-- Reserved bits: bits of a word outside the listed fields. -/
def onlyBits (w : W64) (fs : List (Nat × Nat)) : Bool :=
  fs.foldl (fun x (lo, n) => x - (x / 2 ^ lo % 2 ^ n) * 2 ^ lo) w.toNat == 0

/-- The endpoint rules of R155 and R156 that need no tile. -/
def endFieldsOk (w : W64) (canons : Nat) : Bool :=
  let e := endOf w
  e.ekind != 3 && e.canon < canons && (e.port == 0 || e.ekind == 0) && e.buf != 3 && (!e.circ || e.ekind == 1) &&
    (if e.circ then e.offset < 8 else e.offset ≤ 6143) && (e.group == 0 || e.ekind == 2) && bitsNat w 43 21 == 0

/-- The rules on a buffer endpoint that need its tile (R145, R146, R155, R156). `write`: the engine writes the buffer. -/
def endBufferOk (x : Tile) (e : EndPt) (write : Bool) (beats : Nat) : Bool :=
  let okBuf (b : Nat) : Bool := if write then b != 2 else b != 0
  if e.circ then
    let c := x.cb e.offset
    okBuf e.buf && c.valid && okBuf c.buf && beats % 2 ^ c.size == 0
  else okBuf e.buf && e.offset * 64 < x.bufSize e.buf

/-- The ports that a command's beats go to, by canonical index (R155). -/
def State.canonPorts (s : State) (c : CmdSt) : List (Nat × Nat) :=
  match c.endPt with
  | some e =>
    if c.isWrite then []
    else if e.ekind == 0 then [(e.canon, e.port)]
    else if e.ekind == 2 then (s.region c.region).cfg.groups.filterMap fun (g, canon, port) => if g == e.group then some (canon, port) else none
    else []
  | none => []

/-- Whether a port's legend entry can take a stream's beats (R66, R156): in the format it names as arriving, or in one that joins the format it delivers.
DEDUCED, notes/assumptions/104.md. -/
def InPort.takes (p : InPort) (f : Ty) : Bool := f == p.fin || fmtJoin f p.fout

/-- Whether the channel list has an entry that delivers at a port of an instance (R159); a stream to one without is refused with CFG_FORMAT. DEDUCED,
notes/assumptions/99.md. -/
def Region.listed (r : Region) (canon port : Nat) : Bool := r.cfg.ports.any fun p => p.canon == canon && p.port == port

/-- The window a traverse asks for, in 4 KiB units (R155). -/
def CmdSt.window (c : CmdSt) : Nat := let w := c.f 7 0 16; if w == 0 then 64 else w

/-- The window part of a die in 4 KiB units (R398). -/
def State.windowPart (s : State) (die : Nat) : Nat := (192 - 2 * s.linePart die) * 256

def checkStr (s : State) (c : CmdSt) (eng : Nat) (det : Bool) : Option CfgCheck :=
  let t := c.trav
  let e := (c.endPt.getD default)
  let dims := c.f 2 60 2
  let canons := (s.region c.region).canon
  let x := s.tile ((s.holder c.region e.canon).getD 0)
  let fmt := Ty.ofCode (c.f 1 57 4)
  let bad :=
    5 ≤ c.f 1 61 3 || fmt.isNone || t.base % t.esz != 0 ||
    ((List.range 4).any fun i => (t.stride.getD i 0) % (t.esz : Int) != 0 || (dims < i && (t.stride.getD i 0 != 0 || t.count i != 1))) ||
    c.f 2 62 2 != 0 || c.f 3 60 4 != 0 || c.f 4 60 4 != 0 || c.f 5 60 4 != 0 || c.f 7 17 47 != 0 ||
    !endFieldsOk (c.w 6) canons || ((c.kind == 3) != (e.ekind == 2)) ||
    (e.ekind == 1 && !endBufferOk x e (!c.isWrite) t.beats) ||
    s.windowPart (eng % 8) < c.f 7 0 16 || (c.f 7 16 1 == 1 && (det || e.ekind != 1)) || c.mark % 2 == 1
  if bad then some .trav
  else if c.isWrite then none
  else
    let r := s.region c.region
    if (s.canonPorts c).any fun (n, k) => !r.listed n k then some .format
    else if (s.endPorts c).all fun (u, k) => ((s.tile u).inPort k).takes (fmt.getD .raw) then none else some .format

/-- W1 to W5 and W7 of a CPY command, and what of W6 concerns CPY alone (R201, R202). -/
def cpyBad (c : CmdSt) (det : Bool) : Bool :=
  let k := c.kind
  let gs := k == 2 || k == 3
  let dbuf := c.f 5 24 1 == 1
  let e := endOf (c.w 6)
  let sf := Ty.ofCode (c.f 5 16 4)
  let df := Ty.ofCode (c.f 5 20 4)
  let len := c.f 3 0 40
  let row := c.f 5 0 16
  let ooo := c.f 5 25 1 == 1
  let fmts :=
    if k == 1 then
      (match sf, df with
       | some a, some b => (a == b || (convertible a && convertible b)) && (len * 8) % a.bits == 0
       | _, _ => false)
    else sf == some .raw && df == some .raw
  c.f 1 57 7 != 0 || c.f 2 57 7 != 0 || (k == 4 && c.f 1 0 57 != 0) || (dbuf && c.f 2 0 57 != 0) || len == 0 || c.f 3 40 24 != 0 ||
    (gs && c.f 4 57 7 != 0) || (k == 1 && c.w 4 != 0#64) || (if gs then row == 0 else row != 0) || !fmts ||
    (dbuf && (k == 3 || k == 4)) || c.f 5 26 38 != 0 || c.w 7 != 0#64 || (ooo && (det || k != 2 || !dbuf || e.ekind != 0)) ||
    (if dbuf then e.ekind == 2 || (e.ekind == 0 && (k != 2 || (if ooo then 56 else 64) < row)) else c.w 6 != 0#64) || c.mark % 2 == 1

/-- A CPY command; its endpoint is otherwise checked as a traverse's (R145, R201). -/
def checkCpy (s : State) (c : CmdSt) (det : Bool) : Option CfgCheck :=
  let e := endOf (c.w 6)
  if cpyBad c det then some .cmd
  else if c.f 5 24 1 == 0 then none
  else if !endFieldsOk (c.w 6) (s.region c.region).canon ||
      (e.ekind == 1 && !endBufferOk (s.tile ((s.holder c.region e.canon).getD 0)) e true 0) then some .trav
  else if (s.canonPorts c).any fun (n, k) => !(s.region c.region).listed n k then some .format else none

/-- The rank of an issuer in a group. -/
def rankOf (s : State) (c : CmdSt) (ms : List (Nat × Nat × Nat)) : Option Nat :=
  ((ms.zip (List.range ms.length)).find? fun ((p, r, k), _) => p == s.partid && r == c.region && k == c.canon).map (·.2)

def colFmt (code : Nat) : Option Ty :=
  match code with | 0 => some .f32 | 1 => some .bf16 | 5 => some .i32 | 6 => some .n32 | 7 => some .i64 | 8 => some .n64 | _ => none

def checkCol (s : State) (c : CmdSt) (ctx : Nat) : Option CfgCheck :=
  let k := c.kind
  let bad :=
    (k == 5 && c.f 1 0 57 != 0) || (k == 4 && c.f 2 0 57 != 0) || c.f 1 57 7 != 0 || c.f 2 57 7 != 0 || c.f 3 0 40 == 0 ||
    (colFmt (c.f 3 40 4)).isNone || 3 ≤ c.f 3 44 3 || (c.f 3 44 3 != 0 && k != 1 && k != 3) || c.f 3 47 17 != 0 ||
    c.f 4 48 16 != 0 || c.w 5 != 0#64 || c.w 6 != 0#64 || c.w 7 != 0#64 ||
    c.mark % 2 == 1
  if bad then some .cmd
  else
    match groupMembers s ctx c.actx (c.f 4 0 16) with
    | none => some .cmd
    | some ms =>
      let span := ms.any fun (p, _, _) => p != s.partid
      if (rankOf s c ms).isNone || ms.length ≤ c.f 4 16 16 || (span && c.scope != 4) then some .cmd else none

def checkSmp (s : State) (c : CmdSt) (ctx : Nat) : Option CfgCheck :=
  let bad :=
    c.f 1 57 7 != 0 || c.f 1 0 6 != 0 || !onlyBits (c.w 2) [(0, 20), (32, 12)] || (c.kind == 2 && c.f 2 32 12 != 0) ||
    c.f 3 57 7 != 0 || c.f 3 0 2 != 0 || c.w 4 != 0#64 || c.w 5 != 0#64 || c.w 6 != 0#64 || c.w 7 != 0#64 || c.mark % 2 == 1 ||
    (c.kind == 1 && (s.ctx ctx).seqsize ≤ c.f 2 32 12)
  if bad then some .cmd else none

/-- The fields of a KVP or SQE command that its row of R264–R266, R270 and R276–R280 lists, word by word; the rest is 0. -/
def seqFields (cls kind : Nat) : List (List (Nat × Nat)) :=
  match cls, kind with
  | 5, 1 => [[(0, 12)], [(0, 16)], [], [], [], [], []]
  | 5, 2 => [[(0, 12)], [(0, 32)], [], [], [], [], []]
  | 5, 3 => [[(0, 12)], [(0, 13)], [(0, 57)], [(0, 57)], [(0, 32)], [(0, 16)], [(0, 64)]]
  | 5, 4 => [[(0, 12)], [(0, 16)], [], [], [], [], []]
  | 5, 5 => [[(0, 12)], [(0, 12)], [(0, 32)], [(0, 33)], [], [], []]
  | 5, 6 => [[(0, 12)], [(0, 32)], [], [], [], [], []]
  | 5, _ => [[(0, 12)], [], [], [], [], [], []]
  | 6, 1 => [[(0, 16), (32, 32)], [(0, 64)], [(0, 57)], [(0, 57)], [(0, 57)], [(0, 64)], [(0, 36)]]
  | 6, 2 => [[(0, 13), (32, 32)], [(0, 57)], [(0, 32)], [], [], [], []]
  | 6, 3 => [[(0, 12)], [], [], [], [], [], []]
  | 6, 4 => [[(0, 12)], [], [], [], [], [], []]
  | 6, 5 => [[(0, 12)], [(0, 57)], [(0, 32)], [], [], [], []]
  | 6, 6 => [[(0, 57)], [(0, 64)], [(0, 57)], [(0, 64)], [], [], []]
  | 6, 7 => [[(0, 57)], [(0, 64)], [(0, 57)], [(0, 43)], [(0, 2), (32, 32)], [], []]
  | 6, 8 => [[(0, 12)], [(0, 57)], [(0, 64)], [(0, 13)], [], [], []]
  | 6, 9 => [[(0, 16)], [(0, 57)], [(0, 64)], [(0, 13)], [(0, 57)], [(0, 57)], [(0, 16)]]
  | _, _ => [[], [], [], [], [], [], []]

/-- A value that the encoding tables of the KVP and SQE commands forbid (R259). DEDUCED, notes/assumptions/55.md. -/
def seqBad (s : State) (c : CmdSt) (x : Ctx) : Bool :=
  let n := x.seqsize
  let ep := c.f 4 0 64
  match c.cls, c.kind with
  | 5, 1 => n ≤ c.slotIx || c.f 2 0 16 == 0
  | 5, 3 =>
    n ≤ c.slotIx || n ≤ c.f 2 0 12 || (c.f 2 12 1 == 1 && (c.w 5 != 0#64 || c.w 6 != 0#64 || c.w 7 != 0#64)) ||
      (c.f 2 12 1 == 0 && x.egrcnt ≤ c.f 6 0 16)
  | 5, 4 => n ≤ c.slotIx || c.f 2 0 16 == 0
  | 5, 5 => n ≤ c.slotIx || n ≤ c.f 2 0 12
  | 5, _ => n ≤ c.slotIx
  | 6, 1 =>
    n ≤ c.slotIx || c.f 2 0 32 == 0 || c.f 2 32 32 % 2 == 1 || c.f 2 32 32 < c.f 2 0 32 || x.egrcnt ≤ c.f 7 0 16
  | 6, 2 => c.f 1 0 13 == 0 || 4096 < c.f 1 0 13 || n < c.f 1 0 13 || c.f 1 32 32 == 0 || c.f 3 0 32 == 0 || c.f 2 0 57 % 64 != 0
  | 6, 6 => false
  | 6, 7 =>
    let e := endOf (BitVec.ofNat 64 ep)
    c.f 3 0 57 % 64 != 0 || 2 ≤ c.f 5 0 2 || 1 < e.ekind || !endFieldsOk (c.w 4) (s.region c.region).canon ||
      ((c.f 5 0 2 == 0) != (e.ekind == 0)) ||
      (e.ekind == 1 && !endBufferOk (s.tile ((s.holder c.region e.canon).getD 0)) e true 0)
  | 6, 8 => n ≤ c.slotIx || c.f 2 0 57 % 4096 != 0
  | 6, 9 => n ≤ c.slotIx || x.egrcnt ≤ c.f 7 0 16
  | _, _ => n ≤ c.slotIx

def checkSeq (s : State) (c : CmdSt) (ctx : Nat) : Option CfgCheck :=
  let fs := seqFields c.cls c.kind
  if c.mark % 2 == 1 || ((List.range 7).any fun i => !onlyBits (c.w (i + 1)) (fs.getD i [])) || seqBad s c (s.ctx ctx) then some .cmd
  else if (s.canonPorts c).any fun (n, k) => !(s.region c.region).listed n k then some .format else none

/-- Whether the kind has a table latency at all (R325). -/
def CmdSt.tabled (c : CmdSt) : Bool := !(c.cls == 3 || (c.cls == 6 && 8 ≤ c.kind))

/-! Records of engines. -/

/-- What a detector in an engine knows (R352). -/
def State.engFlt (s : State) (ctx eng : Nat) (c : CmdSt) : Flt :=
  { Flt.zero with engine := true, region := if s.stale c || c.region == agentRegion then none else some c.region, ctx := ctx, tile := c.tile, slot := c.slot,
                  eng := eng, inst := c.inst, issue := c.issue }

/-- The CONFIG record of a refused command (R85, R156, R193). -/
def State.refuseRecord (s : State) (ctx eng : Nat) (c : CmdSt) (k : CfgCheck) : State :=
  s.raise { s.engFlt ctx eng c with
    cls := 1, cause := k.code, addr := k.code * 2 ^ 56 + 0x82 * 2 ^ 48 + 0xFF * 2 ^ 40 + (s.tile c.tile).leaf * 2 ^ 24 + c.tile * 2 ^ 11 }

/-- The agent that a stop of a command names: the whole unit for KVP and SQE commands (R259, R349). -/
def cmdAgent (ctx eng uid : Nat) : Agent := if eng / 8 % 4 == 3 then .unit ctx eng uid else .command ctx eng uid

/-- A translation, protection or UNCORRECTABLE stop of a command (R353, R354). -/
def State.engFault (s : State) (ctx eng : Nat) (c : CmdSt) (x : XFault) (write : Bool) (f4 i3 : Nat) : State :=
  s.raise { s.engFlt ctx eng c with
    cls := x.cls, cause := x.cause, resumable := true, addr := x.addr % 2 ^ 57, f4 := f4, f5 := i3,
    f6 := if x.cls == 0x0E then x.level else boolNat write + x.level * 16, f7 := x.entry, agent := cmdAgent ctx eng c.uid }

/-! Queues. -/

/-- A started command changed in place. -/
def State.setCmd (s : State) (ctx eng : Nat) (c : CmdSt) : State :=
  let q := (s.ctx ctx).queue eng
  s.setCtx ctx ((s.ctx ctx).setQueue eng { q with started := q.started.map fun x => if x.uid == c.uid then c else x })

def State.headCmd (s : State) (ctx eng : Nat) : Option CmdSt := ((s.ctx ctx).queue eng).entries.head?

def State.setHead (s : State) (ctx eng : Nat) (c : CmdSt) : State :=
  let q := (s.ctx ctx).queue eng
  s.setCtx ctx ((s.ctx ctx).setQueue eng { q with entries := c :: q.entries.drop 1 })

/-- The head leaves the queue; `keep` puts it among the started ones. -/
def State.popHead (s : State) (ctx eng : Nat) (keep : Option CmdSt) : State :=
  let q := (s.ctx ctx).queue eng
  s.setCtx ctx ((s.ctx ctx).setQueue eng { q with entries := q.entries.drop 1,
                                                  started := q.started ++ (match keep with | some c => [c] | none => []) })

/-- The instants owed on every port of a checked command, from one instant on (R152); `none` where it owes none. -/
def State.owePorts (s : State) (c : CmdSt) : State × Nat :=
  let n := c.portBeats
  if n == 0 then (s, 0)
  else
    let ports := s.endPorts c
    let i := if c.bound then 0 else c.inst + 1
    let st := ports.foldl (fun m (t, k) => max m ((s.tile t).inPort k).nextOwed) i
    (ports.foldl (fun s (t, k) => s.setTile t ((s.tile t).setIn k (((s.tile t).inPort k).owe c.uid st n).1)) s, st)

/-- A command with a REPLAY's port: its unit may still refuse it (R152, R266). -/
def CmdSt.unsettled (d : CmdSt) : Bool :=
  d.phase == .queued || (d.cls == 6 && d.kind == 7 && (d.phase == .checked || d.phase == .started || d.phase == .stopped))

/-- Whether a command issued earlier may still take, or give up, instants of a port that this one names: the instants of a port
depend on the order of issue alone (R152). -/
def State.portPending (s : State) (ctx : Nat) (c : CmdSt) : Bool :=
  let mine := s.canonPorts c
  !mine.isEmpty && (s.ctx ctx).queues.any fun (_, q) => (q.entries ++ q.started).any fun d =>
    d.uid != c.uid && d.region == c.region && d.gen == c.gen && d.unsettled &&
      (if d.bound then !c.bound || d.uid < c.uid else !c.bound && issuedBefore d.inst d.canon d.slot c.inst c.canon c.slot) &&
      (s.canonPorts d).any mine.contains

/-- The instants that a refused command owed are given back (R152). -/
def State.withdraw (s : State) (c : CmdSt) : State :=
  (s.endPorts c).foldl (fun s (t, k) =>
    let x := s.tile t
    let p := x.inPort k
    match p.due.find? fun o => o.by_ == c.uid && o.start == c.first with
    | some o =>
      s.setTile t (x.setIn k { p with due := p.due.erase o, nextOwed := if p.nextOwed == o.start + o.count then o.start else p.nextOwed })
    | none => s) s

/-! Completion. -/

/-- The class delay of a page (R1, R325). -/
def pageDelay (die pa : Nat) : Nat :=
  match paClass pa with
  | some .far => 520
  | _ => if paStack pa / 2 == die then 190 else 400

/-- Whether an invocation has begun no instant yet. The start of its first round is the loader's, which leaves the stream engines their lead time (R40). DESIGN
CHOICE, notes/assumptions/103.md. -/
def State.unstarted (s : State) (g : Nat) : Bool :=
  (s.region g).inst == 0 && (s.region g).tiles.all fun t => !(s.tile t).begun && (s.tile t).inst == 0

/-- The start of a region's round (R39); while its first round has none, as if it were now. -/
def State.roundStart (s : State) (g : Nat) : Nat := if s.unstarted g then s.cycle else (s.region g).roundCycle

/-- The cycle at which an instant of the current round starts in a fixed-timing region (R39). -/
def State.instStart (s : State) (c : CmdSt) (inst : Nat) : Nat :=
  s.roundStart c.region + (inst - (s.region c.region).roundBase) * (s.tile c.tile).hdr.period

/-- The table latency (R325), counted from `cycle`: the presentation cycle; none where the table gives none. -/
def State.presentAt (s : State) (ctx eng : Nat) (c : CmdSt) : Option Nat :=
  let n := s.rsvCount ctx eng
  if !(s.ctx ctx).fxt || !c.tabled || n == 0 || c.host then none
  else if c.portBeats != 0 && c.cls != 6 then some (s.instStart c (c.first + c.portBeats - 1))
  else
    let l := match c.cls, c.kind with
      | 2, 2 => c.delay + 64 * ceilDiv (c.beats + ceilDiv (c.f 3 0 40) 16) n + 72
      | 2, 3 => c.delay + 64 * ceilDiv (c.beats + ceilDiv (c.f 3 0 40) 16) n + 72
      | 1, _ => c.delay + 64 * ceilDiv c.beats n + 40
      | 2, _ => c.delay + 64 * ceilDiv c.beats n + 40
      | 4, 1 => 300 + 64 * ceilDiv ((c.extra + 2) * ceilDiv (c.f 2 0 20 + 1) 16) n
      | 4, _ => 300 + 64 * ceilDiv (2 * ceilDiv (c.f 2 0 20 + 1) 16) n
      | _, _ => 200 + 64 * ceilDiv (4 + c.beats) n
    some ((if c.bound && s.unstarted c.region then s.cycle else c.cycle) + l)

/-- The completion beat (R197). DEDUCED, notes/assumptions/48.md. -/
def CmdSt.doneBeat (c : CmdSt) : Beat :=
  let st := match c.phase with | .performed => 0 | .refused => 1 | _ => 2
  let rest := if c.phase == .refused then [0, c.reason] else if c.cls == 1 || c.cls == 2 then [c.bytes] else c.lanes
  Beat.val (lanes32 ([st, c.issue % 2 ^ 32] ++ rest.map (· % 2 ^ 32)))

/-- A reply of an old generation, discarded and counted (R295). -/
def State.countStale (s : State) (r : Nat) : State :=
  s.setRegion (r % 1024) { s.home r with stale := ((s.home r).stale + 1) % 2 ^ 32 }

/-- The beat put on the completion port; none while a sampled port holds 8 (R15). DEDUCED, notes/assumptions/31.md. -/
def State.deliverDone (s : State) (c : CmdSt) : Option State :=
  match c.cport with
  | none => some s
  | some p =>
    if s.stale c then some (s.countStale c.region)
    else
      let x := s.tile c.tile
      let y := x.inPort p
      if y.sampled then
        if y.held.length < 8 then some (s.setTile c.tile (x.setIn p { y with held := y.held ++ [(s.cycle, c.doneBeat)] })) else none
      else
        match y.due.find? fun o => o.by_ == c.uid with
        | some o => some (s.setTile c.tile (x.setIn p { y with arrived := tset y.arrived o.start c.doneBeat }))
        | none => some s

/-- Its signal: applied only by a command that is done, as a SEMSIG of its scope (R132, R196). -/
def State.signalDone (s : State) (ctx eng : Nat) (c : CmdSt) : State :=
  if c.phase == .performed && c.inc != 0 then
    s.semInc ctx c.ssem c.inc 1 (c.cov.map fun o => ({ o with cap := min o.cap c.scope }, c.region)) fun _ => s.engFlt ctx eng c
  else s

/-- A stream that has completed may still have to be rewound (R366). -/
def State.remember (s : State) (eng : Nat) (c : CmdSt) : State :=
  if c.isStream && c.phase == .performed && !s.stale c then
    s.setRegion c.region { s.region c.region with past := (s.region c.region).past ++ [(eng, c)] }
  else s

/-- Whether a command is a stream of a region that pre-emption holds (R363, R366). -/
def State.holdsStream (s : State) (c : CmdSt) : Bool := c.isStream && (s.region c.region).phase == .suspended

/-- Whether the time has come to present a completion (R41): never before its table time, nor before the first round starts; a late one only once it is
reported. -/
def State.timeToPresent (s : State) (ctx eng : Nat) (c : CmdSt) : Bool :=
  match s.presentAt ctx eng c with
  | some t => s.stale c || c.phase == .refused || (!s.unstarted c.region && if s.cycle ≤ t then s.cycle == t else c.mark / 4 % 2 == 1)
  | none => true

/-- A started command by its number. -/
def State.startedOf (s : State) (c e u : Nat) : Option CmdSt := ((s.ctx c).queue e).started.find? fun x => x.uid == u

end Sys2Proof.Machine
end

