-- ==== Sys2Proof/Machine/Endpoints.lean ====
section
/-!
DEFINITION. What engines do with memory and with endpoints: their accesses and requests (R326, R338, R346), the beats of a traverse (R158), deliveries to
ports and typed buffers (R147, R152, R153, R160, R162), and the forks of a multicast (R159–R161).
-/
namespace Sys2Proof.Machine

/-- The words of a command beat of a class and kind (R191). -/
def cmdWords (cls kind : Nat) (c : Cmd) : List W64 :=
  [BitVec.ofNat 64 (encodeHdr cls kind c.hdr), c.w1, c.w2, c.w3, c.w4, c.w5, c.w6, c.w7]

/-! What an access of an engine leaves behind. -/

/-- The die whose translation caches an engine uses (R331). -/
def engDie (eng : Nat) : Nat := eng % 8

/-- The largest class delay and whether a host page was touched (R325). -/
def CmdSt.touch (c : CmdSt) (die : Nat) (ps : List Piece) : CmdSt :=
  { c with delay := ps.foldl (fun d p => max d (pageDelay die p.x.pa)) c.delay,
           host := c.host || ps.any fun p => paClass p.x.pa == some .host }

/-- The 64-byte beats of pieces, as locations; pages of the host have none. -/
def pieceBeats (ps : List Piece) : List Nat :=
  ps.flatMap fun p =>
    if paClass p.x.pa == some .host then []
    else (List.range ((p.x.loc + p.len - 1) / 64 + 1 - p.x.loc / 64)).map fun i => p.x.loc / 64 + i

/-- Requests of home SEs, counted per pseudo-channel by the SE that owns its channel (R338, R346). The collective engine is no SE (R194). -/
def State.countReqs (s : State) (eng : Nat) (gs : List Nat) : State :=
  if eng / 8 % 4 == 1 then s
  else { s with counts := gs.foldl (fun m g => let k := ownerKey (g * 64); tset m k (tget 0 m k + 1)) s.counts }

/-- The pieces of an engine's access at an exact address (R158, R326). -/
def State.cmdReach (s : State) (eng : Nat) (c : CmdSt) (write : Bool) (va : Int) (n : Nat) : Except XFault (List Piece) :=
  if va < 0 then .error ⟨2, 5, (va % ((2 ^ 57 : Nat) : Int)).toNat, 0, 0⟩
  else
    match reachRange s (engDie eng) c.actx (isSup c.tile) write (n / 128 + 2) va.toNat n with
    | .error f => .error f
    | .ok ps =>
      if write then .ok ps
      else match s.badIn ps with
        | some (pa, place) => .error ⟨0x0E, 0, va.toNat, place, pa⟩
        | none => .ok ps

/-! Beats of a traverse (R158). -/

/-- F4 and F5 of a stop at an element (R352). -/
def Trav.f4 (t : Trav) (p : Nat) : Nat := let (i0, i1, i2, _) := t.index p; i0 + i1 * 2 ^ 20 + i2 * 2 ^ 40
def Trav.i3 (t : Trav) (p : Nat) : Nat := (t.index p).2.2.2

/-- Requests that element p adds: those of the element before it in its row stand in the window, which a row that stays in place fills anew for each of its
beats (R346). -/
def Trav.newReqs (s : State) (eng : Nat) (c : CmdSt) (t : Trav) (p : Nat) (write : Bool) (ps : List Piece) : List Nat :=
  let starts := p % t.count 0 == 0 || (t.stride.getD 0 0 == 0 && p % t.count 0 % (64 / t.esz) == 0)
  let old := if starts then [] else
    match s.cmdReach eng c write (t.addr (p - 1)) t.esz with | .ok qs => pieceBeats qs | .error _ => []
  (pieceBeats ps).filter fun g => !old.contains g

/-- A fault at an element names the element's address (R158). -/
def Trav.faultAt (t : Trav) (p : Nat) (f : XFault) : XFault := { f with addr := f.at_ (t.addr p % ((2 ^ 57 : Nat) : Int)).toNat }

/-- The next n elements read into the beat in progress, up to the first fault (R354). -/
def gatherElems (eng : Nat) (t : Trav) : Nat → State → CmdSt → State × CmdSt × Option XFault
  | 0, s, c => (s, c, none)
  | n + 1, s, c =>
    match s.cmdReach eng c false (t.addr c.pos) t.esz with
    | .error f => (s, c, some (t.faultAt c.pos f))
    | .ok ps =>
      let s1 := (s.cacheAll (engDie eng) c.actx ps).countReqs eng (t.newReqs s eng c c.pos false ps)
      gatherElems eng t n s1 ({ c with row := c.row ++ s.readPieces ps, pos := c.pos + 1 }.touch (engDie eng) ps)

/-- The next n elements written from the beat in progress (R158). -/
def scatterElems (eng : Nat) (t : Trav) : Nat → State → CmdSt → State × CmdSt × Option XFault
  | 0, s, c => (s, c, none)
  | n + 1, s, c =>
    match s.cmdReach eng c true (t.addr c.pos) t.esz with
    | .error f => (s, c, some (t.faultAt c.pos f))
    | .ok ps =>
      let s1 := ((s.cacheAll (engDie eng) c.actx ps).countReqs eng (t.newReqs s eng c c.pos true ps)).writePieces none ps (c.row.take t.esz)
      scatterElems eng t n s1 ({ c with row := c.row.drop t.esz, pos := c.pos + 1 }.touch (engDie eng) ps)

/-! Delivery to an endpoint (R147, R152, R153). -/

/-- How a delivery ends: it waits, it raises BUFRANGE, or it is made. -/
inductive Put where
  | wait
  | fault (s : State)
  | ok (s : State) (c : CmdSt)
deriving DecidableEq, Repr, Inhabited

def Put.waits (p : Put) : Bool := match p with | .wait => true | _ => false

/-- A BUFRANGE raised by an engine (R147, R353): the region stops. -/
def State.engBufRange (s : State) (ctx eng : Nat) (c : CmdSt) (f6 f4 i3 : Nat) : State :=
  (s.setCmd ctx eng { c with phase := .stopped }).raise
    { s.engFlt ctx eng c with cls := 0x0D, f4 := f4, f5 := i3, f6 := f6, agent := .region c.region }

/-- An engine's read of a typed buffer, or of a window, that cannot be corrected: it stops before delivering, and no retry is offered (R357). -/
def State.engSram (s : State) (ctx eng : Nat) (c : CmdSt) (tile : Option Nat) (f4 i3 : Nat) : State :=
  let s1 := match tile with | some t => s.setTile t { s.tile t with spareDue := true } | none => s
  (s1.setCmd ctx eng { c with phase := .stopped }).raise
    { s1.engFlt ctx eng c with cls := 0x0E, f4 := f4, f5 := i3, f6 := sramCode, agent := .region c.region }

/-- Whether the beat in a stream's window has an uncorrectable error (R357, R403). -/
def CmdSt.windowBad (c : CmdSt) : Bool := c.mark / 128 % 2 == 1

/-- How long ago a slot was acquired, in slots; the oldest has the greatest number. -/
def CBuf.age (b : CBuf) (slot : Nat) : Nat := (b.wc + 2 * b.slots - 1 - slot) % b.slots

/-- Whether a slot acquired before ours is still unpublished: publications take effect in acquire order (R147). -/
def State.pubWaits (s : State) (ctx : Nat) (c : CmdSt) (e : EndPt) (b : CBuf) (slot : Nat) : Bool :=
  b.acqW.any (fun x => b.age slot < b.age x) ||
    (s.ctx ctx).queues.any fun (_, q) => q.started.any fun d =>
      d.uid != c.uid && d.region == c.region && d.gen == c.gen && !d.isWrite &&
        (match d.endPt with | some y => y.circ && y.canon == e.canon && y.offset == e.offset | none => false) &&
        d.acq.any fun x => b.age slot < b.age x

/-- A command past the 32 staging records of its tile (R365). -/
def CmdSt.unstaged (c : CmdSt) : Bool := c.mark / 64 % 2 == 1

/-- Bytes that a command puts in a typed buffer. The banks that staging records do not cover are noted: they are saved (R148, R365). -/
def Tile.put (x : Tile) (cycle : Nat) (c : CmdSt) (b a : Nat) (bs : List Byte) : Tile :=
  let y := x.bufWrite cycle b a bs
  if !c.unstaged then y
  else if b == 1 then { y with abanks := lunion y.abanks (banksOf 16384 a bs.length) }
  else if b == 0 then { y with wbanks := lunion y.wbanks (banksOf 32768 a bs.length) }
  else y

/-- Bytes put into a typed-buffer endpoint at byte q of the command's data; they do not cross a slot. `fin` marks the last ones. DEDUCED, notes/assumptions/50.md. -/
def State.putBuf (s : State) (ctx eng : Nat) (c : CmdSt) (e : EndPt) (q : Nat) (bs : List Byte) (fin : Bool) (f4 i3 : Nat) : Put :=
  if s.stale c then .ok (s.countStale c.region) c
  else
    match s.holder c.region e.canon with
    | none => .wait
    | some t =>
      let x := s.tile t
      if e.circ then
        let b := x.cb e.offset
        let per := 64 * 2 ^ b.size
        let start := q % per == 0
        if start && b.free = 0 then .wait
        else
          let slot := if start then b.wc else c.acq.headD 0
          let b1 := if start then b.acquireW else b
          let done := q % per + bs.length == per || fin
          if done && s.pubWaits ctx c e b1 slot then .wait
          else
            let a := b.base * 64 + slot * per + q % per
            if x.bufSize b.buf < a + bs.length then .fault (s.engBufRange ctx eng c (b.buf + a * 256) f4 i3)
            else if done && b1.filled = b1.slots then .fault (s.engBufRange ctx eng c (b.buf + 4 + e.offset * 8) f4 i3)
            else
              let x1 := x.put s.cycle c b.buf a bs
              .ok (s.setTile t (x1.setCb e.offset (if done then { b1 with filled := b1.filled + 1 } else b1)))
                { c with acq := if done then [] else [slot] }
      else
        let a := e.offset * 64 + q
        if x.bufSize e.buf < a + bs.length then .fault (s.engBufRange ctx eng c (e.buf + a * 256) f4 i3)
        else .ok (s.setTile t (x.put s.cycle c e.buf a bs)) c

/-- The ports of the endpoint that are not cut, each with its branch number (R162). DEDUCED, notes/assumptions/51.md. -/
def State.livePorts (s : State) (c : CmdSt) : List ((Nat × Nat) × Nat) :=
  let ps := s.endPorts c
  (ps.zip (List.range ps.length)).filter fun (_, i) => !c.cut.contains i

/-- Whether the channel buffer of a port has a free slot for a beat of a stream (R14, R153). -/
def InPort.streamRoom (p : InPort) : Bool := p.arrived.length < p.depth

/-- Whether every branch of an endpoint that is not cut is ready (R160). -/
def State.branchesReady (s : State) (c : CmdSt) : Bool := (s.livePorts c).all fun ((t, k), _) => ((s.tile t).inPort k).streamRoom

/-- One beat for an instant put on every live port of the endpoint at once, converted to the port's format (R66, R152, R160); it is dropped and
counted for a branch that is cut (R162). A stream names the format of its beats; what a GATHER or a REPLAY delivers has that of the port's channel. -/
def State.putPorts (s : State) (c : CmdSt) (inst : Nat) (fmt : Option Ty) (x : Payload) : Put :=
  if s.stale c then .ok (s.countStale c.region) c
  else if s.branchesReady c then
    let s1 := (s.livePorts c).foldl (fun s ((t, k), _) =>
      let y := s.tile t
      let p := y.inPort k
      s.setTile t (y.setIn k { p with arrived := tset p.arrived inst (Beat.val (convPayload (fmt.getD p.fin) p.fout p.rescale x)) })) s
    .ok (((s.endPorts c).zip (List.range 256)).foldl (fun s ((t, _), i) =>
      if c.cut.contains i then s.setTile t { s.tile t with detachCount := (s.tile t).detachCount + 1 } else s) s1) c
  else .wait

/-! Beats in and out. -/

/-- A traverse whose last beat is out (R200). -/
def CmdSt.performedIf (c : CmdSt) (p : Bool) : CmdSt := if p then { c with phase := .performed } else c

/-- The beat that a read traverse gathers or holds, and the elements of it still to be read. -/
def CmdSt.readAt (c : CmdSt) : Nat × Nat :=
  let t := c.trav
  let b := t.beatOf (c.pos - (if c.row.isEmpty then 0 else 1))
  let (p0, n) := t.beatElems b
  (b, p0 + n - c.pos)

/-- Whether a read traverse holds a whole beat for its endpoint. -/
def CmdSt.holdsBeat (c : CmdSt) : Bool := !c.row.isEmpty && c.readAt.2 == 0

/-- The beat in progress of a read traverse put to its endpoint. -/
def putBeat (s : State) (ctx eng : Nat) (c : CmdSt) : Put :=
  let t := c.trav
  let b := c.readAt.1
  let bs := c.row ++ List.replicate (64 - c.row.length) 0#8
  let e := c.endPt.getD default
  if e.ekind == 1 then
    let (p0, _) := t.beatElems b
    s.putBuf ctx eng c e (64 * b) bs (b + 1 == t.beats) (t.f4 p0) (t.i3 p0)
  else s.putPorts c (c.first + b) (Ty.ofCode (c.f 1 57 4)) (payOf bs)

/-- The window's head moved by what a fill has added to the beat in progress, and its tail by what a delivery or a write-back has taken of it (R149). -/
def CmdSt.slide (c old : CmdSt) : CmdSt :=
  { c with head := c.head + (c.row.length - old.row.length), tail := c.tail + (old.row.length - c.row.length) }

/-- The elements of the beat in progress, read; a rewound stream has the beat already (R366). -/
def fillBeat (s : State) (eng : Nat) (c : CmdSt) : State × CmdSt × Option XFault :=
  match tget? c.kept c.readAt.1 with
  | some x => (s, ({ c with row := payBytes 64 x, pos := c.pos + c.readAt.2 }).slide c, none)
  | none => let (s1, c1, x) := gatherElems eng c.trav c.readAt.2 s c; (s1, c1.slide c, x)

/-- The next beat of a read traverse (R152–R154, R158, R160), in affine order, under OOO too. DESIGN CHOICE, notes/assumptions/96.md. -/
def readBeat (s : State) (ctx eng : Nat) (c : CmdSt) : State :=
  let t := c.trav
  let (b, todo) := c.readAt
  let (s1, c1, x) := fillBeat s eng c
  if c1.windowBad && !c1.row.isEmpty then s1.engSram ctx eng c1 none (t.f4 c1.pos) (t.i3 c1.pos)
  else
  match x with
  | some f => (s1.setCmd ctx eng c1).engFault ctx eng c1 f false (t.f4 c1.pos) (t.i3 c1.pos)
  | none =>
    match putBeat s1 ctx eng c1 with
    | .wait => s1.setCmd ctx eng { c1 with since := if todo = 0 then c.since else s.cycle }
    | .fault s2 => s2
    | .ok s2 c2 =>
      let buf := (c2.endPt.getD default).ekind == 1
      let n := if buf then 1 else (s2.livePorts c2).length
      let kept := if buf then [] else tset c2.kept b (payOf (c2.row ++ List.replicate (64 - c2.row.length) 0#8))
      s2.setCmd ctx eng ({ c2 with row := [], bytes := c2.bytes + 64 * n, beats := c2.beats + 1, kept := kept, tail := c2.head }.performedIf (b + 1 == t.beats))

/-- The bytes of one beat written to their elements (R153, R158); `c.row` holds what of the beat is still to be written. -/
def writeBeat (s : State) (ctx eng : Nat) (c : CmdSt) : State :=
  let t := c.trav
  if c.windowBad then s.engSram ctx eng c none (t.f4 c.pos) (t.i3 c.pos)
  else
  let b := t.beatOf c.pos
  let (p0, n) := t.beatElems b
  let (s1, c0, x) := scatterElems eng t (p0 + n - c.pos) s c
  let c1 := c0.slide c
  match x with
  | some f => (s1.setCmd ctx eng c1).engFault ctx eng c1 f true (t.f4 c1.pos) (t.i3 c1.pos)
  | none =>
    let fin := b + 1 == t.beats
    let c2 := { c1 with row := [], bytes := c1.pos * t.esz, beats := c1.beats + 1, tail := c1.head }.performedIf fin
    let s2 := s1.setCmd ctx eng c2
    match c.endPt with
    | some e =>
      if fin && e.ekind == 0 then
        (match s2.holder c.region e.canon with
         | some u => s2.setTile u ((s2.tile u).setOut e.port { (s2.tile u).out e.port with trav := none })
         | none => s2)
      else s2
    | none => s2

/-- The next beat that a write traverse takes from its A- or C-buffer (R145, R147): a circular buffer is read slot by slot. -/
def takeFromBuf (s : State) (ctx eng : Nat) (c : CmdSt) (e : EndPt) : Put :=
  let t := c.trav
  let b := t.beatOf c.pos
  match s.holder c.region e.canon with
  | none => .wait
  | some u =>
    let x := s.tile u
    if e.circ then
      let k := x.cb e.offset
      let per := 2 ^ k.size
      let start := b % per == 0
      if start && k.filled = 0 then .wait
      else
        let slot := if start then k.rc else c.acq.headD 0
        let k1 := if start then k.acquireR else k
        let done := b % per + 1 == per
        if done && k1.free = k1.slots then .fault (s.engBufRange ctx eng c (k.buf + 4 + e.offset * 8) (t.f4 c.pos) (t.i3 c.pos))
        else
          let a := (k.base + slot * per + b % per) * 64
          if x.isSpoilt k.buf a 64 then .fault (s.engSram ctx eng c (some u) (t.f4 c.pos) (t.i3 c.pos))
          else .ok (s.setTile u (x.setCb e.offset (if done then { k1 with free := k1.free + 1 } else k1)))
            ({ c with row := (x.buf k.buf).readN a 64, acq := if done then [] else [slot] }.slide c)
    else
      let a := (e.offset + b) * 64
      if x.bufSize e.buf < a + 64 then .fault (s.engBufRange ctx eng c (e.buf + a * 256) (t.f4 c.pos) (t.i3 c.pos))
      else if x.isSpoilt e.buf a 64 then .fault (s.engSram ctx eng c (some u) (t.f4 c.pos) (t.i3 c.pos))
      else .ok s ({ c with row := (x.buf e.buf).readN a 64 }.slide c)

/-- The queue and engine of a started command by its number. -/
def Ctx.engineOf (x : Ctx) (uid : Nat) : Option Nat :=
  (x.queues.find? fun (_, q) => q.started.any fun c => c.uid == uid).map (·.1)

/-! Multicast forks (R159–R161). -/

/-- The legend entry of a multicast group's fork for one of its consumers: an entry with MC set that names the group, the consumer's own before the others
(R159). DEDUCED, notes/assumptions/51.md. -/
def Region.forkEntry (r : Region) (group canon port : Nat) : Option PortCfg :=
  let fs := r.cfg.ports.filter fun p => bitAt p.legend 34 && bitsNat p.legend 42 8 == group
  match fs.find? fun p => p.canon == canon && p.port == port with
  | some p => some p
  | none => fs.head?

/-- The stall limit of a fork in cycles (R159). -/
def stallLimit (w : W64) : Nat := let v := bitsNat w 36 5; if v = 0 then 1000000 else 2 ^ v

/-- Every running region that consumes from the fork of a multicast stops (R161). -/
def State.stopConsumers (s : State) (c : CmdSt) : State :=
  (s.livePorts c).foldl (fun s ((t, _), _) =>
    let g := (s.tile t).region
    if (s.region g).phase == .running then s.stopAgent (.region g) else s) s

end Sys2Proof.Machine
end

