-- ==== Sys2Proof/Machine/CopyOps.lean ====
section
/-!
DEFINITION. What the copy commands COPY, GATHER, SCATTER and FILL do (R65, R202, R354). A step runs a command until it is performed, waits
for its endpoint, or stops at a byte or index: its whole run counts as one request of it (notes/assumptions/49.md).
-/
namespace Sys2Proof.Machine

/-- How far a span gets. -/
inductive Span where
  | done (s : State) (c : CmdSt)
  | wait (s : State) (c : CmdSt)
  | stop (s : State)
deriving DecidableEq, Repr, Inhabited

/-- The state that a span leaves, the command with it. -/
def Span.close (x : Span) (ctx eng : Nat) (f : State → CmdSt → State) : State :=
  match x with
  | .done s c => f s c
  | .wait s c => s.setCmd ctx eng c
  | .stop s => s

/-- The bytes of a span at `base` from byte `pos` on, read into `row` (R202): in 64-byte beats, up to the first fault, whose F4 is the
byte reached. -/
def readSpan (ctx eng base len : Nat) : Nat → State → CmdSt → Span
  | 0, s, c => .done s c
  | n + 1, s, c =>
    if len ≤ c.pos then .done s c
    else
      let va := base + c.pos
      let k := min (len - c.pos) (64 - va % 64)
      match s.cmdReach eng c false (va : Int) k with
      | .error f => .stop ((s.setCmd ctx eng c).engFault ctx eng c f false c.pos 0)
      | .ok ps =>
        readSpan ctx eng base len n ((s.cacheAll (engDie eng) c.actx ps).countReqs eng (pieceBeats ps))
          ({ c with row := c.row ++ s.readPieces ps, pos := c.pos + k, beats := c.beats + 1 }.touch (engDie eng) ps)

/-- Bytes written at `base` from byte `bytes` on. -/
def writeSpan (ctx eng base : Nat) : Nat → List Byte → State → CmdSt → Span
  | 0, _, s, c => .done s c
  | n + 1, bs, s, c =>
    if bs.isEmpty then .done s c
    else
      let va := base + c.bytes
      let k := min bs.length (64 - va % 64)
      match s.cmdReach eng c true (va : Int) k with
      | .error f => .stop ((s.setCmd ctx eng c).engFault ctx eng c f true c.bytes 0)
      | .ok ps =>
        let s1 := ((s.cacheAll (engDie eng) c.actx ps).countReqs eng (pieceBeats ps)).writePieces none ps (bs.take k)
        writeSpan ctx eng base n (bs.drop k) s1 ({ c with bytes := c.bytes + k, beats := c.beats + 1 }.touch (engDie eng) ps)

/-- Bytes put into a typed-buffer endpoint from byte `bytes` on; `fin` when they are the command's last. -/
def putSpan (ctx eng : Nat) (e : EndPt) (fin : Bool) (f4 : Nat) : Nat → List Byte → State → CmdSt → Span
  | 0, _, s, c => .done s c
  | n + 1, bs, s, c =>
    if bs.isEmpty then .done s c
    else
      let k := min bs.length (64 - c.bytes % 64)
      match s.putBuf ctx eng c e c.bytes (bs.take k) (fin && bs.length == k) f4 0 with
      | .wait => .wait s c
      | .fault s1 => .stop s1
      | .ok s1 c1 => putSpan ctx eng e fin f4 n (bs.drop k) s1 { c1 with bytes := c.bytes + k }

/-- The bytes of elements of one type as elements of another: each converts as CVT under RNE with default saturation (R65, R202). -/
def cvtBytes (src dst : Ty) (bs : List Byte) : List Byte :=
  if src == dst then bs
  else (elemsAux src.bits (bs.length / (src.bits / 8)) (leNat bs)).flatMap fun e => leBytes (dst.bits / 8) (convElem src dst .rne e)

def CmdSt.endOr (c : CmdSt) : EndPt := c.endPt.getD default
def CmdSt.dbuf (c : CmdSt) : Bool := c.f 5 24 1 == 1
def CmdSt.len (c : CmdSt) : Nat := c.f 3 0 40

/-- Done: its bytes are performed where they were written (R196, R215). -/
def finish (s : State) (ctx eng : Nat) (c : CmdSt) : State := s.setCmd ctx eng { c with phase := .performed }

/-- COPY: the whole source is read, then written (R202). -/
def copySpan (s : State) (ctx eng : Nat) (c : CmdSt) : Span :=
  let sf := (Ty.ofCode (c.f 5 16 4)).getD .raw
  let df := (Ty.ofCode (c.f 5 20 4)).getD .raw
  match readSpan ctx eng (c.f 1 0 57) c.len (c.len / 64 + 2) s c with
  | .done s1 c1 =>
    let out := (cvtBytes sf df c1.row).drop c1.bytes
    let n := out.length / 64 + 2
    if c1.dbuf then putSpan ctx eng c1.endOr true c1.bytes n out s1 c1 else writeSpan ctx eng (c1.f 2 0 57) n out s1 c1
  | r => r

/-- Byte b of FILL takes pattern byte b mod 8 (R202). -/
def fillBytes (pattern : W64) (len : Nat) : List Byte :=
  let p := leBytes 8 pattern.toNat
  (List.range len).map fun b => p.getD (b % 8) 0#8

/-- FILL (R202). -/
def fillSpan (s : State) (ctx eng : Nat) (c : CmdSt) : Span :=
  writeSpan ctx eng (c.f 2 0 57) (c.len / 64 + 2) ((fillBytes (c.w 4) c.len).drop c.bytes) s c

/-- An engine's access of a run of bytes at an exact address: the state after a read with the bytes, or the fault (R202). -/
def State.readRun (s : State) (eng : Nat) (c : CmdSt) (va : Int) (n : Nat) : Except XFault (State × CmdSt × List Byte) :=
  match s.cmdReach eng c false va n with
  | .error f => .error f
  | .ok ps =>
    .ok ((s.cacheAll (engDie eng) c.actx ps).countReqs eng (pieceBeats ps),
      { c with beats := c.beats + (pieceBeats ps).length }.touch (engDie eng) ps, s.readPieces ps)

def State.writeRun (s : State) (eng : Nat) (c : CmdSt) (va : Int) (bs : List Byte) : Except XFault (State × CmdSt) :=
  match s.cmdReach eng c true va bs.length with
  | .error f => .error f
  | .ok ps =>
    .ok (((s.cacheAll (engDie eng) c.actx ps).countReqs eng (pieceBeats ps)).writePieces none ps bs,
      { c with beats := c.beats + (pieceBeats ps).length }.touch (engDie eng) ps)

/-- The row that index i names (R202): x_i and the bytes at its source. The index beats are counted apart (R325). -/
def gatherRow (s : State) (eng : Nat) (c : CmdSt) (i : Nat) (indexed : Bool) : Except XFault (State × CmdSt × Nat × List Byte) :=
  let row := c.f 5 0 16
  match s.readRun eng c ((c.f 4 0 57 + 4 * i : Nat) : Int) 4 with
  | .error f => .error f
  | .ok (s1, c1, ib) =>
    let x := leNat ib
    match s1.readRun eng { c1 with beats := c.beats } ((c.f 1 0 57 + (if indexed then x else i) * row : Nat) : Int) row with
    | .error f => .error f
    | .ok (s2, c2, bs) => .ok (s2, c2, x, bs)

/-- The payload of one row on a port: zero-padded, under OOO with i in lane 7 (R202). -/
def rowPayload (ooo : Bool) (i : Nat) (bs : List Byte) : Payload :=
  if ooo then payOf (bs ++ List.replicate (56 - bs.length) 0#8 ++ leBytes 8 i) else payOf bs

/-- One row of a GATHER (R202). -/
def gatherOne (ctx eng : Nat) (s : State) (c : CmdSt) : Span :=
  let i := c.pos
  let row := c.f 5 0 16
  let got : Except XFault (State × CmdSt × Nat × List Byte) :=
    match tget? c.kept i with
    | some x => .ok (s, c, 0, (payBytes 64 x).take row)
    | none => gatherRow s eng c i true
  match got with
  | .error f => .stop ((s.setCmd ctx eng c).engFault ctx eng c f false i 0)
  | .ok (s1, c1, _, bs) =>
    let e := c1.endOr
    if !c1.dbuf then
      match s1.writeRun eng c1 ((c1.f 2 0 57 + i * row : Nat) : Int) bs with
      | .error f => .stop ((s1.setCmd ctx eng c).engFault ctx eng c f true i 0)
      | .ok (s2, c2) => .done s2 { c2 with pos := i + 1, bytes := c.bytes + row }
    else if e.ekind == 0 then
      match s1.putPorts c1 (c1.first + i) none (rowPayload (c1.f 5 25 1 == 1) i bs) with
      | .wait => .wait s c
      | .fault s2 => .stop s2
      | .ok s2 c2 => .done s2 { c2 with pos := i + 1, bytes := c.bytes + 64, kept := tset c.kept i (payOf bs) }
    else
      match putSpan ctx eng e (i + 1 == c.len) i (row / 64 + 3) (bs.drop (c.bytes - i * row)) s1 c1 with
      | .done s2 c2 => .done s2 { c2 with pos := i + 1 }
      | .wait s2 c2 => .wait s2 { c2 with beats := c.beats }
      | .stop s2 => .stop s2

/-- One row of a SCATTER (R202). -/
def scatterOne (ctx eng : Nat) (s : State) (c : CmdSt) : Span :=
  let i := c.pos
  let row := c.f 5 0 16
  match gatherRow s eng c i false with
  | .error f => .stop ((s.setCmd ctx eng c).engFault ctx eng c f false i 0)
  | .ok (s1, c1, x, bs) =>
    match s1.writeRun eng c1 ((c1.f 2 0 57 + x * row : Nat) : Int) bs with
    | .error f => .stop ((s1.setCmd ctx eng c).engFault ctx eng c f true i 0)
    | .ok (s2, c2) => .done s2 { c2 with pos := i + 1, bytes := c.bytes + row }

/-- Rows (notes/assumptions/49.md) in ascending order of index, under OOO too, until the command is done, waits or stops. DESIGN CHOICE, notes/assumptions/96.md. -/
def rowsRun (one : State → CmdSt → Span) : Nat → State → CmdSt → Span
  | 0, s, c => .done s c
  | n + 1, s, c =>
    if c.len ≤ c.pos then .done s c
    else
      match one s c with
      | .done s1 c1 => rowsRun one n s1 c1
      | r => r

/-- GATHER and SCATTER (R202). -/
def gatherSpan (s : State) (ctx eng : Nat) (c : CmdSt) : Span := rowsRun (gatherOne ctx eng) c.len s c
def scatterSpan (s : State) (ctx eng : Nat) (c : CmdSt) : Span := rowsRun (scatterOne ctx eng) c.len s c

/-- What a CPY command does when its engine advances it. -/
def copyStep (s : State) (ctx eng : Nat) (c : CmdSt) : Span :=
  match c.kind with
  | 1 => copySpan s ctx eng c
  | 2 => gatherSpan s ctx eng c
  | 3 => scatterSpan s ctx eng c
  | _ => fillSpan s ctx eng c

/-- Whether an engine that would advance the command finds its endpoint full, so that nothing of it can be done (R153). -/
def Span.idle (x : Span) (c : CmdSt) : Bool := match x with | .wait _ d => d.pos == c.pos && d.bytes == c.bytes | _ => false

/-- The command advanced; it is performed when its span is done. -/
def copyRun (x : Span) (ctx eng : Nat) : State := x.close ctx eng fun s1 c1 => finish s1 ctx eng { c1 with row := [] }

end Sys2Proof.Machine
end

