-- ==== Sys2Proof/Machine/GroupOps.lean ====
section
/-!
DEFINITION. What the collective commands ALLRED, ALLGATH, REDSCAT, XSEND and XRECV do (R70, R203–R205, R394). A collective begins in the step that finds
every member's matching command started: every source is read, and each member keeps what it is to write. Where a group spans parts, the members' parts
tell one another which commands have started and send their sources and the word that a transfer is done (notes/assumptions/52.md).
-/
namespace Sys2Proof.Machine

def CmdSt.colKind (c : CmdSt) : Nat := c.kind
def CmdSt.colGroup (c : CmdSt) : Nat := c.f 4 0 16
def CmdSt.colN (c : CmdSt) : Nat := c.f 3 0 40
def CmdSt.colTy (c : CmdSt) : Ty := (colFmt (c.f 3 40 4)).getD .n32
def CmdSt.colOp (c : CmdSt) : Nat := c.f 3 44 3
def CmdSt.colPeer (c : CmdSt) : Nat := c.f 4 16 16
def CmdSt.colTag (c : CmdSt) : Nat := c.f 4 32 16
def begun (c : CmdSt) : Bool := c.mark / 8 % 2 == 1
def CmdSt.markBegun (c : CmdSt) (bs : List Byte) : CmdSt := { c with row := bs, pos := 0, bytes := 0, mark := if begun c then c.mark else c.mark + 8 }
/-- Whether the group's other parts have been told that the command has started, and whether its source has been sent to them. -/
def announced (c : CmdSt) : Bool := c.mark / 16 % 2 == 1
def sentOff (c : CmdSt) : Bool := c.mark / 32 % 2 == 1

/-- A member of a group: part, region and canonical index (R292, R394). -/
abbrev Member := Nat × Nat × Nat

/-- The oldest command of a member of this part that has started, has not begun and passes a test, with its engine; none while that
command is not there or is stopped (R204, R205). -/
def State.memberCmd (s : State) (ctx : Nat) (m : Member) (p : CmdSt → Bool) : Option (Nat × CmdSt) :=
  let found := (s.ctx ctx).queues.findSome? fun (e, q) =>
    if e / 8 % 4 != 1 then none
    else (q.started.find? fun c =>
      (c.phase == .started || c.phase == .stopped) && !begun c && !s.stale c && c.region == m.2.1 && c.canon == m.2.2 && p c).map fun c => (e, c)
  found.bind fun x => if x.2.phase == .started then some x else none

/-! Between parts (R390, R393, R394). -/

/-- The link on the route toward a part, when it is up (R393). -/
def State.routeLink (s : State) (part : Nat) : Option Nat :=
  let r := tget 0 s.spanroute part
  if r / 16 % 2 == 1 && (s.link (r % 16)).up then some (r % 16) else none

/-- Beats cut into flits of at most n (R390). -/
def cutFlits (n : Nat) : Nat → List Payload → List (List Payload)
  | 0, _ => []
  | k + 1, bs => if bs.isEmpty then [] else bs.take n :: cutFlits n k (bs.drop n)

/-- Bytes as beats, the last filled with zeros (R10). -/
def bytesBeats (bs : List Byte) : List Payload := (List.range (ceilDiv bs.length 64)).map fun i => payOf ((bs.drop (64 * i)).take 64)

/-- Flits of a channel for a region of another part, waiting for the link of its route; without a valid route they are dropped, and counted at the link
that the route register names (R390, R393, R394). DEDUCED, notes/assumptions/52.md. -/
def State.linkSend (s : State) (vc partition part region : Nat) (fs : List (List Payload)) : State :=
  match s.routeLink part with
  | none => let k := tget 0 s.spanroute part % 16; s.setLink k { s.link k with dropped := (s.link k).dropped + fs.length }
  | some k => s.setLink k { s.link k with todo := (s.link k).todo ++ fs.map fun b => (⟨0, vc, partition, part + region * 16, b, 0⟩ : TxFlit) }

/-- What a member of another part has sent: its rank, the kind of message (0 a command has started, 1 bytes of its source, 2 its transfer is done), the
command's kind, W3 and W4, its number there, and the bytes. -/
structure Msg where
  rank : Nat
  typ : Nat
  kind : Nat
  w3 : W64
  w4 : W64
  uid : Nat
  data : List Payload
deriving DecidableEq, Repr, Inhabited

/-- The flits of a message: each starts with its head (notes/assumptions/52.md). -/
def Msg.flits (m : Msg) : List (List Payload) :=
  let head := lanes64 [m.rank + m.typ * 2 ^ 32 + m.kind * 2 ^ 40, m.w3.toNat, m.w4.toNat, m.uid]
  if m.data.isEmpty then [[head]] else (cutFlits 3 m.data.length m.data).map fun bs => head :: bs

def RxFlit.msg (f : RxFlit) : Msg :=
  let h := f.beats.headD 0#512
  let x := lane64 h 0
  ⟨x % 2 ^ 32, x / 2 ^ 32 % 2 ^ 8, x / 2 ^ 40 % 2 ^ 8, BitVec.ofNat 64 (lane64 h 1), BitVec.ofNat 64 (lane64 h 2), lane64 h 3, f.beats.drop 1⟩

/-- Whether a delivered flit is a collective's for a context: of channel COL, or FWD after a hop, of the context's partition, to a region of its (R373). -/
def State.forCtx (s : State) (ctx : Nat) (f : RxFlit) : Bool :=
  (f.vc == 0 || f.vc == 3) && f.partition == (s.ctx ctx).part && (s.region f.region).ctx == ctx && !f.beats.isEmpty

def State.msgs (s : State) (ctx : Nat) : List Msg := (s.links.flatMap fun (_, l) => l.got.filter (s.forCtx ctx)).map RxFlit.msg

/-- Messages taken. -/
def State.takeMsgs (s : State) (ctx : Nat) (p : Msg → Bool) : State :=
  { s with links := s.links.map fun (k, l) => (k, { l with got := l.got.filter fun f => !(s.forCtx ctx f && p f.msg) }) }

def Msg.group (m : Msg) : Nat := bitsNat m.w4 0 16
def Msg.peer (m : Msg) : Nat := bitsNat m.w4 16 16
def Msg.tag (m : Msg) : Nat := bitsNat m.w4 32 16

/-- The oldest command, not yet matched, that the member of a rank on another part has started and that passes a test. -/
def State.remoteCmd (s : State) (ctx group rank : Nat) (p : Msg → Bool) : Option Msg :=
  (s.msgs ctx).find? fun m => m.typ == 0 && m.rank == rank && m.group == group && p m

/-- n bytes that have come of a remote command's source; none while they are not all there. -/
def State.remoteBytes (s : State) (ctx : Nat) (r : Msg) (n : Nat) : Option (List Byte) :=
  let bs := ((s.msgs ctx).filter fun m => m.typ == 1 && m.rank == r.rank && m.group == r.group && m.uid == r.uid).flatMap fun m => m.data
  if bs.length < ceilDiv n 64 then none else some ((bs.flatMap (payBytes 64)).take n)

/-- A message to a part, about a command of the member of a rank. -/
def State.tell (s : State) (ctx rank : Nat) (c : CmdSt) (typ uid : Nat) (data : List Payload) (to_ : Nat × Nat) : State :=
  s.linkSend 0 (s.ctx ctx).part to_.1 to_.2 (Msg.flits ⟨rank, typ, c.colKind, c.w 3, c.w 4, uid, data⟩)

/-- The other parts of a group, each with the region of its first member there (R394). DEDUCED, notes/assumptions/52.md. -/
def otherParts (partid : Nat) (ms : List Member) : List (Nat × Nat) :=
  ms.foldl (fun ps m => if m.1 == partid || ps.any (fun p => p.1 == m.1) then ps else ps ++ [(m.1, m.2.1)]) []

/-- The start of a command told to some parts. -/
def State.announce (s : State) (ctx eng rank : Nat) (c : CmdSt) (parts : List (Nat × Nat)) : State :=
  parts.foldl (fun s p => s.tell ctx rank c 0 c.uid [] p) (s.setCmd ctx eng { c with mark := c.mark + 16 })

/-! ALLRED, ALLGATH and REDSCAT (R204). -/

/-- Sources read, in order of rank: those of this part's members, each read on from where its command stands (R354), until one stops. -/
inductive Sources where
  | all (s : State) (cs : List (Nat × CmdSt))
  | stop (s : State)
deriving DecidableEq, Repr, Inhabited

def readSources (ctx n : Nat) : State → List (Nat × CmdSt) → Sources
  | s, [] => .all s []
  | s, (e, c) :: rest =>
    match readSpan ctx e (c.f 1 0 57) n (n / 64 + 2) s c with
    | .wait s1 _ | .stop s1 => .stop s1
    | .done s1 c1 =>
      match readSources ctx n (s1.setCmd ctx e c1) rest with
      | .all s2 cs => .all s2 ((e, c1) :: cs)
      | r => r

/-- The pairwise tree over ranks: one operand to a part, an empty part leaving the other unchanged (R70, R204). The header's split has no say in it.
DESIGN CHOICE, notes/assumptions/97.md. -/
def rankTree (t : Ty) (op : Nat) (xs : List Nat) : Nat :=
  let split := ((List.range 16).find? fun k => xs.length ≤ 2 ^ k).getD 16
  (splitRed (redOp t op .rne) (fun ys => ys.headD 0) split xs).getD 0

/-- What the member of rank r writes (R204): kind 1 ALLRED, 2 ALLGATH, 3 REDSCAT. -/
def colResult (kind : Nat) (t : Ty) (op n : Nat) (srcs : List (List Byte)) (r : Nat) : List Byte :=
  let w := t.bits / 8
  let es := srcs.map fun bs => elemsAux t.bits (bs.length / w) (leNat bs)
  let red (base : Nat) := ((List.range n).map fun e => rankTree t op (es.map fun x => x.getD (base + e) 0)).flatMap (leBytes w)
  match kind with
  | 1 => red 0
  | 2 => srcs.flatMap id
  | _ => red (r * n)

/-- Bytes of one member's source. -/
def colSrcLen (c : CmdSt) (members : Nat) : Nat := c.colTy.bits / 8 * c.colN * (if c.colKind == 3 then members else 1)

/-- Every matching command completed REFUSED: nothing written, no signal (R204, R205). -/
def refuseAll (s : State) (ctx : Nat) (cs : List (Nat × CmdSt)) : State :=
  cs.foldl (fun s (e, c) => s.setCmd ctx e { c with phase := .refused, reason := 0 }) s

/-- A member's matching command: of this part, with its engine, or of another, as told. -/
inductive Match1 where
  | here (eng : Nat) (c : CmdSt)
  | there (m : Msg)
deriving DecidableEq, Repr, Inhabited

/-- What the members' commands must agree in: kind, and n, fmt and op, which are W3 (R204). -/
def Match1.key (x : Match1) : Nat × W64 := match x with | .here _ c => (c.colKind, c.w 3) | .there m => (m.kind, m.w3)
def Match1.cmd? (x : Match1) : Option (Nat × CmdSt) := match x with | .here e c => some (e, c) | .there _ => none
def Match1.msg? (x : Match1) : Option Msg := match x with | .here _ _ => none | .there m => some m

/-- The member of rank r and its matching command, when it has started; one of this part must have told the others. -/
def State.matching (s : State) (ctx group : Nat) (tell : Bool) (m : Member) (r : Nat) : Option Match1 :=
  if m.1 == s.partid then
    (s.memberCmd ctx m fun d => d.colKind ≤ 3 && d.colGroup == group).bind fun (e, d) => if tell && !announced d then none else some (.here e d)
  else (s.remoteCmd ctx group r fun m => decide (m.kind ≤ 3)).map .there

/-- All matching commands, by rank; none while one is missing. -/
def State.matchAll (s : State) (ctx group : Nat) (tell : Bool) : List (Member × Nat) → Option (List Match1)
  | [] => some []
  | (m, r) :: rest => (s.matching ctx group tell m r).bind fun x => (s.matchAll ctx group tell rest).map (x :: ·)

/-- The messages about some commands are spent. -/
def State.spend (s : State) (ctx group : Nat) (xs : List Msg) : State :=
  s.takeMsgs ctx fun m => m.group == group && xs.any fun x => x.rank == m.rank && x.uid == m.uid && m.typ ≤ 1

/-- The source of every member, once all are there: those of this part stand in their commands. -/
def State.sourcesOf (s : State) (ctx n : Nat) : List Match1 → Option (List (List Byte))
  | [] => some []
  | x :: xs =>
    (match x with | .here _ c => some c.row | .there m => s.remoteBytes ctx m n).bind fun bs => (s.sourcesOf ctx n xs).map (bs :: ·)

/-- Beginning a collective (R204); none while a member's command, or a source from another part, is missing. DEDUCED, notes/assumptions/53.md. -/
def colBegin (s : State) (ctx : Nat) (c : CmdSt) (ms : List Member) : Option State :=
  let parts := otherParts s.partid ms
  let n := colSrcLen c ms.length
  (s.matchAll ctx c.colGroup (!parts.isEmpty) (ms.zip (List.range ms.length))).bind fun xs =>
    let mine := xs.filterMap Match1.cmd?
    let theirs := xs.filterMap Match1.msg?
    if xs.any fun x => x.key != (c.colKind, c.w 3) then some (refuseAll (s.spend ctx c.colGroup theirs) ctx mine)
    else if mine.any fun (_, d) => d.pos < n then some (match readSources ctx n s mine with | .all s1 _ | .stop s1 => s1)
    else if !parts.isEmpty && mine.any fun (_, d) => !sentOff d then
      some ((xs.zip (List.range xs.length)).foldl (fun s (x, r) =>
        match x with
        | .here e d =>
          if sentOff d then s
          else parts.foldl (fun s p => s.tell ctx r d 1 d.uid (bytesBeats d.row) p) (s.setCmd ctx e { d with mark := d.mark + 32 })
        | .there _ => s) s)
    else
      (s.sourcesOf ctx n xs).map fun srcs =>
        (xs.zip (List.range xs.length)).foldl (fun s (x, r) =>
          match x with
          | .here e d => s.setCmd ctx e (d.markBegun (colResult c.colKind c.colTy c.colOp c.colN srcs r))
          | .there _ => s) (s.spend ctx c.colGroup theirs)

/-- A member writes its own destination, and its command is performed (R204, R205). -/
def colWrite (s : State) (ctx eng : Nat) (c : CmdSt) (elems : Nat) : Span :=
  match writeSpan ctx eng (c.f 2 0 57) (c.row.length / 64 + 2) (c.row.drop c.bytes) s c with
  | .done s1 c1 =>
    let c2 := { c1 with phase := .performed, lanes := [elems], row := [] }
    .done (s1.setCmd ctx eng c2) c2
  | r => r

/-- One step of ALLRED, ALLGATH or REDSCAT; none while it waits for another member. -/
def groupStep (s : State) (ctx eng : Nat) (c : CmdSt) : Option State :=
  (groupMembers s ctx c.actx c.colGroup).bind fun ms =>
    if begun c then some ((colWrite s ctx eng c (c.colN * (if c.colKind == 2 then ms.length else 1))).close ctx eng fun s _ => s)
    else
      let parts := otherParts s.partid ms
      if !parts.isEmpty && !announced c then some (s.announce ctx eng ((rankOf s c ms).getD 0) c parts) else colBegin s ctx c ms

/-! XSEND and XRECV (R205). -/

/-- Bytes that a matched pair moves. -/
def xferLen (c : CmdSt) : Nat := c.colTy.bits / 8 * c.colN

/-- The command of a member that the transfer in question takes: the oldest of its kind, peer and tag. -/
def State.xferCmd (s : State) (ctx : Nat) (m : Member) (kind group peer tag : Nat) : Option (Nat × CmdSt) :=
  s.memberCmd ctx m fun d => d.colKind == kind && d.colGroup == group && d.colPeer == peer && d.colTag == tag

/-- Beginning the transfer of a matched pair of this part, the source read by the sender. -/
def xferBegin (s : State) (ctx : Nat) (snd rcv : Nat × CmdSt) : State :=
  if snd.2.w 3 != rcv.2.w 3 then refuseAll s ctx [snd, rcv]
  else
    match readSources ctx (xferLen snd.2) s [snd] with
    | .all s1 [(e, c1)] => (s1.setCmd ctx e { (c1.markBegun []) with acq := [rcv.2.uid] }).setCmd ctx rcv.1 { (rcv.2.markBegun c1.row) with acq := [snd.2.uid] }
    | .all s1 _ | .stop s1 => s1

/-- The sender of a received transfer is performed with it. -/
def sendPerformed (s : State) (ctx uid elems : Nat) : State :=
  match (s.ctx ctx).engineOf uid with
  | none => s
  | some e =>
    match s.startedOf ctx e uid with
    | some d => s.setCmd ctx e { d with phase := .performed, lanes := [elems] }
    | none => s

/-- An XSEND to a member of another part: it matches the XRECV told, sends its source, and is performed when the receiver has written it (R205, R394). -/
def sendAway (s : State) (ctx eng me : Nat) (c : CmdSt) (m : Member) : Option State :=
  let said (x : Msg) : Bool := x.typ == 2 && x.rank == c.colPeer && x.group == c.colGroup && x.uid == c.uid
  if begun c then
    (if (s.msgs ctx).any said then some ((s.takeMsgs ctx said).setCmd ctx eng { c with phase := .performed, lanes := [c.colN] }) else none)
  else if !announced c then some (s.announce ctx eng me c [(m.1, m.2.1)])
  else
    (s.remoteCmd ctx c.colGroup c.colPeer fun x => x.kind == 5 && x.peer == me && x.tag == c.colTag).bind fun r =>
      if (s.xferCmd ctx (s.partid, c.region, c.canon) 4 c.colGroup c.colPeer c.colTag).map (·.2.uid) != some c.uid then none
      else if r.w3 != c.w 3 then some (refuseAll (s.spend ctx c.colGroup [r]) ctx [(eng, c)])
      else
        some (match readSources ctx (xferLen c) s [(eng, c)] with
          | .all s1 [(e, c1)] =>
            ((s1.spend ctx c.colGroup [r]).setCmd ctx e (c1.markBegun [])).tell ctx me c1 1 c1.uid (bytesBeats c1.row) (m.1, m.2.1)
          | .all s1 _ | .stop s1 => s1)

/-- An XRECV from a member of another part: it takes the bytes that the matching XSEND's part sends, writes them and says so (R205, R394). -/
def recvAway (s : State) (ctx eng me : Nat) (c : CmdSt) (m : Member) : Option State :=
  if begun c then
    some ((colWrite s ctx eng c c.colN).close ctx eng fun s1 c1 => c1.acq.foldl (fun s u => s.tell ctx me c1 2 u [] (m.1, m.2.1)) s1)
  else if !announced c then some (s.announce ctx eng me c [(m.1, m.2.1)])
  else
    (s.remoteCmd ctx c.colGroup c.colPeer fun x => x.kind == 4 && x.peer == me && x.tag == c.colTag).bind fun r =>
      if (s.xferCmd ctx (s.partid, c.region, c.canon) 5 c.colGroup c.colPeer c.colTag).map (·.2.uid) != some c.uid then none
      else if r.w3 != c.w 3 then some (refuseAll (s.spend ctx c.colGroup [r]) ctx [(eng, c)])
      else
        (s.remoteBytes ctx r (xferLen c)).map fun bs => (s.spend ctx c.colGroup [r]).setCmd ctx eng { (c.markBegun bs) with acq := [r.uid] }

/-- One step of XSEND or XRECV; none while it waits for its partner. -/
def xferStep (s : State) (ctx eng : Nat) (c : CmdSt) : Option State :=
  (groupMembers s ctx c.actx c.colGroup).bind fun ms =>
    match rankOf s c ms, ms[c.colPeer]? with
    | some me, some m =>
      if m.1 != s.partid then (if c.colKind == 4 then sendAway s ctx eng me c m else recvAway s ctx eng me c m)
      else if begun c then
        (if c.colKind == 4 then none
         else some ((colWrite s ctx eng c c.colN).close ctx eng fun s1 _ => c.acq.foldl (fun s u => sendPerformed s ctx u c.colN) s1))
      else
        let self : Member := (s.partid, c.region, c.canon)
        let (a, b, sender, receiver) := if c.colKind == 4 then (me, c.colPeer, self, m) else (c.colPeer, me, m, self)
        match s.xferCmd ctx sender 4 c.colGroup b c.colTag, s.xferCmd ctx receiver 5 c.colGroup a c.colTag with
        | some snd, some rcv => some (xferBegin s ctx snd rcv)
        | _, _ => none
    | _, _ => none

/-- What a COL command does when its engine advances it; none while it waits. -/
def colStep (s : State) (ctx eng : Nat) (c : CmdSt) : Option State := if c.kind ≤ 3 then groupStep s ctx eng c else xferStep s ctx eng c

end Sys2Proof.Machine
end

