-- ==== Sys2Proof/Machine/Agents.lean ====
section
/-!
DEFINITION. What the migration agents of two parts send each other (R382, R383): images and notices sealed by AES-GCM-256 under the key of their
session, whose key stream and tag are uninterpreted (notes/assumptions/43.md).
-/
namespace Sys2Proof.Machine

def State.session (s : State) (peer : Nat) : Option (BitVec 256) := tget? s.sessions peer

/-- The nonce of one sequence of flits, from the part that sends it: image `no`, or the notice of it. -/
def nonceOf (part : Nat) (notice : Bool) (no : Nat) : Nat := no * 32 + boolNat notice * 16 + part

def crypt (key : BitVec 256) (nonce : Nat) (bs : List Payload) : List Payload :=
  (bs.zip (List.range bs.length)).map fun (b, i) => b ^^^ Config.gcmStream key nonce i

/-- Beats encrypted, and the beat that holds their tag. -/
def sealBeats (key : BitVec 256) (nonce : Nat) (bs : List Payload) : List Payload × Payload :=
  let cs := crypt key nonce bs
  (cs, (Config.gcmTag key nonce cs).setWidth 512)

/-- Beats decrypted, the last of them the tag; none where it fails. -/
def openBeats (key : BitVec 256) (nonce : Nat) (bs : List Payload) : Option (List Payload) :=
  let cs := bs.dropLast
  if bs.getLast? == some ((Config.gcmTag key nonce cs).setWidth 512) then some (crypt key nonce cs) else none

/-- MIGOUT has written an image: the source agent has it to send, in place of an earlier one of the slot. -/
def State.depart (s : State) (no ctx slot image beats : Nat) : State :=
  { s with departures := (s.departures.filter fun d => !(d.ctx == ctx && d.slot == slot)) ++ [⟨no, ctx, slot, image, beats, none⟩] }

/-- An image as its agent reads it, DETREV placed in its header. DEDUCED, notes/assumptions/57.md. -/
def State.imageOf (s : State) (d : Departure) : Except XFault (State × List Payload) :=
  let die := Config.dieOf agentTile
  match s.engWrite die (some d.ctx) false (d.image + 56) (leBytes 8 detrev) with
  | .error f => .error f
  | .ok s1 => (s1.engRead die (some d.ctx) false d.image (64 * d.beats)).map fun (bs, s2) => (s2, bytesBeats bs)

/-- Flits put on a link's own channel toward its peer. -/
def State.linkQueue (s : State) (k vc partition : Nat) (fs : List (Nat × List Payload)) : State :=
  let l := s.link k
  s.setLink k { l with todo := l.todo ++ fs.map fun (region, b) => (⟨0, vc, partition, l.peer + region * 16, b, 0⟩ : TxFlit) }

/-- The source agent's turn on a link: the oldest image not yet sent goes to the link's peer, sealed, if the agents have a session. A fault of the agent's
own accesses halts the control region (R297). -/
def State.sendImage (s : State) (k : Nat) : State :=
  let p := (s.link k).peer
  match s.departures.find? (·.peer.isNone), s.session p with
  | some d, some key =>
    if s.ctlHalt then s
    else
      match s.imageOf d with
      | .error _ => { s with ctlHalt := true }
      | .ok (s1, bs) =>
        let (cs, tag) := sealBeats key (nonceOf s.partid false d.no) bs
        let sent (x : Departure) : Departure := if x.no == d.no then { x with peer := some p } else x
        let s2 := { s1 with departures := s1.departures.map sent }
        s2.linkQueue k 1 (s.ctx d.ctx).part ((cutFlits 4 cs.length cs).map (2 * d.no, ·) ++ [(2 * d.no + 1, [tag])])
  | _, _ => s

/-- MIGIN of an arrival is done: the destination agent notifies the source agent, on channel CTRL. -/
def State.notifySource (s : State) (uid ctx : Nat) : State :=
  match s.arrivals.find? (·.uid == uid) with
  | none => s
  | some a =>
    let s1 := { s with arrivals := s.arrivals.filter (·.uid != uid) }
    match s.session a.peer with
    | none => s1
    | some key =>
      let (cs, tag) := sealBeats key (nonceOf s.partid true a.no) [lanes64 [a.no]]
      s1.linkSend 2 (s.ctx ctx).part a.peer a.no [cs ++ [tag]]

end Sys2Proof.Machine
end

