-- ==== Sys2Proof/Machine/Atomic.lean ====
section
/-!
DEFINITION. Commands that a unit applies at once or not at all (R259, R354): the run of such a command, and what the KVP and SQE unit
reads and writes: sequence-table slots, pools, page lists, KV page tables, sequence areas, egress entries (R261–R263, R269, R275,
R341, R342).
-/
namespace Sys2Proof.Machine

/-- A command being applied. -/
structure EngSt where
  s : State
  ctx : Nat
  eng : Nat
  c : CmdSt
deriving DecidableEq, Repr, Inhabited

/-- Why a command is not applied: a fault of an access, KV_COW or KV_REFOVF, a refusal with its reason, a refusal with CFG_CMD, or a wait. -/
inductive EngStop where
  | fault (x : XFault) (write : Bool)
  | kv (cls f6 f7 : Nat)
  | refuse (reason : Nat)
  | cfg
  | wait
deriving DecidableEq, Repr, Inhabited

abbrev EngM := StateT EngSt (Except EngStop)

/-- Reasons of R259. -/
def rsnState : Nat := 1
def rsnReserve : Nat := 2
def rsnNoPage : Nat := 3
def rsnCapacity : Nat := 4
def rsnPosition : Nat := 5
def rsnHash : Nat := 6
def rsnMalformed : Nat := 7
def rsnIdentity : Nat := 8
def rsnEmpty : Nat := 9
def rsnChain : Nat := 10
def rsnRingFull : Nat := 11
def rsnEgressed : Nat := 12

def stopWith {α : Type} (e : EngStop) : EngM α := fun _ => .error e
def refuse {α : Type} (r : Nat) : EngM α := stopWith (.refuse r)
/-- Refused with a reason when the condition holds. -/
def refuseIf (b : Bool) (r : Nat) : EngM Unit := if b then refuse r else pure ()
/-- Refused with CFG_CMD when the condition holds (R193, R259). -/
def cfgIf (b : Bool) : EngM Unit := if b then stopWith .cfg else pure ()

/-- n bytes at a virtual address, as performed at DEVICE scope (R196, R342). -/
def emRead (va n : Nat) : EngM (List Byte) := fun t =>
  match t.s.cmdReach t.eng t.c false (va : Int) n with
  | .error f => .error (.fault f false)
  | .ok ps => .ok (t.s.readPieces ps, { t with s := t.s.cacheAll (engDie t.eng) t.c.actx ps, c := t.c.touch (engDie t.eng) ps })

def emNat (va n : Nat) : EngM Nat := do return leNat (← emRead va n)

/-- Bytes written at a virtual address. `table` marks the KV page table, which is mapped without W for user contexts and which the unit
writes all the same (R341, R342: notes/assumptions/26.md). -/
def emPut (table : Bool) (va : Nat) (bs : List Byte) : EngM Unit := fun t =>
  match t.s.cmdReach t.eng t.c (!table) (va : Int) bs.length with
  | .error f => .error (.fault f true)
  | .ok ps =>
    .ok ((), { t with s := (t.s.cacheAll (engDie t.eng) t.c.actx ps).writePieces none ps bs, c := t.c.touch (engDie t.eng) ps })

def emWrite (va : Nat) (bs : List Byte) : EngM Unit := emPut false va bs
def emWriteNat (va n v : Nat) : EngM Unit := emWrite va (leBytes n v)

/-- Beats counted toward B (R325). -/
def emTick (n : Nat) : EngM Unit := fun t => .ok ((), { t with c := { t.c with beats := t.c.beats + n } })

def emCtx : EngM Ctx := fun t => .ok (t.s.ctx t.ctx, t)
def emState : EngM State := fun t => .ok (t.s, t)
def emSet (s : State) : EngM Unit := fun t => .ok ((), { t with s := s })
def emCmd : EngM CmdSt := fun t => .ok (t.c, t)
def emSetCmd (c : CmdSt) : EngM Unit := fun t => .ok ((), { t with c := c })
/-- Completion lanes 2 and up. -/
def emLanes (xs : List Nat) : EngM Unit := fun t => .ok ((), { t with c := { t.c with lanes := xs } })

/-- How a refused command leaves: its completion beat is still owed, the instants of its endpoint are not (R152, R197, R259). -/
def State.unitRefuse (s : State) (ctx eng : Nat) (c : CmdSt) (reason : Nat) : State :=
  (s.withdraw c).setCmd ctx eng { c with phase := .refused, reason := reason, beats := c.beats }

/-- The outcome of a command's application. -/
def State.settle (s : State) (ctx eng : Nat) (c : CmdSt) (x : EngStop) : State :=
  match x with
  | .fault f w => s.engFault ctx eng c f w 0 0
  | .kv cls f6 f7 =>
    s.raise { s.engFlt ctx eng c with cls := cls, resumable := cls == 0x0F, f6 := f6, f7 := f7, agent := .unit ctx eng c.uid }
  | .refuse r => s.unitRefuse ctx eng c r
  | .cfg => (s.refuseRecord ctx eng c .cmd).unitRefuse ctx eng c 0
  | .wait => s

/-- A command applied at once, or not at all (R259, R354). DEDUCED, notes/assumptions/84.md. -/
def applyCmd (s : State) (ctx eng : Nat) (c : CmdSt) (m : EngM Unit) : State :=
  match m { s := s, ctx := ctx, eng := eng, c := { c with beats := 0, delay := 0, host := false } } with
  | .ok (_, t) => t.s.setCmd ctx eng { t.c with phase := .performed }
  | .error x => s.settle ctx eng c x

/-! Slots of the sequence table (R261). -/

/-- A slot's words. -/
abbrev SeqSlot := List Nat

def qf (q : List Nat) (w lo n : Nat) : Nat := q.getD w 0 / 2 ^ lo % 2 ^ n
def qset (q : List Nat) (w lo n v : Nat) : List Nat :=
  let x := q.getD w 0
  lset q w (x - (x / 2 ^ lo % 2 ^ n) * 2 ^ lo + v % 2 ^ n * 2 ^ lo)

def seqState (q : SeqSlot) : Nat := qf q 0 0 2
def seqRetpend (q : SeqSlot) : Bool := qf q 0 2 1 == 1
def seqBranch (q : SeqSlot) : Bool := qf q 0 3 1 == 1
def seqOrigin (q : SeqSlot) : Nat := qf q 0 4 12
def seqLength (q : SeqSlot) : Nat := qf q 1 0 32
/-- remain, or the fork length of a branch. -/
def seqFork (q : SeqSlot) : Nat := qf q 1 32 32
def seqPlist (q : SeqSlot) : Nat := qf q 2 0 57
def seqPool (q : SeqSlot) : Nat := qf q 2 57 4
def seqArea (q : SeqSlot) : Nat := qf q 3 0 57
def seqTail (q : SeqSlot) : Nat := qf q 4 0 32
def seqSpill (q : SeqSlot) : Nat := qf q 4 32 32
def seqChain (q : SeqSlot) : Nat := qf q 5 0 57
def seqKey (q : SeqSlot) : Nat := q.getD 6 0
def seqEgress (q : SeqSlot) : Nat := qf q 7 0 16
def seqCap (q : SeqSlot) : Nat := qf q 7 20 24
def seqScap (q : SeqSlot) : Nat := qf q 7 44 20

def wordsAt (bs : List Byte) (n : Nat) : List Nat := elemsAux 64 n (leNat bs)

def getSlot (i : Nat) : EngM SeqSlot := do
  let x ← emCtx
  emTick 1
  return wordsAt (← emRead (x.seqbase + 64 * i) 64) 8

def putSlot (i : Nat) (q : SeqSlot) : EngM Unit := do
  let x ← emCtx
  emTick 1
  emWrite (x.seqbase + 64 * i) (q.flatMap (leBytes 8))

/-! Pools and pages (R269, R341, R342). -/

structure Pool where
  k : Nat
  va : Nat
  ptab : Nat
  pp : Nat
  ppCode : Nat
  frames : Nat
  pages : Nat
  pbytes : Nat
  reserve : Nat
  flist : Nat
deriving DecidableEq, Repr, Inhabited

/-- A pool's descriptor; every command on an unusable one is refused with CFG_CMD (R269). -/
def getPool (k : Nat) : EngM Pool := do
  let x ← emCtx
  cfgIf (x.pooltab == 0)
  let va := x.pooltab + 64 * k
  emTick 1
  let d := wordsAt (← emRead va 64) 8
  let pbytes := qf d 2 32 32
  cfgIf (pbytes == 0 || pbytes % 64 != 0)
  return { k := k, va := va, ptab := qf d 0 0 57, pp := 8 * 2 ^ qf d 0 57 2, ppCode := qf d 0 57 2, frames := qf d 1 0 57, pages := qf d 2 0 32,
           pbytes := pbytes, reserve := qf d 3 32 32, flist := qf d 4 0 57 }

def poolFree (p : Pool) : EngM Nat := emNat (p.va + 24) 4
def putFree (p : Pool) (n : Nat) : EngM Unit := emWriteNat (p.va + 24) 4 n
def frameOf (p : Pool) (page : Nat) : Nat := p.frames + page * p.pp * p.pbytes

/-- KVENT: an entry that breaks R341, or a page number beyond the pool (R342). -/
def kvent {α : Type} (va page : Nat) : EngM α := stopWith (.fault ⟨3, 0x16, va % 2 ^ 57, 0, page⟩ false)

structure PageEnt where
  refs : Nat
  fill : Nat
  copy : Bool
deriving DecidableEq, Repr, Inhabited

/-- The KV page-table entry of a page, checked; `va` is where its number was found. -/
def getEnt (p : Pool) (va page : Nat) : EngM PageEnt := do
  if p.pages ≤ page then kvent va page
  else
    let a := p.ptab + 8 * page
    emTick 1
    let e ← emNat a 8
    let refs := e % 2 ^ 16
    let fill := e / 2 ^ 16 % 2 ^ 7
    if p.pp < fill || e / 2 ^ 23 % 2 == 1 || (e / 2 ^ 24 % 2 == 1) != (refs != 0) || e / 2 ^ 26 % 2 ^ 6 != 0 || e / 2 ^ 32 != page then
      kvent a (e / 2 ^ 32)
    else return { refs := refs, fill := fill, copy := e / 2 ^ 25 % 2 == 1 }

def putEnt (p : Pool) (page : Nat) (e : PageEnt) : EngM Unit := do
  emTick 1
  emPut true (p.ptab + 8 * page)
    (leBytes 8 (e.refs + e.fill * 2 ^ 16 + boolNat (e.refs != 0) * 2 ^ 24 + boolNat e.copy * 2 ^ 25 + page * 2 ^ 32))

/-- Allocation: the top of the free stack, with the given entry (R269, R342). -/
def allocPage (p : Pool) (e : PageEnt) : EngM Nat := do
  let n ← poolFree p
  if n = 0 then refuse rsnNoPage
  else
    let a := p.flist + 4 * (n - 1)
    emTick 1
    let page ← emNat a 4
    let _ ← getEnt p a page
    putEnt p page e
    putFree p (n - 1)
    return page

/-- A reference dropped; whether the page went back to the stack (R269, R342). -/
def dropPage (p : Pool) (va page : Nat) : EngM Bool := do
  let e ← getEnt p va page
  if e.refs = 0 then kvent va page
  else
    putEnt p page { e with refs := e.refs - 1 }
    if e.refs = 1 then
      let n ← poolFree p
      emTick 1
      emWriteNat (p.flist + 4 * n) 4 page
      putFree p (n + 1)
      return true
    else return false

/-! Page lists (R261). -/

/-- Count and capacity. -/
def listHead (l : Nat) : EngM (Nat × Nat) := do
  let w ← emNat l 8
  return (w % 2 ^ 32, w / 2 ^ 32)

def entAt (l j : Nat) : Nat := l + 64 + 4 * j
def listGet (l j : Nat) : EngM Nat := do
  emTick 1
  emNat (entAt l j) 4
def listSet (l j page : Nat) : EngM Unit := do
  emTick 1
  emWriteNat (entAt l j) 4 page
def listCount (l n : Nat) : EngM Unit := emWriteNat l 4 n

/-- Entries of a list dropped, from j on, n of them; how many pages went back. -/
def dropRange (p : Pool) (l j n : Nat) : EngM Nat :=
  (List.range n).foldlM (fun acc i => do
    let page ← listGet l (j + i)
    let b ← dropPage p (entAt l (j + i)) page
    return acc + boolNat b) 0

/-- The fill of the last of n pages for a length, when its count is 1 (R270, R273). -/
def setLastFill (p : Pool) (l n len : Nat) : EngM Unit := do
  if n = 0 then return ()
  else
    let page ← listGet l (n - 1)
    let e ← getEnt p (entAt l (n - 1)) page
    if e.refs = 1 then putEnt p page { e with fill := len - (n - 1) * p.pp } else return ()

/-! Sequence areas (R262, R263). -/

def recAt (area p : Nat) : Nat := area + 64 + 32 * p
def spillAt (area cap q : Nat) : Nat := area + 64 + 32 * cap + 64 * q

def getRec (area p : Nat) : EngM (List Byte) := do
  emTick 1
  emRead (recAt area p) 32
def putRec (area p : Nat) (r : List Byte) : EngM Unit := do
  emTick 1
  emWrite (recAt area p) r

def rb (r : List Byte) (i n : Nat) : Nat := leNat ((r.drop i).take n)
def rset (r : List Byte) (i : Nat) (bs : List Byte) : List Byte := r.take i ++ bs ++ r.drop (i + bs.length)

def recPos (r : List Byte) : Nat := rb r 0 4
def recKind (r : List Byte) : Nat := rb r 4 1
def recFlags (r : List Byte) : Nat := rb r 5 1
def recId (r : List Byte) : Nat := rb r 8 4
def recHash (r : List Byte) : Nat := rb r 8 8
def recOff (r : List Byte) : Nat := rb r 16 8
def recBytes (r : List Byte) : Nat := rb r 24 4
def recSize (r : List Byte) : Nat := rb r 28 2
def recFmt (r : List Byte) : Nat := rb r 30 1

/-- Spill beats that a record names: none for TEXT. -/
def recBeats (r : List Byte) : Nat := if recKind r == 1 then 0 else ceilDiv (recBytes r) 64

/-- Records lo to hi − 1 of one log copied to another with their spill beats, which are appended from beat q on and whose offsets are
rewritten; `spec` clears SPEC. The next free beat is returned (R271, R273). -/
def copyRecs (fromA fromCap toA toCap toScap lo hi q : Nat) (spec : Bool) : EngM Nat :=
  (List.range (hi - lo)).foldlM (fun q i => do
    let r ← getRec fromA (lo + i)
    let r1 := if spec then rset r 5 (leBytes 1 (recFlags r / 4 * 4 + recFlags r % 2)) else r
    let n := recBeats r
    if n = 0 then
      putRec toA (lo + i) r1
      return q
    else
      refuseIf (16 * toScap < q + n) rsnCapacity
      emTick (2 * n)
      emWrite (spillAt toA toCap q) (← emRead (spillAt fromA fromCap (recOff r)) (64 * n))
      putRec toA (lo + i) (rset r1 16 (leBytes 8 q))
      return q + n) q

/-! Egress entries (R275). -/

/-- The address of egress entry e; one at or beyond EGRCNT refuses with CFG_CMD (R259). -/
def egrAt (e : Nat) : EngM Nat := do
  let x ← emCtx
  cfgIf (x.egrcnt ≤ e)
  return x.egrtab + 32 * e

end Sys2Proof.Machine
end

