-- ==== Sys2Proof/Machine/KvPages.lean ====
section
/-!
DEFINITION. The KVP commands PGALLOC, PGFREE, PGFORK, PGAPPEND, PGCOMMIT, PGTRUNC and PGSTAT (R270–R274, R342, R343).
-/
namespace Sys2Proof.Machine

def pgallocM (c : CmdSt) : EngM Unit := do
  let n := c.f 2 0 16
  let q ← getSlot c.slotIx
  let p ← getPool (seqPool q)
  let l := seqPlist q
  let (cnt, cap) ← listHead l
  refuseIf ((← poolFree p) < n) rsnNoPage
  refuseIf (cap < cnt + n) rsnCapacity
  for i in List.range n do
    listSet l (cnt + i) (← allocPage p ⟨1, 0, false⟩)
  listCount l (cnt + n)
  emLanes [0, 0]

def pgfreeM (c : CmdSt) : EngM Unit := do
  let j := c.f 2 0 32
  let q ← getSlot c.slotIx
  let p ← getPool (seqPool q)
  let l := seqPlist q
  let (cnt, _) ← listHead l
  refuseIf (j < ceilDiv (seqLength q) p.pp || cnt < j) rsnPosition
  let _ ← dropRange p l j (cnt - j)
  listCount l j
  emLanes [0, 0]

/-- PGFORK (R271). -/
def pgforkM (c : CmdSt) : EngM Unit := do
  let i := c.slotIx
  let d := c.f 2 0 12
  let br := c.f 2 12 1
  let area := c.f 3 0 57
  let l := c.f 4 0 57
  let q ← getSlot i
  let e ← getSlot d
  refuseIf (!(seqState q == 1 || seqState q == 2) || seqState e != 0 || seqRetpend e) rsnState
  let p ← getPool (seqPool q)
  let f := seqLength q
  let n := ceilDiv f p.pp
  refuseIf (seqCap q < f || (← listHead l).2 < n) rsnCapacity
  for j in List.range n do
    let page ← listGet (seqPlist q) j
    let ent ← getEnt p (entAt (seqPlist q) j) page
    if ent.refs = 0xFFFF then stopWith (.kv 0x10 (i + p.k * 2 ^ 12 + j * 2 ^ 16) page)
    else
      putEnt p page { ent with refs := ent.refs + 1 }
      listSet l j page
  listCount l n
  let shape (w : Nat) := w + seqCap q * 2 ^ 20 + seqScap q * 2 ^ 44
  if br = 1 then
    putSlot d [2 + 2 ^ 3 + i * 2 ^ 4 + qf q 0 32 32 * 2 ^ 32, f + f * 2 ^ 32, l + seqPool q * 2 ^ 57, area, f, seqChain q, seqKey q,
               shape (seqEgress q)]
  else
    let t := min (seqTail q) f
    let spill ← copyRecs (seqArea q) (seqCap q) area (seqCap q) (seqScap q) 0 t 0 false
    if t < f then emWrite (recAt area t) (← emRead (recAt (seqArea q) t) (32 * (f - t)))
    emTick (2 * (f - t))
    putSlot d [seqState q + c.f 5 0 32 * 2 ^ 32, f + seqFork q * 2 ^ 32, l + seqPool q * 2 ^ 57, area, f + spill * 2 ^ 32, seqChain q,
               c.f 7 0 64, shape (c.f 6 0 16)]
  emLanes [0, 0]

/-- PGAPPEND (R272). DEDUCED, notes/assumptions/56.md. -/
def pgappendM (c : CmdSt) : EngM Unit := do
  let i := c.slotIx
  let n := c.f 2 0 16
  let q ← getSlot i
  refuseIf (!(seqState q == 1 || seqState q == 2)) rsnState
  let p ← getPool (seqPool q)
  let l := seqPlist q
  let (cnt, cap) ← listHead l
  let old := seqLength q
  let last := (old + n - 1) / p.pp
  let need := last + 1 - cnt
  refuseIf ((← poolFree p) < need) rsnNoPage
  refuseIf (cap < cnt + need) rsnCapacity
  let j0 := old / p.pp
  if j0 < cnt then
    let page ← listGet l j0
    if 1 < (← getEnt p (entAt l j0) page).refs then stopWith (.kv 0x0F (i + p.k * 2 ^ 12 + j0 * 2 ^ 16) page)
  for k in List.range (last + 1 - j0) do
    let j := j0 + k
    if cnt ≤ j then listSet l j (← allocPage p ⟨1, 0, false⟩)
    let page ← listGet l j
    let e ← getEnt p (entAt l j) page
    putEnt p page { e with fill := max e.fill (min p.pp (old + n - j * p.pp)) }
  listCount l (max cnt (last + 1))
  let q1 := qset q 1 0 32 (old + n)
  let rem := seqFork q - min n (seqFork q)
  let q2 := if seqState q == 1 then qset (qset q1 1 32 32 rem) 0 0 2 (if rem = 0 then 2 else 1) else q1
  putSlot i q2
  let a := frameOf p (← listGet l j0) + old % p.pp * p.pbytes
  emLanes [a, a / 2 ^ 32 % 2 ^ 25]

/-- The first of n positions from f on whose record is TEXT with the stop id (R273). -/
def findStop (area id : Nat) : Nat → Nat → EngM (Option Nat)
  | 0, _ => return none
  | n + 1, f => do
    let r ← getRec area f
    if recKind r == 1 && recId r == id then return some f else findStop area id n (f + 1)

/-- PGCOMMIT (R273). Record places at or beyond the branch's tail hold no record and are copied as they stand. DEDUCED, notes/assumptions/54.md. -/
def pgcommitM (c : CmdSt) : EngM Unit := do
  let i := c.slotIx
  let di := c.f 2 0 12
  let k := c.f 3 0 32
  let q ← getSlot i
  let d ← getSlot di
  let f := seqFork d
  refuseIf (!seqBranch d || seqOrigin d != i || seqLength q != f) rsnState
  refuseIf (seqLength d < f + k) rsnPosition
  refuseIf (c.f 4 32 1 == 1 && seqTail d < f + k) rsnPosition
  let t ← if c.f 4 32 1 == 1 then findStop (seqArea d) (c.f 4 0 32) k f else pure none
  let lc := match t with | some t => t + 1 | none => f + k
  let p ← getPool (seqPool q)
  let n := ceilDiv lc p.pp
  let (cnt, cap) ← listHead (seqPlist q)
  refuseIf (seqCap q < lc || cap < n) rsnCapacity
  let mid := max f (min (seqTail d) lc)
  let spill ← copyRecs (seqArea d) (seqCap d) (seqArea q) (seqCap q) (seqScap q) f mid (seqSpill q) true
  if mid < lc then emWrite (recAt (seqArea q) mid) (← emRead (recAt (seqArea d) mid) (32 * (lc - mid)))
  let _ ← dropRange p (seqPlist q) 0 cnt
  let (dcnt, _) ← listHead (seqPlist d)
  for j in List.range (min n dcnt) do
    listSet (seqPlist q) j (← listGet (seqPlist d) j)
  listCount (seqPlist q) n
  let _ ← dropRange p (seqPlist d) n (dcnt - n)
  setLastFill p (seqPlist q) n lc
  listCount (seqPlist d) 0
  putSlot i (qset (qset (qset q 1 0 32 lc) 4 0 32 lc) 4 32 32 spill)
  putSlot di (qset (qset (qset d 1 0 32 0) 0 0 2 3) 0 2 1 1)
  emLanes [0, 0]

/-- PGTRUNC (R270). -/
def pgtruncM (c : CmdSt) : EngM Unit := do
  let i := c.slotIx
  let len := c.f 2 0 32
  let q ← getSlot i
  refuseIf (seqLength q < len) rsnPosition
  let e ← egrAt (seqEgress q)
  refuseIf (len < (← emNat (e + 20) 4)) rsnEgressed
  let p ← getPool (seqPool q)
  let (cnt, _) ← listHead (seqPlist q)
  let n := min (ceilDiv len p.pp) cnt
  let _ ← dropRange p (seqPlist q) n (cnt - n)
  listCount (seqPlist q) n
  setLastFill p (seqPlist q) n len
  putSlot i (qset (qset q 1 0 32 len) 4 0 32 (min (seqTail q) len))
  emLanes [0, 0]

/-- The reference count of the last listed page; 0 for an empty list. -/
def lastRefs (p : Pool) (l n : Nat) : EngM Nat := do
  if n = 0 then return 0
  else
    let page ← listGet l (n - 1)
    let e ← getEnt p (entAt l (n - 1)) page
    return e.refs

/-- PGSTAT (R270). -/
def pgstatM (c : CmdSt) : EngM Unit := do
  let q ← getSlot c.slotIx
  let p ← getPool (seqPool q)
  let (cnt, _) ← listHead (seqPlist q)
  emLanes [← poolFree p, p.reserve, cnt, seqLength q, ← lastRefs p (seqPlist q) cnt]

end Sys2Proof.Machine
end

