-- ==== Sys2Proof/Machine/SeqEngine.lean ====
section
/-!
DEFINITION. The SQE commands ADMIT, BATCH, RETIRE, EGRESS, LOGAPP, PFXMATCH, REPLAY, MIGOUT and MIGIN (R263–R266, R275–R280).
-/
namespace Sys2Proof.Machine

def admitM (c : CmdSt) : EngM Unit := do
  let i := c.slotIx
  let pl := c.f 2 0 32
  let l := c.f 4 0 57
  let q ← getSlot i
  let eg ← egrAt (c.f 7 0 16)
  refuseIf (seqState q != 0 || seqRetpend q) rsnState
  let p ← getPool (c.f 1 12 4)
  let u := ceilDiv pl p.pp
  refuseIf ((← listHead l).2 < u) rsnCapacity
  refuseIf ((← poolFree p) < u + p.reserve) rsnReserve
  for j in List.range u do
    listSet l j (← allocPage p ⟨1, 0, false⟩)
  listCount l u
  putSlot i [1 + c.f 1 32 32 * 2 ^ 32, pl * 2 ^ 32, l + c.f 1 12 4 * 2 ^ 57, c.f 3 0 57, 0, c.f 5 0 57, c.f 6 0 64,
             c.f 7 0 16 + c.f 2 32 24 * 2 ^ 20 + c.f 7 16 20 * 2 ^ 44]
  emWriteNat (eg + 20) 4 pl
  emLanes [u, 0]

/-! BATCH (R278). -/

/-- Tokens granted in ascending slot order from a budget: `want` per slot. -/
def grant : List Nat → Nat → List Nat
  | [], _ => []
  | w :: ws, b => min w b :: grant ws (b - min w b)

/-- Sums of a list over the places below each place. -/
def sumsBelow : List Nat → Nat → List Nat
  | [], _ => []
  | x :: xs, a => a :: sumsBelow xs (a + x)

/-- The record of BATCH, from the slots and their tokens. -/
def batchRecord (slots : List SeqSlot) (tok : List Nat) : List Byte :=
  let head := [(tok.filter fun n => decide (0 < n)).length, tok.foldl (· + ·) 0, slots.length, 0]
  let rows := sumsBelow tok 0
  (head.flatMap (leBytes 4)) ++ (List.range slots.length).flatMap fun i =>
    let q := slots.getD i []
    let t := tok.getD i 0
    [i + seqState q * 2 ^ 16 + boolNat (0 < t) * 2 ^ 18, t, seqLength q, rows.getD i 0].flatMap (leBytes 4)

def batchM (c : CmdSt) : EngM Unit := do
  let n := c.f 1 0 13
  let slots ← (List.range n).mapM fun i => do
    let q ← getSlot i
    if seqRetpend q then
      putSlot i (List.replicate 8 0)
      return List.replicate 8 0
    else return q
  let dec := slots.map fun q => if seqState q == 2 then 1 else 0
  let t1 := grant dec (c.f 1 32 32)
  let left := c.f 1 32 32 - t1.foldl (· + ·) 0
  let t2 := grant (slots.map fun q => if seqState q == 1 then min (seqFork q) (c.f 3 0 32) else 0) left
  let tok := t1.zipWith (· + ·) t2
  emTick (n / 4 + 1)
  emWrite (c.f 2 0 57) (batchRecord slots tok)
  emLanes [(tok.filter fun n => decide (0 < n)).length, tok.foldl (· + ·) 0]

def retireM (c : CmdSt) : EngM Unit := do
  let q ← getSlot c.slotIx
  refuseIf (seqState q == 0) rsnState
  let p ← getPool (seqPool q)
  let (cnt, _) ← listHead (seqPlist q)
  let freed ← dropRange p (seqPlist q) 0 cnt
  listCount (seqPlist q) 0
  putSlot c.slotIx (qset (qset q 0 0 2 3) 0 2 1 1)
  emLanes [freed, 0]

/-- TEXT ids of n record places from p on (R275). -/
def textIds (area : Nat) : Nat → Nat → EngM (List Nat)
  | 0, _ => return []
  | n + 1, p => do
    let r ← getRec area p
    let rest ← textIds area n (p + 1)
    return if recKind r == 1 then recId r :: rest else rest

/-- EGRESS (R275). -/
def egressM (c : CmdSt) : EngM Unit := do
  let q ← getSlot c.slotIx
  let e ← egrAt (seqEgress q)
  let w := wordsAt (← emRead e 32) 4
  let ring := qf w 0 0 57
  let ctr := qf w 1 0 57
  let cap := qf w 2 0 32
  let next := qf w 2 32 32
  let used := w.getD 3 0
  let n ← emNat ctr 8
  let last := min (seqLength q) (seqTail q)
  let ids ← textIds (seqArea q) (last - next) next
  refuseIf (cap + used < n + ids.length) rsnRingFull
  for (id, i) in ids.zip (List.range ids.length) do
    emWriteNat (ring + 4 * ((n + i) % cap)) 4 id
  emWriteNat ctr 8 (n + ids.length)
  emWriteNat (e + 20) 4 last
  emLanes [ids.length, 0]

/-! The datum log (R263–R266). -/

/-- Content bytes of a descriptor, a HIDDEN one's vector read (R252, R264). -/
def contentOf (d : Payload) : EngM (List Byte) :=
  if sxKindByte d = 2 then emRead (sxAddr d) (sxDim d * sxEsz (sxFormat d)) else return sxContent d

def sxHashOf (d : Payload) : Nat := if sxKindByte d = 2 then sxHidHash d else sxMixHash d

/-- A datum-log record (R263). -/
def datumRec (d : Payload) (pos : Nat) (spec : Bool) (spill bytes : Nat) : List Byte :=
  let k := sxKindByte d
  leBytes 4 pos ++ leBytes 1 k ++ leBytes 1 (sxFlags d % 2 + boolNat spec * 2 + sxFlags d / 2 % 2 * 4) ++ leBytes 2 0 ++
    leBytes 8 (if k = 1 then sxTextId d else sxHashOf d) ++ leBytes 8 (if k = 1 then 2 ^ 64 - 1 else spill) ++
    leBytes 4 (if k = 1 then 0 else bytes) ++ leBytes 2 (if k = 2 then sxDim d / 16 else if k = 3 then sxCount d else 0) ++
    leBytes 1 (if k = 2 then sxFormat d else 0) ++ leBytes 1 0

def padBeats (bs : List Byte) : List Byte := bs ++ List.replicate (ceilDiv bs.length 64 * 64 - bs.length) 0#8

/-- LOGAPP (R264). -/
def logappM (c : CmdSt) : EngM Unit := do
  let q ← getSlot c.slotIx
  let pos := c.f 3 0 32
  emTick 1
  let d := payOf (← emRead (c.f 2 0 57) 64)
  refuseIf (sxKind d == 0 || sxKind d == 255) rsnMalformed
  refuseIf (pos != seqTail q || seqLength q ≤ pos) rsnPosition
  refuseIf (seqTail q == seqCap q) rsnCapacity
  let bs ← contentOf d
  let text := sxKindByte d == 1
  let n := ceilDiv bs.length 64
  refuseIf (!text && 16 * seqScap q < seqSpill q + n) rsnCapacity
  refuseIf (!text && contentHash bs != sxHashOf d) rsnHash
  if !text then
    emTick n
    emWrite (spillAt (seqArea q) (seqCap q) (seqSpill q)) (padBeats bs)
  putRec (seqArea q) pos (datumRec d pos (seqBranch q) (seqSpill q) bs.length)
  putSlot c.slotIx (qset (if text then q else qset q 4 32 32 (seqSpill q + n)) 4 0 32 (seqTail q + 1))
  emLanes [pos, 0]

/-- Whether position p is equal in two logs (R265). -/
def samePos (aA aCap bA bCap p : Nat) : EngM Bool := do
  let x ← getRec aA p
  let y ← getRec bA p
  if recKind x != recKind y then return false
  else if recKind x == 1 then return recId x == recId y
  else if recSize x != recSize y || recFmt x != recFmt y || recHash x != recHash y || recBytes x != recBytes y then return false
  else
    emTick (2 * recBeats x)
    let u ← emRead (spillAt aA aCap (recOff x)) (recBytes x)
    let v ← emRead (spillAt bA bCap (recOff y)) (recBytes y)
    return u == v

/-- The first of n positions from p on that differs, or the position after them. -/
def firstDiff (aA aCap bA bCap : Nat) : Nat → Nat → EngM (Nat × Bool)
  | 0, p => return (p, false)
  | n + 1, p => do
    if ← samePos aA aCap bA bCap p then firstDiff aA aCap bA bCap n (p + 1) else return (p, true)

def pfxmatchM (c : CmdSt) : EngM Unit := do
  let (p, diff) ← firstDiff (c.f 1 0 57) (c.f 2 32 32) (c.f 3 0 57) (c.f 4 32 32) (min (c.f 2 0 32) (c.f 4 0 32)) 0
  emLanes [p, boolNat diff]

/-- A record that breaks R263, as REPLAY refuses it (R266). -/
def badRec (r : List Byte) : Bool :=
  let k := recKind r
  rb r 6 2 != 0 || rb r 31 1 != 0 || 8 ≤ recFlags r ||
    (match k with
     | 1 => recSize r != 0 || recFmt r != 0 || rb r 12 4 != 0
     | 2 => recSize r == 0 || 4096 < recSize r || 2 ≤ recFmt r
     | 3 => recSize r == 0 || 8 < recSize r || recFmt r != 0
     | _ => true)

/-- A mixture rebuilt from its content, with the record's hash and REPLAYED; none where the content is no mixture (R251, R252, R266). -/
def mixFrom (bs : List Byte) (hash : Nat) : Option Payload :=
  let n := rb bs 0 1
  if n = 0 || 8 < n || bs.length != 1 + 6 * n then none
  else
    let ids := (List.range n).map fun i => rb bs (1 + 4 * i) 4
    let ws := (List.range n).map fun i => rb bs (1 + 4 * n + 2 * i) 2
    let d := sxWithHash (sxMixRaw ids ws 2) hash
    if sxMalformed d then none else some d

/-- What REPLAY restores: the descriptor beat of REG, or the spilled vector of ROWS (R266). -/
def replayData (c : CmdSt) : EngM (Payload × List Byte) := do
  let area := c.f 1 0 57
  let p := c.f 2 0 32
  let cap := c.f 2 32 32
  let rows := c.f 5 0 2 == 1
  let dst := c.f 3 0 57
  refuseIf (c.f 5 32 32 ≤ p || cap ≤ p) rsnPosition
  let r ← getRec area p
  refuseIf (recPos r != p) rsnPosition
  refuseIf (badRec r || (rows && recKind r != 2)) rsnMalformed
  refuseIf (!rows && recKind r == 2 && dst == 0) rsnMalformed
  if recKind r == 1 then return (sxText (recId r) 2, [])
  else
    emTick (recBeats r)
    let bs ← emRead (spillAt area cap (recOff r)) (recBytes r)
    if recKind r == 3 then
      match mixFrom bs (recHash r) with
      | none => refuse rsnMalformed
      | some d => return (d, [])
    else
      if !rows then
        emTick (recBeats r)
        emWrite dst bs
      return (sxHidden (recFmt r) (16 * recSize r) dst (recHash r) 2, bs)

/-- REPLAY (R266): REG delivers one beat to its port, ROWS the vector to its buffer, slot by slot where it is circular; none while its endpoint has no
room. -/
def replayStep (s : State) (ctx eng : Nat) (c : CmdSt) : Option State :=
  match replayData c { s := s, ctx := ctx, eng := eng, c := { c with beats := 0 } } with
  | .error x => some (s.settle ctx eng c x)
  | .ok ((d, bs), t) =>
    if c.f 5 0 2 == 0 then
      (match t.s.putPorts t.c t.c.first none d with
       | .ok s1 c1 => some (finish s1 ctx eng c1)
       | .fault s1 => some s1
       | .wait => none)
    else
      let out := padBeats bs
      let x := putSpan ctx eng t.c.endOr true 0 (out.length / 64 + 1) (out.drop t.c.bytes) t.s t.c
      if x.idle c then none else some (x.close ctx eng fun s1 c1 => finish s1 ctx eng c1)

/-! Migration (R279, R280). -/

def alignPage (n : Nat) : Nat := ceilDiv n 4096 * 4096

/-- Stage control blocks of a chain up to LAST, at most 16 (R267). -/
def chainBlocks : Nat → Nat → EngM (List (List Byte))
  | 0, _ => return []
  | n + 1, a => do
    emTick 1
    let b ← emRead a 64
    if rb b 1 1 % 2 == 1 then return [b] else return b :: (← chainBlocks n (a + 64))

/-- The parts of an image in order: byte offsets of chain, KV, log and spill. -/
def imageAt (blocks kv log : Nat) : Nat × Nat × Nat × Nat :=
  let a := 4096
  let b := alignPage (a + 64 * blocks)
  let d := alignPage (b + kv)
  (a, b, d, alignPage (d + 32 * log))

/-- n bytes copied from one place to another. -/
def emCopy (dst src n : Nat) : EngM Unit := do
  if n = 0 then return () else emWrite dst (← emRead src n)

/-- The context of the command. -/
def emCtxNo : EngM Nat := fun t => .ok (t.ctx, t)

/-- MIGOUT (R279): the source agent then has the image to send (R382). -/
def migoutM (c : CmdSt) : EngM Unit := do
  let img := c.f 2 0 57
  let q ← getSlot c.slotIx
  refuseIf (!(seqState q == 1 || seqState q == 2) || seqBranch q) rsnState
  refuseIf (seqTail q != seqLength q) rsnPosition
  let p ← getPool (seqPool q)
  let e ← egrAt (seqEgress q)
  let w := wordsAt (← emRead e 32) 4
  let ctr ← emNat (qf w 1 0 57) 8
  let n := ceilDiv (seqLength q) p.pp
  let blocks ← chainBlocks 16 (seqChain q)
  let soft ← emRead (seqArea q) 64
  let q1 := qset (qset (qset q 2 0 57 0) 3 0 57 0) 7 0 16 0
  let head := leBytes 4 0x47494D31 ++ leBytes 4 1 ++ leBytes 8 (c.f 3 0 64) ++ leBytes 2 (c.f 4 0 13) ++ leBytes 2 p.ppCode ++
    leBytes 4 p.pbytes ++ leBytes 4 n ++ leBytes 4 (seqLength q) ++ leBytes 4 (seqTail q) ++ leBytes 4 (seqSpill q) ++ leBytes 8 ctr ++
    leBytes 4 (qf w 2 32 32) ++ leBytes 4 blocks.length ++ leBytes 8 0 ++ q1.flatMap (leBytes 8) ++ soft ++ List.replicate 64 0#8
  let kvb := p.pp * p.pbytes
  let (aC, aK, aL, aS) := imageAt blocks.length (n * kvb) (seqTail q)
  emWrite img head
  emWrite (img + aC) (blocks.flatMap id)
  for j in List.range n do
    let page ← listGet (seqPlist q) j
    let _ ← getEnt p (entAt (seqPlist q) j) page
    emCopy (img + aK + j * kvb) (frameOf p page) kvb
  emCopy (img + aL) (recAt (seqArea q) 0) (32 * seqTail q)
  emCopy (img + aS) (spillAt (seqArea q) (seqCap q) 0) (64 * seqSpill q)
  let x ← emCtxNo
  emSet ((← emState).depart c.uid x c.slotIx img (aS / 64 + seqSpill q))
  emLanes [0, 0]

/-- MIGIN (R280, R382): header bytes 56–63 hold the DETREV of the part that the image left, 0 where it left none. The chain goes behind the area's spill
region, and spill beats that the region has no place for are not written (R262). DESIGN CHOICE, notes/assumptions/28.md. -/
def miginM (c : CmdSt) : EngM Unit := do
  let i := c.slotIx
  let img := c.f 2 0 57
  let area := c.f 5 0 57
  let l := c.f 6 0 57
  let old ← getSlot i
  let eg ← egrAt (c.f 7 0 16)
  let p ← getPool (c.f 1 12 4)
  let h ← emRead img 256
  refuseIf (rb h 0 4 != 0x47494D31 || rb h 4 4 != 1 || rb h 8 8 != c.f 3 0 64 || rb h 16 2 != c.f 4 0 13 || rb h 18 1 != p.ppCode ||
    rb h 20 4 != p.pbytes ||
    !(rb h 56 8 == 0 || rb h 56 8 == detrev)) rsnIdentity
  refuseIf ((← emCtx).relaxed || seqState old != 0) rsnState
  let n := rb h 24 4
  let len := rb h 28 4
  let tail := rb h 32 4
  let spill := rb h 36 4
  let blocks := rb h 52 4
  refuseIf ((← poolFree p) < n + p.reserve) rsnReserve
  refuseIf ((← listHead l).2 < n) rsnCapacity
  let kvb := p.pp * p.pbytes
  let (aC, aK, aL, aS) := imageAt blocks (n * kvb) tail
  for j in List.range n do
    let page ← allocPage p ⟨1, if j + 1 = n then len - (n - 1) * p.pp else p.pp, false⟩
    listSet l j page
    emCopy (frameOf p page) (img + aK + j * kvb) kvb
  listCount l n
  let q := wordsAt (h.drop 64) 8
  let chain := area + 64 + 32 * seqCap q + 1024 * seqScap q
  emCopy (recAt area 0) (img + aL) (32 * tail)
  emCopy (spillAt area (seqCap q) 0) (img + aS) (64 * min spill (16 * seqScap q))
  emWrite area ((h.drop 128).take 64)
  emCopy chain (img + aC) (64 * blocks)
  putSlot i (qset (qset (qset (qset (qset q 2 0 57 l) 2 57 4 p.k) 3 0 57 area) 5 0 57 chain) 7 0 16 (c.f 7 0 16))
  let w := wordsAt (← emRead eg 32) 4
  emWriteNat (qf w 1 0 57) 8 (rb h 40 8)
  emWriteNat (eg + 24) 8 (rb h 40 8)
  emWriteNat (eg + 20) 4 (rb h 48 4)
  let x ← emCtxNo
  emSet ((← emState).notifySource c.uid x)
  emLanes [0, 0]

end Sys2Proof.Machine
end

