-- ==== Sys2Proof/Machine/Sampler.lean ====
section
/-!
DEFINITION. The sampler: SAMPLE and ARGMAX (R267, R268). Logits are f32 bit patterns.
-/
namespace Sys2Proof.Machine

def f32Mul (x y : Nat) : Nat := fmulBits 23 .rne x y
def f32Add (x y : Nat) : Nat := faddBits 23 .rne x y
def f32Sub (x y : Nat) : Nat := fsubBits 23 .rne x y
def f32Lt (x y : Nat) : Bool := (Val.ofBits 23 x).lt (Val.ofBits 23 y)
def f32Le (x y : Nat) : Bool := f32Lt x y || (Val.ofBits 23 x).eqv (Val.ofBits 23 y)
def f32Finite (x : Nat) : Bool := x / 2 ^ 23 % 256 != 255
def negInf : Nat := 0xFF800000
def f32One : Nat := 0x3F800000
/-- log2 e as f32 (R268). -/
def log2e : Nat := 0x3FB8AA3B

/-- rne(x / y) for y > 0, rounded once. -/
def f32Div (x y : Nat) : Nat :=
  match Val.ofBits 23 x, Val.ofBits 23 y with
  | .fin a, .fin b =>
    if b.m = 0 then infBits 23 a.neg
    else
      let n := a.m * 2 ^ 80
      Dy.toBits 23 .rne ⟨a.neg, n / b.m, a.e - 80 - b.e⟩ (n % b.m != 0)
  | .fin a, .inf _ => Dy.toBits 23 .rne ⟨a.neg, 0, 0⟩
  | .inf n, .fin _ => infBits 23 n
  | _, _ => nanBits 23

/-- A logit as read: NaN becomes −∞, +∞ the largest finite number (R268). -/
def readLogit (x : Nat) : Nat :=
  if f32Finite x then x else if x % 2 ^ 23 != 0 || x / 2 ^ 31 == 1 then negInf else 0x7F7FFFFF

/-! The order (R268). -/

/-- Whether id i stands before id j: by descending logit, ties by ascending id. -/
def before (l : List Nat) (i j : Nat) : Bool :=
  let x := l.getD i 0
  let y := l.getD j 0
  f32Lt y x || (!f32Lt x y && i ≤ j)

/-- Merging two ordered lists of ids. -/
def mergeIds (l : List Nat) : Nat → List Nat → List Nat → List Nat
  | 0, xs, ys => xs ++ ys
  | _ + 1, [], ys => ys
  | _ + 1, xs, [] => xs
  | n + 1, x :: xs, y :: ys => if before l x y then x :: mergeIds l n xs (y :: ys) else y :: mergeIds l n (x :: xs) ys

def mergePairs (l : List Nat) : List (List Nat) → List (List Nat)
  | a :: b :: rest => mergeIds l (a.length + b.length) a b :: mergePairs l rest
  | xs => xs

def mergeAll (l : List Nat) : Nat → List (List Nat) → List Nat
  | 0, xs => xs.flatMap id
  | n + 1, xs => mergeAll l n (mergePairs l xs)

/-- The ids with finite logits in order. -/
def orderOf (l : List Nat) : List Nat :=
  let ids := (List.range l.length).filter fun i => f32Finite (l.getD i 0)
  mergeAll l (lg l.length + 1) (ids.map fun i => [i])

/-- prob of an id against the first one's logit; the difference times log2 e is rounded once (R268). -/
def probOf (lmax x : Nat) : Nat :=
  let y := (((Val.ofBits 23 x).add .rne (Val.ofBits 23 lmax).neg).mul (Val.ofBits 23 log2e)).toBits 23 .rne
  fexp2Bits 23 .rne (Val.ofBits 23 y)

/-- Sequential sums. -/
def cumFrom : Nat → List Nat → List Nat
  | _, [] => []
  | acc, x :: xs => f32Add acc x :: cumFrom (f32Add acc x) xs

/-- (id, prob, cum) along the order. -/
def probsOf (l : List Nat) : List (Nat × Nat × Nat) :=
  let o := orderOf l
  let lmax := l.getD (o.headD 0) 0
  let ps := o.map fun i => probOf lmax (l.getD i 0)
  o.zip (ps.zip (cumFrom 0 ps))

def totalOf (xs : List (Nat × Nat × Nat)) : Nat := match xs.getLast? with | some (_, _, c) => c | none => 0

/-- Logits with some ids dropped. -/
def dropIds (l drop : List Nat) : List Nat := drop.foldl (fun l i => lset l i negInf) l

/-! Stages (R267). -/

/-- Byte ranges of the listed fields of a stage; every other byte past the flags is reserved (R5). -/
def stageFields (code : Nat) : List (Nat × Nat) :=
  match code with
  | 1 => [(4, 4)]
  | 2 => [(4, 4), (8, 8)]
  | 3 => [(8, 8)]
  | 4 => [(4, 4), (8, 4), (12, 4)]
  | 5 => [(4, 4)]
  | 6 => [(4, 4)]
  | 7 => [(4, 4)]
  | _ => []

/-- A stage control block with a reserved code, flag or byte, or an address beyond 57 bits (R5). -/
def badStage (b : List Byte) : Bool :=
  let code := rb b 0 1
  code == 0 || 9 < code || 2 ≤ rb b 1 1 ||
    (List.range 62).any fun i => rb b (i + 2) 1 != 0 && !(stageFields code).any fun (lo, n) => lo ≤ i + 2 && i + 2 < lo + n

/-- A field of a stage that R267 forbids, for V logits. -/
def badStageField (b : List Byte) (v : Nat) : Bool :=
  let x := rb b 4 4
  match rb b 0 1 with
  | 2 => 65536 < x
  | 4 => !f32Lt 0 x
  | 5 => x == 0 || v < x
  | 6 => !(f32Lt 0 x && f32Le x f32One)
  | _ => false

/-- The chain's stages up to LAST; refused with CHAIN where it does not end in one final stage (R267). -/
def readChain (a : Nat) : EngM (List (List Byte)) := do
  let bs ← chainBlocks 16 a
  cfgIf (bs.any badStage)
  let final (b : List Byte) : Bool := rb b 0 1 == 8 || rb b 0 1 == 9
  let last := bs.getLastD []
  refuseIf (rb last 1 1 % 2 == 0 || !final last || bs.dropLast.any final) rsnChain
  return bs

/-- The log that holds a position, as (area, tail): a branch's positions below its fork stand in its origin's log. A chain of
branches names no slot of the table twice, which holds at most 4096. -/
def logOf : Nat → SeqSlot → Nat → EngM (Nat × Nat)
  | 0, q, _ => return (seqArea q, seqTail q)
  | n + 1, q, pos => do
    if seqBranch q && pos < seqFork q then logOf n (← getSlot (seqOrigin q)) pos else return (seqArea q, seqTail q)

/-- The distinct TEXT ids of n positions from p on, skipping those at or beyond the tail of their log (R267). -/
def penIds (q : SeqSlot) : Nat → Nat → List Nat → EngM (List Nat)
  | 0, _, acc => return acc
  | n + 1, p, acc => do
    let (area, tail) ← logOf 4096 q p
    if tail ≤ p then penIds q n (p + 1) acc
    else
      let r ← getRec area p
      penIds q n (p + 1) (if recKind r == 1 && !acc.contains (recId r) then acc ++ [recId r] else acc)

/-- The first entry whose cum reaches a target (R267, R268). -/
def firstAt (xs : List (Nat × Nat × Nat)) (target : Nat) : Nat :=
  (xs.findIdx? fun (_, _, c) => f32Le target c).getD (xs.length - 1)

/-- One stage's effect on the logits. -/
def stageRun (q : SeqSlot) (v : Nat) (b : List Byte) (l : List Nat) : EngM (List Nat) := do
  let x := rb b 4 4
  cfgIf (badStageField b v)
  match rb b 0 1 with
  | 1 => return l.map fun y => f32Mul y x
  | 2 =>
    let es := elemsAux 32 (2 * x) (leNat (← emRead (rb b 8 8) (8 * x)))
    return (List.range x).foldl (fun l j =>
      let i := es.getD (2 * j) 0
      if i < v then lset l i (f32Add (l.getD i 0) (es.getD (2 * j + 1) 0)) else l) l
  | 3 =>
    let bits := leNat (← emRead (rb b 8 8) (ceilDiv v 8))
    return (l.zip (List.range v)).map fun (y, i) => if bits / 2 ^ i % 2 == 1 then y else negInf
  | 4 =>
    let n := seqLength q
    let w := min n (rb b 12 4)
    let ids ← penIds q w (n - w) []
    return ids.foldl (fun l i =>
      if v ≤ i then l
      else
        let y := l.getD i 0
        lset l i (f32Sub (if f32Lt 0 y then f32Div y x else f32Mul y x) (rb b 8 4))) l
  | 5 => return dropIds l ((orderOf l).drop x)
  | 6 =>
    let ps := probsOf l
    return dropIds l ((ps.drop (firstAt ps (f32Mul x (totalOf ps)) + 1)).map (·.1))
  | 7 => return dropIds l (((probsOf l).filter fun (_, p, _) => f32Lt p x).map (·.1))
  | _ => return l

/-- splitmix (R268). -/
def splitmix (key n : Nat) : Nat :=
  let z := (key + (n + 1) * 0x9E3779B97F4A7C15) % 2 ^ 64
  let z := (z ^^^ (z / 2 ^ 30)) * 0xBF58476D1CE4E5B9 % 2 ^ 64
  let z := (z ^^^ (z / 2 ^ 27)) * 0x94D049BB133111EB % 2 ^ 64
  z ^^^ (z / 2 ^ 31)

/-- rne(u × total) with u = (z >> 40) / 2^24. -/
def drawTarget (z total : Nat) : Nat := ((Val.fin ⟨false, z / 2 ^ 40, -24⟩).mul (Val.ofBits 23 total)).toBits 23 .rne

/-- The choice from the final logits: the id and the count of the order (R268). -/
def chooseId (q : SeqSlot) (draw : Bool) (l : List Nat) : EngM (Nat × Nat) := do
  let ps := probsOf l
  refuseIf ps.isEmpty rsnEmpty
  let j := if draw then firstAt ps (drawTarget (splitmix (seqKey q) (seqLength q)) (totalOf ps)) else 0
  return ((ps.getD j (0, 0, 0)).1, ps.length)

/-- The result: lanes 2 and 3, and the id where W3 names a place. -/
def giveId (c : CmdSt) (id n : Nat) : EngM Unit := do
  if c.f 3 0 57 != 0 then emWriteNat (c.f 3 0 57) 4 id
  emLanes [id, n]

def readLogits (c : CmdSt) : EngM (List Nat) := do
  let v := c.f 2 0 20 + 1
  return (elemsAux 32 v (leNat (← emRead (c.f 1 0 57) (4 * v)))).map readLogit

def stagesRun (q : SeqSlot) (v : Nat) : List (List Byte) → List Nat → EngM (List Nat)
  | [], l => return l
  | b :: bs, l => do stagesRun q v bs (← stageRun q v b l)

def sampleM (c : CmdSt) : EngM Unit := do
  let q ← getSlot (c.f 2 32 12)
  let bs ← readChain (seqChain q)
  emSetCmd { (← emCmd) with extra := bs.length }
  let l ← stagesRun q (c.f 2 0 20 + 1) bs (← readLogits c)
  let (id, n) ← chooseId q (rb (bs.getLastD []) 0 1 == 8) l
  giveId c id n

def argmaxM (c : CmdSt) : EngM Unit := do
  let (id, n) ← chooseId [] false (← readLogits c)
  giveId c id n

end Sys2Proof.Machine
end

