-- ==== Sys2Proof/Machine/Slots.lean ====
section
/-!
DEFINITION. Who advances on a shared engine, and when (R195, R320, R321): the commands that could be advanced or started, the owner of a cycle, the turn among
started commands; starting and completing a command (R151, R195–R197, R365), and the run of its meaning.
-/
namespace Sys2Proof.Machine

/-! What could be advanced. -/

/-- Whether a traverse that is set up has no request to make: its endpoint has no room for the beat that it holds, or no beat to give (R153). -/
def streamIdle (s : State) (ctx eng : Nat) (c : CmdSt) : Bool :=
  if !c.isWrite then c.holdsBeat && (putBeat s ctx eng c).waits
  else if !c.row.isEmpty then false
  else
    match c.endPt with
    | some e =>
      if e.ekind == 1 then (takeFromBuf s ctx eng c e).waits
      else
        match s.holder c.region e.canon with
        | some t => let o := (s.tile t).out e.port; o.trav != some c.uid || o.q.isEmpty
        | none => true
    | none => true

/-- Whether a started command has nothing for its engine to do: it is over, stopped, held by a pre-emption, or waits for its endpoint or for another
command. DEDUCED, notes/assumptions/101.md. -/
def State.blocked (s : State) (ctx eng : Nat) (c : CmdSt) : Bool :=
  c.phase != .started || s.holdsStream c ||
    match c.cls with
    | 1 => !setUp c || streamIdle s ctx eng c
    | 2 => (copyStep s ctx eng c).idle c
    | 3 => (colStep s ctx eng c).isNone
    | 6 => c.kind == 7 && (replayStep s ctx eng c).isNone
    | _ => false

/-- Whether a context has a started command that its engine can advance. -/
def State.canAdvance (s : State) (ctx eng : Nat) : Bool := ((s.ctx ctx).queue eng).started.any fun c => !s.blocked ctx eng c

/-- Whether every access that a recorded done token covers is performed at DEVICE scope (R195). -/
def State.covPerformed (s : State) (cov : List Ord) : Bool :=
  cov.all fun o => s.regions.all fun (_, r) => r.entries.all fun e => e.access != o.acc

/-- The region's tiles have all ended instant n (R259). -/
def State.endedInstant (s : State) (c : CmdSt) : Bool := s.stale c || c.inst < (s.region c.region).inst

/-- Whether the region that issued a command keeps it in its queue: it has stopped, or is being killed (R350, R361). -/
def State.keepsQueued (s : State) (c : CmdSt) : Bool := c.region != agentRegion && (s.halted c.region || s.dying c.region)

/-- Started commands that have not completed; one that was refused at its head has never started (R195). -/
def Queue.running (q : Queue) : List CmdSt := q.started.filter fun c => c.phase != .refused

/-- Whether a checked head may start, the engine's cycles apart (R151, R195, R259, R350, R398). -/
def State.headReady (s : State) (ctx eng : Nat) (c : CmdSt) : Bool :=
  let q := (s.ctx ctx).queue eng
  c.phase == .checked && !s.keepsQueued c && (c.thr == 0 || c.thr ≤ ((s.ctx ctx).sem c.wsem).value) && s.covPerformed c.cov &&
    (!c.barrier || q.started.isEmpty) && q.running.length < 8 &&
    (if eng / 8 % 4 == 3 then q.running.isEmpty && !(s.ctx ctx).kvpHeld && (!s.det c.tile || s.endedInstant c)
     else if c.cls == 1 then
       (tget? s.dcwait (eng % 8)).isNone && s.windowBytes (eng % 8) + c.window * 4096 ≤ s.windowPart (eng % 8) * 4096
     else true)

/-- Whether a context has a command to advance, or to start, on an engine (R321). -/
def State.hasWork (s : State) (ctx eng : Nat) : Bool :=
  s.canAdvance ctx eng || (match s.headCmd ctx eng with | some c => s.headReady ctx eng c | none => false)

/-! The owner of a cycle (R320, R321). -/

/-- The context whose command the engine may advance in this cycle, if any. -/
def State.slotOwner (s : State) (e : Nat) : Option Nat :=
  let x := s.table e
  let i := s.cycle % 64
  let y := x.slot s.cycle i
  let donated := !y.v || (y.wc && !y.rsv && !s.hasWork y.ctx e)
  if !donated then (if y.v then some y.ctx else none)
  else
    ((List.range 63).map fun j => x.slot s.cycle ((i + 1 + j) % 64)).findSome? fun z =>
      if z.v && s.hasWork z.ctx e then some z.ctx else none

/-- Whether the engine may make a request for a context in this cycle: the cycle is the context's, and the engine has made none in it. -/
def State.granted (s : State) (c e : Nat) : Bool := s.slotOwner e == some c && decide ((s.table e).last ≤ s.cycle)

/-- The started command whose turn it is: the first, in start order from the queue's turn on and round, that can be advanced. -/
def State.turnOf (s : State) (ctx eng : Nat) : Option Nat :=
  let q := (s.ctx ctx).queue eng
  ((q.started.drop q.turn ++ q.started.take q.turn).find? fun c => !s.blocked ctx eng c).map (·.uid)

/-- The engine's cycle spent on a started command: the turn is the next one's. -/
def State.useSlot (s : State) (ctx eng uid : Nat) : State :=
  let q := (s.ctx ctx).queue eng
  let i := (q.started.findIdx? fun x => x.uid == uid).getD 0
  let s1 := s.setCtx ctx ((s.ctx ctx).setQueue eng { q with turn := i + 1 })
  { s1 with tables := tset s1.tables eng { s1.table eng with last := s1.cycle + 1 } }

/-- A started command advanced by one request, when the cycle and the turn are its own (R320). -/
def State.atTurn (s : State) (ctx eng uid : Nat) (f : State → CmdSt → State) : State :=
  if s.granted ctx eng && s.turnOf ctx eng == some uid then
    match s.startedOf ctx eng uid with
    | some c => f (s.useSlot ctx eng uid) c
    | none => s
  else s

/-- The command under the cursor, carrying the given words, advanced at its turn. -/
def atWords (s : State) (ws : List W64) (f : State → Nat → Nat → CmdSt → State) : State :=
  match s.cursor with
  | .cmd ctx eng uid => s.atTurn ctx eng uid fun s c => f s ctx eng { c with words := ws }
  | _ => s

/-- The started command under the cursor, carrying the given words, set up: no request is made. -/
def atSetUp (s : State) (ws : List W64) (f : Nat → Nat → CmdSt → State) : State :=
  match s.cursor with
  | .cmd ctx eng uid =>
    match s.startedOf ctx eng uid with
    | some c => if c.phase == .started && !s.holdsStream c && !setUp c then f ctx eng { c with words := ws } else s
    | none => s
  | _ => s

/-! Starting. -/

/-- Whether a checked head may start now (R195, R320): no started command of its context could use the cycle. The rule's "no started command" cannot be
meant of commands that wait, since up to eight may have started. DEDUCED, notes/assumptions/101.md. -/
def State.mayStart (s : State) (ctx eng : Nat) (c : CmdSt) : Bool := s.headReady ctx eng c && s.granted ctx eng && !s.canAdvance ctx eng

/-- The staging record of a command that writes a W- or A-buffer; one past the 32 of its tile is marked, so that the banks that it writes are saved (R365). -/
def State.stage (s : State) (c : CmdSt) : State × CmdSt :=
  match c.endPt with
  | some e =>
    if e.ekind == 1 && !c.isWrite then
      (match s.holder c.region e.canon with
       | some t =>
         let x := s.tile t
         if x.staging.length < 32 then (s.setTile t { x with staging := x.staging ++ [c.words] }, c) else (s, { c with mark := c.mark + 64 })
       | none => (s, c))
    else (s, c)
  | none => (s, c)

/-- COMMAND_START. -/
def execCommandStart (ctx eng : Nat) (s : State) : Res :=
  .next
    (match s.headCmd ctx eng with
     | none => s
     | some c =>
       if s.mayStart ctx eng c then
         let (s1, d) := s.stage c
         let s2 := { s1 with tables := tset s1.tables eng { s1.table eng with last := s1.cycle + 1 } }
         (s2.popHead ctx eng (some { d with phase := .started })).bindAll ctx
       else s)

/-! Completion. -/

/-- COMMAND_COMPLETE (R196, R197): completion beat, then signal; the command is done. -/
def execCommandComplete (ctx eng issue : Nat) (s : State) : Res :=
  .next
    (match s.startedOf ctx eng issue with
     | none => s
     | some c =>
       if (c.phase == .performed || c.phase == .refused || c.phase == .faulted) && s.timeToPresent ctx eng c then
         match s.deliverDone c with
         | none => s
         | some s1 => ((s1.signalDone ctx eng c).remember eng c).dropCmd ctx eng c.uid
       else s)

end Sys2Proof.Machine
end

