-- ==== Sys2Proof/Machine/Faults.lean ====
section
/-!
DEFINITION. Settling fault records: what a record names, resuming, failing and acknowledging it (R289, R306, R350, R351, R354–R356), and the
writing of records to the fault queue.
-/
namespace Sys2Proof.Machine

/-! What a record says (R352). -/

def FltRec.f (r : FltRec) (i lo w : Nat) : Nat := bitsNat (r.words.getD i 0#64) lo w
def FltRec.cls (r : FltRec) : Nat := r.f 0 0 8
def FltRec.resumable (r : FltRec) : Bool := r.f 0 16 1 == 1
def FltRec.engine (r : FltRec) : Bool := r.f 0 17 1 == 1
def FltRec.stoppedBit (r : FltRec) : Bool := r.f 0 18 1 == 1
def FltRec.gen (r : FltRec) : Nat := r.f 0 24 8
def FltRec.ctx (r : FltRec) : Nat := r.f 0 42 8
def FltRec.tile (r : FltRec) : Nat := r.f 1 0 13
def FltRec.slot (r : FltRec) : Nat := r.f 1 13 7
def FltRec.eng (r : FltRec) : Nat := r.f 1 20 10
def FltRec.issue (r : FltRec) : Nat := r.f 5 32 32

/-- The region that a record names, while it is still the one named (R295). -/
def State.regionOf (s : State) (r : FltRec) : Option Nat :=
  match r.region with
  | some g => if (s.home g).valid && (s.home g).gen == r.gen then some g else none
  | none => none

/-- The command that an engine-detected record is about, among the started ones. -/
def State.recordCmd (s : State) (r : FltRec) : Option (Nat × Nat × CmdSt) :=
  match r.agent with
  | .command c e u | .unit c e u => (s.startedOf c e u).map fun x => (c, e, x)
  | _ =>
    (((s.ctx r.ctx).queue r.eng).started.find? fun x =>
      x.issue % 2 ^ 32 == r.issue && some x.region == r.region && x.gen == r.gen && x.tile == r.tile).map fun x => (r.ctx, r.eng, x)

/-- Whether the agent that a record names is stopped now. -/
def State.agentStopped (s : State) (r : FltRec) : Bool :=
  match r.agent with
  | .none => false
  | .region g => (s.regionOf r).isSome && (s.region g).phase == .stopped
  | .node t k => (s.regionOf r).isSome && ((s.tile t).node k).stopped
  | .command c e u | .unit c e u => (match s.startedOf c e u with | some x => x.phase == .stopped | none => false)

/-! Resuming. -/

/-- Another record still stops the region. -/
def State.stillStopped (s : State) (g : Nat) : Bool :=
  (s.fq.drop 1 ++ s.held).any fun x => x.agent == .region g && x.gen == (s.region g).gen

/-- The TRAP node of a resumed record: its targets receive ABSENT for the trapping instant (R350, R356). -/
def State.passTrap (s : State) (t k : Nat) : State :=
  let x := s.tile t
  match nodeAt x.words k with
  | some (_, n) => (s.setTile t (x.setNode k { x.node k with stopped := false })).emit t k n (.same Beat.none)
  | none => s

/-- RESUME (R306, R354, R356): the agent continues from its stopping point; the watchdog of its region starts again. -/
def State.resumeAgent (s : State) (r : FltRec) : State :=
  match r.agent with
  | .none => s
  | .region g =>
    let s1 := if r.cls = 0x12 then s.passTrap r.tile r.slot else s
    s1.setRegion g (s1.rewatch { s1.region g with phase := if s1.stillStopped g then .stopped else .running })
  | .node t k => s.setTile t ((s.tile t).setNode k { (s.tile t).node k with stopped := false })
  | .command c e u => (match s.startedOf c e u with | some x => s.setCmd c e { x with phase := .started } | none => s)
  | .unit c e u =>
    let s1 := match s.startedOf c e u with | some x => s.setCmd c e { x with phase := .started } | none => s
    s1.setCtx c { s1.ctx c with kvpHeld := false }

/-! Failing a command (R306, R354). -/

/-- The instants that a failed command owes read ABSENT. -/
def State.killOwed (s : State) (c : CmdSt) : State :=
  (s.endPorts c).foldl (fun s (t, k) =>
    let x := s.tile t
    let p := x.inPort k
    s.setTile t (x.setIn k { p with due := p.due.map fun o => if o.by_ == c.uid then { o with dead := true } else o })) s

/-- A failed write traverse: the port's later beats are discarded and counted until another command takes them. -/
def State.endTake (s : State) (c : CmdSt) : State :=
  match c.endPt with
  | some e =>
    if c.isWrite && e.ekind == 0 then
      (match s.holder c.region e.canon with
       | some t =>
         let x := s.tile t
         let o := x.out e.port
         if o.trav == some c.uid then
           s.setTile t ({ x with errCount := x.errCount + o.q.length }.setOut e.port { o with trav := none, discard := true, q := [] })
         else s
       | none => s)
    else s
  | none => s

/-- The command completes FAULTED with no signal. -/
def State.failCmd (s : State) (ctx eng : Nat) (c : CmdSt) : State :=
  let s1 := if s.stale c || c.cls == 1 && c.isWrite then s else s.killOwed c
  let s2 := if s.stale c then s1 else s1.endTake c
  let s3 := s2.setCmd ctx eng { c with phase := .faulted, row := [] }
  if eng / 8 % 4 == 3 then s3.setCtx ctx { s3.ctx ctx with kvpHeld := false } else s3

/-! FLTACK (R306). -/

/-- FLTPEND clears: what it held starts again from zero (R351). -/
def State.clearPend (s : State) (c : Nat) : State :=
  let s1 := s.setCtx c { s.ctx c with fltpend := false }
  { s1 with regions := s1.regions.map fun (g, r) => if r.ctx == c then (g, { s.rewatch r with reqCycle := s.cycle }) else (g, r) }

/-- The head record leaves the queue. -/
def State.popRecord (s : State) (r : FltRec) : State :=
  let s1 := { s with fq := s.fq.drop 1, fqhead := s.fqhead + 1 }
  if s1.fq.any fun x => x.ctx == r.ctx then s1 else s1.clearPend r.ctx

/-- The effect of an action on the agent of a record; none where it is refused with STATE: 0 RESUME, 1 KILL, 2 FAILCMD, 3 NOTE. -/
def State.settleRecord (s : State) (act : Nat) (r : FltRec) : Option State :=
  match act with
  | 0 => if r.resumable then some (if s.agentStopped r then s.resumeAgent r else s) else none
  | 1 => r.region.map fun _ => match s.regionOf r with | some g => s.killRegion g r.cls | none => s
  | 2 =>
    if r.engine then
      some (match s.recordCmd r with | some (c, e, x) => s.failCmd c e x | none => s)
    else none
  | _ => if s.agentStopped r then none else some s

/-- FLTACK of a record number: the state after it; none for STATE. -/
def State.fltack (s : State) (act rec_ : Nat) : Option State :=
  match s.fq with
  | [] => none
  | r :: _ => if rec_ = s.fqhead then (s.settleRecord act r).map fun s1 => s1.popRecord r else none

/-! Writing records (R289). -/

def State.fqFull (s : State) : Bool := 2 ^ s.fqsize ≤ s.fqtail - s.fqhead

/-- FAULT_RECORD_WRITE (R289, R292, R350): the oldest record waiting enters the queue once its cycle is over, so that those of one cycle are in order; while it
is full a SEM_OVF record is dropped and counted
and any other is held. -/
def execFaultRecordWrite (s : State) : Res :=
  .next
    (match s.held with
     | [] => s
     | r :: rs =>
       if r.cycle == s.cycle then s
       else if s.fqFull then
         (match s.held.find? fun x => x.cls == 0x11 with
          | some x => { s with held := s.held.erase x, fqdrop := (s.fqdrop + 1) % 2 ^ 32 }
          | none => s)
       else
         let s1 := s.devWrite (s.fqbase + 64 * (s.fqtail % 2 ^ s.fqsize)) (r.words.flatMap fun w => leBytes 8 w.toNat)
         let s2 := { s1 with held := rs, fq := s1.fq ++ [r], fqtail := s1.fqtail + 1 }
         s2.setCtx r.ctx { s2.ctx r.ctx with fltpend := true })

end Sys2Proof.Machine
end

