-- ==== Sys2Proof/Machine/PrivNodes.lean ====
section
/-!
DEFINITION. The privileged nodes KRD, KWR, SLOTW, GENBUMP and FLTACK (R300–R306).
-/
namespace Sys2Proof.Machine

/-- The beat of a privileged node: result and status (R300). -/
def privBeat (a : Args) (result status : Nat) : Out := a.out (lanes64 [result, status])

/-- A privileged node acts on a PRESENT L alone (R300); `f` gives none while it waits. -/
def privNode (n : Node) (s : State) (f : Nat → Nat → Args → Option (State × Out)) : State :=
  fireWith n s fun t k a =>
    match a.l with
    | .val _ => if a.r.isAbsent then some (s, noIdent n [a.r] (.same Beat.none)) else f t k a
    | _ => some (s, if n.pol == .fault && a.l.isAbsent then .absentUse else .same Beat.none)

/-- Whether every node of an opcode at a lower position of the tile has acted in this instant: such nodes apply in ascending word
position (R302, R303, R306). -/
def opTurn (x : Tile) (o : Op) (k : Nat) : Bool :=
  (opsWhere x.words (fun p => p == o)).all fun j => !(j < k) || (x.node j).fired

/-- KRD: the register as at the cycle of firing (R302). -/
def execKrd (n : Node) (s : State) : Res :=
  .next (privNode n s fun _ _ a =>
    match regRead s (lane64 a.l.get 0) with
    | some v => some (s, privBeat a v RegStatus.ok.code)
    | none => some (s, privBeat a 0 RegStatus.noreg.code))

/-- KWR: lane 0 is the register after the write (R302); it waits where the write's effect waits (R398). -/
def execKwr (n : Node) (s : State) : Res :=
  .next (privNode n s fun t k a =>
    if !opTurn (s.tile t) .kwr k then none
    else
      let addr := lane64 a.l.get 0
      match regWrite s t addr (lane64 a.r.get 0) with
      | none => some (s.regWait addr (lane64 a.r.get 0), .stop)
      | some (s1, st) => some (s1, privBeat a ((regRead s1 addr).getD 0) st.code))

/-! SLOTW (R303). -/

/-- Whether an engine identifier and entry number name an entry. -/
def slotNamed (e i : Nat) : Bool :=
  e / 2 ^ 10 == 0 && e % 8 ≤ 5 && (e / 8 % 4 == 0 || e / 32 == 0) && i ≤ 63

/-- The status of a write of value v over an entry. -/
def slotStatus (s : State) (e i v : Nat) : RegStatus :=
  if !slotNamed e i || v / 2 ^ 11 != 0 then .refused
  else
    let old := (s.table e).pending i
    if old.v && old.rsv && !(Slot.ofNat v).rsv && (s.ctx old.ctx).fxt && (s.ctx old.ctx).state == 2 then .state else .ok

/-- The SLOTWs of a tile that have not acted in its instant. -/
def Tile.slotwTodo (x : Tile) : List Nat :=
  (opsWhere x.words fun o => o == .slotw).filter fun k => !(x.node k).fired && (match (x.node k).loc with | .slotw _ _ _ => false | _ => true)

/-- One SLOTW acts: what it answers stands in its own state until it emits. -/
def State.slotApply (s : State) (t k : Nat) : State :=
  let x := s.tile t
  match nodeAt x.words k with
  | none => s
  | some (_, n) =>
    match (x.args n k).l, (x.args n k).r with
    | .val y, .val z =>
      let e := lane64 y 0
      let i := lane64 y 1
      let v := lane64 z 0
      (match slotStatus s e i v with
       | .ok => (s.slotWrite e i (Slot.ofNat v)).setLoc t k (.slotw ((s.table e).pending i).toNat ((s.cycle / 64 + 1) * 64) RegStatus.ok.code)
       | st => s.setLoc t k (.slotw 0 s.cycle st.code))
    | _, _ => s

/-- What a SLOTW that has acted emits: the old entry, once the new one is in effect. -/
def State.slotEmit (s : State) (t k : Nat) (a : Args) : State × Out :=
  match ((s.tile t).node k).loc with
  | .slotw old at_ st => if s.cycle < at_ then (s, .stop) else (s.setLoc t k .idle, privBeat a old st)
  | _ => (s, .stop)

/-- SLOTW: those of one instant act together, in ascending word position, so that their writes take effect at one start; one whose inputs depend on
another's beat comes later. DEDUCED, notes/assumptions/98.md. -/
def execSlotw (n : Node) (s : State) : Res :=
  .next (privNode n s fun t k a =>
    let x := s.tile t
    let todo := x.slotwTodo
    if !todo.contains k then some (s.slotEmit t k a)
    else
      let now := todo.filter x.resolved
      let later := reachFrom x.slotNext x.nodes.length now []
      if todo.all fun j => now.contains j || later.contains j then some ((now.foldl (fun s j => s.slotApply t j) s).slotEmit t k a) else none)

/-! GENBUMP (R304). -/

def execGenbump (n : Node) (s : State) : Res :=
  .next (privNode n s fun _ _ a =>
    let g := lane64 a.l.get 0
    let r := s.region g
    if 1024 ≤ g then some (s, privBeat a 0 RegStatus.refused.code)
    else if r.valid && !r.susp then some (s, privBeat a 0 RegStatus.state.code)
    else if s.genInFlight g ((r.gen + 1) % 256) then none
    else some (s.bump g, privBeat a ((r.gen + 1) % 256) RegStatus.ok.code))

/-- STALE_REPLY_DISCARD (R295): a late reply of an old generation is discarded and counted. -/
def execStaleReplyDiscard (region gen : Nat) (s : State) : Res :=
  .next
    (let r := s.region region
     if r.late.contains gen && gen != r.gen then
       s.setRegion region { r with late := r.late.erase gen, stale := (r.stale + 1) % 2 ^ 32 }
     else s)

/-! FLTACK (R306). -/

/-- An action on the head record of the fault queue: lane 0 is the new FQHEAD. -/
def fltackNode (act : Nat) (n : Node) (s : State) : State :=
  privNode n s fun t k a =>
    if !opTurn (s.tile t) .fltack k then none
    else
      match s.fltack act (lane64 a.l.get 0) with
      | some s1 => some (s1, privBeat a s1.fqhead RegStatus.ok.code)
      | none => some (s, privBeat a s.fqhead RegStatus.state.code)

def execFltackResume (n : Node) (s : State) : Res := .next (fltackNode 0 n s)
def execFltackKill (n : Node) (s : State) : Res := .next (fltackNode 1 n s)
def execFltackFailcmd (n : Node) (s : State) : Res := .next (fltackNode 2 n s)
def execFltackNote (n : Node) (s : State) : Res := .next (fltackNode 3 n s)

end Sys2Proof.Machine
end

