-- ==== Sys2Proof/Machine/Streams.lean ====
section
/-!
DEFINITION. The stream commands TRAVRD, TRAVWR and TRAVMC, their beats, and the stall of a multicast fork (R151–R154, R158, R160–R162, R200).
-/
namespace Sys2Proof.Machine

/-- A read stream set up: nothing is delivered yet (R151, R200). -/
def startStream (s : State) (ctx eng : Nat) (c : CmdSt) : State :=
  s.setCmd ctx eng { c.markSetUp with pos := 0, bytes := 0, row := [], head := 0, tail := 0 }

def execTravrd (c : Cmd) (s : State) : Res := .next (atSetUp s (cmdWords 1 1 c) (startStream s))
def execTravmc (c : Cmd) (s : State) : Res := .next (atSetUp s (cmdWords 1 3 c) (startStream s))

/-- TRAVWR: the output port's beats are its own from now on; it waits while an earlier traverse takes them (R153). -/
def execTravwr (c : Cmd) (s : State) : Res :=
  .next (atSetUp s (cmdWords 1 2 c) fun ctx eng c =>
    match c.endPt with
    | some e =>
      if e.ekind == 0 then
        (match s.holder c.region e.canon with
         | some t =>
           let o := (s.tile t).out e.port
           if o.trav.isSome then s
           else startStream (s.setTile t ((s.tile t).setOut e.port { o with trav := some c.uid, discard := false })) ctx eng c
         | none => s)
      else startStream s ctx eng c
    | none => s)

/-- TRAVERSE_BEAT (R153): a read traverse delivers its next beat; a write traverse with a buffer endpoint takes its next one. -/
def execTraverseBeat (ctx eng issue : Nat) (s : State) : Res :=
  .next (s.atTurn ctx eng issue fun s c =>
    if c.cls != 1 then s
    else if !c.isWrite then readBeat s ctx eng c
    else
      match c.endPt with
      | some e =>
        if e.ekind != 1 then s
        else if !c.row.isEmpty then writeBeat s ctx eng c
        else
          match takeFromBuf s ctx eng c e with
          | .wait => s
          | .fault s1 => s1
          | .ok s1 c1 => writeBeat s1 ctx eng c1
      | none => s)

/-- TRAVWR_BEAT (R153): the head PRESENT beat of an output port is written as the next beat of the traverse that takes its beats. -/
def execTravwrBeat (t k : Nat) (s : State) : Res :=
  .next
    (match ((s.tile t).out k).trav with
     | none => s
     | some uid =>
       let ctx := s.cmdCtx t
       match (s.ctx ctx).engineOf uid with
       | none => s
       | some eng =>
         s.atTurn ctx eng uid fun s c =>
           if !c.row.isEmpty then writeBeat s ctx eng c
           else
             let o := (s.tile t).out k
             match o.q with
             | [] => s
             | (cy, b) :: rest =>
               let s1 := s.setTile t ((s.tile t).setOut k { o with q := rest })
               writeBeat s1 ctx eng ({ c with row := payBytes 64 b.data, cycle := cy }.slide c))

/-- A branch of a fork that has not been ready for the stall limit while the fork holds a beat (R161). -/
def State.branchStalled (s : State) (c : CmdSt) (fork : PortCfg) (t k : Nat) : Bool :=
  setUp c && c.kind == 3 && c.phase == .started && !s.stale c && !(s.region c.region).susp && !(s.tileRegion t).susp && c.holdsBeat &&
    !((s.tile t).inPort k).streamRoom && decide (c.since + stallLimit fork.legend ≤ s.cycle)

/-- A branch cut (R162): the CONTROL/DETACHED beat says from which instant on which command's beats are cut. -/
def State.cutBranch (s : State) (ctx eng : Nat) (c : CmdSt) (t k i : Nat) : State :=
  let s1 := s.portSend (t, k) (Beat.ctl 4 (c.first + c.readAt.1 + c.uid * 2 ^ 64))
  let s2 := s1.setRegion c.region { s1.region c.region with detached := true }
  s2.setCmd ctx eng { c with cut := c.cut ++ [i] }

/-- MCAST_STALL (R161, R162): a branch that has not been ready for the fork's stall limit while the fork holds a beat. -/
def execMcastStall (ctx eng issue branch : Nat) (s : State) : Res :=
  .next
    (match s.startedOf ctx eng issue with
     | none => s
     | some c =>
       match (s.livePorts c).find? fun (_, i) => i == branch with
       | none => s
       | some ((t, k), i) =>
         let x := s.tile t
         match (s.region c.region).forkEntry ((c.endPt.getD default).group) x.canon k with
         | none => s
         | some fork =>
           if !s.branchStalled c fork t k then s
           else if bitAt fork.legend 35 then s.cutBranch ctx eng c t k i
           else
             (s.stopConsumers c |>.setCmd ctx eng { c with phase := .stopped }).raise
               { s.engFlt ctx eng c with cls := 0x0C, engine := false, tile := (s.holder c.region fork.canon).getD c.tile,
                                         f6 := branch % 8 + t * 8 + k * 2 ^ 16, f7 := c.readAt.1, agent := .region x.region })

end Sys2Proof.Machine
end

