-- ==== Sys2Proof/Machine/SaveArea.lean ====
section
/-!
DEFINITION. Saving and restoring a suspended region: what is kept (R364), the save area (R369), REGSAVE and REGLOAD (R305), and the
replay of staged contents (R148, R365).
-/
namespace Sys2Proof.Machine

/-! Layout (R369). -/

/-- Bytes of pieces at rising offsets, zeros between them and up to the total. -/
def layout : Nat → List (Nat × List Byte) → Nat → List Byte
  | pos, [], n => List.replicate (n - pos) 0#8
  | pos, (o, bs) :: r, n => List.replicate (o - pos) 0#8 ++ bs ++ layout (o + bs.length) r n

def page4k (n : Nat) : Nat := ceilDiv n 4096 * 4096

/-- The streams bound to a region, with their engines, by number of command; one that a fault has stopped is among them (R364). -/
def State.streamsOf (s : State) (r : Nat) : List (Nat × CmdSt) :=
  (s.ctx (s.region r).ctx).queues.flatMap fun (e, q) =>
    (q.started.filter fun c => c.region % 1024 == r && c.gen == (s.region r).gen && c.isStream && (c.phase == .started || c.phase == .stopped)).map fun c => (e, c)

/-- A stream's record of 128 bytes. -/
def streamRecord (c : CmdSt) : List Byte :=
  let (i0, i1, i2, i3) := if c.cls == 1 then c.trav.index c.pos else (c.pos, 0, 0, 0)
  layout 0 [(0, c.words.flatMap fun w => leBytes 8 w.toNat), (64, [i0, i1, i2, i3].flatMap (leBytes 4)),
            (80, leBytes 8 (c.first + c.beatsOut)), (88, leBytes 8 c.beatsOut), (96, [BitVec.ofNat 8 (boolNat c.bound)])] 128

/-- The AGEN nodes of a block by descriptor: the first that names it. -/
def Tile.agenNode (x : Tile) (d : Nat) : Option Nat :=
  (opsWhere x.words (fun o => o == .agen)).find? fun k =>
    match nodeAt x.words k with | some (_, n) => n.aux.toNat / 16 == d | none => false

def agenRecord (l : Local) : List Byte :=
  let (i, j, k, e, _) := agenPos l
  [i, j, k, boolNat e].flatMap (leBytes 8)

/-- The A banks that are saved, by a mask (R364, R365). -/
def bankMask (bs : List Nat) : Nat := (bs.map fun b => 2 ^ b).foldl (· ||| ·) 0

/-- A tile's record of 8 KiB. -/
def tileRecord (r : Region) (t : Nat) (x : Tile) : List Byte :=
  let dls := if x.hdr.keep then x.dl else []
  layout 0
    [(0, leBytes 4 t ++ leBytes 2 x.leaf ++ leBytes 2 x.canon ++ leBytes 2 (bankMask x.abanks) ++ [BitVec.ofNat 8 (boolNat (!x.hdr.acr))]),
     (16, leBytes 8 (x.restart.getD 0)),
     (64, (List.range 8).flatMap fun k => payBytes 64 (x.sxRead k)),
     (576, (List.range 64).flatMap fun k => payBytes 64 (tget Beat.none dls k).data),
     (4672, leBytes 8 (packNat 1 ((List.range 64).map fun k => boolNat (tget Beat.none dls k).present))),
     (4736, (List.range 8).flatMap fun i => let c := x.cb i; [c.filled, c.free, c.wc, c.rc].flatMap (leBytes 4)),
     (4864, (List.range 16).flatMap fun d => agenRecord (match x.agenNode d with | some k => (x.node k).loc | none => .idle)),
     (5376, leBytes 8 x.mx.nextSeq),
     (5440, ((x.staging.take 32).flatMap fun ws => (ws.take 4).flatMap fun w => leBytes 8 w.toNat))] 8192

/-- A tile's section: record, C-buffer, saved A banks. -/
def tileSection (r : Region) (t : Nat) (x : Tile) : List Byte :=
  let banks := (List.range 12).filter fun b => x.abanks.contains b
  let bs := tileRecord r t x ++ (if x.hdr.acr then [] else x.c.readN 0 (x.hdr.cbuf * 1024)) ++ banks.flatMap fun b => x.a.readN (b * 16384) 16384
  bs ++ List.replicate (page4k bs.length - bs.length) 0#8

/-- The save area of a region with given streams. DESIGN CHOICE, notes/assumptions/45.md. -/
def saveBytesOf (s : State) (g : Nat) (strs : List (Nat × CmdSt)) (ts : List (Nat × Tile)) : List Byte :=
  let r := s.region g
  let streams := strs.flatMap fun (_, c) => streamRecord c
  let body := streams ++ List.replicate (page4k streams.length - streams.length) 0#8 ++ ts.flatMap fun (t, x) => tileSection r t x
  layout 0
    [(0, leBytes 4 0x53564131 ++ leBytes 2 g ++ leBytes 1 r.ctx ++ leBytes 1 r.gen ++ leBytes 1 (boolNat r.form)),
     (12, leBytes 4 ts.length), (16, leBytes 8 r.inst), (24, leBytes 8 r.round), (32, leBytes 8 (4096 + body.length)),
     (40, leBytes 4 strs.length)] 4096 ++ body

/-- The save area of a region; of one that is parked it holds the parked tiles and streams. -/
def saveBytes (s : State) (g : Nat) (ts : List (Nat × Tile)) : List Byte :=
  saveBytesOf s g (if (s.region g).parked.isEmpty then s.streamsOf g else (s.region g).parkedCmds) ts

/-- A region's tiles in ascending logical identifier. -/
def sortNats (l : List Nat) : List Nat :=
  l.foldl (fun acc x => acc.filter (· < x) ++ [x] ++ acc.filter (x < ·)) []

def State.tilesOf (s : State) (g : Nat) : List (Nat × Tile) := (sortNats ((s.home g).allTiles.filter fun t => !(s.tile t).words.isEmpty)).map fun t => (t, s.tile t)

/-- What both nodes check first (R305). -/
def saveStatus (s : State) (g a : Nat) : RegStatus :=
  if 1024 ≤ g || a % 4096 != 0 then .refused else if !(s.region g).susp then .state else .ok

/-! REGSAVE. -/

/-- The region's streams leave their engines, and its tiles may be given away (R368). -/
def State.park (s : State) (g : Nat) (ts : List (Nat × Tile)) : State :=
  let r := s.region g
  let strs := s.streamsOf g
  let s1 := strs.foldl (fun s (e, c) => s.dropCmd r.ctx e c.uid) s
  s1.setRegion g { s1.region g with parked := ts, parkedCmds := strs, saved := some r.gen }

/-- REGSAVE (R305): it emits once every byte is performed. -/
def execRegsave (n : Node) (s : State) : Res :=
  .next (privNode n s fun t k a =>
    let g := lane64 a.l.get 0
    let va := lane64 a.r.get 0
    match saveStatus s g va with
    | .ok =>
      let ts := if (s.region g).parked.isEmpty then s.tilesOf g else (s.region g).parked
      let bs := saveBytes s g ts
      (match s.engWrite (Config.dieOf t) (s.accessCtx t) (isSup t) va bs with
       | .error f => some (s.elemFault t k f true false 0, .stop)
       | .ok s1 => some ((if (s.region g).parked.isEmpty then s1.park g ts else s1), privBeat a bs.length RegStatus.ok.code))
    | st => some (s, privBeat a 0 st.code))

/-! REGLOAD. -/

/-- n little-endian bytes at an offset. -/
def natAt (bs : List Byte) (o n : Nat) : Nat := leNat ((bs.drop o).take n)

/-- Where a tile went. -/
def moved (m : List (Nat × Nat)) (t : Nat) : Nat := tget t m t

/-- A parked tile with what its section holds put back (R364); what is fetched again comes later. -/
def restoreTile (m : List (Nat × Nat)) (x : Tile) (bs : List Byte) : Tile :=
  let present := natAt bs 4672 8
  let cs := if x.hdr.acr then 0 else x.hdr.cbuf * 1024
  let dl := if x.hdr.keep then
      (List.range 64).map fun k => (k, if present / 2 ^ k % 2 == 1 then Beat.val (payOf ((bs.drop (576 + 64 * k)).take 64)) else Beat.none)
    else []
  let cbs := (x.cbufs.zip (List.range 8)).map fun (c, i) =>
    { c with filled := natAt bs (4736 + 16 * i) 4, free := natAt bs (4740 + 16 * i) 4, wc := natAt bs (4744 + 16 * i) 4, rc := natAt bs (4748 + 16 * i) 4 }
  let nodes := (List.range 16).foldl (fun ns d =>
    match x.agenNode d with
    | some k =>
      let o := 4864 + 32 * d
      lset ns k { x.node k with loc := .agen (natAt bs o 8) (natAt bs (o + 8) 8) (natAt bs (o + 16) 8) (natAt bs (o + 24) 8 == 1) [] }
    | none => ns) x.nodes
  let outs (os : List (Nat × OutPort)) := os.map fun (k, o) => (k, { o with dests := o.dests.map fun (t, p) => (moved m t, p) })
  { x with leaf := natAt bs 4 2, canon := natAt bs 6 2, sx := (List.range 8).map fun k => (k, payOf ((bs.drop (64 + 64 * k)).take 64)),
           dl := dl, cbufs := cbs, nodes := nodes, mx := { x.mx with nextSeq := natAt bs 5376 8 }, w := [], a := [],
           c := if x.hdr.acr then x.c else Memory.writeN [] 0 ((bs.drop 8192).take cs), outs := outs x.outs, dones := outs x.dones }

/-- The banks that are saved put back over what was fetched again: the A banks of the tile's section, and the W banks past its staging records, for which the
layout has no place (R148, R364, R365). -/
def restoreBanks (x : Tile) (parked : Tile) (bs : List Byte) : Tile :=
  let cs := if x.hdr.acr then 0 else x.hdr.cbuf * 1024
  let banks := (List.range 12).filter fun b => natAt bs 8 2 / 2 ^ b % 2 == 1
  let a := (banks.zip (List.range 12)).foldl (fun a (b, i) => Memory.writeN a (b * 16384) ((bs.drop (8192 + cs + i * 16384)).take 16384)) x.a
  let w := parked.wbanks.foldl (fun w b => Memory.writeN w (b * 32768) (parked.w.readN (b * 32768) 32768)) x.w
  { x with a := a, w := w }

/-- A parked stream with what its record holds put back, under the region's new generation. -/
def restoreCmd (m : List (Nat × Nat)) (gen : Nat) (c : CmdSt) (bs : List Byte) : CmdSt :=
  let ws := (List.range 8).map fun i => BitVec.ofNat 64 (natAt bs (8 * i) 8)
  let c1 := { c with words := ws, gen := gen, tile := moved m c.tile }
  let i (k : Nat) := natAt bs (64 + 4 * k) 4
  let t := c1.trav
  let pos := if c1.cls == 1 then ((i 3 * t.count 2 + i 2) * t.count 1 + i 1) * t.count 0 + i 0 else i 0
  { c1 with pos := pos, first := natAt bs 80 8 - natAt bs 88 8, bound := natAt bs 96 1 == 1 }

/-- A staged command replayed to its end (R365): none when it stops on a fault. -/
def runStaged (eng : Nat) : Nat → State → CmdSt → Option State
  | 0, s, c => some (s.dropCmd (s.region c.region).ctx eng c.uid)
  | n + 1, s, c =>
    let ctx := (s.region c.region).ctx
    let s1 := if c.cls == 1 then (if setUp c then readBeat s ctx eng c else startStream s ctx eng c)
      else if c.cls == 2 then copyRun (copyStep s ctx eng c) ctx eng
      else (replayStep s ctx eng c).getD s
    match s1.startedOf ctx eng c.uid with
    | some d =>
      if d.phase == .started then runStaged eng n s1 d
      else if d.phase == .performed then some (s1.dropCmd ctx eng c.uid)
      else none
    | none => none

/-- One staged command of a tile. -/
def replayOne (s : State) (t : Nat) (ws : List W64) : Option State :=
  let x := s.tile t
  let r := s.region x.region
  let eng := s.engOf t (cmdClass ws)
  let c : CmdSt :=
    { uid := s.uidNo, issue := 0, region := x.region, gen := r.gen, tile := t, canon := x.canon, slot := 0, inst := 0, words := ws,
      actx := some r.ctx, cov := [], cport := none, bound := false, phase := .started, cycle := s.cycle, pos := 0, bytes := 0, first := 0, lanes := [],
      row := [], acq := [], mark := 0, reason := 0, cut := [], beats := 0, delay := 0, extra := 0, host := false, since := 0, kept := [], head := 0, tail := 0 }
  let q := (s.ctx r.ctx).queue eng
  runStaged eng (c.trav.beats + c.len + 4)
    ({ s with uidNo := s.uidNo + 1 }.setCtx r.ctx ((s.ctx r.ctx).setQueue eng { q with started := q.started ++ [c] })) c

/-- A tile's staged contents fetched again, in the order they were staged; circular buffers fill from their first slot, and keep the
counters that were saved (R148, R365). -/
def replayTile (s : State) (t : Nat) : Option State :=
  let x := s.tile t
  let empty (c : CBuf) : CBuf := { c with filled := 0, free := c.slots, wc := 0, rc := 0, acqW := [], acqR := [] }
  let s0 := s.setTile t { x with cbufs := x.cbufs.map empty }
  let full (s : State) : State :=
    s.setTile t { s.tile t with cbufs := (s.tile t).cbufs.map fun c => { c with filled := 0, free := c.slots } }
  ((x.staging.take 32).foldl (fun acc ws => acc.bind fun s => (replayOne s t ws).map full) (some s0)).map fun s1 =>
    s1.setTile t { s1.tile t with cbufs := x.cbufs }

/-- The tiles that REGTILES names (R294): a count, then identifiers; the region's own where the loader wrote the register, or where it is 0 (R317). -/
def State.regTiles (s : State) (t g : Nat) : Except XFault (List Nat) :=
  let r := s.region g
  if r.tilesOwn || r.tilesAddr = 0 then .ok (r.parked.map (·.1))
  else
    match s.engRead (Config.dieOf t) (s.accessCtx t) (isSup t) r.tilesAddr 4 with
    | .error f => .error f
    | .ok (hd, _) =>
      match s.engRead (Config.dieOf t) (s.accessCtx t) (isSup t) (r.tilesAddr + 4) (4 * min (leNat hd) 4096) with
      | .error f => .error f
      | .ok (bs, _) => .ok (elemsAux 32 (min (leNat hd) 4096) (leNat bs))

/-- Where the parked tiles of a region go: to those listed, in order; an instance for which none is listed, or only one that the region may not have (R296),
keeps its tile. -/
def Region.moves (r : Region) (tiles : List Nat) : List (Nat × Nat) :=
  ((r.parked.map (·.1)).zip tiles).filter fun (_, u) => r.ctx == 0 || u < 4096

/-- The parked tiles of a region, each with its section of the save area. -/
def Region.sections (r : Region) (bs : List Byte) : List (Nat × Tile × List Byte) :=
  let put (acc : List (Nat × Tile × List Byte) × Nat) (p : Nat × Tile) : List (Nat × Tile × List Byte) × Nat :=
    let x := p.2
    let sec := bs.drop acc.2
    let banks := ((List.range 12).filter fun b => natAt sec 8 2 / 2 ^ b % 2 == 1).length
    (acc.1 ++ [(p.1, x, sec)], acc.2 + page4k (8192 + (if x.hdr.acr then 0 else x.hdr.cbuf * 1024) + banks * 16384))
  (r.parked.foldl put ([], 4096 + page4k (128 * natAt bs 40 4))).1

/-- The region with its tiles and streams back in place. -/
def State.unpark (s : State) (g : Nat) (tiles : List Nat) (bs : List Byte) : State :=
  let r := s.region g
  let m := r.moves tiles
  let s1 := (r.sections bs).foldl (fun s (t, x, sec) => s.setTile (moved m t) (restoreTile m x sec)) s
  let s2 := (r.parkedCmds.zip (List.range (natAt bs 40 4))).foldl (fun s ((e, c), i) =>
    let q := (s.ctx r.ctx).queue e
    s.setCtx r.ctx ((s.ctx r.ctx).setQueue e { q with started := q.started ++ [restoreCmd m r.gen c (bs.drop (4096 + 128 * i))] })) s1
  let s3 := (s2.retag g fun c => { c with gen := r.gen, tile := moved m c.tile })
  let mine (k : Nat) : List Nat := (r.parked.filter fun (_, x) => x.region == k && !x.words.isEmpty).map fun (t, _) => moved m t
  let s3 := (s3.family g).foldl (fun s k => s.setRegion k { s.region k with tiles := mine k }) s3
  s3.setRegion g { s3.region g with allTiles := r.parked.map fun (t, _) => moved m t, inst := natAt bs 16 8, round := natAt bs 24 8,
                                    parked := [], parkedCmds := [] }

/-- A region that keeps its tiles, or has been restored before, gives them up to be restored: they are taken from where they stand. -/
def State.lift (s : State) (g : Nat) : State :=
  if !(s.region g).parked.isEmpty then s
  else
    let ts := s.tilesOf g
    let s1 := s.park g ts
    (ts.map (·.1)).foldl State.freeTile (s1.setRegion g { s1.region g with saved := (s.region g).saved })

/-- REGLOAD (R305): the saved state is restored, staged contents are fetched again, and the banks saved are put over them; the region stays suspended.
DEDUCED, notes/assumptions/59.md. -/
def execRegload (n : Node) (s : State) : Res :=
  .next (privNode n s fun t k a =>
    let g := lane64 a.l.get 0
    let va := lane64 a.r.get 0
    let fail (f : XFault) : Option (State × Out) := some (s.elemFault t k f false false 0, .stop)
    match saveStatus s g va with
    | .ok =>
      let s0 := s.lift g
      let r := s0.region g
      (match s0.engRead (Config.dieOf t) (s.accessCtx t) (isSup t) va 256, s0.regTiles t g with
       | .error f, _ => fail f
       | _, .error f => fail f
       | .ok (hd, _), .ok tiles =>
         if natAt hd 4 2 != g || natAt hd 6 1 != r.ctx || natAt hd 7 1 == r.gen then some (s, privBeat a 0 RegStatus.state.code)
         else
           match s0.engRead (Config.dieOf t) (s.accessCtx t) (isSup t) va (natAt hd 32 8) with
           | .error f => fail f
           | .ok (bs, s1) =>
             let s2 := s1.unpark g tiles bs
             match (s2.region g).allTiles.foldl (fun acc u => acc.bind fun s => replayTile s u) (some s2) with
             | some s3 =>
               let s4 := (r.sections bs).foldl (fun s (u, x, sec) =>
                 let v := moved (r.moves tiles) u
                 s.setTile v (restoreBanks (s.tile v) x sec)) s3
               some (s4, privBeat a bs.length RegStatus.ok.code)
             | none => fail ⟨2, 2, va, 0, 0⟩)
    | st => some (s, privBeat a 0 st.code))

end Sys2Proof.Machine
end

