-- ==== Sys2Proof/Machine/Fabric.lean ====
section
/-!
DEFINITION. Instants, beats, quiescence and rounds: beginning and ending instants (R15, R29, R30, R39), beats that arrive (R11–R14, R66, R129, R131,
R162, R164), causality and the watchdogs (R25–R28, R40, R41, R237), the meridian and its commit (R31–R33, R166, R218–R220, R357), and the end
of an invocation (R34, R128).
-/
namespace Sys2Proof.Machine

/-- What a restart mark records at the start of instant m: AGEN positions, and the beats sent on each output port (R129). -/
def Tile.markOf (x : Tile) (m : Nat) : Nat × List (Nat × Local) × List (Nat × Nat) :=
  (m, (List.range x.nodes.length).filterMap fun k => (match (x.node k).loc with | .agen i j l e h => some (k, .agen i j l e h) | _ => none),
   x.outs.map fun (k, o) => (k, o.nextOwed))

/-! The beginning of an instant. -/

/-- The instant that a tile begins next. -/
def Tile.nextInst (x : Tile) : Nat := if x.begun then x.inst + 1 else x.inst

/-- Whether every node that may end the round has fired for the instants before n: until then no tile begins n (R30, R31). DEDUCED, notes/assumptions/14.md. -/
def State.roundOpen (s : State) (g n : Nat) : Bool :=
  let r := s.region g
  (match r.ended with | some m => n ≤ m | none => true) &&
    r.tiles.all fun t =>
      let x := s.tile t
      (opsWhere x.words fun o => o == .merid || o == .endk).all fun k => n ≤ x.inst || (x.inst + 1 == n && x.begun && (x.node k).fired)

/-- Whether a tile may begin its next instant, the clock apart (R30, R141, R350, R363). DEDUCED, notes/assumptions/14.md. -/
def State.mayBegin (s : State) (t : Nat) : Bool :=
  let x := s.tile t
  let r := s.region x.region
  let h := s.home x.region
  r.phase == .running && r.unbound.isEmpty && r.tiles.contains t && !x.words.isEmpty && x.next.isNone && !(s.ctlHalt && decide (4096 ≤ t)) && !s.halted x.region &&
    (if x.begun then x.allFired else !(h.busy && x.inst == r.roundBase && r.tiles.all fun u => !(s.tile u).begun)) &&
    (!x.begun || s.roundOpen x.region (x.inst + 1)) &&
    (if (s.ctx r.ctx).fxt then x.begun || !s.broken x.region else !s.broken x.region)

/-- A sampled port takes its beat for the instant: the oldest completion held, if it arrived before this cycle (R15). -/
def InPort.latch (p : InPort) (cycle : Nat) : InPort :=
  if !p.sampled then p
  else
    match p.held with
    | (c, b) :: rest => if c < cycle then { p with latched := some b, held := rest } else { p with latched := none }
    | [] => { p with latched := none }

/-- Streams that feed a tile's ports, each with its port. -/
def State.feeders (s : State) (t : Nat) : List (Nat × CmdSt) :=
  let x := s.tile t
  let c := (s.region x.region).ctx
  (s.ctx c).queues.flatMap fun (_, q) => (q.started.filter fun d => d.phase == .started && !d.isWrite && d.isStream && !s.stale d).flatMap fun d =>
    (s.endPorts d).filterMap fun (u, k) => if u == t then some (k, d) else none

/-- A restart mark of instant n that has ended: each SE that feeds the region sends CONTROL/RESTART behind its beat (R129). -/
def State.sendRestarts (s : State) (g n : Nat) : State :=
  (s.region g).tiles.foldl (fun s t => (s.feeders t).foldl (fun s (k, _) => s.portSend (t, k) (Beat.ctl 5 n)) s) s

/-- A tile begins its next instant. -/
def State.beginInstant (s : State) (t : Nat) : State :=
  let x := s.tile t
  let r := s.region x.region
  let m := x.nextInst
  let x1 := x.endInstant s.cycle
  let nodes := x1.nodes.map fun n => { n with l := none, r := none, p := none, fired := false, issued := false, passed := false }
  let c := s.ctx (s.cmdCtx t)
  let marked := x.begun && x.mark == some x.inst
  let restart := if x.begun then x.mark else x.restart
  let from_ := match restart with | some n => n + 1 | none => r.roundBase
  let x2 := { x1 with
    nodes := nodes, inst := m, begun := true, inPorts := x1.inPorts.map (fun (k, p) => (k, p.latch s.cycle)), beginCycle := s.cycle,
    sems := c.sems.map (fun (i, y) => (i, y.asOf s.cycle)), dbg := (s.ctx r.ctx).debug, restart := restart,
    marks := if x.hdr.acr then x1.marks.filter (fun p => from_ ≤ p.1 && p.1 != m) ++ [x1.markOf m] else [] }
  let s1 := s.setTile t x2
  let s2 := if marked then s1.sendRestarts x.region x.inst else s1
  s2.pumpSto t

/-- INSTANT_BEGIN (R30): in an elastic context. Launch bindings that waited for room enter their queues first (R190). -/
def execInstantBegin (t : Nat) (s0 : State) : Res :=
  .next
    (let s := s0.bindMore (s0.tile t).region
     if !(s.ctx (s.tileCtx t)).fxt && s.mayBegin t then s.beginInstant t else s)

/-- The cycle at which a tile of a fixed-timing region begins its next instant (R39). -/
def State.dueCycle (s : State) (t : Nat) : Nat :=
  let x := s.tile t
  let r := s.region x.region
  s.roundStart x.region + (x.nextInst - r.roundBase) * x.hdr.period

/-- The first round of an invocation starts now: its launch bindings were issued from its first instant (R41). -/
def State.startClock (s : State) (g : Nat) : State :=
  if !s.unstarted g then s
  else
    let issued (c : CmdSt) : CmdSt := if c.bound && c.region == g && !s.stale c then { c with cycle := s.cycle } else c
    (s.setRegion g { s.region g with roundCycle := s.cycle }).mapQueues fun q => { q with entries := q.entries.map issued, started := q.started.map issued }

/-- FXT_INSTANT_START (R39): every tile of the region begins its next instant in its cycle, what its matrix node had to do before that cycle
done (R237). -/
def execFxtInstantStart (g : Nat) (s0 : State) : Res :=
  .next
    (let s := s0.bindMore g
     let r := s.region g
     if (s.ctx r.ctx).fxt && !r.tiles.isEmpty && r.tiles.all (fun t => s.mayBegin t && s.dueCycle t == s.cycle && !(s.tile t).mxOverdue s.cycle) then
       r.tiles.foldl State.beginInstant (s.startClock g)
     else s)

/-- INSTANT_END (R29): the counter advances once every tile has fired every node for its instant. -/
def execInstantEnd (g : Nat) (s : State) : Res :=
  .next
    (let r := s.region g
     if r.phase != .off && r.inst < s.currentInst g then
       let n := r.inst + 1
       s.setRegion g { r with inst := n, firedInst := r.tiles.any fun t => (let x := s.tile t; n ≤ x.inst && x.begun && x.nodes.any (·.fired)) }
     else s)

/-! Beats that arrive. -/

/-- The head of a port's channel, and the port without it. -/
def InPort.head (p : InPort) : Option (Beat × InPort) :=
  match p.flight with
  | b :: bs => some (b, { p with flight := bs })
  | [] => none

def Beat.sub (b : Beat) : Nat := bitsNat b.data 0 8

/-- A CONTROL beat of a subtype at the head of a port's channel. -/
def State.atControl (s : State) (t k sub : Nat) (f : Beat → InPort → State) : State :=
  match ((s.tile t).inPort k).head with
  | some (b, p) => if b.kind == .control && b.sub == sub then f b p else s
  | none => s

/-- BEAT_ARRIVE (R12, R13, R66): a beat reaches the port's buffer, its value converted from the channel's format to the one delivered. -/
def execBeatArrive (t k : Nat) (s : State) : Res :=
  .next
    (match ((s.tile t).inPort k).head with
     | none => s
     | some (b, p) =>
       match b.kind with
       | .control => s
       | .value => s.setTile t ((s.tile t).setIn k { p with buf := p.buf ++ [{ b with data := convPayload p.fin p.fout p.rescale b.data }] })
       | _ => s.setTile t ((s.tile t).setIn k { p with buf := p.buf ++ [b] }))

/-- RESIZE_BEAT_ARRIVE (R14, R131): the router grants what its pool of 256 slots allows. -/
def execResizeBeatArrive (t k : Nat) (s : State) : Res :=
  .next (s.atControl t k 2 fun b p =>
    let x := s.tile t
    let used := (x.inPorts.map fun (_, q) => q.depth).foldl (· + ·) 0
    s.setTile t (x.setIn k { p with depth := min (bitsNat b.data 8 8) (p.depth + (256 - used)) }))

/-- HANDOVER_BEAT_ARRIVE (R11, R164): the new owner's accesses to the range go on. DEDUCED, notes/assumptions/25.md. -/
def execHandoverBeatArrive (t k : Nat) (s : State) : Res :=
  .next (s.atControl t k 3 fun b p =>
    let x := s.tile t
    let r := s.region x.region
    let i := bitsNat b.data 8 8
    (s.setTile t (x.setIn k p)).setRegion x.region
      { r with owners := r.owners.mapIdx fun j o => if j == i then { o with moving := false } else o })

/-- An owed run cut at an instant: from there on it reads ABSENT. -/
def Owe.cutFrom (o : Owe) (uid m : Nat) : List Owe :=
  if o.by_ != uid || o.start + o.count ≤ m then [o]
  else if m ≤ o.start then [{ o with dead := true }]
  else [{ o with count := m - o.start }, { o with start := m, count := o.start + o.count - m, dead := true }]

/-- DETACHED_BEAT_ARRIVE (R162): the port reads ABSENT in every later instant that the traverse would have supplied. DESIGN CHOICE, notes/assumptions/86.md. -/
def execDetachedBeatArrive (t k : Nat) (s : State) : Res :=
  .next (s.atControl t k 4 fun b p =>
    let rest := b.data.toNat / 256
    s.setTile t ((s.tile t).setIn k { p with due := p.due.flatMap fun o => o.cutFrom (rest / 2 ^ 64) (rest % 2 ^ 64) }))

/-- RESTART_BEAT_ARRIVE (R129): the sender has passed its restart mark; its position is told by the instants that it owes (R152). -/
def execRestartBeatArrive (t k : Nat) (s : State) : Res :=
  .next (s.atControl t k 5 fun _ p => s.setTile t ((s.tile t).setIn k p))

/-- CONTROL_BEAT_DISCARD (R11): a reserved subtype is discarded and counted. DEDUCED, notes/assumptions/88.md. -/
def execControlBeatDiscard (t k : Nat) (s : State) : Res :=
  .next
    (match ((s.tile t).inPort k).head with
     | some (b, p) =>
       if b.kind == .control && (b.sub == 0 || 5 < b.sub) then
         s.setTile t { (s.tile t).setIn k p with errCount := (s.tile t).errCount + 1 }
       else s
     | none => s)

/-- Whether a configuration's CONFIG beat still travels to a tile. -/
def Tile.configOwed (x : Tile) : Bool := x.inPorts.any fun (_, p) => p.flight.any fun b => b.kind == .control && b.sub == 1

/-- A tile takes the configuration of its next bank; what its router has counted stays (R29, R37, R319).
So do the bytes of every bank: one that a block leaves power-gated holds them still when a later block declares it again (R73). DESIGN CHOICE,
notes/assumptions/95.md. -/
def Tile.take (x : Tile) (b : NextBank) : Tile :=
  { Tile.fresh with
    region := x.region, leaf := b.leaf, canon := b.canon, hdr := b.hdr, words := b.words, nodes := b.words.map fun _ => NodeSt.fresh,
    w := x.w, a := x.a, c := x.c, inPorts := b.inPorts, outs := b.outs, dones := b.dones, cbufs := b.cbufs, agens := b.agens, tmpls := b.tmpls,
    errCount := x.errCount, detachCount := x.detachCount, spareDue := x.spareDue, spoilt := x.spoilt }

/-! Quiescence (R25–R28). -/

/-- What an early-firing node may fire on (R17). -/
def Tile.early (x : Tile) (k : Nat) (o : Op) (n : Node) : Bool :=
  match o with
  | .mergea => !(x.args n k).presents.isEmpty
  | .orp => (x.args n k).presents.any fun v => predAny v (n.imm.toNat + 1)
  | _ => false

/-- Whether a node that has not fired could fire as far as its inputs go. DEDUCED, notes/assumptions/38.md. -/
def State.firable (s : State) (t k : Nat) : Bool :=
  let x := s.tile t
  s.mayFire t k &&
    (match nodeAt x.words k with
     | some (.inp, n) => (s.portRead t (n.aux.toNat % 16) x.inst).isSome
     | some (o, n) => x.resolved k || x.early k o n
     | none => false)

/-- Nodes of a tile that have not fired in its instant, as word positions. -/
def Tile.unfired (x : Tile) : List Nat := ((nodeWords x.words 0).map (·.1)).filter fun k => !(x.node k).fired

/-- The nodes of a region that have not fired in its current instant, in ascending tile and slot (R27). -/
def State.unfired (s : State) (g : Nat) : List (Nat × Nat) :=
  let n := s.currentInst g
  (sortNats (s.region g).tiles).flatMap fun t =>
    let x := s.tile t
    if x.inst == n && x.begun then x.unfired.map fun k => (t, k) else []

/-- Beats in a tile's routers and links. -/
def Tile.inFlight (x : Tile) : Bool := x.inPorts.any fun (_, p) => !p.flight.isEmpty || !p.buf.isEmpty

/-- Whether a token's beat waits at `mx.ctl` to be accepted: what the token will complete is owed already (R25, R227, R238). -/
def Mx.waiting (m : Mx) : Bool := match m.ctl with | some b => b.present | none => false

/-- Whether a response is owed to a region: a read, an instant of a port, a matrix result, or an engine command that writes or reads its buffers
(R25, R184, R238, R247). -/
def State.owed (s : State) (g : Nat) : Bool :=
  let r := s.region g
  (r.tiles.any fun t =>
    let x := s.tile t
    x.nodes.any NodeSt.issued || (x.inPorts.any fun (k, p) => (p.due.any fun o => !o.dead) || s.uncheckedFor t k (x.inst + 1)) ||
      (x.outs.any fun (_, o) => !o.due.isEmpty) || (x.mx.queue.any fun e => e.started.isSome && e.finish == 0) || x.mx.waiting) ||
    (s.ctx r.ctx).queues.any fun (_, q) => (q.entries ++ q.started).any fun c =>
      c.region == g && !s.stale c && (match c.endPt with | some e => e.ekind == 1 | none => false)

/-- R25. -/
def State.quiescent (s : State) (g : Nat) : Bool :=
  let r := s.region g
  !(r.tiles.any fun t => (s.tile t).inFlight) && !s.owed g &&
    r.tiles.all fun t => !((List.range (s.tile t).nodes.length).any fun k => s.firable t k) && ((s.ctx r.ctx).fxt || !s.mayBegin t)

/-- Whether a channel port is an entry: the instance that feeds it is not loaded. -/
def State.entryPort (s : State) (t k : Nat) : Bool :=
  let x := s.tile t
  let r := s.region x.region
  (x.inPort k).bind == .channel &&
    match r.cfg.links.find? fun l => l.dstCanon == x.canon && l.dstPort == k with
    | some l => (s.holder x.region l.srcCanon).isNone
    | none => true

/-- Whether a node is an INP at an entry channel that has nothing for the tile's instant. -/
def State.waitsAtEntry (s : State) (t k : Nat) : Bool :=
  match nodeAt (s.tile t).words k with
  | some (.inp, n) => s.entryPort t (n.aux.toNat % 16) && (s.portRead t (n.aux.toNat % 16) (s.tile t).inst).isNone
  | _ => false

/-- R26: nothing fired in the instant, nothing owed, some node waits at an entry channel, and no node could fire nor waits at another port. DEDUCED, notes/assumptions/37.md. -/
def State.idle (s : State) (g : Nat) : Bool :=
  let r := s.region g
  !r.firedInst && !s.owed g && ((s.unfired g).any fun (t, k) => s.waitsAtEntry t k) &&
    (s.unfired g).all fun (t, k) =>
      match nodeAt (s.tile t).words k with
      | some (.inp, _) => s.waitsAtEntry t k
      | _ => !s.firable t k

/-- A record of a region with its unfired nodes (R352, R353). -/
def State.unfiredFlt (s : State) (g inst : Nat) (ps : List (Nat × Nat)) : Flt :=
  let pair (i : Nat) : Nat := match ps[i]? with | some (t, k) => t + k * 2 ^ 13 | none => 0
  let (t0, k0) := ps.headD (0, 0)
  { Flt.zero with region := some g, ctx := (s.region g).ctx, tile := t0, slot := k0, inst := inst,
                  f4 := pair 1 + pair 2 * 2 ^ 20, f6 := pair 3 + pair 4 * 2 ^ 20 + pair 5 * 2 ^ 40,
                  f7 := pair 6 + pair 7 * 2 ^ 20 + ps.length % 2 ^ 24 * 2 ^ 40, agent := .region g }

/-- Whether some agent of a region is stopped (R351). -/
def State.someStopped (s : State) (g : Nat) : Bool := !s.noneStopped g

/-- CAUSALITY (R27, R351). -/
def execCausality (g : Nat) (s0 : State) : Res :=
  .next
    (let s := (s0.region g).tiles.foldl State.pumpSto s0
     let r := s.region g
     let ps := s.unfired g
     if r.phase == .running && !ps.isEmpty && s.quiescent g && !s.idle g && !((s.ctx r.ctx).fltpend && s.someStopped g) then
       s.raise { s.unfiredFlt g (s.currentInst g) ps with cls := 0x04 }
     else s)

/-- The queue of an ENG node held by it, as F6 (R28, R353). -/
def State.stallQueue (s : State) (t k : Nat) : Nat :=
  let x := s.tile t
  match nodeAt x.words k with
  | some (.eng, n) =>
    let (ws, _) := engWords x n (x.args n k)
    let e := s.engOf t (cmdClass ws)
    if x.resolved k && s.queueFull t (cmdClass ws) then
      (match ((s.ctx (s.cmdCtx t)).queue e).entries.head? with
       | some h => e + h.wsem * 2 ^ 10 + h.thr * 2 ^ 18 + 2 ^ 34
       | none => e + 2 ^ 34)
    else 0
  | _ => 0

/-- QSTALL (R28, R351). -/
def execQstall (g : Nat) (s : State) : Res :=
  .next
    (let r := s.region g
     let c := s.ctx r.ctx
     let ps := s.unfired g
     if r.phase == .running && !s.broken g && !ps.isEmpty && !s.idle g && !c.fltpend && r.lastFire + r.stallLim ≤ s.cycle then
       let (t, k) := ps.headD (0, 0)
       s.raise { Flt.zero with cls := 0x0B, resumable := true, region := some g, ctx := r.ctx, tile := t, slot := k, inst := s.currentInst g,
                               f6 := s.stallQueue t k, f7 := r.stallLim, agent := .region g }
     else s)

/-! TIMING_OVERRUN (R40, R41, R237). -/

/-- The 64-byte beats of device memory that a STR or CPY command covers, from its words alone. -/
def CmdSt.staticBeats (c : CmdSt) : Nat :=
  if c.cls == 1 then c.trav.rows * c.trav.rowBeats
  else
    let len := c.f 3 0 40
    match c.kind with
    | 1 => 2 * (len / 64 + 2)
    | 4 => len / 64 + 2
    | _ => len * (2 * (c.f 5 0 16 / 64 + 2) + 1)

/-- The latest table time of a command that is not yet performed; none where the words alone do not give it; of a unit's command that a fault has stopped, that of
what it had done until then. DEDUCED, notes/assumptions/36.md. -/
def State.latestAt (s : State) (ctx eng : Nat) (c : CmdSt) : Option Nat :=
  if c.phase == .performed || c.phase == .refused || c.phase == .faulted then s.presentAt ctx eng c
  else if c.cls == 1 || c.cls == 2 then s.presentAt ctx eng { c with beats := c.staticBeats, delay := 520 }
  else if c.phase == .stopped || (c.cls == 4 && c.kind == 2) then s.presentAt ctx eng c
  else none

/-- Any command of a context and engine by its number. -/
def State.anyCmd (s : State) (ctx eng uid : Nat) : Option CmdSt :=
  let q := (s.ctx ctx).queue eng
  (q.entries ++ q.started).find? fun c => c.uid == uid

/-- A late command is reported once (R41). -/
def State.markLate (s : State) (ctx eng uid : Nat) : State :=
  let q := (s.ctx ctx).queue eng
  let f (c : CmdSt) : CmdSt := if c.uid == uid && c.mark / 4 % 2 == 0 then { c with mark := c.mark + 4 } else c
  s.setCtx ctx ((s.ctx ctx).setQueue eng { q with entries := q.entries.map f, started := q.started.map f })

def State.lateFlt (s : State) (ctx eng : Nat) (c : CmdSt) (deadline : Nat) : State :=
  let r := s.region c.region
  (s.markLate ctx eng c.uid).raise
    { s.engFlt ctx eng c with cls := 0x0A, f6 := deadline - r.roundCycle, f7 := s.cycle - r.roundCycle, agent := .region c.region }

/-- TIMING_OVERRUN of a tile (a period that has passed, or a droop in an instant that has ended, R413), an SE window, an engine, or a
matrix token. DEDUCED, notes/assumptions/35.md. -/
def execTimingOverrun (src : Overrun) (s : State) : Res :=
  .next
    (match src with
     | .tile t =>
       let x := s.tile t
       let r := s.region x.region
       if (s.ctx r.ctx).fxt && r.phase == .running && x.begun && !x.overrun && !x.unfired.isEmpty &&
           r.roundCycle + (x.inst + 1 - r.roundBase) * x.hdr.period ≤ s.cycle && !s.quiescent x.region then
         (s.setTile t { x with overrun := true }).raise
           { s.unfiredFlt x.region (s.currentInst x.region) (x.unfired.map fun k => (t, k)) with cls := 0x0A }
       else
         (match x.droop with
          | some i =>
            if i < x.inst then (s.setTile t { x with droop := none }).raise { s.unfiredFlt x.region i [(t, 0)] with cls := 0x0A } else s
          | none => s)
     | .window ctx eng uid =>
       (match s.startedOf ctx eng uid with
        | some c =>
          let at_ := s.instStart c (c.first + c.beatsOut)
          if (s.ctx ctx).fxt && c.cls == 1 && c.portBeats != 0 && c.beatsOut < c.portBeats && !s.stale c && c.mark / 4 % 2 == 0 &&
              (s.region c.region).roundBase ≤ c.first + c.beatsOut && at_ < s.cycle &&
              (s.endPorts c).any (fun (t, _) => c.first + c.beatsOut ≤ (s.tile t).inst && (s.tile t).begun) then
            s.lateFlt ctx eng c at_
          else s
        | none => s)
     | .engine ctx eng uid =>
       (match s.anyCmd ctx eng uid with
        | some c =>
          (match s.latestAt ctx eng c with
           | some at_ => if at_ < s.cycle && !s.stale c && c.mark / 4 % 2 == 0 then s.lateFlt ctx eng c at_ else s
           | none => s)
        | none => s)
     | .token t =>
       let x := s.tile t
       let m := x.mx
       (match m.ctl with
        | some b =>
          if b.present && (s.ctx (s.tileCtx t)).fxt && !x.overrun && m.ctlAt ≤ s.cycle && m.late then
            (s.setTile t { x with overrun := true }).raise { s.unfiredFlt x.region m.ctlInst [(t, 0)] with cls := 0x0A }
          else s
        | none => s))

/-! The meridian (R31, R32). -/

/-- Whether an opcode may fire, and pass its meridian, on some of its inputs (R17). -/
def firesEarly (o : Op) : Bool := o == .mergea || o == .orp

/-- The producers whose MERIDIAN can reach an early-firing node only through itself: those on a loop that R24 accepts. -/
def Tile.loopsBack (x : Tile) (k : Nat) (o : Op) : List Nat := if firesEarly o then reachFrom x.slotNext x.nodes.length [k] [] else []

/-- Whether the MERIDIAN stands at every connected slot of a node (R31), slots on a loop through an early-firing node (R24) apart, and at its port if it
is an IN. DEDUCED, notes/assumptions/18.md. -/
def Tile.merAt (x : Tile) (k : Nat) (o : Op) (n : Node) : Bool :=
  let ps := [SlotName.l, .r, .p].filterMap fun w => producerOf x.words (slotField w k)
  let port := o != .inp || (let p := x.inPort (n.aux.toNat % 16); p.bind != .channel || p.sampled || (match p.buf with | b :: _ => b.kind == .meridian | [] => false))
  (ps.all fun j => (x.node j).passed || (x.loopsBack k o).contains j) && port

/-- The reset of a node's own state (R32); an AGEN keeps its position (R176). -/
def Local.reset (l : Local) : Local := match l with | .agen i j k e _ => .agen i j k e [] | _ => .idle

/-- The MERIDIAN sent to each target that is a channel (R31). -/
def State.sendMer (s : State) (t : Nat) (tgs : List Target) : State :=
  tgs.foldl (fun s tg => match tg with | .out k => s.outSend t false k Beat.mer | .done k => s.outSend t true k Beat.mer | _ => s) s

/-- MERIDIAN_PASS: a node that has fired for the round's last instant receives the MERIDIAN, sends it on and resets; an AGEN's held bytes leave it
(R177). -/
def execMeridianPass (t k : Nat) (s : State) : Res :=
  .next
    (let x := s.tile t
     let r := s.region x.region
     match nodeAt x.words k with
     | none => s
     | some (o, n) =>
       let st := x.node k
       if r.phase == .running && x.begun && r.ended == some x.inst && st.fired && !st.passed && x.merAt k o n &&
           (nodeTargets n).all (fun tg => match tg with | .out _ => Tile.targetRoom s x tg | .done _ => Tile.targetRoom s x tg | _ => true) then
         match s.flushHeld t k with
         | .wait => s
         | .fault s1 => s1
         | .ok s1 =>
           let y := s1.tile t
           let z := y.setNode k { y.node k with passed := true, loc := (y.node k).loc.reset }
           let p := z.inPort (n.aux.toNat % 16)
           let z1 := if o == .inp && p.bind == .channel && !p.sampled then z.setIn (n.aux.toNat % 16) { p with buf := p.buf.drop 1 } else z
           (s1.setTile t z1).sendMer t (nodeTargets n)
       else s)

/-! Races (R217–R220). -/

/-- One access: place in the order of R166, granule, offsets, those outside owned ranges (R163), group, whether it is a plain store, its
entry. -/
structure Chk where
  canon : Nat
  slot : Nat
  seq : Nat
  granule : Nat
  offs : List Nat
  free : List Nat
  group : Nat × Nat
  store : Bool
  entry : Option RbEntry
deriving DecidableEq, Repr, Inhabited

def RbEntry.chk (e : RbEntry) : Chk :=
  { canon := e.canon, slot := e.slot, seq := e.seq, granule := e.granule, offs := e.bytes.map (·.1),
    free := (e.bytes.map (·.1)).filter fun o => !e.owned.contains o, group := e.group,
    store := (match e.op with | .store => true | _ => false), entry := some e }

/-- An ATOM's read stands with its entry. -/
def checks (r : Region) : List Chk :=
  r.entries.map RbEntry.chk ++
    (r.reads.filter fun q => !q.atomic).map fun q =>
      { canon := q.canon, slot := q.slot, seq := q.seq, granule := q.granule, offs := q.offs,
        free := q.offs.filter fun o => !q.owned.contains o, group := q.group, store := false, entry := none }

def Chk.before (a b : Chk) : Bool :=
  a.canon < b.canon || (a.canon == b.canon && (a.slot < b.slot || (a.slot == b.slot && a.seq < b.seq)))

/-- R218; bytes of owned ranges are not checked (R163). -/
def Chk.races (a b : Chk) : Bool :=
  a.granule == b.granule && a.group != b.group && (a.store || b.store) && a.free.any b.free.contains

/-- The racing pairs, each in ascending order. DEDUCED, notes/assumptions/34.md. -/
def racingPairs (cs : List Chk) : List (Chk × Chk) :=
  cs.flatMap fun a => (cs.filter fun b => a.before b && a.races b).map fun b => (a, b)

def pairBefore (p q : Chk × Chk) : Bool := p.1.before q.1 || (!q.1.before p.1 && p.2.before q.2)

/-- The first of the pairs. -/
def firstPair : List (Chk × Chk) → Option (Chk × Chk)
  | [] => none
  | p :: ps => match firstPair ps with | some q => some (if pairBefore q p then q else p) | none => some p

def Chk.mask (a : Chk) : Nat := (a.offs.map fun o => 2 ^ o).foldl (· ||| ·) 0
/-- An access as F4 and F5 name it (R353): the group by its canonical tile and word position. -/
def Chk.code (a : Chk) : Nat := a.canon + a.slot * 2 ^ 13 + a.seq % 2 ^ 20 * 2 ^ 20 + (a.group.1 + a.group.2 * 2 ^ 13) % 2 ^ 20 * 2 ^ 40

/-- The RACE record (R220, R353). -/
def State.raceFlt (s : State) (g : Nat) (ps : List (Chk × Chk)) : Flt :=
  match firstPair ps with
  | none => Flt.zero
  | some (a, b) =>
    { Flt.zero with cls := 0x07, region := some g, ctx := (s.region g).ctx, f1x := ps.length % 2 ^ 24 * 2 ^ 10, inst := (s.region g).inst,
                    addr := a.granule * 64, f4 := a.code, f5 := b.code % 2 ^ 32, issue := b.code / 2 ^ 32, f6 := a.mask, f7 := b.mask, agent := .region g }

/-! The commit (R33). -/

/-- One entry applied at its home slice (R166, R223). -/
def State.applyEntry (s0 : State) (e : RbEntry) : State :=
  let s := if s0.tags.isEmpty && e.loc == e.granule then s0 else s0.rekey (e.granule * 64) e.loc
  let old := if e.strm then s.rawN (e.loc * 64) 64 else s.peekN (e.loc * 64) 64
  let new := e.applyTo old
  let lo := (e.bytes.map (·.1)).foldl min 63
  let hi := (e.bytes.map (·.1)).foldl max 0
  s.lineWrite (pairSlice e.granule e.loc).1 e.strm e.shared (e.granule * 64 + lo) (e.loc * 64 + lo) ((new.drop lo).take (hi + 1 - lo))

/-- Entries whose granule cannot be read and that do not write the whole of it (R357). -/
def State.unreadable (s : State) (e : RbEntry) : Bool := s.badBeats.contains e.loc && (e.bytes.length < 64 || e.op != .store)

/-- The UNCORRECTABLE record of a commit. -/
def State.commitFlt (s : State) (g : Nat) (e : RbEntry) : Flt :=
  { Flt.zero with cls := 0x0E, region := some g, ctx := (s.region g).ctx, tile := (s.holder g e.canon).getD 0, slot := e.slot,
                  inst := (s.region g).inst, f6 := placeCode (e.granule * 64) (e.loc * 64), f7 := e.granule * 64, agent := .region g }

/-- The lines that an applied entry leaves Modified are the kernel's to write back (R226). -/
def RbEntry.wrote (e : RbEntry) : List WrRec := if e.strm || e.shared then [] else [⟨e.access, e.canon, e.inst, e.loc / 2⟩]

/-- Round buffers applied, race checks made, records taken (R166, R220). -/
def State.applyRound (s : State) (g : Nat) : State :=
  let r := s.region g
  if (s.ctx r.ctx).relaxed then s.setRegion g { r with entries := [], reads := [] }
  else
    let ps := racingPairs (checks r)
    let racing (e : RbEntry) : Bool := ps.any fun (a, b) => a.entry == some e || b.entry == some e
    let bad := r.entries.filter fun e => !racing e && s.unreadable e
    let good := sortEntries (r.entries.filter fun e => !racing e && !s.unreadable e)
    let s1 := good.foldl State.applyEntry s
    let s2 := s1.setRegion g { s1.region g with entries := [], reads := [], wrote := r.wrote ++ good.flatMap RbEntry.wrote }
    let s3 := bad.foldl (fun s e => s.raise (s.commitFlt g e)) s2
    if ps.isEmpty then s3 else s3.raise (s3.raceFlt g ps)

/-- A tile at the start of the next round (R23, R32). -/
def Tile.nextRound (x : Tile) (m cycle : Nat) : Tile :=
  let y := x.endInstant cycle
  let outs (os : List (Nat × OutPort)) := os.map fun (k, o) => (k, { o with merSent := false })
  { y with nodes := y.nodes.map fun n => { NodeSt.fresh with loc := n.loc, stopped := n.stopped }, inst := m, begun := false,
           dl := if x.hdr.keep then y.dl else [], lc := [], outs := outs y.outs, dones := outs y.dones, marks := [], mark := none, restart := none }

/-- The cycle at which the next round starts (R39). -/
def State.nextRoundCycle (s : State) (g : Nat) : Nat :=
  let r := s.region g
  let p := (s.tile (r.tiles.headD 0)).hdr.period
  if (s.ctx r.ctx).fxt && p != 0 then r.roundCycle + ceilDiv (s.cycle - r.roundCycle) p * p else s.cycle

/-! The end of an invocation (R34, R128). -/

/-- Whether a group has ended: none of its instances waits or runs. -/
def State.groupEnded (s : State) (g i : Nat) : Bool :=
  let h := s.home g
  let gr := h.plan.getD i ⟨[], false, []⟩
  h.begunG.contains i && !(h.waiting.any fun (l, _) => gr.leaves.contains l) &&
    (s.family g).all fun k => ((s.region k).phase == .off && !(s.region k).tiles.any fun t => (s.tile t).next.isSome) || (s.region k).group != i

/-- Groups whose predecessors have all ended begin: their instances wait at their leaves' entries (R34, R318). -/
def Region.beginGroups (h : Region) : Region :=
  (List.range h.plan.length).foldl (fun h i =>
    let gr := h.plan.getD i ⟨[], false, []⟩
    if !h.begunG.contains i && gr.pre.all h.doneG.contains then
      { h with begunG := h.begunG ++ [i],
               waiting := h.waiting ++ gr.leaves.flatMap fun l => (List.range (h.leaves.getD l default).inst).map fun m => (l, m) }
    else h) h

/-- Groups that have ended, and what follows them. -/
def State.advanceGroups (s : State) (g : Nat) : State :=
  let h := s.home g
  let done := (List.range h.plan.length).filter fun i => s.groupEnded g i
  let h1 := { h with doneG := done }.beginGroups
  let s1 := s.setRegion (g % 1024) h1
  if done.length == h.plan.length then
    s1.setLaunch h.launch fun l => if l.phase == .running then { l with phase := .ended, exit := h.exitOf.2.2 } else l
  else s1

/-- An invocation has ended: its instances count as completed, its tiles wait for another instance (R29, R127, R318). The launch's exit code is that
of the last group, and of its END with the lowest canonical index. DESIGN CHOICE, notes/assumptions/21.md. -/
def State.endInvocation (s : State) (g : Nat) : State :=
  let r := s.region g
  let leaves := (r.tiles.map fun t => (s.tile t).leaf).eraseDups
  let s1 := s.setRegion g { r with phase := .off }
  let h := s1.home g
  let (og, oc, _) := h.exitOf
  let fresh := h.doneInv.isEmpty || og < r.group || (og == r.group && r.exit.1 ≤ oc)
  let h1 := { h with sumInst := h.sumInst + r.inst, doneInv := leaves.foldl (fun l k => tset l k (tget 0 l k + 1)) h.doneInv,
                     detached := h.detached || r.detached, wrote := if g < 1024 then h.wrote else h.wrote ++ r.wrote,
                     exitOf := if fresh then (r.group, r.exit.1, r.exit.2.2) else h.exitOf }
  (s1.setRegion (g % 1024) h1).advanceGroups g

/-- MERIDIAN_COMMIT (R33): once every node of the region has passed its meridian. -/
def execMeridianCommit (g : Nat) (s0 : State) : Res :=
  .next
    (let s := (s0.region g).tiles.foldl State.pumpSto s0
     let r := s.region g
     match r.ended with
     | none => s
     | some m =>
       if r.phase == .running && !s.halted g && !r.tiles.isEmpty && r.tiles.all (fun t =>
           let x := s.tile t
           x.inst == m && x.begun && (nodeWords x.words 0).all (fun (k, _, _) => (x.node k).passed) &&
             x.mxPorts.all fun k => (x.out k).merSent) then
         let marked := r.tiles.any fun t => (s.tile t).mark == some m
         let s1 := ((if marked then s.sendRestarts g m else s).setRegion g { r with inst := m + 1 }).applyRound g
         let s2 := r.tiles.foldl (fun s t => s.setTile t ((s.tile t).nextRound (m + 1) s.cycle)) s1
         let y := s2.region g
         let cyc := s2.nextRoundCycle g
         let s3 := s2.setRegion g <| s2.rewatch
           { y with inst := m + 1, ended := none, ending := false, round := y.round + 1, roundBase := m + 1, roundCycle := cyc, firedInst := false,
                    past := y.past.filter fun (_, c) => m + 1 < c.first + c.portBeats }
         if r.ending && y.phase == .running then s3.endInvocation g else s3
       else s)

end Sys2Proof.Machine
end

