-- ==== Sys2Proof/Machine/Loader.lean ====
section
/-!
DEFINITION. The loader graph: kernel descriptors (R185–R189), the load checks in their stages (R71–R85, R14, R16, R22, R24, R39, R42, R66, R135, R146,
R159, R175, R182, R183, R197), placement (R317), ordering groups (R217), and the steps CONFIG_LOAD and LEAF_DECISION (R34–R37, R83, R318, R319).
-/
namespace Sys2Proof.Machine

/-- What failed: the check, where, and the lowest bit of the field (R85). -/
abbrev LoadErr := CfgCheck × Nat × Nat

/-! Reading what a launch names. -/

def State.fetchBytes (s : State) (v : Via) (a n : Nat) : Option (List Byte) :=
  match s.engRead 0 v.actx v.sup a n with | .ok (bs, _) => some bs | .error _ => none

def State.fetchWords (s : State) (v : Via) (a n : Nat) : Option (List Nat) :=
  if n = 0 then some [] else (s.fetchBytes v a (8 * n)).map fun bs => elemsAux 64 n (leNat bs)

/-- A list cut into runs of n. -/
def chunks {α : Type} (n : Nat) : Nat → List α → List (List α)
  | 0, _ => []
  | k + 1, l => l.take n :: chunks n k (l.drop n)

/-! The kernel descriptor. -/

/-- A tree entry: kind, first child, children, leaf (R186). -/
structure Entry where
  kind : Nat
  first : Nat
  count : Nat
  leaf : Nat
deriving DecidableEq, Repr, Inhabited

structure Kernel where
  tree : List Entry
  leaves : List Leaf
  owners : List OwnRange
  childTab : List (List Nat)
deriving DecidableEq, Repr, Inhabited

def Entry.children (e : Entry) : List Nat := (List.range e.count).map (e.first + ·)

def entryOf (w : Nat) : Entry := { kind := fld w 0 2, first := fld w 2 10, count := fld w 12 10, leaf := fld w 22 10 }

/-- The field rules of a tree entry. -/
def entryOk (nodes leaves w : Nat) : Bool :=
  let e := entryOf w
  w / 2 ^ 32 == 0 &&
    (if e.kind == 0 then e.first == 0 && e.count == 0 && e.leaf < leaves
     else e.count != 0 && e.leaf == 0 && e.first + e.count ≤ nodes)

/-- No entry is reached twice: level by level, no more entries than the tree has, each once. -/
def treeOk (t : List Entry) : Nat → List Nat → List Nat → Bool
  | 0, _, l => l.isEmpty
  | n + 1, seen, l =>
    let next := l.flatMap fun i => (t.getD i default).children
    let all := seen ++ next
    all.length ≤ t.length && all.eraseDups.length == all.length && treeOk t n all next

/-- A leaf entry from its sixteen words (R187), its instances and first canonical index to be filled in; none where a field is refused. -/
def leafOf (ws : List Nat) : Option Leaf :=
  let w (i : Nat) := ws.getD i 0
  let l1 := w 1
  if 4096 < fld l1 0 13 || 16 < fld l1 13 5 || l1 / 2 ^ 26 != 0 || w 0 / 2 ^ 57 != 0 || w 2 / 2 ^ 57 != 0 || w 2 % 32 != 0 ||
      w 3 / 2 ^ 57 != 0 || w 3 % 64 != 0 || (ws.drop 12).any (· != 0) then none
  else some { block := w 0, inst := fld l1 0 13, agens := fld l1 13 5, tmpls := fld l1 18 8, agenTab := w 2, tmplTab := w 3,
              cbs := (ws.drop 4).take 8, firstCanon := 0 }

/-- Instances and canonical indices under a canonical count (R188). -/
def spread (c : Nat) (ls : List Leaf) : Option (List Leaf) :=
  let sum := (ls.map (·.inst)).foldl (· + ·) 0
  let rest := (ls.filter fun l => l.inst == 0).length
  if 1 < rest || (rest == 1 && c ≤ sum) || (rest == 0 && sum != c) then none
  else
    let full := ls.map fun l => if l.inst == 0 then { l with inst := c - sum } else l
    some ((full.foldl (fun (acc : List Leaf × Nat) l => (acc.1 ++ [{ l with firstCanon := acc.2 }], acc.2 + l.inst)) ([], 0)).1)

/-- An ownership entry from its four words (R182). -/
def ownOf (ws : List Nat) : OwnRange :=
  let w (i : Nat) := ws.getD i 0
  { start := w 0 % 2 ^ 57, len := w 1 % 2 ^ 40, owners := [w 2 % 2 ^ 32, w 2 / 2 ^ 32, w 3 % 2 ^ 32, w 3 / 2 ^ 32], cur := 0, moving := false }

/-- The kernel descriptor at an address, for a canonical count (R185–R189); none refuses with CFG_KERNEL. The ownership words come with it. -/
def readKernel (s : State) (v : Via) (a c : Nat) : Option (Kernel × List (List Nat)) := do
  let k ← s.fetchWords v a 8
  let w (i : Nat) := k.getD i 0
  let k0 := w 0
  let nodes := fld k0 20 10
  let leaves := fld k0 30 10
  let owners := fld k0 40 9
  let kids := fld k0 49 4
  let badAddr (i n : Nat) : Bool := w i / 2 ^ 57 != 0 || w i % 64 != 0 || (w i == 0 && n != 0)
  if k0 % 2 ^ 16 != 0x4B31 || fld k0 16 4 != 1 || nodes == 0 || leaves == 0 || 256 < owners || k0 / 2 ^ 53 != 0 ||
      badAddr 1 nodes || badAddr 2 leaves || badAddr 3 owners || badAddr 4 kids || (k.drop 5).any (· != 0) then none
  else
    let tws ← s.fetchWords v (w 1) nodes
    if !(tws.all (entryOk nodes leaves)) then none
    else
      let tree := tws.map entryOf
      if !(treeOk tree (nodes + 1) [0] [0]) then none
      else
        let lws ← s.fetchWords v (w 2) (16 * leaves)
        let ls ← (chunks 16 leaves lws).mapM leafOf
        let ls ← spread c ls
        let ows ← s.fetchWords v (w 3) (4 * owners)
        let cws ← s.fetchWords v (w 4) (4 * kids)
        let ct := chunks 4 kids cws
        if ct.any (fun e => e.getD 2 0 / 2 ^ 32 != 0 || 3 < fld (e.getD 2 0) 24 8 || e.getD 3 0 / 2 ^ 57 != 0 || e.getD 3 0 % 32 != 0) then none
        else
          let os := chunks 4 owners ows
          some (⟨tree, ls, os.map ownOf, ct⟩, os)

/-! Need and plan. -/

/-- The leaf indices beneath an entry, in tree order. -/
def leavesUnder (t : List Entry) : Nat → Nat → List Nat
  | 0, _ => []
  | n + 1, i =>
    let e := t.getD i default
    if e.kind == 0 then [e.leaf] else e.children.flatMap (leavesUnder t n)

/-- R317. -/
def needOf (k : Kernel) : Nat → Nat → Nat
  | 0, _ => 0
  | n + 1, i =>
    let e := k.tree.getD i default
    let kids := e.children.map (needOf k n)
    match e.kind with
    | 0 => 1
    | 1 => kids.foldl max 0
    | 2 => kids.foldl (· + ·) 0
    | _ => ((leavesUnder k.tree (n + 1) i).map fun l => (k.leaves.getD l default).inst).foldl (· + ·) 0

def Kernel.need (k : Kernel) : Nat := needOf k (k.tree.length + 1) 0

/-- The groups of an entry, added to those before it, and the groups that must have ended before what follows it begins (R34). DEDUCED, notes/assumptions/22.md. -/
def planOf (t : List Entry) : Nat → Nat → List Group → List Nat → List Group × List Nat
  | 0, _, acc, pre => (acc, pre)
  | n + 1, i, acc, pre =>
    let e := t.getD i default
    match e.kind with
    | 0 => (acc ++ [⟨[e.leaf], false, pre⟩], [acc.length])
    | 1 => e.children.foldl (fun (a, p) c => planOf t n c a p) (acc, pre)
    | 2 =>
      e.children.foldl (fun (p : List Group × List Nat) c => let (b, q) := planOf t n c p.1 pre; (b, p.2 ++ q)) (acc, [])
    | _ => (acc ++ [⟨leavesUnder t (n + 1) i, true, pre⟩], [acc.length])

def Kernel.plan (k : Kernel) : List Group := (planOf k.tree (k.tree.length + 1) 0 [] []).1

/-! Stage 2: the header. -/

def hdrOf (h : Nat) : Hdr :=
  { words := fld h 100 8, dl := fld h 93 7, lcn := fld h 90 3, split := fld h 86 4, acr := fld h 85 1 == 1, det := fld h 84 1 == 1,
    fxt := fld h 83 1 == 1, priv := fld h 82 1 == 1, keep := fld h 81 1 == 1, restart := fld h 74 7, abuf := fld h 66 8, wbuf := fld h 57 9,
    cbuf := fld h 50 7, period := fld h 32 18 }

/-- What the loader knows of the launch while it checks a block. -/
structure LoadEnv where
  ctx : Nat
  fxt : Bool
  det : Bool
  priv : Bool
  canon : Nat
  owners : Nat
  kids : Nat
deriving DecidableEq, Repr, Inhabited

/-- The first of some checks that fails. -/
def firstErr (l : List (Bool × LoadErr)) : Option LoadErr := (l.find? (·.1)).map (·.2)

/-- Stage 2 (R72, R82, R42, R39), with the bytes behind the header. -/
def headErr (e : LoadEnv) (h : Nat) (body : List Byte) : Option LoadErr :=
  let x := hdrOf h
  let at_ (c : CfgCheck) (b : Nat) : LoadErr := (c, 0x80, b)
  firstErr
    [(fld h 112 16 != 0xCA31, at_ .magic 112), (fld h 108 4 != 1, at_ .version 108), (x.words == 0 || 128 < x.words, at_ .words 100),
     (64 < x.dl, at_ .hdr 93), (3 < x.lcn, at_ .hdr 90), (192 < x.abuf, at_ .hdr 66), (384 < x.wbuf, at_ .hdr 57), (64 < x.cbuf, at_ .hdr 50),
     (!x.acr && x.restart != 0, at_ .hdr 74), (crc32c body != fld h 0 32, at_ .crc 0), (x.priv && !e.priv, at_ .priv 82),
     (x.fxt && !e.fxt, at_ .mode 83), (x.det && !e.det, at_ .mode 84), (e.fxt && x.period == 0, at_ .timing 32)]

/-! Stage 3: the words. -/

/-- The typed fields of a node word, whatever a reserved code leaves open filled in. -/
def rawNode (w : W64) (e : Option W64) : Node :=
  let tg (x : W64) (lo : Nat) : Target := (decodeTarget (bitsNat x lo 10)).getD .none
  { ty := (Ty.ofCode (bitsNat w 52 4)).getD .raw, mod := BitVec.ofNat 4 (bitsNat w 48 4), a := tg w 38, b := tg w 28,
    imm := BitVec.ofNat 16 (bitsNat w 12 16), pol := (decodePolicy (bitsNat w 10 2)).getD .prop, i := bitAt w 8,
    aux := BitVec.ofNat 8 (bitsNat w 0 8),
    ext := if bitAt w 9 then e.map fun x => ⟨BitVec.ofNat 32 (bitsNat x 32 32), tg x 22, tg x 12⟩ else none }

/-- The target fields of a node word: the word position that holds each, its lowest bit, its value. -/
def fieldsOf (k : Nat) (w : W64) (e : Option W64) : List (Nat × Nat × Nat) :=
  [(k, 38, bitsNat w 38 10), (k, 28, bitsNat w 28 10)] ++
    (match (if bitAt w 9 then e else none) with | some x => [(k + 1, 22, bitsNat x 22 10), (k + 1, 12, bitsNat x 12 10)] | none => [])

/-- A node whose result is a pair (R89). -/
def pairNode (o : Op) (n : Node) : Bool := (o == .dlrd || o == .cvt || o == .ofesc || o == .unpack) && bitAt n.aux 7

/-- Whether a target of kind 0–2 names a slot that the consumer lacks or does not use (R77, R78). -/
def slotBad (nodes : List (Nat × W64 × Option W64)) (f : Nat) : Bool :=
  match nodes.find? fun (j, _, _) => j == f % 128 with
  | none => false
  | some (_, w, e) =>
    match Op.ofCode (bitsNat w 56 8) with
    | none => false
    | some o =>
      let (l, r, p) := o.inputs (rawNode w e)
      match f / 128 with
      | 0 => l == .absent
      | 1 => r == .absent || bitAt w 8
      | _ => p == .absent

/-- An AGEN descriptor within R175. -/
def agenOk (d : List Nat) : Bool :=
  let w (i : Nat) := d.getD i 0
  let dims := fld (w 1) 60 2
  w 0 / 2 ^ 60 == 0 && fld (w 0) 57 3 ≤ 4 && w 1 / 2 ^ 63 == 0 && dims ≤ 2 && w 2 / 2 ^ 60 == 0 && w 3 / 2 ^ 60 == 0 &&
    (1 ≤ dims || w 2 == 0) && (2 ≤ dims || w 3 == 0)

/-- A circular buffer's descriptor (R146). -/
def cbOf (w : Nat) : CBuf :=
  let n := fld w 20 12
  { valid := fld w 2 1 == 1, buf := fld w 0 2, base := fld w 3 13, size := fld w 16 4, slots := n, filled := 0, free := n, wc := 0, rc := 0,
    acqW := [], acqR := [] }

/-- What its block lets a word name. -/
structure BlockEnv where
  hdr : Hdr
  leaf : Leaf
  nodes : List (Nat × W64 × Option W64)
  cbs : List CBuf
deriving DecidableEq, Repr, Inhabited

/-- Bytes of a typed buffer as the header declares them. -/
def Hdr.buf (h : Hdr) (b : Nat) : Nat := 1024 * (if b == 0 then h.wbuf else if b == 1 then h.abuf else h.cbuf)

/-- Stage 3 of one word, in the table's order (R84). -/
def wordErr (e : LoadEnv) (b : BlockEnv) (k : Nat) (w : W64) (x : Option W64) : Option LoadErr :=
  let fs := fieldsOf k w x
  let n := rawNode w x
  let bad (p : Nat → Bool) (c : CfgCheck) : List (Bool × LoadErr) := fs.map fun (j, lo, f) => (p f, (c, j, lo))
  let isNode (j : Nat) : Bool := b.nodes.any fun (i, _, _) => i == j
  match Op.ofCode (bitsNat w 56 8) with
  | none => some (.opcode, k, 56)
  | some o =>
    let pair := pairNode o n
    let value := n.i || o.valueField
    let wide := match n.ext with | some y => y.imm32 != 0#32 | none => false
    let (l, r, p) := o.inputs n
    let desc := o == .agen || o == .ldx || o == .stx
    let unit := n.aux.toNat % 4
    let sameUnit (q : Op) (u : Nat) (before : Nat) : Bool := b.nodes.any fun (j, v, _) =>
      j < before && Op.ofCode (bitsNat v 56 8) == some q && bitsNat v 0 8 == u
    let noProd (s : SlotName) : Bool := (producerOf (b.nodes.flatMap fun (_, v, y) => v :: (if bitAt v 9 then y.toList else [])) (slotField s k)).isNone
    firstErr
      ([(o.privileged && !b.hdr.priv, (.priv, k, 56)), (o == .cyc && !e.fxt, (.timing, k, 56)),
        ((Ty.ofCode (bitsNat w 52 4)).isNone || !o.typeOk n, (.type, k, 52)), (!o.modOk n, (.mod, k, 48)),
        (bitsNat w 10 2 == 3 || (o.actsOnAbsence && n.pol != .prop), (.policy, k, 10))] ++
       bad (fun f => (decodeTarget f).isNone || (f / 128 ≤ 2 && !isNode (f % 128))) .target ++
       bad (fun f => f / 128 == 4 && (b.hdr.dl ≤ f % 128 || (pair && (f % 2 == 1 || b.hdr.dl ≤ f % 128 + 1)))) .badreg ++
       [(o == .dlrd && (let d := n.aux.toNat % 64; b.hdr.dl ≤ d || (pair && (d % 2 == 1 || b.hdr.dl ≤ d + 1))), (.badreg, k, 0)),
        (bitAt w 9 && b.hdr.words ≤ k + 1, (.ext, k, 9)),
        (bitAt w 9 && (match x with | some y => bitsNat y 0 12 != 0 | none => false), (.ext, k + 1, 0)),
        (!o.immOk n, if value then (if n.ext.isSome && n.imm == 0#16 then (.imm, k + 1, 32) else (.imm, k, 12))
                     else (if wide then (.imm, k + 1, 32) else (.imm, k, 12))),
        (o == .eng && bitAt n.aux 5 && b.leaf.tmpls ≤ n.imm.toNat, (.imm, k, 12)),
        (!o.auxOk n || (desc && b.leaf.agens ≤ n.aux.toNat / 16) || (o == .handover && e.owners ≤ n.aux.toNat) ||
           (o == .launch && e.kids ≤ n.aux.toNat) || (o == .rowbuf && sameUnit .rowbuf unit k) ||
           (o == .rowscl && (sameUnit .rowscl unit k || !sameUnit .rowbuf unit 128)), (.aux, k, 0)),
        ((o == .bufrd || o == .bufwr) && b.hdr.buf n.aux.toNat ≤ n.imm.toNat * 64, (.buf, k, 12)),
        (o == .rowbuf && 1024 * b.hdr.abuf < n.imm.toNat / 1024 * 4096 + 2 * (n.imm.toNat % 1024) * 64, (.buf, k, 12)),
        ((o == .bfill || o == .bfree) && !(b.cbs.getD (n.aux.toNat % 8) CBuf.fresh).valid, (.buf, k, 0))] ++
       bad (fun f => f / 128 ≤ 2 && slotBad b.nodes f) .slot ++
       [(n.i && (!o.iOk n || !noProd .r), (.slot, k, 8)),
        ((l == .req && noProd .l) || (r == .req && !n.i && noProd .r) || (p == .req && noProd .p), (.slot, k, 0xFF)),
        ((o == .nest || o == .lcrd) && b.hdr.lcn ≤ n.aux.toNat % 4, (.loop, k, 0))])

/-- The descriptors that come with a block: AGEN descriptors (R175) and circular buffers (R146). -/
def tablesErr (b : BlockEnv) (ags : List (List Nat)) : Option LoadErr :=
  let used := ((List.range 8).filterMap fun i => let c := b.cbs.getD i CBuf.fresh; if c.valid then some (i, c) else none)
  let span (c : CBuf) : Nat × Nat := (c.base * 64, (c.base + c.slots * 2 ^ c.size) * 64)
  let badCb (i : Nat) (c : CBuf) : Bool :=
    c.buf == 3 || 10 < c.size || c.slots == 0 || b.leaf.cbs.getD i 0 / 2 ^ 32 != 0 || b.hdr.buf c.buf < (span c).2 ||
      used.any fun (j, d) => j < i && d.buf == c.buf && (span c).1 < (span d).2 && (span d).1 < (span c).2
  firstErr [(ags.any fun d => !agenOk d, (.aux, 0x81, 0xFF)), (used.any fun (i, c) => badCb i c, (.buf, 0x81, 0xFF))]

/-! Stage 4: the block. -/

/-- A word that writes a soft-token register (R95, R253). -/
def sxWriter (o : Op) : Bool := o == .sxst || o == .sxset || o == .sxmix || o == .sxhid || o == .collapse

/-- What a word produces or holds alone, as keys: targets, an IN's port, a soft-token register, a loop counter, a resized port. -/
def soleKeys (k : Nat) (w : W64) (e : Option W64) : List (Nat × Nat × Nat) :=
  let aux := bitsNat w 0 8
  ((fieldsOf k w e).filter fun (_, _, f) => f / 128 != 4 && f / 128 != 7).map (fun (_, lo, f) => (f, k, lo)) ++
    (match Op.ofCode (bitsNat w 56 8) with
     | some o =>
       if o == .inp then [(2000 + aux, k, 0)] else if sxWriter o then [(3000 + aux, k, 0)] else if o == .nest then [(4000 + aux, k, 0)]
       else if o == .resize then [(5000 + aux, k, 0)] else []
     | none => [])

/-- The first key that has occurred before. -/
def repeated : List (Nat × Nat × Nat) → List Nat → Option (Nat × Nat)
  | [], _ => none
  | (key, k, lo) :: r, seen => if seen.contains key then some (k, lo) else repeated r (key :: seen)

/-- Delay registers that a word writes. -/
def dlWrites (w : W64) (e : Option W64) : List Nat :=
  let n := rawNode w e
  let pair := match Op.ofCode (bitsNat w 56 8) with | some o => pairNode o n | none => false
  ((fieldsOf 0 w e).filterMap fun (_, _, f) => if f / 128 == 4 then some (f % 128) else none).flatMap fun d => if pair then [d, d + 1] else [d]

/-- The lowest word that writes a delay register another word below it writes. -/
def dlTwice : List (Nat × W64 × Option W64) → List Nat → Option Nat
  | [], _ => none
  | (k, w, e) :: r, seen => if (dlWrites w e).any seen.contains then some k else dlTwice r (dlWrites w e ++ seen)

/-- Nodes that feed in the same instant what does not fire early (R24). -/
def feeds (nodes : List (Nat × W64 × Option W64)) (k : Nat) : List Nat :=
  match nodes.find? fun (j, _, _) => j == k with
  | some (_, w, e) =>
    if (match Op.ofCode (bitsNat w 56 8) with | some o => firesEarly o | none => true) then []
    else ((fieldsOf k w e).filterMap fun (_, _, f) => if f / 128 ≤ 2 then some (f % 128) else none).eraseDups
  | none => []

/-- Stage 4 (R78, R22, R24, R74). -/
def blockErr (b : BlockEnv) : Option LoadErr :=
  let ns := b.nodes
  match repeated (ns.flatMap fun (k, w, e) => soleKeys k w e) [] with
  | some (k, _) => some (.fanin, k, 0xFF)
  | none =>
    match dlTwice ns [] with
    | some k => some (.dlwrite, k, 0xFF)
    | none =>
      match ns.find? fun (k, _, _) => (reachFrom (feeds ns) ns.length [k] []).contains k with
      | some (k, _, _) => some (.cycle, k, 0xFF)
      | none =>
        if b.hdr.acr && !(ns.any fun (k, w, _) => k == b.hdr.restart && Op.ofCode (bitsNat w 56 8) == some .rmark) then some (.restart, 0x80, 74)
        else none

/-! One block. -/

/-- A block read and checked by stages 1–4, ready for its router's next bank. -/
structure Loaded where
  canon : Nat
  leaf : Nat
  tile : Nat
  hdr : Hdr
  words : List W64
  nodes : List (Nat × W64 × Option W64)
  agens : List (List W64)
  tmpls : List (List W64)
  cbufs : List CBuf
deriving DecidableEq, Repr, Inhabited

def bvWords (l : List Nat) : List W64 := l.map (BitVec.ofNat 64)

/-- Stages 1–4 of the block of an instance. -/
def loadBlock (s : State) (v : Via) (e : LoadEnv) (lf : Leaf) (leaf canon tile : Nat) : Except LoadErr Loaded :=
  let fetch : LoadErr := (.fetch, 0x80, 0xFF)
  if lf.block % 16 != 0 then .error fetch
  else
    match s.fetchBytes v lf.block 16 with
    | none => .error fetch
    | some hb =>
      let h := leNat hb
      let n := min (fld h 100 8) 128
      match (if n = 0 then some [] else s.fetchBytes v (lf.block + 16) (8 * n)), s.fetchWords v lf.agenTab (4 * lf.agens),
          s.fetchWords v lf.tmplTab (8 * lf.tmpls) with
      | some body, some ags, some tms =>
        let hdr := hdrOf h
        let ws := bvWords (elemsAux 64 n (leNat body))
        let nodes := nodeWords ws 0
        let agl := chunks 4 lf.agens ags
        let b : BlockEnv := { hdr := hdr, leaf := lf, nodes := nodes, cbs := lf.cbs.map cbOf }
        match headErr e h body with
        | some x => .error x
        | none =>
          match nodes.findSome? fun (k, w, x) => wordErr e b k w x with
          | some x => .error x
          | none =>
            match tablesErr b agl with
            | some x => .error x
            | none =>
              match blockErr b with
              | some x => .error x
              | none => .ok { canon := canon, leaf := leaf, tile := tile, hdr := hdr, words := ws, nodes := nodes, agens := agl.map bvWords,
                              tmpls := (chunks 8 lf.tmpls tms).map bvWords, cbufs := b.cbs }
      | _, _, _ => .error fetch

/-! Stage 5: the configuration. -/

/-- Legend entries that deliver at a local port (R159). -/
def atLocal (p : PortCfg) : Bool := let w := p.legend; if bitAt w 34 then bitAt w 28 else bitsNat w 21 3 == 0

def legendOk (p : PortCfg) : Bool :=
  let w := p.legend
  let hop := bitsNat w 21 3
  let mc := bitAt w 34
  let br := bitsNat w 28 6
  let stall := bitsNat w 36 5
  hop ≤ 5 && (hop == 0 || bitsNat w 24 4 == 0) && (mc || br == 0) && (!mc || 2 ≤ ((List.range 6).filter fun i => br / 2 ^ i % 2 == 1).length) &&
    (mc || !bitAt w 35) && (stall == 0 || 10 ≤ stall) && !(bitAt w 41 && hop != 0) && bitsNat w 50 14 == 0 &&
    (!atLocal p || bitsNat w 24 4 == p.port) && p.port < 16

def legendFormatOk (w : W64) : Bool :=
  match Ty.ofCode (bitsNat w 0 4), Ty.ofCode (bitsNat w 4 4) with
  | some a, some b => fmtJoin a b && bitsNat w 8 8 != 255 && (a != b || bitsNat w 8 8 == 127)
  | _, _ => false

/-- The entry that a port of an instance has. -/
def portCfg (cfg : ChanCfg) (canon port : Nat) : Option PortCfg := cfg.ports.find? fun p => p.canon == canon && p.port == port && atLocal p

/-- Whether a sampled binding is accepted in a DET context (R16): an engine on which the context holds reserved entries, or the matrix node. -/
def sampledOk (s : State) (e : LoadEnv) (tile : Nat) (p : PortCfg) : Bool :=
  !e.det || (e.fxt &&
    (match p.bind with
     | .engine 4 => true
     | .engine k =>
       let eng := match k with | 0 => Config.dieOf tile + Config.seOf tile * 32 | 3 => (s.ctx e.ctx).kvpunit + 24 | _ => Config.dieOf tile + k * 8
       0 < s.rsvCount e.ctx eng
     | _ => false))

/-- Whether a port is bound as the completion port of the engine of an ENG node's command (R197): where the class comes with the beat, of some engine. -/
def cportOk (cfg : ChanCfg) (x : Loaded) (w : W64) : Bool :=
  let aux := bitsNat w 0 8
  if aux / 16 % 2 == 0 then true
  else
    match (portCfg cfg x.canon (aux % 16)).map PortCfg.bind with
    | some (.engine k) =>
      if aux / 32 % 2 == 0 then k != 4
      else
        let cls := cmdClass (x.tmpls.getD (bitsNat w 12 16) [])
        k == (match cls with | 3 => 1 | 4 => 2 | 5 => 3 | 6 => 3 | _ => 0)
    | _ => false

/-- The word positions of an opcode. -/
def Loaded.at (x : Loaded) (o : Op) : List (Nat × W64) :=
  x.nodes.filterMap fun (k, w, _) => if Op.ofCode (bitsNat w 56 8) == some o then some (k, w) else none

/-- Owner words that name an AGEN: `known` are the leaves whose blocks are at hand (R182). -/
def ownersOk (leaves : List Leaf) (xs : List Loaded) (os : List (List Nat)) : Bool :=
  let owner (o : Nat) : Bool :=
    o / 2 ^ 31 == 0 && o % 2 ^ 10 < leaves.length && fld o 10 13 < (leaves.getD (o % 2 ^ 10) default).inst &&
      (match xs.find? fun x => x.leaf == o % 2 ^ 10 with
       | some x => (x.at .agen).any fun (k, _) => k == fld o 23 7
       | none => true)
  let valid (o : Nat) : Bool := fld o 30 1 == 1
  let rs := os.map ownOf
  let entryBad (ws : List Nat) : Bool :=
    let r := ownOf ws
    ws.getD 0 0 / 2 ^ 57 != 0 || ws.getD 1 0 / 2 ^ 40 != 0 || r.len == 0 || !valid (r.owners.getD 0 0) ||
      ((r.owners.zip (r.owners.drop 1)).any fun (a, b) => !valid a && valid b) || (r.owners.any fun o => valid o && !owner o)
  !(os.any entryBad) &&
    (List.range rs.length).all fun j => (List.range j).all fun i =>
      let a := rs.getD i default
      !(a.overlaps (rs.getD j default).start (rs.getD j default).len)

/-- The remaining checks of stage 5, in the table's order; with the block that each concerns (R84). DEDUCED, notes/assumptions/62.md. -/
def confErr (s : State) (e : LoadEnv) (cfg : ChanCfg) (leaves : List Leaf) (os : List (List Nat)) (xs : List Loaded) : Option (LoadErr × Option Loaded) :=
  let wide (c : CfgCheck) : LoadErr := (c, 0x82, 0xFF)
  let mine (x : Loaded) : List PortCfg := cfg.ports.filter fun p => p.canon == x.canon
  let each (f : Loaded → Option LoadErr) : Option (LoadErr × Option Loaded) := xs.findSome? fun x => (f x).map fun y => (y, some x)
  let words (x : Loaded) (o : Op) (c : CfgCheck) (lo : Nat) (bad : W64 → Bool) : Option LoadErr :=
    ((x.at o).find? fun (_, w) => bad w).map fun (k, _) => (c, k, lo)
  let when_ (b : Bool) (c : CfgCheck) : Option LoadErr := if b then some (wide c) else none
  let depth (p : PortCfg) : Nat := bitsNat p.legend 16 5 + 1
  let polls (x : Loaded) : Option LoadErr :=
    if e.det && !e.fxt then
      ((x.nodes.find? fun (_, w, _) => let o := Op.ofCode (bitsNat w 56 8); o == some .semwait || o == some .semrd).map fun (k, _, _) => (.sampled, k, 56))
    else none
  let named := cfg.links.flatMap (fun l => [l.srcCanon, l.dstCanon]) ++ cfg.groups.map (fun (_, c, _) => c) ++ cfg.ports.map (·.canon) ++ cfg.binds.map (·.canon)
  [if e.fxt && xs.any (fun x => x.hdr.period != (xs.headD default).hdr.period) then some (wide .timing, none) else none,
   each fun x => when_ (256 < ((mine x).map depth).foldl (· + ·) 0) .pool,
   each fun x => match when_ ((mine x).any fun p => bitAt p.legend 41 && !sampledOk s e x.tile p) .sampled with | some y => some y | none => polls x,
   each fun x => match when_ ((mine x).any fun p => !legendFormatOk p.legend) .format with
     | some y => some y
     | none => words x .inp .format 52 fun w => match portCfg cfg x.canon (bitsNat w 0 4) with | some p => bitsNat p.legend 4 4 != bitsNat w 52 4 | none => false,
   if named.any (fun c => e.canon ≤ c) then some (wide .tile, none) else none,
   each fun x => when_ ((mine x).any fun p => !legendOk p) .legend,
   each fun x => words x .eng .port 0 fun w => !cportOk cfg x w,
   if ownersOk leaves xs os then none else some (wide .aux, none)].findSome? id

/-! Ordering groups (R217). -/

/-- A node of a configuration: canonical index, word position, opcode, node. -/
structure CNode where
  canon : Nat
  slot : Nat
  op : Op
  node : Node
deriving DecidableEq, Repr, Inhabited

def Loaded.cnodes (x : Loaded) : List CNode :=
  x.nodes.filterMap fun (k, w, e) => (Op.ofCode (bitsNat w 56 8)).map fun o => ⟨x.canon, k, o, rawNode w e⟩

def memElem (o : Op) : Bool := o == .agen || o == .ld || o == .st || o == .ldx || o == .stx || o == .atom
def CNode.isRead (n : CNode) : Bool := n.op == .ld || n.op == .ldx || n.op == .atom || (n.op == .agen && n.node.mod == 0#4)
def CNode.isWrite (n : CNode) : Bool := n.op == .st || n.op == .stx || (n.op == .agen && n.node.mod == 1#4)

/-- The INs of the channels that some links of an instance feed. -/
def chanInputs (cfg : ChanCfg) (ns : List CNode) (canon : Nat) (p : LinkCfg → Bool) : List (CNode × SlotName) :=
  (cfg.links.filter fun l => l.srcCanon == canon && p l).flatMap fun l =>
    (ns.filter fun n => n.canon == l.dstCanon && n.op == .inp && n.node.aux.toNat == l.dstPort).map fun n => (n, .l)

/-- What an instance's matrix node feeds: its completion port, and the channels of the output ports that no node names (R238, R247). -/
def mxInputs (cfg : ChanCfg) (ns : List CNode) (canon : Nat) : List (CNode × SlotName) :=
  ((ns.filter fun n => n.canon == canon && n.op == .inp && (portCfg cfg canon n.node.aux.toNat).any fun p => p.bind == .engine 4).map fun n => (n, .l)) ++
    chanInputs cfg ns canon fun l => !l.done && !(ns.any fun m => m.canon == canon && (nodeTargets m.node).contains (.out l.srcPort))

/-- The delay registers from one on that a node writes or reads: two where its result is a pair (R89). -/
def CNode.pairRegs (n : CNode) (d : Nat) : List Nat := if pairNode n.op n.node then [d, d + 1] else [d]

/-- The inputs that a target of a node leads to: a slot of its block, or the INs of the channels that the port feeds; and, where `through` holds, the
readers of its delay register and what the matrix node feeds. -/
def targetInputs (cfg : ChanCfg) (ns : List CNode) (through : Bool) (n : CNode) (tg : Target) : List (CNode × SlotName) :=
  match tg with
  | .slot w k => (ns.filter fun m => m.canon == n.canon && m.slot == k).map fun m => (m, w)
  | .out k => chanInputs cfg ns n.canon fun l => !l.done && l.srcPort == k
  | .done k => chanInputs cfg ns n.canon fun l => l.done && l.srcPort == k
  | .dl d =>
    if through then
      (ns.filter fun m => m.canon == n.canon && m.op == .dlrd && (m.pairRegs (m.node.aux.toNat % 64)).any (n.pairRegs d).contains).map fun m => (m, .l)
    else []
  | .mx _ => if through then mxInputs cfg ns n.canon else []
  | .none => []

/-- Every input reached from some targets through nodes that a test lets pass. -/
def flow (cfg : ChanCfg) (ns : List CNode) (through : Bool) (pass : Op → Bool) : Nat → List (CNode × SlotName) → List (CNode × SlotName) → List (CNode × SlotName)
  | 0, _, seen => seen
  | f + 1, front, seen =>
    let new := ((front.filter fun (n, _) => pass n.op).flatMap fun (n, _) => (nodeTargets n.node).flatMap (targetInputs cfg ns through n)).eraseDups.filter
      fun x => !seen.contains x
    if new.isEmpty then seen else flow cfg ns through pass f new (seen ++ new)

def flowFrom (cfg : ChanCfg) (ns : List CNode) (through : Bool) (pass : Op → Bool) (n : CNode) (tgs : List Target) : List (CNode × SlotName) :=
  let start := (tgs.flatMap (targetInputs cfg ns through n)).eraseDups
  flow cfg ns through pass (3 * ns.length) start start

/-- The targets that carry an element's done token, and those that carry its data (R172). -/
def CNode.doneTargets (n : CNode) : List Target :=
  if n.isRead then [n.node.b, (match n.node.ext with | some e => e.d | none => .none)] else if n.isWrite then nodeTargets n.node else []
def CNode.dataTargets (n : CNode) : List Target :=
  if n.isRead then [n.node.a, (match n.node.ext with | some e => e.c | none => .none)] else []

/-- The elements that an element is linked to by one of the three links. -/
def linkedTo (cfg : ChanCfg) (ns : List CNode) (n : CNode) : List CNode :=
  let donePass (o : Op) : Bool := o == .djoin || o == .fence || o == .inp
  let dones := flowFrom cfg ns false donePass n n.doneTargets
  let l1 := dones.filterMap fun (m, w) => if memElem m.op && w == .p then some m else none
  let sems := dones.filterMap fun (m, w) => if m.op == .semsig && w == .p then some m.node.aux.toNat else none
  let polls := ns.filter fun m => (m.op == .semwait || m.op == .semrd) && sems.contains m.node.aux.toNat
  let data (m : CNode) (tgs : List Target) : List CNode :=
    (flowFrom cfg ns true (fun o => !memElem o) m tgs).filterMap fun (x, _) => if memElem x.op then some x else none
  (l1 ++ polls.flatMap (fun m => data m (nodeTargets m.node)) ++ data n n.dataTargets).eraseDups

/-- One round of taking the first member of what each element is linked to. -/
def groupRound (es : List ((Nat × Nat) × List (Nat × Nat))) (ids : List ((Nat × Nat) × (Nat × Nat))) : List ((Nat × Nat) × (Nat × Nat)) :=
  let idOf (k : Nat × Nat) : Nat × Nat := ((ids.find? fun p => p.1 == k).map (·.2)).getD k
  let least (a b : Nat × Nat) : Nat × Nat := if a.1 < b.1 || (a.1 == b.1 && a.2 ≤ b.2) then a else b
  ids.map fun (k, v) =>
    let near := es.flatMap fun (j, ls) => if j == k then ls else if ls.contains k then [j] else []
    (k, near.foldl (fun a j => least a (idOf j)) v)

def groupRounds (es : List ((Nat × Nat) × List (Nat × Nat))) : Nat → List ((Nat × Nat) × (Nat × Nat)) → List ((Nat × Nat) × (Nat × Nat))
  | 0, ids => ids
  | n + 1, ids => groupRounds es n (groupRound es ids)

/-- The ordering group of every memory element of a configuration. -/
def orderGroups (cfg : ChanCfg) (xs : List Loaded) : List ((Nat × Nat) × (Nat × Nat)) :=
  let ns := xs.flatMap Loaded.cnodes
  let es := (ns.filter fun n => memElem n.op).map fun n => ((n.canon, n.slot), (linkedTo cfg ns n).map fun m => (m.canon, m.slot))
  groupRounds es es.length (es.map fun (k, _) => (k, k))

/-! Writing the next bank (R319). -/

/-- A port of an instance as its legend entry binds it. -/
def portOf (cfg : ChanCfg) (p : PortCfg) : InPort :=
  let w := p.legend
  { InPort.fresh with
    bind := p.bind, sampled := bitAt w 41, fin := (Ty.ofCode (bitsNat w 0 4)).getD .raw, fout := (Ty.ofCode (bitsNat w 4 4)).getD .raw,
    rescale := bitsNat w 8 8, depth := bitsNat w 16 5 + 1, detach := bitAt w 35, group := bitsNat w 42 8,
    doneEdge := cfg.links.any fun l => l.done && l.dstCanon == p.canon && l.dstPort == p.port }

/-- The channels of an output port or done edge: (canonical index, port) of each consumer. -/
def linkDests (cfg : ChanCfg) (canon : Nat) (done : Bool) (k : Nat) : List (Nat × Nat) :=
  (cfg.links.filter fun l => l.srcCanon == canon && l.done == done && l.srcPort == k && ((portCfg cfg l.dstCanon l.dstPort).any fun p => p.bind == .channel)).map
    fun l => (l.dstCanon, l.dstPort)

def bankOf (cfg : ChanCfg) (x : Loaded) : NextBank :=
  let ins := (cfg.ports.filter fun p => p.canon == x.canon && atLocal p).map fun p => (p.port, portOf cfg p)
  let outs (done : Bool) := (List.range 16).filterMap fun k =>
    let ds := linkDests cfg x.canon done k
    if ds.isEmpty then none else some (k, { OutPort.fresh with dests := ds.map fun (c, p) => (8192 + c, p) })
  { leaf := x.leaf, canon := x.canon, hdr := x.hdr, words := x.words, agens := x.agens, tmpls := x.tmpls, cbufs := x.cbufs,
    inPorts := ins.foldl (fun l (k, p) => tset l k p) [], outs := outs false, dones := outs true }

/-- The next bank of a tile written for an entry, and the CONFIG beat sent on each of its channels (R37). -/
def State.sendConfig (s : State) (k : Nat) (cfg : ChanCfg) (x : Loaded) : State :=
  let y := s.tile x.tile
  let ports := if y.inPorts.isEmpty then [0] else y.inPorts.map (·.1)
  let s1 := s.setTile x.tile { y with region := k, next := some (bankOf cfg x) }
  ports.foldl (fun s p =>
    let z := s.tile x.tile
    s.setTile x.tile (z.setIn p { z.inPort p with flight := (z.inPort p).flight ++ [Beat.ctl 1 0] })) s1

/-! Invocations of a launch. -/

/-- Commands of an entry that its queues still hold. -/
def State.hasCmds (s : State) (k : Nat) : Bool :=
  (s.ctx (s.region k).ctx).queues.any fun (_, q) => (q.entries ++ q.started).any fun c => c.region == k

/-- Whether an entry can run another invocation. -/
def State.entryFree (s : State) (k : Nat) : Bool := (s.region k).phase == .off && (s.region k).tiles.isEmpty && !s.hasCmds k

/-- The lowest entry of a region that can: its own, or a further one. -/
def State.freeEntry (s : State) (g : Nat) : Nat :=
  let ks := (List.range ((s.family g).length + 2)).map fun i => g % 1024 + 1024 * i
  (ks.find? s.entryFree).getD (g % 1024 + 1024 * ((s.family g).length + 2))

/-- An entry for the next invocation of a launch, with what the launch gives it. -/
def invocation (h r : Region) (home : Bool) : Region :=
  { (if home then h else r) with
    ctx := h.ctx, gen := h.gen, valid := true, canon := h.canon, launch := h.launch, leaves := h.leaves, cfg := h.cfg, childTab := h.childTab,
    owners := h.owners.map fun o => { o with cur := 0, moving := false }, inst := 0, round := 0, roundBase := 0, ended := none, ending := false,
    exit := (0, 0, 0), firedInst := false, entries := [], reads := [], issued := [], past := [], brkAt := none,
    wrote := if home then h.wrote else [] }

/-- An invocation's blocks sent to their tiles. The tiles leave the entries that they stood in. -/
def State.beginInvocation (s : State) (g group : Nat) (xs : List Loaded) : State :=
  let ts := xs.map (·.tile)
  let s1 := (s.family g).foldl (fun s k => s.setRegion k { s.region k with tiles := (s.region k).tiles.filter fun t => !ts.contains t }) s
  let k := s1.freeEntry g
  let h := s1.home g
  let r := invocation h (s1.region k) (k == g % 1024)
  let s2 := s1.setRegion k { r with tiles := ts, group := group, groups := orderGroups h.cfg xs }
  xs.foldl (fun s x => s.sendConfig k h.cfg x) s2

/-- Whether some tile of an entry still waits for its configuration. -/
def State.loading (s : State) (k : Nat) : Bool := (s.region k).tiles.any fun t => (s.tile t).next.isSome

/-- Whether a tile of a region may take another instance (R157, R318): its invocation has ended and no started command feeds it, takes its
beats or completes at it. -/
def State.tileFree (s : State) (t : Nat) : Bool :=
  let x := s.tile t
  let c := (s.home x.region).ctx
  x.next.isNone && (x.words.isEmpty || (s.region x.region).phase == .off) &&
    !((s.ctx c).queues.any fun (_, q) => q.started.any fun d =>
      d.region % 1024 == x.region % 1024 && !s.stale d && d.phase != .faulted && !x.words.isEmpty &&
        ((d.tile == t && d.cport.isSome) ||
         (match d.endPt with
          | some e => if e.ekind == 2 then (s.endPorts d).any (fun p => p.1 == t) else e.canon == x.canon
          | none => false)))

/-- The leaves with waiting thread tokens, each with how many (R35); instances of a `streamed` group come as a whole. -/
def Region.tokens (h : Region) : List (Nat × Nat) :=
  let ls := (h.waiting.map (·.1)).eraseDups.filter fun l => !(h.plan.any fun g => g.streamed && g.leaves.contains l)
  (sortNats ls).map fun l => (l, (h.waiting.filter fun p => p.1 == l).length)

/-- The element with the greatest value; ties to the first. -/
def bestOf : List (Nat × Nat) → Option (Nat × Nat)
  | [] => none
  | x :: xs => match bestOf xs with | some y => some (if x.2 < y.2 then y else x) | none => some x

/-- The leaf of a decision (R35). -/
def Region.chooseLeaf (h : Region) : Option Nat :=
  let ts := h.tokens
  let aged := (ts.map fun (l, _) => (l, tget 0 h.ages l)).filter fun p => 7 ≤ p.2
  ((if aged.isEmpty then bestOf ts else bestOf aged)).map (·.1)

/-- Ages after a decision (R35). -/
def Region.aged (h : Region) (l : Nat) : Region :=
  { h with ages := (h.tokens.map (·.1)).foldl (fun a k => tset a k (if k == l then 0 else tget 0 h.ages k + 1)) [] }

/-- The waiting instance of a leaf with the lowest canonical index, taken (R318), with its group. -/
def Region.takeToken (h : Region) (l : Nat) : Nat × Nat × Region :=
  let m := ((h.waiting.filter fun p => p.1 == l).map (·.2)).foldl min 4096
  let i := ((List.range h.plan.length).find? fun i => h.begunG.contains i && !h.doneG.contains i && (h.plan.getD i ⟨[], false, []⟩).leaves.contains l).getD 0
  (m, i, { h with waiting := h.waiting.filter fun p => p != (l, m) })

/-- A begun `streamed` group that waits for its tiles, with its instances. -/
def Region.waitingGroup (h : Region) : Option (Nat × List (Nat × Nat)) :=
  ((List.range h.plan.length).find? fun i =>
    let g := h.plan.getD i ⟨[], false, []⟩
    g.streamed && h.begunG.contains i && !h.doneG.contains i && h.waiting.any fun p => g.leaves.contains p.1).map fun i =>
      (i, h.waiting.filter fun p => (h.plan.getD i ⟨[], false, []⟩).leaves.contains p.1)

/-- What to load next on free tiles: the group and its (leaf, instance, tile)s, and the region after the decision; none where nothing waits or
a streamed group lacks tiles. -/
def Region.decide (h : Region) (free : List Nat) : Option (Nat × List (Nat × Nat × Nat) × Region) :=
  match h.waitingGroup with
  | some (i, ms) =>
    if free.length < ms.length then none
    else some (i, (ms.zip free).map (fun ((l, m), t) => (l, m, t)), { h with waiting := h.waiting.filter fun p => !ms.contains p })
  | none =>
    match h.chooseLeaf, free with
    | some l, t :: _ =>
      let (m, i, h1) := (h.aged l).takeToken l
      some (i, [(l, m, t)], h1)
    | _, _ => none

/-- Every decision that the free tiles allow, at the start of a launch. -/
def Region.decisions (h : Region) : Nat → List Nat → List (Nat × List (Nat × Nat × Nat)) × Region
  | 0, _ => ([], h)
  | n + 1, free =>
    match h.decide free with
    | none => ([], h)
    | some (i, ms, h1) =>
      let (r, h2) := h1.decisions n (free.filter fun t => !(ms.any fun (_, _, u) => u == t))
      ((i, ms) :: r, h2)

/-- The blocks of some instances, checked; or the first failure with the block that it concerns (R83, R84). -/
def loadAll (s : State) (v : Via) (e : LoadEnv) (leaves : List Leaf) : List (Nat × Nat × Nat) → Except (LoadErr × Nat × Nat) (List Loaded)
  | [] => .ok []
  | (l, m, t) :: r =>
    let lf := leaves.getD l default
    match loadBlock s v e lf l (lf.firstCanon + m) t with
    | .error x => .error (x, l, t)
    | .ok b => match loadAll s v e leaves r with | .error x => .error x | .ok bs => .ok (b :: bs)

/-- Instances in ascending canonical index. -/
def sortLoads (leaves : List Leaf) (ms : List (Nat × Nat × Nat)) : List (Nat × Nat × Nat) :=
  let key (p : Nat × Nat × Nat) : Nat := (leaves.getD p.1 default).firstCanon + p.2.1
  ms.foldl (fun acc x => acc.filter (fun y => key y ≤ key x) ++ [x] ++ acc.filter (fun y => key x < key y)) []

/-- All five stages over a configuration. DEDUCED, notes/assumptions/61.md. -/
def checkConf (s : State) (v : Via) (e : LoadEnv) (cfg : ChanCfg) (leaves : List Leaf) (os : List (List Nat)) (ms : List (Nat × Nat × Nat)) :
    Except (LoadErr × Nat × Nat) (List Loaded) :=
  match loadAll s v e leaves (sortLoads leaves ms) with
  | .error x => .error x
  | .ok xs =>
    match confErr s e cfg leaves os xs with
    | none => .ok xs
    | some (x, b) => .error (x, match b with | some y => (y.leaf, y.tile) | none => (0, 0))

/-- The detail word (R85). -/
def detailOf (x : LoadErr × Nat × Nat) : Nat :=
  let ((c, w, b), l, t) := x
  c.code * 2 ^ 56 + w * 2 ^ 48 + b * 2 ^ 40 + l * 2 ^ 24 + t * 2 ^ 11

/-- The CONFIG record of the loader (R83, R352): it stops nothing. -/
def State.configRecord (s : State) (ctx : Nat) (region : Option Nat) (x : LoadErr × Nat × Nat) : State :=
  s.raise { Flt.zero with cls := 1, cause := x.1.1.code, ctx := ctx, region := region, addr := detailOf x, agent := .none }

/-! Placement (R317). -/

/-- Tiles that regions hold: not those of a suspended region that has been saved and moved on (R368). -/
def Region.holds (r : Region) (t : Nat) : Bool :=
  r.valid && r.allTiles.contains t && !(r.susp && (match r.saved with | some g => g != r.gen | none => false))

def State.heldTile (s : State) (t : Nat) : Bool := s.regions.any fun (k, r) => k < 1024 && r.holds t

/-- Tiles held by the regions of a partition. -/
def State.partHeld (s : State) (p : Nat) : Nat :=
  (((s.regions.filter fun (k, r) => k < 1024 && r.ctx != 0 && (s.ctx r.ctx).part == p).map fun (_, r) =>
    (r.allTiles.filter r.holds).length)).foldl (· + ·) 0

/-- Needs of a partition's launches that have started and are not placed yet. -/
def State.reserved (s : State) (p : Nat) (but : Option Nat) : Nat :=
  (((s.launches.filter fun (k, l) => l.phase == .started && l.ctx != 0 && (s.ctx l.ctx).part == p && some k != but).map fun (_, l) => l.need)).foldl (· + ·) 0

/-- Free tiles of a partition's dies in ascending logical identifier. -/
def State.freeTiles (s : State) (p : Nat) : List Nat :=
  (List.range Config.userTiles).filter fun t => (s.part p).dies / 2 ^ Config.dieOf t % 2 == 1 && !s.heldTile t

/-- How many tiles a partition may still take (R290, R317). -/
def State.freeCount (s : State) (p : Nat) (but : Option Nat) : Nat :=
  min ((s.part p).tiles - s.partHeld p) (s.freeTiles p).length - s.reserved p but

/-- A launch's kernel, if its descriptor stands the checks. -/
def State.kernelOf (s : State) (l : Launch) : Option (Kernel × List (List Nat)) :=
  if l.kernel % 64 != 0 then none else readKernel s l.via l.kernel l.count

/-- The tiles that a region loses to a new launch: suspended regions that have been saved give theirs away. -/
def State.takeTiles (s : State) (ts : List Nat) : State :=
  let s1 := s.regions.foldl (fun s (k, _) =>
    let r := s.region k
    if r.susp || r.phase == .suspended then
      s.setRegion k { r with allTiles := r.allTiles.filter (fun t => !ts.contains t), tiles := r.tiles.filter fun t => !ts.contains t }
    else s) s
  ts.foldl State.freeTile s1

/-- A refused launch: nothing of it runs (R311). -/
def State.refuseLaunch (s : State) (id : Nat) (l : Launch) (x : LoadErr × Nat × Nat) : State :=
  (s.configRecord l.ctx none x).setLaunch id fun y => { y with phase := .refused, detail := detailOf x }

/-- The lowest region that is not in use and whose last launch has completed. -/
def State.freeRegion (s : State) : Option Nat := (List.range 1024).find? fun g =>
  !(s.home g).valid && !(s.launches.any fun (_, l) => l.region == g && (l.phase == .ended || l.phase == .killed))

/-- A region in the launch's hands: REGTILES and REGCANON set, the generation bumped (R317). Where the loader keeps the list that REGTILES names is open:
DESIGN CHOICE, notes/assumptions/100.md. -/
def State.openRegion (s : State) (g id : Nat) (l : Launch) (k : Kernel) (cfg : ChanCfg) (ts : List Nat) : State :=
  let s1 := (s.family g).foldl (fun s j => if j < 1024 then s else s.setRegion j { Region.fresh with gen := (s.region j).gen }) s
  let s2 := s1.bump g
  let old := s2.home g
  { s2.setRegion (g % 1024)
      { Region.fresh with gen := old.gen, stale := old.stale, late := old.late, ctx := l.ctx, valid := true, canon := l.count, launch := id, allTiles := ts,
                          leaves := k.leaves, plan := k.plan, cfg := cfg, owners := k.owners, childTab := k.childTab,
                          tilesAddr := (Config.regTilesAddr s.tick).toNat, tilesOwn := true } with tick := s2.tick + 1 }

/-- The tiles of a launch: of the supervisor slots, or of its partition (R299, R317). -/
def State.placeTiles (s : State) (id : Nat) (l : Launch) (need : Nat) : List Nat :=
  if l.isPsq then (List.range 4).map (4100 + ·)
  else
    let free := s.freeCount (s.ctx l.ctx).part (some id)
    let want := if l.want == 0 then l.count else l.want
    (s.freeTiles (s.ctx l.ctx).part).take (max need (min want free))

def State.loadEnv (s : State) (l : Launch) (owners kids : Nat) : LoadEnv :=
  { ctx := l.ctx, fxt := (s.ctx l.ctx).fxt, det := !(s.ctx l.ctx).relaxed, priv := l.isPsq, canon := l.count, owners := owners, kids := kids }

/-- A leaf whose block sets PRIV where the launch may hold none: the kernel is refused as a whole, whichever configuration would load it (R82). A block that
fails an earlier check is its own configuration's to refuse. DEDUCED, notes/assumptions/61.md. -/
def privLeaf (s : State) (v : Via) (e : LoadEnv) (ls : List Leaf) : Option Nat :=
  ((ls.zip (List.range ls.length)).find? fun (lf, i) =>
    match loadBlock s v e lf i lf.firstCanon 0 with | .error x => x.1 == .priv && x.2.1 == 0x80 | .ok _ => false).map (·.2)

/-- CONFIG_LOAD: the loader checks a started launch and its first configuration, and places it (R83, R84, R311, R317, R319). The channel list comes
with the configuration (R159, R421). DESIGN CHOICE, notes/assumptions/63.md. -/
def execConfigLoad (launch : Nat) (cfg : ChanCfg) (s : State) : Res :=
  .next
    (match tget? s.launches launch with
     | none => s
     | some l =>
       if l.phase != .started || s.ctlHalt then s
       else
         let refuse (c : CfgCheck) : State := s.refuseLaunch launch l ((c, 0x82, 0xFF), 0, 0)
         if l.bad then refuse .launch
         else
           match s.kernelOf l with
           | none => refuse .kernel
           | some (k, os) =>
             let need := k.need
             if (if l.isPsq then 4 else (s.part (s.ctx l.ctx).part).tiles) < need then refuse .place
             else
               match s.freeRegion with
               | none => s
               | some g =>
                 let ts := s.placeTiles launch l need
                 let e := s.loadEnv l os.length k.childTab.length
                 if ts.length < need || s.genInFlight g (((s.home g).gen + 1) % 256) then s
                 else
                   let s1 := if l.isPsq then { s with actctx := (List.range 4).foldl (fun a i => tset a (4 + i) 256) s.actctx } else s
                   let s2 := (s1.takeTiles ts).openRegion g launch l k cfg ts
                   let h := (s2.home g).beginGroups
                   let (ds, h1) := h.decisions (ts.length + 1) ts
                   match checkConf s l.via e cfg k.leaves os (ds.flatMap (·.2)), privLeaf s l.via e k.leaves with
                   | .error x, _ => s.refuseLaunch launch l x
                   | .ok _, some i => s.refuseLaunch launch l ((.priv, 0x80, 82), i, 0)
                   | .ok xs, none =>
                     let s3 := s2.setRegion g h1
                     let s4 := ds.foldl (fun s (i, ms) =>
                       s.beginInvocation g i (xs.filter fun x => ms.any fun (_, _, t) => t == x.tile)) s3
                     s4.setLaunch launch fun y => { y with phase := .running, region := g, need := need })

/-! The start of an invocation. -/

/-- The channels of a region's resident instances, led to where their consumers stand now (R318, R319). -/
def State.relink (s : State) (g : Nat) : State :=
  (s.home g).allTiles.foldl (fun s t =>
    let x := s.tile t
    let cfg := (s.home g).cfg
    let led (done : Bool) (os : List (Nat × OutPort)) := os.map fun (k, o) =>
      let ds := linkDests cfg x.canon done k
      (k, if ds.isEmpty then o else { o with dests := ds.map fun (c, p) => (match s.holder g c with | some u => (u, p) | none => (8192 + c, p)) })
    if x.words.isEmpty || x.next.isSome then s else s.setTile t { x with outs := led false x.outs, dones := led true x.dones }) s

/-- The launch bindings of an instance, in order of definition (R190, R421). -/
def State.bindsOf (s : State) (t : Nat) : List (Nat × List W64) :=
  ((s.home (s.tile t).region).cfg.binds.filter fun b => b.canon == (s.tile t).canon).map fun b => (t, b.words)

/-- An invocation starts when all of its tiles have their blocks: instant 0 of round 0 (R29, R39); its launch bindings enter their queues first, as these
have room (R190, R194). -/
def State.startInvocation (s : State) (k : Nat) : State :=
  if s.loading k || (s.region k).phase != .off then s
  else
    let s1 := s.setRegion k (s.rewatch { s.region k with phase := .running, roundCycle := s.cycle })
    let s2 := s1.relink k
    (s2.setRegion k { s2.region k with unbound := (sortNats (s2.region k).tiles).flatMap s2.bindsOf }).bindMore k

/-- A channel's entry switched to the next bank as the CONFIG beat passes (R37, R319). The old entry's slots return to the pool; its buffered beats have no
node left to take them. The new entry has its depth, or none while the pool of 256 slots lacks it (R14). -/
def Tile.switchPort (x : Tile) (b : NextBank) (k : Nat) : Tile :=
  match tget? b.inPorts k with
  | none => { x with inPorts := tdel x.inPorts k }
  | some q =>
    let used := ((x.inPorts.filter fun (j, _) => j != k).map fun (_, p) => p.depth).foldl (· + ·) 0
    x.setIn k { q with depth := if used + q.depth ≤ 256 then q.depth else 0 }

/-- CONFIG_BEAT_ARRIVE (R37): the beat stands behind the last data beat of the old configuration on its channel, and switches the channel to the new one;
when the last of them has come, the tile takes the new configuration, and with the last tile the invocation starts. -/
def execConfigBeatArrive (t k : Nat) (s : State) : Res :=
  .next (s.atControl t k 1 fun _ p =>
    let x := (s.tile t).setIn k p
    match x.next with
    | some b => if x.configOwed then s.setTile t (x.switchPort b k) else (s.setTile t (x.take b)).startInvocation x.region
    | none => s.setTile t x)

/-! LEAF_DECISION. -/

/-- Whether some invocation of a region runs or is being loaded. -/
def State.someRuns (s : State) (g : Nat) : Bool := (s.family g).any fun k => (s.region k).phase != .off || s.loading k

/-- A free tile of a region: the next instance, or the next whole `streamed` group, is checked and loaded. A refused configuration fails the
launch once what runs has ended (R83). DEDUCED, notes/assumptions/64.md. -/
def execLeafDecision (g t : Nat) (s : State) : Res :=
  .next
    (let h := s.home g
     match tget? s.launches h.launch with
     | none => s
     | some l =>
       if s.ctlHalt || !h.valid || h.susp || h.busy || l.phase != .running || (s.family g).any (fun k => (s.region k).phase == .stopped) then s
       else if l.bad then (if s.someRuns g then s else s.killRegion g 1)
       else
         let free := h.allTiles.filter s.tileFree
         if !free.contains t then s
         else
           match h.decide (t :: free.filter (· != t)) with
           | none => s
           | some (i, ms, h1) =>
             let os := h.owners.map fun o => [o.start, o.len, o.owners.getD 0 0 + o.owners.getD 1 0 * 2 ^ 32, o.owners.getD 2 0 + o.owners.getD 3 0 * 2 ^ 32]
             match checkConf s l.via (s.loadEnv l h.owners.length h.childTab.length) h.cfg h.leaves os ms with
             | .error x =>
               ((s.setRegion (g % 1024) (h.aged (ms.headD default).1)).configRecord h.ctx (some (g % 1024)) x).setLaunch h.launch fun y => { y with bad := true }
             | .ok xs => (s.setRegion (g % 1024) h1).beginInvocation g i xs)

end Sys2Proof.Machine
end

