-- ==== Sys2Proof/Machine/Scheduler.lean ====
section
/-!
DEFINITION. The scheduler graph: submission queues and launch records (R308–R311), decisions (R313–R316), pre-emption for a pinned head and
resumption (R315, R368), the privileged submission queue (R299, R387), and the end of a launch (R226, R311, R312).
-/
namespace Sys2Proof.Machine

/-! Launch records. -/

/-- A launch record that breaks R310. -/
def badRecord (j : List Nat) : Bool :=
  let w (i : Nat) := j.getD i 0
  let count := fld (w 2) 0 13
  w 0 / 2 ^ 57 != 0 || w 0 % 64 != 0 || w 1 / 2 ^ 57 != 0 || w 1 % 64 != 0 || count == 0 || 4096 < count || 4096 < fld (w 2) 13 13 ||
    fld (w 2) 26 6 != 0 || w 2 / 2 ^ 33 != 0 || w 3 == 0 || w 3 % 32 != 0 || w 3 / 2 ^ 57 != 0 || w 4 / 2 ^ 24 != 0 || w 6 != 0 || w 7 != 0

/-- The launch of a record; one that cannot be read is a bad one. DEDUCED, notes/assumptions/65.md. -/
def launchOf (src : Source) (ctx level : Nat) (j : Option (List Nat)) : Launch :=
  let w (i : Nat) := (j.getD []).getD i 0
  { src := src, ctx := ctx, level := level, kernel := w 0 % 2 ^ 57, args := w 1 % 2 ^ 57, count := fld (w 2) 0 13, want := fld (w 2) 13 13,
    barrier := fld (w 2) 32 1 == 1, crec := w 3 % 2 ^ 57, csem := fld (w 4) 0 8, cinc := fld (w 4) 8 16, tag := w 5, phase := .started, region := 0,
    exit := 0, cls := 0, detached := false, preempted := false, instants := 0, detail := 0, need := 0, order := 0,
    bad := match j with | some j => badRecord j | none => true }

/-- The tiles a launch must find free to start: none where it will be refused (R311, R313). -/
def State.needNow (s : State) (l : Launch) : Nat :=
  if l.bad then 0
  else
    match s.kernelOf l with
    | none => 0
    | some (k, _) => if (s.part (s.ctx l.ctx).part).tiles < k.need then 0 else k.need

/-! Queues (R308, R309). -/

def SubQ.ring (q : SubQ) : Nat := bitsNat q.d0 0 57
def SubQ.slots (q : SubQ) : Nat := 2 ^ bitsNat q.d0 57 4
def SubQ.ctx (q : SubQ) : Nat := bitsNat q.d1 0 8
def SubQ.level (q : SubQ) : Nat := bitsNat q.d1 8 2
def SubQ.psem (q : SubQ) : Nat := bitsNat q.d1 10 8

/-- The status that the posted count gives an ACTIVE queue. -/
def SubQ.statusNow (q : SubQ) (m : Sem) : Nat :=
  if q.status != 0 then q.status else if m.sticky then 3 else if q.slots < m.value - q.started then 1 else 0

/-- Every queue's status brought up to date (R308, R309). -/
def State.updateQueues (s : State) (p : Nat) : State :=
  (List.range 64).foldl (fun s q =>
    let x := s.subq p q
    let st := x.statusNow ((s.ctx x.ctx).sem x.psem)
    if (s.part p).sqen / 2 ^ q % 2 == 0 || st == x.status then s else s.setQ p q { x with status := st }) s

/-- The record at the head of every ACTIVE queue whose posted count has been read past it is copied, one that cannot be read as no words (R309). -/
def State.copyHeads (s : State) (p : Nat) : State :=
  (List.range 64).foldl (fun s q =>
    let x := s.subq p q
    if (s.part p).sqen / 2 ^ q % 2 == 0 || x.status != 0 || x.head.isSome || ((s.ctx x.ctx).sem x.psem).value ≤ x.started then s
    else s.setPasses p q fun y => { y with head := some ((s.fetchWords ⟨some x.ctx, false⟩ (x.ring + 64 * (x.started % x.slots)) 8).getD []) }) s

/-- A head: its queue, the launch, and whether it is posted and its barrier is satisfied. -/
structure Head where
  queue : Nat
  launch : Launch
  id : Option Nat
  ready : Bool
deriving DecidableEq, Repr, Inhabited

/-- The number of a child queue, after the host queues (R316). -/
def childQueue (ctx level : Nat) : Nat := 64 + 4 * ctx + level

def State.hostHead (s : State) (p q : Nat) : Option Head :=
  let x := s.subq p q
  if (s.part p).sqen / 2 ^ q % 2 == 0 || x.status != 0 then none
  else
    x.head.map fun j =>
      let l := launchOf (.queue p q x.started) x.ctx x.level (if j.isEmpty then none else some j)
      ⟨q, l, none, (!l.barrier || x.completed == x.started) && !(s.holdFxt && (s.ctx x.ctx).fxt)⟩

def State.childHeads (s : State) (p : Nat) : List Head :=
  (s.ctxs.filter fun (c, x) => c != 0 && x.part == p).flatMap fun (c, x) =>
    (List.range 4).filterMap fun lv =>
      match tget [] x.childq lv with
      | id :: _ => (tget? s.launches id).map fun l => ⟨childQueue c lv, l, some id, !(s.holdFxt && x.fxt)⟩
      | [] => none

/-- The heads of a partition, host queues first. -/
def State.heads (s : State) (p : Nat) : List Head := (List.range 64).filterMap (s.hostHead p) ++ s.childHeads p

/-- A rotation: what follows a queue first (R313). -/
def rotate (after : Option Nat) (hs : List Head) : List Head :=
  match after with
  | none => hs
  | some q => hs.filter (fun h => q < h.queue) ++ hs.filter fun h => !(q < h.queue)

/-! Pinned heads (R315). -/

def State.pinnedHead (s : State) (p : Nat) (hs : List Head) : Option Head := hs.find? fun h => (s.subq p h.queue).pinned

/-- The head with the most passes, 8 or more, is pinned unless one is. -/
def State.pinNext (s : State) (p : Nat) (hs : List Head) : State :=
  if (s.pinnedHead p hs).isSome then s
  else
    match bestOf ((hs.map fun h => (h.queue, (s.subq p h.queue).passes)).filter fun x => 8 ≤ x.2) with
    | some (q, _) => s.setPasses p q fun x => { x with pinned := true }
    | none => s

/-- A start passes over every other head that is posted and barrier-free but lacks tiles. -/
def State.countPasses (s : State) (p started free : Nat) (hs : List Head) : State :=
  hs.foldl (fun s h =>
    if h.queue != started && h.ready && free < s.needNow h.launch then s.setPasses p h.queue fun x => { x with passes := x.passes + 1 } else s) s

/-! Starting. -/

/-- A launch starts: it is the loader's from now on. -/
def State.startHead (s : State) (p : Nat) (h : Head) : State :=
  let need := s.needNow h.launch
  let order := (s.launches.filter fun (_, l) => l.phase != .waiting).length
  let id := h.id.getD s.launches.length
  let s1 := { s with launches := tset s.launches id { h.launch with phase := .started, need := need, order := order } }
  let s2 := s1.setPart p { s1.part p with lastStart := tset (s1.part p).lastStart h.launch.level h.queue }
  match h.launch.src with
  | .queue _ q _ =>
    let x := s2.subq p q
    s2.setQ p q { x with started := x.started + 1, passes := 0, pinned := false, running := x.running ++ [id], head := none }
  | .child c lv _ =>
    let y := s2.ctx c
    (s2.setCtx c { y with childq := tset y.childq lv ((tget [] y.childq lv).drop 1) }).setPasses p h.queue fun x => { x with passes := 0, pinned := false }
  | .psq _ => s2

/-- The launch of a region and its level. -/
def State.regionLaunch (s : State) (g : Nat) : Option Launch := tget? s.launches (s.home g).launch

/-- The region that is pre-empted next for a pinned head of a level: of the lowest priority, then the most recently started; while one is being
pre-empted, none. -/
def State.victim (s : State) (p level : Nat) : Option Nat :=
  let rs := (s.regions.filter fun (k, r) => k < 1024 && r.valid && r.ctx != 0 && (s.ctx r.ctx).part == p).filterMap fun (k, r) =>
    (tget? s.launches r.launch).map fun l => (k, r, l)
  if rs.any fun (_, r, _) => r.busy then none
  else
    (bestOf ((rs.filter fun (_, r, l) => !r.susp && l.phase == .running && level < l.level).map fun (k, _, l) => (k, l.level * 2 ^ 64 + l.order))).map (·.1)

/-- A suspended region's state saved by the control graph and its generation bumped, so that its tiles may go (R368). -/
def State.releaseTiles (s : State) (g : Nat) : State :=
  let r := s.home g
  if r.susp && r.saved.isNone && !s.genInFlight g ((r.gen + 1) % 256) then (s.park g (s.tilesOf g)).bump g else s

/-- A region restored to its tiles, staged contents fetched again, and resumed (R305, R315, R365, R368); none where a fetch faults. -/
def State.restoreRegion (s : State) (g : Nat) : Option State :=
  let r := s.home g
  if r.parked.isEmpty then some (s.resumeRegion g)
  else
    let s1 := s.unpark g (r.parked.map (·.1)) (saveBytesOf s g r.parkedCmds r.parked)
    ((s1.home g).allTiles.foldl (fun acc u => acc.bind fun s => replayTile s u) (some s1)).map fun s2 => s2.resumeRegion g

/-- Whether a suspended region's tiles are free for it. -/
def State.maySeat (s : State) (p g : Nat) : Bool :=
  let r := s.home g
  r.susp && (r.parked.isEmpty || ((r.parked.all fun (t, _) => !s.heldTile t) && r.parked.length ≤ s.freeCount p none))

/-- The pre-empted regions of a partition that wait at a level. -/
def State.suspendedAt (s : State) (p level : Nat) : List Nat :=
  (s.part p).suspended.filter fun g => (s.home g).valid && (match s.regionLaunch g with | some l => l.level == level | none => false)

def State.unlist (s : State) (p g : Nat) : State := s.setPart p { s.part p with suspended := (s.part p).suspended.filter (· != g) }

/-- What a decision finds at a level: a suspended region to resume, or a head to start. While a head is pinned, its level starts no other head, and lower
priorities start and resume nothing (R315). DEDUCED, notes/assumptions/66.md. -/
def State.decideLevel (s : State) (p free : Nat) (hs : List Head) (level : Nat) : Option State :=
  let pin := s.pinnedHead p hs
  let blocked : Bool := match pin with | some h => h.launch.level ≤ level | none => false
  let below : Bool := match pin with | some h => h.launch.level < level | none => false
  match (if below then none else (s.suspendedAt p level).find? (s.maySeat p)) with
  | some g => (s.restoreRegion g).map fun s1 => s1.unlist p g
  | none =>
    let mine := rotate (tget? (s.part p).lastStart level) (hs.filter fun h => h.launch.level == level)
    let ok (h : Head) : Bool := h.ready && s.needNow h.launch ≤ free && (!blocked || pin.any fun x => x.queue == h.queue)
    (mine.find? ok).map fun h => ((s.countPasses p h.queue free hs).startHead p h).pinNext p hs

/-- What a pinned head that lacks tiles makes the scheduler do: free the tiles of a suspended region of lower priority, or pre-empt the next region.
DEDUCED, notes/assumptions/66.md. -/
def State.makeRoom (s : State) (p free : Nat) (h : Head) : State :=
  if s.needNow h.launch ≤ free then s
  else
    let susp := (s.part p).suspended.filter fun g =>
      (s.home g).susp && (s.home g).saved.isNone && (match s.regionLaunch g with | some l => h.launch.level < l.level | none => false)
    match susp with
    | g :: _ => s.releaseTiles g
    | [] =>
      match s.victim p h.launch.level with
      | some g => ((s.requestPre g 0).setPart p { s.part p with suspended := lunion (s.part p).suspended [g] })
      | none => s

/-- SCHEDULER_DECISION (R313–R316): level by level, the first startable head after the queue that last started one at the level; outside RUN none (R375). -/
def execSchedulerDecision (p : Nat) (s : State) : Res :=
  .next
    (if s.ctlHalt then s
     else if (s.part p).tdisp != .run then s.updateQueues p
     else
       let s1 := (s.updateQueues p).copyHeads p
       let hs := s1.heads p
       let free := s1.freeCount p none
       match (List.range 4).findSome? (s1.decideLevel p free hs) with
       | some s2 => s2.copyHeads p
       | none => match s1.pinnedHead p hs with | some h => s1.makeRoom p free h | none => s1)

/-- PSQ_KERNEL_START (R299, R387): the supervisor's records start in order, one at a time. -/
def execPsqKernelStart (s : State) : Res :=
  .next
    (if s.psqBusy || s.psqPost ≤ s.psqDone || s.ctlHalt then s
     else
       let j := s.fetchWords ⟨none, true⟩ (s.psqBase + 64 * (s.psqDone % 2 ^ s.psqN)) 8
       let l := launchOf (.psq s.psqDone) 0 0 j
       let order := (s.launches.filter fun (_, l) => l.phase != .waiting).length
       { s with launches := tset s.launches s.launches.length { l with order := order }, psqBusy := true })

/-! The end of a launch. -/

/-- LAUNCH_COMPLETE (R226, R299, R311, R312): a launch that has ended, or will not run, completes once its region's commands are done. A kernel of the
supervisor's queue that a fault kills is killed here first. -/
def execLaunchComplete (launch : Nat) (s : State) : Res :=
  .next
    (match tget? s.launches launch with
     | none => s
     | some l =>
       let ran := l.phase == .ended || l.phase == .killed
       if !(ran || l.phase == .refused) || s.ctlHalt then s
       else
         let s1 := if l.phase == .killed && s.dying l.region then s.killRegion l.region l.cls else s
         if ran && !s1.commandsDone l.region then s1 else (s1.completeLaunch launch).getD s1)

end Sys2Proof.Machine
end

