-- ==== Sys2Proof/Machine/Preempt.lean ====
section
/-!
DEFINITION. Pre-emption of a region (R362–R364, R366–R368): the request, quiescence under the chosen form, the limit, and resumption.
-/
namespace Sys2Proof.Machine

/-- REGPRE_REQ (R362). -/
def execRegpreReq (region : Nat) (gated : Bool) (s : State) : Res :=
  .next ((writeRegion s region 5 (1 + 2 * boolNat gated)).after s)

/-- Whether an invocation stands between rounds: the commit of its last round has completed (R363). -/
def State.atMeridian (s : State) (k : Nat) : Bool := (s.region k).tiles.all fun t => !(s.tile t).begun

/-- Whether commands that a region has started have completed, streams apart that no fault has stopped (R363, R366). -/
def State.startedDone (s : State) (g : Nat) : Bool :=
  s.ctxs.all fun (_, c) => c.queues.all fun (_, q) => q.started.all fun d => d.region % 1024 != g % 1024 || (d.isStream && d.phase != .stopped)

/-- Whether nothing is left to do for a region's last round: no beat at the matrix node's ports, its tokens finished, beats for a write traverse taken (R363). -/
def State.drained (s : State) (g : Nat) : Bool :=
  (s.home g).allTiles.all fun t =>
    let x := s.tile t
    x.mx.queue.isEmpty && x.mx.ctl.isNone && x.mx.ain.isNone && x.mx.win.isNone && x.next.isNone && x.outs.all fun (_, o) => o.trav.isNone || o.q.isEmpty

/-- What a gated suspension discards of a tile: the C-buffer of a block with ACR, which is undefined from then on (R130, R364). What its feed queues hold counts
as A-buffer contents (R241) and stays. -/
def State.discardC (s : State) (t : Nat) : State := if (s.tile t).hdr.acr then s.freeC t else s

/-- An invocation suspended after its commit: gated beats are fetched again (R363, R364). -/
def State.suspendEntry (s : State) (k : Nat) : State :=
  let r := s.region k
  let s1 := r.tiles.foldl State.discardC (s.rewindReads k r.roundBase r.gen r.gen)
  s1.setRegion k { s1.region k with phase := .suspended }

/-- SUSP is set and BUSY clears; the launch has been pre-empted (R312). -/
def State.setSusp (s : State) (g : Nat) : State :=
  let h := s.home g
  s.setRegion (g % 1024) { h with susp := true, busy := false, req := false, preempted := true, reqCycle := s.cycle }

/-- PREEMPT_QUIESCE (R362–R364, R366): the region is quiescent under the chosen form. -/
def execPreemptQuiesce (g : Nat) (s : State) : Res :=
  .next
    (let h := s.home g
     let live := (s.family g).filter fun k => (s.region k).phase == .running || (s.region k).phase == .stopped
     if !h.busy || !h.valid then s
     else if h.form then
       (if live.any fun k => (s.region k).phase == .running || (s.region k).phase == .stopped then s.restartCut g
        else if s.startedDone g then s.setSusp g else s)
     else if live.all (fun k => (s.region k).phase == .running && s.atMeridian k) && s.drained g && s.startedDone g then
       (live.foldl State.suspendEntry s).setSusp g
     else s)

/-- Blocks of a region without ACR. -/
def State.withoutAcr (s : State) (g : Nat) : Nat :=
  ((s.home g).allTiles.filter fun t => !(s.tile t).words.isEmpty && !(s.tile t).hdr.acr).length

/-- PREEMPT_TIMEOUT (R351, R361, R367). -/
def execPreemptTimeout (g : Nat) (s : State) : Res :=
  .next
    (let h := s.home g
     let x := s.ctx h.ctx
     if !h.busy || !h.valid || h.form || x.fltpend || s.cycle < h.reqCycle + h.preLim ||
         (s.family g).all (fun k => (s.region k).phase == .off || s.atMeridian k) then s
     else if 0 < s.withoutAcr g then
       (s.raise { Flt.zero with cls := 0x14, region := some (g % 1024), ctx := h.ctx, inst := h.inst, f6 := s.cycle - h.reqCycle,
                                f7 := s.withoutAcr g }).killRegion g 0x14
     else (s.setRegion (g % 1024) { h with form := true }).restartCut g)

/-- REGPRE_RESUME (R362, R368). -/
def execRegpreResume (region : Nat) (s : State) : Res :=
  .next ((writeRegion s region 5 (4 + 2 * boolNat (s.region region).gated)).after s)

end Sys2Proof.Machine
end

