-- ==== Sys2Proof/Machine/Host.lean ====
section
/-!
DEFINITION. The host over CXL: BAR0, device memory and the RO_HOST bitmap (R378, R385–R387), the semaphore increment window (R216, R388),
snoops (R225). BAR0 stands at host addresses from 2^52 on; below, a host address is the device physical address that its decoder gives
(R385, notes/assumptions/40.md).
-/
namespace Sys2Proof.Machine

def barBase : Nat := 2 ^ 52

/-- All memory paths to the host are open (R408 step 6). -/
def State.exposed (s : State) : Bool := s.bootstat == 6

def ones (n : Nat) : List Byte := List.replicate n 0xFF#8

/-! BAR0 (R387). -/

/-- The 8 bytes at an offset; none where the table lists nothing. DESIGN CHOICE, notes/assumptions/40.md. -/
def State.barRead (s : State) (o : Nat) : Option Nat :=
  if o = 0x0000 then some (s.psqN + s.psqBase)
  else if o = 0x0008 then some s.psqPost
  else if o = 0x0010 then some s.psqDone
  else if o = 0x0018 then some (boolNat s.psqBusy)
  else if 0x1000 ≤ o ∧ o < 0x1000 + 8 * 0x240 then some ((readPart s ((o - 0x1000) / 8)).getD 0)
  else if 0x3000 ≤ o ∧ o < 0x3000 + 8 * 0x100 then
    some (if lifeListed ((o - 0x3000) / 8) then tget 0 s.life ((o - 0x3000) / 8) else 0)
  else none

def State.barWrite (s : State) (o v : Nat) : State :=
  if o = 0x0000 then
    (if fld v 0 4 < 2 || 10 < fld v 0 4 || fld v 4 2 != 0 || v / 2 ^ 52 != 0 || s.psqPost != s.psqDone then s
     else { s with psqN := fld v 0 4, psqBase := v / 2 ^ 6 * 2 ^ 6 })
  else if o = 0x0008 then s.psqPosted v
  else s

/-! Device memory (R378, R385, R386). -/

/-- The partition whose lifetime counter an access that is turned away adds to, and whether it is turned away (R375, R377, R378). -/
def State.hostBarred (s : State) (pa : Nat) (tee : Bool) : Option (Option Nat) :=
  match s.partOf pa with
  | none => some none
  | some p => if (s.part p).tdisp == .run && tee then none else some (some p)

/-- A host access turned away and counted (R378, R406). -/
def State.hostDrop (s : State) (p : Option Nat) : State := match p with | some p => s.lifeAdd (0xE0 + p) 1 | none => s

/-- The bit of the RO_HOST bitmap of a device address (R386). -/
def State.roHost (s : State) (pa : Nat) : Bool :=
  let i := if pa < 0x10000000000 then pa / 2 ^ 16 else 12 * 2 ^ 20 + (pa - 0x10000000000) / 2 ^ 16
  s.hrov && s.peekNat (s.hrobase + i / 8) 1 / 2 ^ (i % 8) % 2 == 1

/-- The host takes a copy of a line of a HOSTSHARED page: what a die holds Modified is written back and stays there clean (R223, R225). -/
def State.hostShare (s : State) (line : Nat) : State :=
  match tget? s.lines line with
  | some x =>
    if x.shared && !x.host then
      { s with lines := tset s.lines line { x with image := if x.owner.isSome then s.lineImage line else x.image, owner := none, host := true } }
    else s
  | none => s

/-- The host's store to a line of a HOSTSHARED page: where the host holds the line it stays in its copy, every other copy being invalidated, until a
device access takes it (R225). DEDUCED, notes/assumptions/94.md. -/
def State.hostStore (s : State) (x : Line) (a : Nat) (bs : List Byte) : State :=
  if x.host then
    { s with mem := s.pokeN a bs,
             lines := tset s.lines (a / 128) { x with image := if x.owner.isSome then s.lineImage (a / 128) else x.image, owner := none, dies := 0, dirty := true } }
  else s.devWrite a bs

/-- The part of a read that lies in one 64-byte beat: DRAM as it stands, without what line parts hold Modified, but for HOSTSHARED pages, which are
coherent with the host (R225). DEDUCED, notes/assumptions/78.md. -/
def State.hostReadBeat (s : State) (pa n : Nat) (tee : Bool) : State × List Byte :=
  match paClass pa with
  | none => (s, ones n)
  | some .host => (s, s.peekN pa n)
  | _ =>
    match s.hostBarred pa tee with
    | some p => (s.hostDrop p, ones n)
    | none =>
      if s.badBeats.contains (pa / 64) then
        let (bs, s1) := s.freeBytes n
        (s1, bs)
      else
        (match tget? s.lines (pa / 128) with
         | some x => if x.shared then (s.hostShare (pa / 128), s.peekN pa n) else (s, (List.range n).map fun i => s.dramByte (pa + i))
         | none => (s, (List.range n).map fun i => s.dramByte (pa + i)))

/-- A host write of part of one beat (R386). -/
def State.hostWriteBeat (s : State) (pa : Nat) (bs : List Byte) (tee : Bool) : State :=
  match paClass pa with
  | none => s
  | some .host => s.devWrite pa bs
  | _ =>
    match s.hostBarred pa tee with
    | some p => s.hostDrop p
    | none =>
      if s.roHost pa then s.hostDrop (s.partOf pa)
      else
        match tget? s.lines (pa / 128) with
        | some x => if x.shared then s.hostStore x pa bs else s.rawWrite pa bs
        | none => s.devWrite pa bs

/-- Bytes up to the end of the beat. -/
def beatPart (a n : Nat) : Nat := min n (64 - a % 64)

def hostReads : Nat → State → Nat → Nat → Bool → State × List Byte
  | 0, s, _, _, _ => (s, [])
  | fuel + 1, s, a, n, tee =>
    if n = 0 then (s, [])
    else
      let k := beatPart a n
      let (s1, bs) := s.hostReadBeat a k tee
      let (s2, rest) := hostReads fuel s1 (a + k) (n - k) tee
      (s2, bs ++ rest)

def hostWrites : Nat → State → Nat → List Byte → Bool → State
  | 0, s, _, _, _ => s
  | fuel + 1, s, a, bs, tee =>
    if bs.isEmpty then s
    else
      let k := beatPart a bs.length
      hostWrites fuel (s.hostWriteBeat a (bs.take k) tee) (a + k) (bs.drop k) tee

/-- HOST_MEM_READ (R378, R385, R387): the bytes stand in `out.host`. -/
def execHostMemRead (hpa len : Nat) (tee : Bool) (s : State) : Res :=
  .next
    (if !s.exposed then s
     else if barBase ≤ hpa then
       let o := hpa - barBase
       let bs := if len == 8 && o % 8 == 0 then (match s.barRead o with | some v => leBytes 8 v | none => ones 8) else ones len
       { s with out := { s.out with host := bs } }
     else
       let (s1, bs) := hostReads (len / 64 + 2) s hpa len tee
       { s1 with out := { s1.out with host := bs } })

/-- HOST_MEM_WRITE (R378, R385–R387). -/
def execHostMemWrite (hpa : Nat) (bytes : List Byte) (tee : Bool) (s : State) : Res :=
  .next
    (if !s.exposed then s
     else if barBase ≤ hpa then
       (if bytes.length == 8 && hpa % 8 == 0 then s.barWrite (hpa - barBase) (leNat bytes) else s)
     else hostWrites (bytes.length / 64 + 2) s hpa bytes tee)

/-- HOST_SNOOP (R225): what the line part holds of a host page goes back to the host. -/
def execHostSnoop (pa : Nat) (s : State) : Res := .next (if paClass pa == some .host then s.writeBack (pa / 128) else s)

/-! The semaphore increment window (R388). -/

/-- Whether a window access to a context is turned away, and the partition it is counted for (R378, R388). -/
def State.windowBarred (s : State) (c : Nat) (tee : Bool) : Option (Option Nat) :=
  let x := s.ctx c
  if c = 0 || 256 ≤ c || x.state == 0 then some none
  else if (s.part x.part).tdisp == .run && !tee then some (some x.part)
  else none

/-- What a window access reaches: the context, the semaphore, and whether it is the sticky word; none unless it is a naturally aligned 4-byte access at byte 0 or
byte 4 of a slot (R388). -/
def windowAt (offset width : Nat) : Option (Nat × Nat × Bool) :=
  if width == 4 && offset < 2 ^ 20 && (offset % 16 == 0 || offset % 16 == 4) then some (offset / 4096, offset % 4096 / 16, offset % 16 == 4) else none

/-- SEM_WINDOW_INC (R132, R216, R388), at an offset of BAR2: the host's writes are performed when they are made, so the increment carries no release. DEDUCED,
notes/assumptions/79.md. -/
def execSemWindowInc (offset width : Nat) (value : BitVec 64) (tee : Bool) (s : State) : Res :=
  .next
    (match (if s.exposed then windowAt offset width else none) with
     | some (c, m, false) =>
       (match s.windowBarred c tee with
        | some p => s.hostDrop p
        | none => let n := value.toNat % 2 ^ 32; if n == 0 then s else s.semInc c m n 2 [])
     | _ => s)

/-- SEM_WINDOW_READ (R388), at a byte of a 16-byte slot of BAR2: value at byte 0, sticky bit at byte 4, all ones elsewhere; the answer stands in `out.window`. -/
def execSemWindowRead (slot byte width : Nat) (tee : Bool) (s : State) : Res :=
  .next
    (let put (s : State) (v : Nat) : State := { s with out := { s.out with window := v } }
     if !s.exposed then s
     else
       match windowAt (16 * slot + byte) width with
       | none => put s (2 ^ (8 * width) - 1)
       | some (c, m, sticky) =>
         match s.windowBarred c tee with
         | some p => put (s.hostDrop p) (2 ^ 32 - 1)
         | none => let x := (s.ctx c).sem m; put s (if sticky then boolNat x.sticky else x.value))

end Sys2Proof.Machine
end

