-- ==== Sys2Proof/Machine/Tdisp.lean ====
section
/-!
DEFINITION. The trusted interfaces of partitions over the DOE mailbox and the part's measurements (R374–R379, R410). Answers stand in `out.tdisp` (an answer
code, then what it carries) and `out.mailbox`; the codes and the order of a report's fields are the model's (notes/assumptions/41.md).
-/
namespace Sys2Proof.Machine

def answerOk : Nat := 0
/-- The request does not belong in the interface's state. -/
def answerState : Nat := 1
def answerUnsupported : Nat := 2

def State.answer (s : State) (xs : List Nat) : State := { s with out := { s.out with tdisp := xs } }
def State.mail (s : State) (bs : List Byte) : State := { s with out := { s.out with mailbox := bs } }
def State.setTdisp (s : State) (p : Nat) (x : Tdisp) : State := s.setPart p { s.part p with tdisp := x }

/-! Measurement registers (R379). -/

/-- The 48 bytes of a hash value, the first the most significant. -/
def hashBytes (n : Nat) : List Byte := (leBytes 48 n).reverse

def State.mrBytes (s : State) (m : Nat) : List Byte := hashBytes (tget 0 s.mr m)

/-- MRm := SHA-384(MRm ‖ SHA-384(x)). -/
def State.extend (s : State) (m : Nat) (item : List Byte) : State :=
  { s with mr := tset s.mr m (sha384 (s.mrBytes m ++ hashBytes (sha384 item).toNat)).toNat }

/-- The interface report: PMEM ranges, DIES, TILES, arithmetic revision, MR3. DESIGN CHOICE, notes/assumptions/41.md. -/
def State.reportOf (s : State) (p : Nat) : List Byte :=
  let x := s.part p
  ((List.range 16).flatMap fun i => leBytes 8 (tget Pmem.fresh x.pmem i).toNat) ++ leBytes 1 x.dies ++ leBytes 2 x.tiles ++ leBytes 2 1 ++
    s.mrBytes 3

def signed (bs : List Byte) : List Byte := bs ++ leBytes 96 (Config.sign bs).toNat

/-! Entering RUN (R376, R377). -/

/-- A range takes a fresh key: what DRAM holds is decrypted into bytes without information, or, under ZERO, replaced with zeros. No line of the
range is cached, for none could be while it had no key (R377). DESIGN CHOICE, notes/assumptions/7.md. -/
def State.keyRange (s : State) (p i : Nat) : State :=
  let m := tget Pmem.fresh (s.part p).pmem i
  if !m.v then s
  else
    let (lo, hi) := m.range
    let n := s.keyNo + 1
    let s0 := s.dropLines fun l => lo ≤ l * 128 && l * 128 < hi && (tget? s.tags (2 * l)).isNone && (tget? s.tags (2 * l + 1)).isNone
    let s1 := s0.wipe lo hi (if m.zero then 0 else n)
    { s1.setPart p { s1.part p with pmem := tset (s1.part p).pmem i { m with key := some n } } with keyNo := n }

/-! The requests (R375). -/

def execLockInterface (part : Nat) (s : State) : Res :=
  .next
    (if (s.part part).tdisp == .unlocked then
       (s.setPart part { s.part part with tdisp := .locked, report := s.reportOf part }).answer [answerOk]
     else s.answer [answerState])

def execStartInterface (part : Nat) (s : State) : Res :=
  .next
    (if (s.part part).tdisp == .locked then
       (((List.range 16).foldl (fun s i => s.keyRange part i) s).setTdisp part .run).answer [answerOk]
     else s.answer [answerState])

def execStopInterface (part : Nat) (s : State) : Res :=
  .next
    (match (s.part part).tdisp with
     | .locked | .run => ((s.unkey part).setTdisp part .unlocked).answer [answerOk]
     | .error => (s.setTdisp part .unlocked).answer [answerOk]
     | .unlocked => s.answer [answerState])

def execGetDeviceInterfaceState (part : Nat) (s : State) : Res := .next (s.answer [answerOk, (s.part part).tdisp.code])

/-- The report as LOCK_INTERFACE fixed it; before that, as it would be. -/
def execGetDeviceInterfaceReport (part : Nat) (s : State) : Res :=
  .next
    (let r := if (s.part part).tdisp == .unlocked then s.reportOf part else (s.part part).report
     (s.answer [answerOk]).mail (signed r))

def execUnsupportedRequest (_part : Nat) (s : State) : Res := .next (s.answer [answerUnsupported])

/-- An IDE failure, or an uncorrectable error in a key store, of a partition in RUN (R375, R377). -/
def execInterfaceError (part : Nat) (s : State) : Res := .next (s.interfaceFail part)

/-! Attestation (R379, R410). -/

/-- The signed answer with MR0–MR7. -/
def State.measured (s : State) : State := s.mail (signed ((List.range 8).flatMap s.mrBytes))

/-- GET_MEASUREMENTS. -/
def execGetMeasurements (s : State) : Res := .next s.measured

/-- GET_MEASUREMENTS as another part's migration agent asks it: the agents attest each other and agree the session key given (R383). DESIGN CHOICE,
notes/assumptions/43.md. -/
def execAgentMeasurements (peer : Nat) (key : BitVec 256) (s : State) : Res :=
  .next { s.measured with sessions := tset s.sessions peer key }

def execMeasurementEvent (mr : Nat) (item : List Byte) (s : State) : Res :=
  .next (if 5 ≤ mr && mr ≤ 7 then s.extend mr item else s)

/-- RECORD_UPDATE (R410): the copy not in use; it takes effect at the next reset. -/
def execRecordUpdate (image : List Byte) (signed : Bool) (s : State) : Res :=
  .next (if !signed then s else if s.copyB then { s with recordA := image } else { s with recordB := image })

end Sys2Proof.Machine
end

