-- ==== Sys2Proof/Machine/Links.lean ====
section
/-!
DEFINITION. Span links: sending, receiving, replay, forwarding and retraining (R390–R394).
-/
namespace Sys2Proof.Machine

/-- The 288 bytes of a flit (R390). DESIGN CHOICE, notes/assumptions/5.md. -/
def flitBytes (l : LinkSt) (ready : Nat) (f : TxFlit) : List Byte :=
  let body := leBytes 2 (f.seq % 4096) ++ leBytes 2 ((l.rxSeq + 4095) % 4096 + boolNat l.naking * 2 ^ 12) ++ leBytes 1 ready ++ leBytes 1 f.vc ++
    leBytes 1 f.partition ++ leBytes 1 f.beats.length ++ leBytes 8 f.route ++
    ((f.beats ++ List.replicate (4 - f.beats.length) 0#512).flatMap (payBytes 64))
  let crc := leBytes 8 (Config.crc64 body).toNat
  body ++ crc ++ leBytes 8 (Config.fec (body ++ crc)).toNat

/-- Flits of a channel for which the receiver has space: what it holds is not yet taken (R391). How much space it has, and how long a round trip is, the
spec leaves to the part: free values. DESIGN CHOICE, notes/assumptions/77.md. -/
def LinkSt.space (l : LinkSt) (vc : Nat) : Nat := Config.linkSpace vc - (l.got.filter fun f => f.vc == vc).length

/-- The ready bits of the next flit sent (R391). -/
def LinkSt.readyBits (l : LinkSt) : Nat :=
  (List.range 4).foldl (fun n v => n + (if Config.linkTrip + 4 ≤ l.space v then 2 ^ v else 0)) 0

/-- A flit put on the wire. -/
def State.transmit (s : State) (k : Nat) (f : TxFlit) : State :=
  let l := s.link k
  s.setLink k { l with sent := l.sent ++ [flitBytes l l.readyBits f] }

/-- Whether the peer's last flit lets a flit of a channel be sent (R391). -/
def LinkSt.mayCarry (l : LinkSt) (vc : Nat) : Bool := vc ≤ 3 && l.ready / 2 ^ vc % 2 == 1

/-- Whether some flit has been replayed 16 times: the link then retrains (R392). -/
def LinkSt.worn (l : LinkSt) : Bool := l.replay.any fun f => 16 ≤ f.replays

/-- What channel v sends next: the oldest flit that waits for it, or, on channel CTRL, the beats given. -/
def LinkSt.nextFlit (l : LinkSt) (vc : Nat) (payload : List Payload) : Option TxFlit :=
  match l.todo.find? fun f => f.vc == vc with
  | some f => some f
  | none => if vc == 2 && !payload.isEmpty && payload.length ≤ 4 then some ⟨0, vc, 0, l.peer, payload, 0⟩ else none

/-- The next flit of a replay, where its channel may carry one (R391, R392). -/
def State.replayFlit (s : State) (k : Nat) : State :=
  let l := s.link k
  let i := l.replay.length - l.resend
  match l.replay[i]? with
  | none => s
  | some f =>
    if !(f.beats.isEmpty || l.mayCarry f.vc) then s
    else
      let f1 := { f with replays := f.replays + 1 }
      (s.setLink k { l with replay := l.replay.set i f1, resend := l.resend - 1 }).transmit k f1

/-- A new flit of a channel that may carry one, else an idle flit; it takes the next sequence number and stays in the replay buffer (R391, R392). -/
def State.newFlit (s : State) (k vc : Nat) (payload : List Payload) : State :=
  let l := s.link k
  let data := if l.mayCarry vc then l.nextFlit vc payload else none
  let f := data.getD ⟨0, vc % 4, 0, 0, [], 0⟩
  let f1 := { f with seq := l.txSeq }
  (s.setLink k { l with txSeq := (l.txSeq + 1) % 4096, replay := l.replay ++ [f1],
                        todo := if data.isSome then l.todo.erase f else l.todo }).transmit k f1

/-- FLIT_SEND (R391, R392): the next flit of a replay under way, else a new one while the replay buffer holds fewer than 256; on channel MIG the source agent's
next image comes first (R382). DESIGN CHOICE, notes/assumptions/77.md. -/
def execFlitSend (link vc : Nat) (payload : List Payload) (s : State) : Res :=
  .next
    (let l := s.link link
     if !l.up || l.worn then s
     else if l.resend != 0 then s.replayFlit link
     else if 256 ≤ l.replay.length then s
     else (if vc == 1 && l.mayCarry 1 && !l.todo.any (fun f => f.vc == 1) then s.sendImage link else s).newFlit link vc payload)

/-- Flits that an acknowledgement covers leave the replay buffer (R392). -/
def ackFlits (fs : List TxFlit) (ack : Nat) : List TxFlit :=
  if fs.any fun f => f.seq == ack then (fs.dropWhile fun f => f.seq != ack).drop 1 else fs

/-- The peer's acknowledgement, ready bits and NAK; a NAK makes the sender replay from the next sequence, unless a replay is under way (R391, R392).
DESIGN CHOICE, notes/assumptions/77.md. -/
def State.acknowledge (s : State) (k : Nat) (f : Flit) : State :=
  let l := s.link k
  let left := ackFlits l.replay f.ack
  s.setLink k { l with replay := left, ready := f.ready.toNat, resend := if f.nak && l.resend == 0 then left.length else min l.resend left.length }

/-- A flit dropped and counted (R390, R393). -/
def State.dropFlit (s : State) (k : Nat) : State := s.setLink k { s.link k with dropped := (s.link k).dropped + 1 }

/-- A flit for another part leaves on that part's route, on channel FWD, at most two hops in all (R393). -/
def State.forward (s : State) (k : Nat) (f : Flit) : State :=
  match (if 2 ≤ f.hops then none else s.routeLink f.dest) with
  | none => s.dropFlit k
  | some o => s.setLink o { s.link o with todo := (s.link o).todo ++ [⟨0, 3, f.partition, f.dest + f.route * 16, f.payload.take f.count, 0⟩] }

/-- What an accepted flit carries (R390, R393). -/
def State.acceptFlit (s : State) (k : Nat) (f : Flit) : State :=
  if 4 ≤ f.vc then s.dropFlit k
  else if f.count == 0 then s
  else if f.dest == s.partid then s.setLink k { s.link k with got := (s.link k).got ++ [⟨f.vc, f.partition, f.route, f.payload.take f.count⟩] }
  else s.forward k f

/-- FLIT_RECEIVE (R392): a flit with a CRC error, or out of sequence, is discarded and a NAK is owed; others are delivered in order. -/
def execFlitReceive (link : Nat) (f : Flit) (s : State) : Res :=
  .next
    (let l := s.link link
     if !l.up then s
     else if !f.crcOk || f.seq != l.rxSeq then s.setLink link { l with naking := true }
     else ((s.setLink link { l with rxSeq := (l.rxSeq + 1) % 4096, naking := false }).acknowledge link f).acceptFlit link f)

/-- LINK_RETRAIN (R392, R394): a flit has been replayed 16 times; the link comes back at 4 lanes and half rate and replays, or goes down. -/
def execLinkRetrain (link : Nat) (ok : Bool) (s : State) : Res :=
  .next
    (let l := s.link link
     if !l.up || !l.worn then s
     else if ok then s.setLink link { l with degraded := true, resend := l.replay.length, replay := l.replay.map fun f => { f with replays := 0 } }
     else s.linkDown link)

end Sys2Proof.Machine
end

