-- ==== Sys2Proof/Machine/Ras.lean ====
section
/-!
DEFINITION. Refresh ownership, repair and spares, lifetime counters, throttling, power and droops (R395–R407, R413–R416). Times are in cycles
of 1 ns.
-/
namespace Sys2Proof.Machine

/-- tREFI, 3.9 µs (R399). DESIGN CHOICE, notes/assumptions/87.md. -/
def trefi : Nat := 3900
/-- The heartbeat interval, 1 µs (R399). -/
def beatTime : Nat := 1000

/-- Cycles from the last heartbeat to the fourth missed one, and to the first refresh of an SE that takes over (R400). -/
def lossTime : Nat := 4000
def firstRefresh : Nat := 8000

/-! Refresh (R399–R401). -/

/-- Refreshes that a pseudo-channel has had by a cycle. While the BMS sends its heartbeats it keeps at most one behind schedule; an SE that has taken over
issues its first refresh by 8 µs after the last heartbeat, and what fell behind, and then keeps to tREFI (R399, R400). DEDUCED,
notes/assumptions/73.md. -/
def Refresher.done (x : Refresher) (cycle p : Nat) : Nat :=
  let kept := if !x.takeover then x.lastBeat / trefi - 1 else if x.lost + firstRefresh ≤ cycle then cycle / trefi - 1 else 0
  max (x.issued.getD p 0) kept

/-- Refreshes of a pseudo-channel behind schedule: one falls due at each tREFI boundary. -/
def Refresher.behind (x : Refresher) (cycle p : Nat) : Nat := cycle / trefi - x.done cycle p

/-- The counts, brought up to date. -/
def Refresher.settle (x : Refresher) (cycle : Nat) : Refresher := { x with issued := (List.range 8).map (x.done cycle) }

/-- Whether the fourth heartbeat in a row has been missed before this cycle: a later one is ignored, as is the BMS's refresh schedule (R400). -/
def Refresher.gone (x : Refresher) (cycle : Nat) : Bool := x.lastBeat + lossTime < cycle

/-- An owning SE's part of a stack, where there is one (R338). -/
def State.refresher (s : State) (stack se : Nat) : Option Refresher := if stack < 12 && se < 16 then some ((s.stack stack).owner se) else none

def State.setRefresher (s : State) (stack se : Nat) (x : Refresher) : State :=
  s.setStack stack { s.stack stack with owners := tset (s.stack stack).owners se x }

/-- A heartbeat arrives at an SE: the BMS sends one each 1 µs (R399); after a takeover it counts only once the BMS has been reset, and only the beats in a row
count (R401). -/
def Refresher.beat (x : Refresher) (cycle : Nat) : Option Refresher :=
  let first := x.resetting && x.beats == 0
  if !first && (cycle < x.lastBeat + beatTime || x.gone cycle) then none
  else if !x.takeover then some { x with lastBeat := cycle }
  else if x.resetting then some { x with lastBeat := cycle, beats := if first || x.lastBeat + beatTime < cycle then 1 else x.beats + 1 }
  else none

/-- BMS_HEARTBEAT (R399–R401). -/
def execBmsHeartbeat (o : Owner) (s : State) : Res :=
  .next
    (match (s.refresher o.stack o.se).bind (·.beat s.cycle) with
     | some x => (s.setStack o.stack { s.stack o.stack with alive := true }).setRefresher o.stack o.se x
     | none => s)

/-- REFRESH: the one owner, BMS or SE, issues a refresh that is due to a pseudo-channel of the SE's channel group (R399–R401). -/
def execRefresh (p : OwnedPch) (s : State) : Res :=
  .next
    (match s.refresher p.stack p.se with
     | some x =>
       if 8 ≤ p.pch || x.behind s.cycle p.pch == 0 || (!x.takeover && x.gone s.cycle) then s
       else let y := x.settle s.cycle; s.setRefresher p.stack p.se { y with issued := y.issued.set p.pch (x.done s.cycle p.pch + 1) }
     | none => s)

/-- Whether the fourth heartbeat in a row has been missed, while the BMS owns refresh or hands it over again after a reset (R400, R401). -/
def Refresher.loses (x : Refresher) (cycle : Nat) : Bool :=
  x.lastBeat + lossTime ≤ cycle && (!x.takeover || (x.resetting && x.beats != 0))

/-- REFRESH_TAKEOVER (R400, R401): counted once for the SEs of a stack that lose one BMS. DEDUCED, notes/assumptions/73.md. -/
def execRefreshTakeover (o : Owner) (s : State) : Res :=
  .next
    (match s.refresher o.stack o.se with
     | some x =>
       if !x.loses s.cycle then s
       else
         let s1 := s.setRefresher o.stack o.se { x.settle s.cycle with takeover := true, lost := x.lastBeat, resetting := false, beats := 0 }
         let s2 := s1.setStack o.stack { s1.stack o.stack with alive := false }
         if (s.stack o.stack).owners.any (fun (_, y) => y.takeover && !y.resetting) then s2 else s2.lifeAdd (0x60 + o.stack) 1
     | none => s)

/-- REFRESH_HANDBACK: four heartbeats in a row of a reset BMS, at a tREFI boundary; the count of refreshes goes with it (R401). -/
def execRefreshHandback (o : Owner) (s : State) : Res :=
  .next
    (match s.refresher o.stack o.se with
     | some x =>
       if !x.takeover || !x.resetting || x.beats < 4 || x.lastBeat + beatTime < s.cycle || s.cycle % trefi != 0 then s
       else s.setRefresher o.stack o.se { x.settle s.cycle with takeover := false, resetting := false, beats := 0 }
     | none => s)

/-! Repair (R403–R405). -/

/-- RPTHR (R396). -/
def Stack.repairAt (x : Stack) : Nat := if x.rpthr = 0 then 16 else x.rpthr

/-- Whether a record of an uncorrectable error in a stack is unsettled (R404). -/
def State.errOpen (s : State) (k : Nat) : Bool :=
  (s.fq ++ s.held).any fun r => r.cls == 0x0E && r.f 6 11 1 == 0 && r.f 6 0 4 + 12 * r.f 6 10 1 == k

/-- ROW_REPAIR: a row of near stack 0–11 or far stack 12–23 has produced RPTHR corrected errors, which are counted here (R403, R404). DEDUCED, notes/assumptions/72.md. -/
def execRowRepair (stack row : Nat) (s : State) : Res :=
  .next
    (let b := s.stack (stack % 12)
     if 24 ≤ stack || b.takeover || s.errOpen stack then s
     else
       let s1 := ((s.lifeAdd stack b.repairAt).lifeAdd (0x40 + stack) 1).lifeAdd 0xC1 1
       s1.setStack stack { s1.stack stack with repaired := (s1.stack stack).repaired ++ [row] })

/-- A spare taken from a pool: its count goes up, one past the pool once it is exhausted (R405). -/
def State.takeSpare (s : State) (used pool life : Nat) (put : State → Nat → State) : State :=
  if used < pool then (put s (used + 1)).lifeAdd life 1 else put s (pool + 1)

/-- LANE_SPARE: two spares for each edge of a die. -/
def execLaneSpare (die edge : Nat) (s : State) : Res :=
  .next
    (if 6 ≤ die || 4 ≤ edge then s
     else s.takeSpare (tget 0 s.lanes (die * 4 + edge)) 2 0xC3 fun s n => { s with lanes := tset s.lanes (die * 4 + edge) n })

/-- WAY_SPARE: one spare for each slice; the failing way's lines are written back first. DEDUCED, notes/assumptions/74.md. -/
def execWaySpare (die slice : Nat) (s : State) : Res :=
  .next
    (if 6 ≤ die || 32 ≤ slice then s
     else
       let s0 := (s.lines.filter fun (_, x) => x.home == (die, slice)).foldl (fun s (l, _) => s.writeBack l) s
       let s1 := { s0 with lines := s.lines.filter fun (_, x) => x.home != (die, slice) }
       s1.takeSpare (tget 0 s.ways (die * 32 + slice)) 1 0xC4 fun s n => { s with ways := tset s.ways (die * 32 + slice) n })

/-- LIFE_FLUSH (R406). DESIGN CHOICE, notes/assumptions/82.md. -/
def execLifeFlush (s : State) : Res := .next { s with lifeFlash := s.life }

/-- THROTTLE (R402). -/
def execThrottle (stack level : Nat) (s : State) : Res :=
  .next (if 12 ≤ stack || 4 ≤ level then s else s.setStack stack { s.stack stack with throttle := level })

/-! Clocks and power (R413–R415). -/

/-- DROOP_STRETCH: a droop beyond the guard band of a fixed-timing tile is counted, and reported when its instant has ended; no other stretch
changes anything. -/
def execDroopStretch (tile : Nat) (beyond : Bool) (s : State) : Res :=
  .next
    (let x := s.tile tile
     if !beyond || tile ≥ 4096 || x.words.isEmpty || !(s.ctx (s.tileCtx tile)).fxt then s
     else
       let s1 := s.lifeAdd (0xB0 + Config.dieOf tile) 1
       if x.droop.isSome then s1 else s1.setTile tile { x with droop := some x.inst })

/-- The sample that each die's clock-stretch histogram takes once per ms (R406); which bin, the supply decides: a free value. -/
def State.stretchSamples (s : State) : State :=
  let f := (Config.freeBits s.tick).toNat
  (List.range 6).foldl (fun s d => s.lifeAdd (0x80 + 8 * d + f / 8 ^ d % 8) 1) { s with tick := s.tick + 1 }

/-- Every region of the part is killed with class 0 (R415). -/
def State.killAll (s : State) : State :=
  ((s.regions.filter fun (k, r) => k < 1024 && r.valid).map (·.1)).foldl (fun s k => s.killRegion k 0) s

/-- The ceiling in force and the thermal state after one measurement (R415). -/
def State.limit (s : State) (watts tempC : Nat) : State :=
  if s.pwrCap < watts || 100 < tempC then { s with clkForce := max 50 (s.clkForce - 1), thermal := 1 }
  else if 100 * watts ≤ 95 * s.pwrCap && tempC < 95 then
    let f := min s.clkCeil (s.clkForce + 1)
    { s with clkForce := f, thermal := if f == s.clkCeil then 0 else 1 }
  else s

/-- The hold of fixed-timing launches: 100 ms over the cap with the ceiling at 500 MHz, until power falls below the cap (R415). -/
def State.holdCheck (s : State) (watts : Nat) : State :=
  let n := if s.clkForce == 50 && s.pwrCap < watts then s.overMs + 1 else 0
  { s with overMs := n, holdFxt := if 100 ≤ n then true else if watts < s.pwrCap then false else s.holdFxt }

/-- POWER_CHECK, once per ms: module power and the hottest die's junction (R415). DEDUCED, notes/assumptions/75.md. -/
def execPowerCheck (watts tempC : Nat) (s : State) : Res :=
  .next
    (if 110 ≤ tempC && !s.hotHold then { s.killAll with thermal := 2, hotHold := true, ctlHalt := true, bootstat := 1 }
     else if s.hotHold then { s with hotHold := decide (90 ≤ tempC) }
     else ((s.holdCheck watts).limit watts tempC).stretchSamples)

end Sys2Proof.Machine
end

