-- ==== Sys2Proof/Machine/Boot.lean ====
section
/-!
DEFINITION. Reset and boot by the module controller (R408–R411), the spares brought in at reset (R405), and the reload of the control
region (R297, R412).
-/
namespace Sys2Proof.Machine

/-- A copy of the record fails where a reserved byte is nonzero; the other checks of R410 are the event's to say. -/
def recordReservedOk (r : List Byte) : Bool :=
  ((r.drop 17).take 7).all (· == 0#8) && ((r.drop 56).take 8).all (· == 0#8)

/-- The channel spare of a stack for the first channel with an uncorrectable fault (R405): its beats lose what they held. DEDUCED, notes/assumptions/76.md. -/
def State.spareChannelOf (s : State) (k : Nat) : State :=
  let place (g : Nat) : Nat × Nat := let (st, ch, _) := dramPlace MaskSet.fresh (g * 64); (if paClass (g * 64) == some .far then 12 + st else st, ch)
  match s.badBeats.find? fun g => (place g).1 == k, (s.stack k).spareChannel with
  | some g, none =>
    let ch := (place g).2
    let gone := s.badBeats.filter fun g => place g == (k, ch)
    let n := s.keyNo + 1
    let s1 := s.setStack k { s.stack k with spareChannel := some ch }
    ({ s1 with badBeats := s1.badBeats.filter fun g => place g != (k, ch), keyNo := n,
               wiped := gone.map (fun g => (g * 64, g * 64 + 64, n)) ++ s1.wiped }).lifeAdd 0xC2 1
  | _, _ => s

/-- Tiles whose SRAM raised an uncorrectable error get spares, of which there are 64 (R405). DEDUCED, notes/assumptions/44.md. -/
def State.spareTiles (s : State) : State :=
  let due := (s.tiles.filter fun (_, x) => x.spareDue).map (·.1)
  due.foldl (fun s t =>
    if tget 0 s.life 0xC0 < 64 then (s.setTile t { s.tile t with spareDue := false }).lifeAdd 0xC0 1 else s) s

/-- The spare-activation map as measured into MR4 (R379, R405): tiles found in flash, rows, channels, lanes and ways. DESIGN CHOICE, notes/assumptions/8.md. -/
def State.spareBytes (s : State) : List Byte :=
  (List.range 4096).map (fun t => BitVec.ofNat 8 (boolNat (Config.spareMap t))) ++
    (s.memStacks.flatMap fun (k, x) => leBytes 1 k ++ x.repaired.flatMap (leBytes 8) ++ leBytes 1 (match x.spareChannel with | some c => c + 1 | none => 0)) ++
    (s.lanes ++ s.ways).flatMap fun (i, n) => leBytes 2 i ++ leBytes 1 n

/-- What a reset leaves (R408): every register at its reset value; flash, device memory and the repairs stay, and so do the measurements and the counters,
unless power was lost. DESIGN CHOICE, notes/assumptions/71.md. -/
def State.resetPart (s : State) (lost : Bool) : State :=
  let owners := (List.range 16).map fun i => (i, { Refresher.fresh with lastBeat := s.cycle, issued := List.replicate 8 (s.cycle / trefi) })
  let keepStack (x : Stack) : Stack := { Stack.fresh with repaired := x.repaired, spareChannel := x.spareChannel, owners := owners }
  let keepTile (x : Tile) : Tile := { Tile.fresh with spareDue := x.spareDue }
  { State.reset with
    agenda := s.agenda, tick := s.tick, cursor := s.cursor, cycle := s.cycle, accessNo := s.accessNo, uidNo := s.uidNo,
    tiles := (s.tiles.filter fun (_, x) => x.spareDue).map fun (t, x) => (t, keepTile x),
    mem := if lost then s.mem.filter (fun c => decide (2 ^ 51 ≤ c.1)) else s.mem,
    wiped := if lost then [] else s.wiped, keyNo := s.keyNo, badBeats := s.badBeats,
    memStacks := (List.range 24).map fun k => (k, keepStack (s.stack k)),
    life := if lost then s.lifeFlash else s.life, lifeFlash := s.lifeFlash, lanes := s.lanes, ways := s.ways,
    mr := if lost then [] else s.mr, recordA := s.recordA, recordB := s.recordB, hotHold := s.hotHold }

/-- The partitions' keys go with a reset (R375–R377). -/
def State.dropKeys (s : State) : State := ((s.parts.filter fun (_, x) => x.tdisp == .run).map (·.1)).foldl State.unkey s

/-- Steps 3–6 (R408). -/
def State.bringUp (s : State) : State :=
  let record := if s.copyB then s.recordB else s.recordA
  let s1 := (List.range 12).foldl (fun s i => s.extend 2 (Config.image (1 + i))) (s.extend 1 record)
  let s2 := ((List.range 24).foldl State.spareChannelOf s1).spareTiles
  let s3 := (s2.extend 4 (leBytes 2 1)).extend 4 s2.spareBytes
  let s4 := (List.range 64).foldl (fun s i => s.extend 3 (Config.image (13 + i))) s3
  { s4 with partid := (record.getD 16 0#8).toNat % 16, bootstat := 6 }

/-- BOOT (R408–R411, R415): at power-on or at a reset that the host requests; which of the two is open. A hot part holds in step 1. -/
def execBoot (copyA copyB : Bool) (s : State) : Res :=
  .next
    (let (lost, s0) := s.choose
     let s1 := (s0.dropKeys.resetPart lost).extend 0 (Config.image 0)
     let a := copyA && recordReservedOk s1.recordA
     let b := copyB && recordReservedOk s1.recordB
     if s.hotHold then { s with bootstat := 1 }
     else if a then { s1 with copyB := false }.bringUp
     else if b then { s1 with copyB := true }.bringUp
     else { s1 with bootstat := 1, recovery := true })

/-- What a reload discards of a scheduler graph's own state: pass counts, pins and rotations (R313, R315, R412). -/
def Part.forgetful (p : Part) : Part :=
  { p with lastStart := [], queues := p.queues.map fun (q, x) => (q, { x with passes := 0, pinned := false }) }

/-- CONTROL_REGION_RELOAD (R412): the kernel on a supervisor slot ends with the tiles; a record taken and not acknowledged is taken again. DEDUCED, notes/assumptions/80.md. -/
def execControlRegionReload (s : State) : Res :=
  .next
    (if !s.ctlHalt || s.hotHold then s
     else
       let rs := (s.regions.filter fun (k, r) => k < 1024 && r.valid && r.allTiles.any (fun t => 4096 ≤ t)).map (·.1)
       let s1 := rs.foldl (fun s k => s.killRegion k 0) s
       let s2 := (List.range 64).foldl (fun s i => s.freeTile (4096 + i)) s1
       { s2 with ctlHalt := false, await := none, reloads := min 255 (s2.reloads + 1),
                 parts := s2.parts.map fun (p, x) => (p, x.forgetful),
                 sessions := [], departures := [], arrivals := [],
                 links := s2.links.map fun (k, l) => (k, { l with got := l.got.filter fun x => x.vc != 1 }) })

end Sys2Proof.Machine
end

