-- ==== Sys2Proof/Machine/Collectives.lean ====
section
/-!
DEFINITION. The collective commands ALLRED, ALLGATH, REDSCAT, XSEND and XRECV (R203–R205), each advanced at its turn.
-/
namespace Sys2Proof.Machine

def execAllred (c : Cmd) (s : State) : Res := .next (atWords s (cmdWords 3 1 c) fun s ctx eng c => (groupStep s ctx eng c).getD s)
def execAllgath (c : Cmd) (s : State) : Res := .next (atWords s (cmdWords 3 2 c) fun s ctx eng c => (groupStep s ctx eng c).getD s)
def execRedscat (c : Cmd) (s : State) : Res := .next (atWords s (cmdWords 3 3 c) fun s ctx eng c => (groupStep s ctx eng c).getD s)
def execXsend (c : Cmd) (s : State) : Res := .next (atWords s (cmdWords 3 4 c) fun s ctx eng c => (xferStep s ctx eng c).getD s)
def execXrecv (c : Cmd) (s : State) : Res := .next (atWords s (cmdWords 3 5 c) fun s ctx eng c => (xferStep s ctx eng c).getD s)

end Sys2Proof.Machine
end

