-- ==== Sys2Proof/Machine/Copies.lean ====
section
/-!
DEFINITION. The copy commands COPY, GATHER, SCATTER and FILL (R202), each advanced at its turn.
-/
namespace Sys2Proof.Machine

def execCopy (c : Cmd) (s : State) : Res := .next (atWords s (cmdWords 2 1 c) fun s ctx eng c => copyRun (copySpan s ctx eng c) ctx eng)
def execGather (c : Cmd) (s : State) : Res := .next (atWords s (cmdWords 2 2 c) fun s ctx eng c => copyRun (gatherSpan s ctx eng c) ctx eng)
def execScatter (c : Cmd) (s : State) : Res := .next (atWords s (cmdWords 2 3 c) fun s ctx eng c => copyRun (scatterSpan s ctx eng c) ctx eng)
def execFill (c : Cmd) (s : State) : Res := .next (atWords s (cmdWords 2 4 c) fun s ctx eng c => copyRun (fillSpan s ctx eng c) ctx eng)

end Sys2Proof.Machine
end

