-- ==== Sys2Proof/Machine/Epilogue.lean ====
section
/-!
DEFINITION. The epilogue processor: the words that a DRAIN runs over each row of C (R235, R242–R247).
-/
namespace Sys2Proof.Machine

/-! The frame of a word. -/

/-- What a word sees: tile, token, its fields, and the DRAIN in progress. -/
structure EpiCtx where
  t : Nat
  e : MxEntry
  k : MxTok
  d : Drain
deriving DecidableEq, Repr, Inhabited

/-- The DRAIN under the cursor. -/
def atEpi (s : State) (f : EpiCtx → State) : State :=
  match s.cursor with
  | .epi t =>
    let m := (s.tile t).mx
    (match m.drain, m.queue with
     | some d, e :: _ => f ⟨t, e, e.tok, d⟩
     | _, _ => s)
  | _ => s

def State.setDrain (s : State) (t : Nat) (d : Option Drain) : State :=
  let x := s.tile t
  s.setTile t { x with mx := { x.mx with drain := d } }

/-- The row ends (R235, R244): C's row becomes +0 unless acc is set; after the last row the token is over. -/
def State.endRow (s : State) (c : EpiCtx) : State :=
  let n := c.k.cols
  let s1 := if c.k.acc then s else s.mxWrite c.t c.e 2 (c.k.coff.toNat * 64 + c.d.row * n * 4) (List.replicate (n * 4) 0#8)
  if c.d.row + 1 = c.k.rows then s1.endToken c.t
  else
    s1.setDrain c.t (some { c.d with row := c.d.row + 1, pc := 0, v := List.replicate n 0, kind := .f32, block := none })

/-- The next word, or the end of the row after word 31 (R243). -/
def State.nextWord (s : State) (c : EpiCtx) : State :=
  if c.d.pc = 31 then s.endRow c else s.setDrain c.t (some { c.d with pc := c.d.pc + 1 })

/-- A word that changes the working row alone. -/
def onRow (s : State) (f : EpiCtx → Drain) : State := atEpi s fun c => s.nextWord { c with d := f c }

/-- BUFRANGE of a word: the DRAIN stops and the region with it (R73, R246). -/
def State.epiRange (s : State) (c : EpiCtx) (a : Nat) : State :=
  let x := s.tile c.t
  (s.setTile c.t { x with mx := { x.mx with drain := none, queue := x.mx.queue.drop 1 } }).raise
    { s.mxFlt c.t with cls := 0x0D, f6 := 1 + a * 256, f7 := c.e.seq }

/-- A word that reaches n A-buffer bytes at beat `a` plus an offset. -/
def atBuf (s : State) (a off n : EpiCtx → Nat) (f : EpiCtx → Nat → State) : State :=
  atEpi s fun c =>
    let b := a c * 64 + off c
    if (s.tile c.t).bufSize 1 < b + n c then s.epiRange c b else f c b

/-- A row word over f32 lanes that begin at beat `a` (R244). -/
def rowWith (s : State) (a : BitVec 12) (w : Nat) (off : EpiCtx → Nat) (f : Nat → Nat → Nat) : State :=
  atBuf s (fun _ => a.toNat) off (fun c => c.k.cols * w) fun c b =>
    let xs := elemsAux (8 * w) c.k.cols ((s.tile c.t).a.readNat b (c.k.cols * w))
    s.nextWord { c with d := { c.d with v := List.zipWith f c.d.v xs } }

/-! The words (R243–R246). -/

def execEpiNop (s : State) : Res := .next (onRow s fun c => c.d)

/-- LDC: the row of C. -/
def execEpiLdc (s : State) : Res :=
  .next (onRow s fun c =>
    { c.d with v := elemsAux 32 c.k.cols ((s.tile c.t).c.readNat (c.k.coff.toNat * 64 + c.d.row * c.k.cols * 4) (c.k.cols * 4)) })

def execEpiAddb (a : BitVec 12) (s : State) : Res := .next (rowWith s a 4 (fun _ => 0) (faddBits 23 .rne))
def execEpiMuls (a : BitVec 12) (s : State) : Res := .next (rowWith s a 4 (fun _ => 0) (fmulBits 23 .rne))

/-- ADDA: bf16 lanes of residual row m, kept exactly as f32. -/
def execEpiAdda (a : BitVec 12) (s : State) : Res :=
  .next (rowWith s a 2 (fun c => c.d.row * c.k.cols * 2) fun v x => faddBits 23 .rne v (x * 65536))

/-- The functions of ACT (R245). -/
def l2e : Nat := 0x3FB8AA3B
def geluC1 : Nat := 0x3D372713
def geluC2 : Nat := 0x3F4C422A
def oneBits : Nat := 0x3F800000
def halfBits : Nat := 0x3F000000

def sigmBits (x : Nat) : Nat :=
  let t := fmulBits 23 .rne x l2e
  let e := fexp2Bits 23 .rne (Val.ofBits 23 (fnegBits 23 t))
  frcpBits 23 .rne (Val.ofBits 23 (faddBits 23 .rne oneBits e))

def reluBits (x : Nat) : Nat :=
  let v := Val.ofBits 23 x
  if v.isNan then nanBits 23 else if (Val.fin ⟨false, 0, 0⟩).lt v then x else 0

def geluBits (x : Nat) : Nat :=
  let a := fmulBits 23 .rne x x
  let c := fmulBits 23 .rne a x
  let d := fmulBits 23 .rne c geluC1
  let e := faddBits 23 .rne x d
  let f := fmulBits 23 .rne e geluC2
  let h := ftanhBits 23 .rne (Val.ofBits 23 f)
  fmulBits 23 .rne (fmulBits 23 .rne halfBits x) (faddBits 23 .rne oneBits h)

def actBits (kind x : Nat) : Nat :=
  match kind with
  | 0 => reluBits x
  | 1 => geluBits x
  | 2 => if (Val.ofBits 23 x).isNan then nanBits 23 else fmulBits 23 .rne x (sigmBits x)
  | _ => if (Val.ofBits 23 x).isNan then nanBits 23 else sigmBits x

def execEpiAct (k : BitVec 4) (s : State) : Res := .next (onRow s fun c => { c.d with v := c.d.v.map (actBits k.toNat) })

/-- CLAMP: bounds in lanes 0 and 1 (R103, R244). -/
def execEpiClamp (a : BitVec 12) (s : State) : Res :=
  .next (atBuf s (fun _ => a.toNat) (fun _ => 0) (fun _ => 8) fun c b =>
    let lo := (s.tile c.t).a.readNat b 4
    let hi := (s.tile c.t).a.readNat (b + 4) 4
    s.nextWord { c with d := { c.d with v := c.d.v.map fun x => fminBits 23 (fmaxBits 23 x lo) hi } })

/-- CVT (R244): the block completes when the assembler holds 128 values. -/
def cvtRow (satn : Bool) (r : Rnd) (dst : Nat) (d : Drain) : Drain :=
  match dst with
  | 0 => { d with kind := .f32 }
  | 1 => { d with v := d.v.map fun x => (Val.ofBits 23 x).toBits 7 r * 65536, kind := .bf16 }
  | _ =>
    let t := if dst = 2 then Ty.of8 else Ty.ds8
    let asm := d.asm ++ d.v
    if asm.length < 128 then { d with kind := .narrow t, asm := asm }
    else
      let b := encodeBlock t r satn 0 (asm.map (Val.ofBits 23))
      { d with kind := .narrow t, asm := [], blocks := d.blocks + 1, block := some (b.codes, b.scale) }

def execEpiCvt (sat : BitVec 1) (r : BitVec 2) (d : BitVec 4) (s : State) : Res :=
  .next (onRow s fun c => cvtRow (sat == 1#1) (Rnd.ofCode r.toNat) d.toNat c.d)

/-- Bytes written to the A-buffer by a word, then the next word. -/
def State.rowWrite (s : State) (c : EpiCtx) (b : Nat) (bs : List Byte) : State := (s.mxWrite c.t c.e 1 b bs).nextWord c

/-- BSC: the scale byte of the block completed at this row (R246). -/
def execEpiBsc (a : BitVec 12) (s : State) : Res :=
  .next (atEpi s fun c =>
    match c.d.block with
    | none => s.nextWord c
    | some (_, v) =>
      atBuf s (fun _ => a.toNat) (fun c => c.d.blocks - 1) (fun _ => 1) fun c b => s.rowWrite c b [BitVec.ofNat 8 v])

/-- ROWM and ROWS: the tree maximum and sum of the row (R68, R244). -/
def execEpiRowm (a : BitVec 12) (s : State) : Res :=
  .next (atBuf s (fun _ => a.toNat) (fun c => 4 * c.d.row) (fun _ => 4) fun c b =>
    s.rowWrite c b (leBytes 4 (treeRed (fmaxBits 23) (lg c.k.cols) c.d.v)))

def execEpiRows (a : BitVec 12) (s : State) : Res :=
  .next (atBuf s (fun _ => a.toNat) (fun c => 4 * c.d.row) (fun _ => 4) fun c b =>
    s.rowWrite c b (leBytes 4 (treeRed (faddBits 23 .rne) (lg c.k.cols) c.d.v)))

/-- The row in its output kind as bytes, and where STA puts them from its beat (R246). -/
def rowBytes (d : Drain) : List Byte :=
  match d.kind with
  | .f32 => d.v.flatMap (leBytes 4)
  | .bf16 => d.v.flatMap fun x => leBytes 2 (x / 65536)
  | .narrow _ => (match d.block with | some (codes, _) => codes.map (BitVec.ofNat 8) | none => [])

def staOffset (n : Nat) (d : Drain) : Nat :=
  match d.kind with
  | .f32 => d.row * n * 4
  | .bf16 => d.row * n * 2
  | .narrow _ => (d.blocks - 1) * 128

def execEpiSta (a : BitVec 12) (s : State) : Res :=
  .next (atEpi s fun c =>
    if (rowBytes c.d).isEmpty then s.nextWord c
    else
      atBuf s (fun _ => a.toNat) (fun c => staOffset c.k.cols c.d) (fun c => (rowBytes c.d).length) fun c b => s.rowWrite c b (rowBytes c.d))

/-- Bytes cut into 64-byte beats, the last one padded with zeros. -/
def beatsOf : Nat → List Byte → List Payload
  | 0, _ => []
  | n + 1, bs => if bs.isEmpty then [] else payOf (bs.take 64) :: beatsOf n (bs.drop 64)

/-- STO: the row's beats enter the port's output queue of 64; while it has no room the word waits (R246, R247). -/
def execEpiSto (k : BitVec 4) (s : State) : Res :=
  .next (atEpi s fun c =>
    let (bs, s1) := s.resultBytes c.e (rowBytes c.d)
    let ys := beatsOf 3 bs
    let o := (s1.tile c.t).out k.toNat
    if 64 < o.sto.length + ys.length then s.pumpSto c.t
    else
      ((s1.setTile c.t ((s1.tile c.t).setOut k.toNat { o with sto := o.sto ++ ys.map fun y => Beat.val y c.e.cov })).nextWord c).pumpSto c.t)

def execEpiEnd (s : State) : Res := .next (atEpi s fun c => s.endRow c)

end Sys2Proof.Machine
end

