-- ==== Sys2Proof/Machine/FaultHandling.lean ====
section
/-!
DEFINITION. The fault handler graph (R274, R343, R358–R360): what it does with the record at the head of the fault queue, the decision that it waits
for, and the timeout of that wait.
-/
namespace Sys2Proof.Machine

/-- The handler's own accesses take the faulting context's tables (R298). A fault there is one of a resident graph (R297). DEDUCED, notes/assumptions/68.md. -/
def handlerRun (s : State) (ctx : Nat) (m : EngM Unit) : Option (Except EngStop State) :=
  match m { s := s, ctx := ctx, eng := 0, c := { (default : CmdSt) with tile := 4128, actx := some ctx } } with
  | .ok (_, t) => some (.ok t.s)
  | .error (.refuse r) => some (.error (.refuse r))
  | .error _ => none

/-- The steps of KV_COW (R274, R343). DEDUCED, notes/assumptions/69.md. -/
def cowSteps (slot pool j0 old : Nat) : EngM Unit := do
  let q ← getSlot slot
  let p ← getPool pool
  let l := seqPlist q
  let e ← getEnt p (entAt l j0) old
  let page ← allocPage p ⟨1, e.fill, true⟩
  emWrite (frameOf p page) (← emRead (frameOf p old) (e.fill * p.pbytes))
  let _ ← dropPage p (entAt l j0) old
  listSet l j0 page

/-- Where the k-th logged record of a context stands (R358). -/
def Ctx.logAt (x : Ctx) (k : Nat) : Nat := x.flogbase + 128 * (k % 2 ^ (fld x.flogctl 16 4 + 4))

/-- A record logged: the entry, then the post semaphore (R359). DEDUCED, notes/assumptions/70.md. -/
def State.logRecord (s : State) (r : FltRec) : Option State :=
  let x := s.ctx r.ctx
  if x.flogbase = 0 then some s
  else
    match s.engWrite 0 (some r.ctx) false (x.logAt x.flogCount) ((r.words.flatMap fun w => leBytes 8 w.toNat) ++ List.replicate 64 0#8) with
    | .error _ => none
    | .ok s1 => some ((s1.setCtx r.ctx { s1.ctx r.ctx with flogCount := x.flogCount + 1 }).semInc r.ctx (fld x.flogctl 0 8) 1 0 [])

/-- The first of some actions that the head record takes (R306). -/
def State.ackFirst (s : State) : List Nat → State
  | [] => s
  | a :: as => match s.fltack a s.fqhead with | some s1 => s1 | none => s.ackFirst as

/-- KILL, or FAILCMD for an engine record that names no region; a record whose agent is gone is noted (R359, R360). -/
def State.settleByDefault (s : State) (r : FltRec) : State :=
  s.ackFirst (if r.engine && (s.regionOf r).isNone then [2, 3] else [1, 2, 3])

/-- FAULT_RECORD_HANDLE (R359): the handler settles the head record, or logs it and waits for a decision. -/
def execFaultRecordHandle (s : State) : Res :=
  .next
    (match s.fq, s.await with
     | r :: _, none =>
       if s.ctlHalt then s
       else if r.cls = 0x0F then
         (match handlerRun s r.ctx (cowSteps (r.f 6 0 12) (r.f 6 12 4) (r.f 6 16 32) (r.f 7 0 64)) with
          | some (.ok s1) => s1.ackFirst [0, 2, 3]
          | some (.error _) => s.ackFirst [2, 3]
          | none => { s with ctlHalt := true })
       else
         (match s.logRecord r with
          | none => { s with ctlHalt := true }
          | some s1 =>
            if r.cls = 0x10 then s1.ackFirst [2, 3]
            else if !r.stoppedBit then s1.ackFirst [3]
            else if !r.resumable || (s1.ctx r.ctx).flogbase = 0 then s1.settleByDefault r
            else { s1 with await := some (s1.fqhead, s1.cycle, ((s1.ctx r.ctx).sem (fld (s1.ctx r.ctx).flogctl 8 8)).value) })
     | _, _ => s)

/-- The record that waits for a decision. -/
def State.awaited (s : State) : Option (FltRec × Nat × Nat) :=
  match s.fq, s.await with
  | r :: _, some (n, c, v) => if n = s.fqhead then some (r, c, v) else none
  | _, _ => none

/-- Whether the decision semaphore has risen since the post (R360). -/
def State.decided (s : State) (r : FltRec) (v : Nat) : Bool := v < ((s.ctx r.ctx).sem (fld (s.ctx r.ctx).flogctl 8 8)).value

/-- FAULT_DECISION (R360): byte 64 of the entry names the action; 0 or one that is refused kills. -/
def execFaultDecision (s : State) : Res :=
  .next
    (match s.awaited with
     | some (r, _, v) =>
       if !s.decided r v || s.ctlHalt then s
       else
         let x := s.ctx r.ctx
         let s1 := { s with await := none }
         (match s.fetchBytes ⟨some r.ctx, false⟩ (x.logAt (x.flogCount - 1) + 64) 8 with
          | none => { s1 with ctlHalt := true }
          | some bs =>
            let d := leNat bs
            let acts := if d = 1 then [0] else if d = 2 then [1] else if d = 3 then [2] else []
            match acts.findSome? fun a => s1.fltack a s1.fqhead with
            | some s2 => s2
            | none => s1.settleByDefault r)
     | none => match s.await with | some _ => { s with await := none } | none => s)

/-- DECISION_TIMEOUT (R358, R360). -/
def execDecisionTimeout (s : State) : Res :=
  .next
    (match s.awaited with
     | some (r, c, v) =>
       let us := fld (s.ctx r.ctx).flogctl 20 16
       if s.decided r v || s.cycle < c + (if us = 0 then 10000000 else us * 1000) || s.ctlHalt then s
       else { s with await := none }.settleByDefault r
     | none => s)

end Sys2Proof.Machine
end

