-- ==== Sys2Proof/Machine/Units.lean ====
section
/-!
DEFINITION. The commands of the sampler and of the KVP and SQE unit, each advanced at its turn (R259): the commands are given by what they do, in
`Sampler`, `KvPages` and `SeqEngine`.
-/
namespace Sys2Proof.Machine

def execSample (c : Cmd) (s : State) : Res := .next (atWords s (cmdWords 4 1 c) fun s ctx eng c => applyCmd s ctx eng c (sampleM c))
def execArgmax (c : Cmd) (s : State) : Res := .next (atWords s (cmdWords 4 2 c) fun s ctx eng c => applyCmd s ctx eng c (argmaxM c))

def execPgalloc (c : Cmd) (s : State) : Res := .next (atWords s (cmdWords 5 1 c) fun s ctx eng c => applyCmd s ctx eng c (pgallocM c))
def execPgfree (c : Cmd) (s : State) : Res := .next (atWords s (cmdWords 5 2 c) fun s ctx eng c => applyCmd s ctx eng c (pgfreeM c))
def execPgfork (c : Cmd) (s : State) : Res := .next (atWords s (cmdWords 5 3 c) fun s ctx eng c => applyCmd s ctx eng c (pgforkM c))
def execPgappend (c : Cmd) (s : State) : Res := .next (atWords s (cmdWords 5 4 c) fun s ctx eng c => applyCmd s ctx eng c (pgappendM c))
def execPgcommit (c : Cmd) (s : State) : Res := .next (atWords s (cmdWords 5 5 c) fun s ctx eng c => applyCmd s ctx eng c (pgcommitM c))
def execPgtrunc (c : Cmd) (s : State) : Res := .next (atWords s (cmdWords 5 6 c) fun s ctx eng c => applyCmd s ctx eng c (pgtruncM c))
def execPgstat (c : Cmd) (s : State) : Res := .next (atWords s (cmdWords 5 7 c) fun s ctx eng c => applyCmd s ctx eng c (pgstatM c))

def execAdmit (c : Cmd) (s : State) : Res := .next (atWords s (cmdWords 6 1 c) fun s ctx eng c => applyCmd s ctx eng c (admitM c))
def execBatch (c : Cmd) (s : State) : Res := .next (atWords s (cmdWords 6 2 c) fun s ctx eng c => applyCmd s ctx eng c (batchM c))
def execRetire (c : Cmd) (s : State) : Res := .next (atWords s (cmdWords 6 3 c) fun s ctx eng c => applyCmd s ctx eng c (retireM c))
def execEgress (c : Cmd) (s : State) : Res := .next (atWords s (cmdWords 6 4 c) fun s ctx eng c => applyCmd s ctx eng c (egressM c))
def execLogapp (c : Cmd) (s : State) : Res := .next (atWords s (cmdWords 6 5 c) fun s ctx eng c => applyCmd s ctx eng c (logappM c))
def execPfxmatch (c : Cmd) (s : State) : Res := .next (atWords s (cmdWords 6 6 c) fun s ctx eng c => applyCmd s ctx eng c (pfxmatchM c))
def execReplay (c : Cmd) (s : State) : Res := .next (atWords s (cmdWords 6 7 c) fun s ctx eng c => (replayStep s ctx eng c).getD s)
def execMigout (c : Cmd) (s : State) : Res := .next (atWords s (cmdWords 6 8 c) fun s ctx eng c => applyCmd s ctx eng c (migoutM c))
def execMigin (c : Cmd) (s : State) : Res := .next (atWords s (cmdWords 6 9 c) fun s ctx eng c => applyCmd s ctx eng c (miginM c))

end Sys2Proof.Machine
end

