-- ==== Sys2Proof/Machine/Heads.lean ====
section
/-!
DEFINITION. The check of a command at its queue head (R152, R156, R157, R190, R193, R197, R267, R325).
-/
namespace Sys2Proof.Machine

/-! Pages that a command touches (R325). -/

/-- What a KVP, SQE or SMP command does, if its class and kind name one. -/
def unitM (c : CmdSt) : EngM Unit :=
  match c.cls, c.kind with
  | 4, 1 => sampleM c
  | 4, _ => argmaxM c
  | 5, 1 => pgallocM c
  | 5, 2 => pgfreeM c
  | 5, 3 => pgforkM c
  | 5, 4 => pgappendM c
  | 5, 5 => pgcommitM c
  | 5, 6 => pgtruncM c
  | 5, _ => pgstatM c
  | 6, 1 => admitM c
  | 6, 2 => batchM c
  | 6, 3 => retireM c
  | 6, 4 => egressM c
  | 6, 5 => logappM c
  | 6, 6 => pfxmatchM c
  | 6, 7 => do let _ ← replayData c
  | 6, 8 => migoutM c
  | _, _ => miginM c

/-- Whether a unit's command would touch a host page as memory and tables stand now. -/
def State.unitTouchesHost (s : State) (ctx eng : Nat) (c : CmdSt) : Bool :=
  match unitM c { s := s, ctx := ctx, eng := eng, c := { c with beats := 0, delay := 0, host := false } } with
  | .ok (_, t) => t.c.host
  | .error _ => false

/-- The rows that the indices of a GATHER or SCATTER name, as they stand now (R202). -/
def State.rowSpans (s : State) (eng : Nat) (c : CmdSt) : List (Int × Nat) :=
  let row := c.f 5 0 16
  let src := c.f 1 0 57
  let dst := c.f 2 0 57
  let rows := (List.range c.len).flatMap fun i =>
    match s.cmdReach eng c false ((c.f 4 0 57 + 4 * i : Nat) : Int) 4 with
    | .error _ => []
    | .ok ps =>
      let x := leNat (s.readPieces ps)
      let (a, b) := if c.kind == 2 then (x, i) else (i, x)
      (((src + a * row : Nat) : Int), row) :: if c.dbuf then [] else [(((dst + b * row : Nat) : Int), row)]
  (((c.f 4 0 57 : Nat) : Int), 4 * c.len) :: rows

/-- Pages that a stream or copy command names, as (address, bytes). -/
def State.spans (s : State) (eng : Nat) (c : CmdSt) : List (Int × Nat) :=
  if c.cls == 1 then
    let (lo, hi) := travRange c.words
    [(lo, (hi - lo).toNat)]
  else if c.kind == 2 || c.kind == 3 then s.rowSpans eng c
  else
    (if c.kind == 1 then [(((c.f 1 0 57 : Nat) : Int), c.len)] else []) ++ (if c.dbuf then [] else [(((c.f 2 0 57 : Nat) : Int), c.len)])

/-- Whether a command touches a host page, as far as its words, its indices and the tables tell before it starts (R325). DEDUCED, notes/assumptions/102.md. -/
def State.touchesHost (s : State) (ctx eng : Nat) (c : CmdSt) : Bool :=
  if 4 ≤ c.cls then s.unitTouchesHost ctx eng c
  else
    (s.spans eng c).any fun (a, n) => (List.range (n / 2 ^ 16 + 2)).any fun i =>
      let va := a + ((i * 2 ^ 16 : Nat) : Int)
      va < a + (n : Int) && 0 ≤ va &&
        (match reach s (engDie eng) c.actx false va.toNat false with | .ok x => paClass x.pa == some .host | .error _ => false)

/-- A sampled completion port of a DET context needs a table latency (R16, R325). -/
def State.sampledBad (s : State) (c : CmdSt) (ctx eng : Nat) : Bool :=
  match c.cport with
  | some p =>
    ((s.tile c.tile).inPort p).sampled && s.det c.tile && (!c.tabled || s.rsvCount ctx eng == 0 || s.touchesHost ctx eng c)
  | none => false

/-! The check. -/

/-- Whether the chain of a SAMPLE's slot has a stage control block with a reserved code, flag or byte, or a field that R267 forbids: these are encoding checks,
made before the wait (R5, R193). Where the chain cannot be read, the command itself faults or refuses. DEDUCED, notes/assumptions/102.md. -/
def State.chainBad (s : State) (ctx eng : Nat) (c : CmdSt) : Bool :=
  let m : EngM (List (List Byte)) := do chainBlocks 16 (seqChain (← getSlot (c.f 2 32 12)))
  match m { s := s, ctx := ctx, eng := eng, c := c } with
  | .ok (bs, _) => bs.any fun b => badStage b || badStageField b (c.f 2 0 20 + 1)
  | .error _ => false

/-- The first check that a command fails at its queue head (R156, R193). -/
def State.cmdCheck (s : State) (c : CmdSt) (ctx eng : Nat) : Option CfgCheck :=
  let det := s.det c.tile
  let whole : Option CfgCheck := if c.cls == 1 then some .trav else some .cmd
  match decodeCmd c.words with
  | .error _ => whole
  | .ok _ =>
    let r := match c.cls with
      | 1 => checkStr s c eng det
      | 2 => checkCpy s c det
      | 3 => checkCol s c ctx
      | 4 => checkSmp s c ctx
      | _ => checkSeq s c ctx
    match r with
    | some e => some e
    | none => if (c.cls == 4 && c.kind == 1 && s.chainBad ctx eng c) || s.sampledBad c ctx eng then some .cmd else none

/-- Whether an ENG could still enter this engine's queue: the class of its template, or of the beat at L, goes there. -/
def State.engMayUse (s : State) (t eng k : Nat) : Bool :=
  let x := s.tile t
  match nodeAt x.words k with
  | some (_, n) =>
    if bitAt n.aux 5 then s.engOf t (cmdClass (x.tmpls.getD n.imm.toNat [])) == eng
    else match (x.node k).l with
      | some b => b.present && s.engOf t (cmdClass (payWords b.data)) == eng
      | none => true
  | none => false

/-- Whether every ENG of the region that precedes a command in (canonical tile, word position) order has fired for the command's instant, or could only
enter another queue: the commands of one instant enter a queue in that order (R190). DEDUCED, notes/assumptions/33.md. -/
def State.headTurn (s : State) (eng : Nat) (c : CmdSt) : Bool :=
  c.bound || s.stale c || s.det c.tile ||
    (s.region c.region).tiles.all fun u =>
      let x := s.tile u
      (opsWhere x.words (fun o => o == .eng)).all fun j =>
        !issuedBefore c.inst x.canon j c.inst c.canon c.slot || c.inst < x.inst || (x.inst == c.inst && (x.node j).fired) || !s.engMayUse u eng j

/-- CMD_HEAD_CHECK (R152, R156, R157, R193, R350): the head waits for its endpoint to be loaded; a command that fails a check owes nothing,
is reported and leaves the queue, its completion beat apart. -/
def execCmdHeadCheck (ctx eng : Nat) (s : State) : Res :=
  .next
    (match s.headCmd ctx eng with
     | none => s
     | some c =>
       if c.phase != .queued || s.keepsQueued c || !s.headTurn eng c || s.portPending ctx c then s
       else if !s.endLoaded c && (match c.endPt with | some e => e.canon < (s.region c.region).canon | none => false) then s
       else
         match s.cmdCheck c ctx eng with
         | some k =>
           let s1 := s.refuseRecord ctx eng c k
           (s1.popHead ctx eng (if c.cport.isSome then some { c with phase := .refused } else none)).bindAll ctx
         | none =>
           let (s1, st) := s.owePorts c
           s1.setHead ctx eng { c with phase := .checked, first := st })

end Sys2Proof.Machine
end

