-- ==== Sys2Proof/Machine/Migration.lean ====
section
/-!
DEFINITION. The migration agents (R382–R384): what a destination agent does with an arriving image, and a source agent with the notice that it
was taken. What they send is in `Agents`.
-/
namespace Sys2Proof.Machine

/-- A command issued by the agent on a context's unit, with ACTCTX naming the context (R298, R382). DEDUCED, notes/assumptions/81.md. -/
def State.agentCmd (s : State) (ctx : Nat) (ws : List W64) : State :=
  let e := (s.ctx ctx).kvpunit + 3 * 8
  let q := (s.ctx ctx).queue e
  let c : CmdSt :=
    { uid := s.uidNo, issue := q.count, region := agentRegion, gen := 0, tile := agentTile, canon := 0, slot := 0, inst := 0, words := ws,
      actx := some ctx, cov := [], cport := none, bound := false, phase := .queued, cycle := s.cycle, pos := 0, bytes := 0, first := 0,
      lanes := [], row := [], acq := [], mark := 0, reason := 0, cut := [], beats := 0, delay := 0, extra := 0, host := false, since := 0, kept := [], head := 0, tail := 0 }
  { s.setCtx ctx ((s.ctx ctx).setQueue e { q with entries := q.entries ++ [c], count := q.count + 1 }) with
    uidNo := s.uidNo + 1, actctx := tset s.actctx (agentTile - 4096) ctx }

/-- Whether the agent can issue one more command there (R195). -/
def State.agentRoom (s : State) (ctx : Nat) : Bool :=
  ctx != 0 && decide (ctx < 256) && (s.ctx ctx).state != 0 && !s.ctlHalt &&
    decide (((s.ctx ctx).queue ((s.ctx ctx).kvpunit + 3 * 8)).entries.length < 64)

/-- The flits of one image that have come from a peer on channel MIG, taken from its link up to the flit that holds the tag: the image's number
and its beats. -/
def State.takeImage (s : State) (peer : Nat) : Option (State × Nat × List Payload) :=
  s.links.findSome? fun (k, l) =>
    let mig := l.got.filter fun f => f.vc == 1
    match (if l.peer == peer then mig.find? fun f => f.region % 2 == 1 else none) with
    | none => none
    | some f =>
      let mine := mig.take ((mig.findIdx fun x => x == f) + 1)
      some (s.setLink k { l with got := mine.foldl List.erase l.got }, f.region / 2, mine.flatMap (·.beats))

/-- The sealed beats of an image that has come through host memory, its tag behind it (R383). -/
def State.hostImage (s : State) (ctx image beats : Nat) : Except XFault (State × List Payload) :=
  (s.engRead (Config.dieOf agentTile) (some ctx) false image (64 * (beats + 1))).map fun (bs, s1) => (s1, bytesBeats bs)

/-- What the agent does with an image: authenticated, it is put in the context's memory and MIGIN is issued; one whose tag fails goes. -/
def State.receiveImage (s : State) (ctx peer image no : Nat) (key : BitVec 256) (c : Cmd) (bs : List Payload) : State :=
  match openBeats key (nonceOf peer false no) bs with
  | none => s
  | some ps =>
    match s.engWrite (Config.dieOf agentTile) (some ctx) false image (ps.flatMap (payBytes 64)) with
    | .error _ => { s with ctlHalt := true }
    | .ok s1 =>
      { s1.agentCmd ctx (cmdWords 6 9 { c with w2 := BitVec.ofNat 64 image }) with arrivals := s1.arrivals ++ [⟨s1.uidNo, peer, no⟩] }

/-- MIGRATION_IMAGE_RECEIVE (R382, R383): an image from a part with which the agents have a session, on channel MIG, or, of `beats` beats and under the
number given, through host memory. MIGIN refuses, with IDENTITY, an image of another DETREV. A fault of the agent's own accesses
halts the control region (R297). DESIGN CHOICE, notes/assumptions/43.md. -/
def execMigrationImageReceive (ctx peer no : Nat) (at_ : ImageAt) (c : Cmd) (s : State) : Res :=
  .next
    (match s.session peer with
     | none => s
     | some key =>
       if !s.agentRoom ctx then s
       else if at_.beats == 0 then
         (match s.takeImage peer with
          | none => s
          | some (s1, i, bs) => s1.receiveImage ctx peer at_.image i key c bs)
       else
         (match s.hostImage ctx at_.image at_.beats with
          | .error _ => { s with ctlHalt := true }
          | .ok (s1, bs) => s1.receiveImage ctx peer at_.image no key c bs))

/-- The words of RETIRE on a slot (R277). -/
def retireWords (slot : Nat) : List W64 :=
  [BitVec.ofNat 64 (6 * 2 ^ 56 + 3 * 2 ^ 48), BitVec.ofNat 64 (slot % 2 ^ 12), 0#64, 0#64, 0#64, 0#64, 0#64, 0#64]

/-- The oldest notice from a peer on channel CTRL, taken from its link. -/
def State.takeNotice (s : State) (peer : Nat) : Option (State × List Payload) :=
  s.links.findSome? fun (k, l) =>
    if l.peer != peer then none
    else (l.got.find? fun f => f.vc == 2).map fun f => (s.setLink k { l with got := l.got.erase f }, f.beats)

/-- MIGRATION_NOTIFY (R382, R383): the notice, on channel CTRL or as it came through host memory, that MIGIN of a slot's image is done; authenticated, it lets
the agent issue RETIRE on the source slot. -/
def execMigrationNotify (ctx : Nat) (n : Notice) (s : State) : Res :=
  .next
    (match s.departures.find? fun d => d.ctx == ctx && d.slot == n.slot with
     | none => s
     | some d =>
       match d.peer, d.peer.bind s.session with
       | some p, some key =>
         if !s.agentRoom ctx then s
         else
           let (s1, bs) := (s.takeNotice p).getD (s, n.beats)
           if openBeats key (nonceOf p true d.no) bs == some [lanes64 [d.no]] then
             { s1 with departures := s1.departures.filter (·.no != d.no) }.agentCmd ctx (retireWords n.slot)
           else s1
       | _, _ => s)

end Sys2Proof.Machine
end

