-- ==== Sys2Proof/Machine/Dispatch.lean ====
section
/-!
DEFINITION. One arm per instruction.
-/
namespace Sys2Proof.Machine

def exec (i : Instr) (s : State) : Host.Outcome State Fault Refusal :=
  match i with
  | .instantBegin tile => Sys2Proof.Machine.execInstantBegin tile s
  | .fxtInstantStart region => Sys2Proof.Machine.execFxtInstantStart region s
  | .instantEnd region => Sys2Proof.Machine.execInstantEnd region s
  | .beatArrive tile port => Sys2Proof.Machine.execBeatArrive tile port s
  | .configBeatArrive tile port => Sys2Proof.Machine.execConfigBeatArrive tile port s
  | .resizeBeatArrive tile port => Sys2Proof.Machine.execResizeBeatArrive tile port s
  | .handoverBeatArrive tile port => Sys2Proof.Machine.execHandoverBeatArrive tile port s
  | .detachedBeatArrive tile port => Sys2Proof.Machine.execDetachedBeatArrive tile port s
  | .restartBeatArrive tile port => Sys2Proof.Machine.execRestartBeatArrive tile port s
  | .controlBeatDiscard tile port => Sys2Proof.Machine.execControlBeatDiscard tile port s
  | .meridianPass tile slot => Sys2Proof.Machine.execMeridianPass tile slot s
  | .meridianCommit region => Sys2Proof.Machine.execMeridianCommit region s
  | .causality region => Sys2Proof.Machine.execCausality region s
  | .qstall region => Sys2Proof.Machine.execQstall region s
  | .timingOverrun src => Sys2Proof.Machine.execTimingOverrun src s
  | .leafDecision region tile => Sys2Proof.Machine.execLeafDecision region tile s
  | .configLoad launch cfg => Sys2Proof.Machine.execConfigLoad launch cfg s
  | .memResponse tile slot uncorrectable => Sys2Proof.Machine.execMemResponse tile slot uncorrectable s
  | .staleReplyDiscard region gen => Sys2Proof.Machine.execStaleReplyDiscard region gen s
  | .traverseBeat ctx eng issue => Sys2Proof.Machine.execTraverseBeat ctx eng issue s
  | .travwrBeat tile port => Sys2Proof.Machine.execTravwrBeat tile port s
  | .mcastStall ctx eng issue branch => Sys2Proof.Machine.execMcastStall ctx eng issue branch s
  | .cmdHeadCheck ctx eng => Sys2Proof.Machine.execCmdHeadCheck ctx eng s
  | .commandStart ctx eng => Sys2Proof.Machine.execCommandStart ctx eng s
  | .commandComplete ctx eng issue => Sys2Proof.Machine.execCommandComplete ctx eng issue s
  | .translationWalk tile slot => Sys2Proof.Machine.execTranslationWalk tile slot s
  | .faultRecordWrite => Sys2Proof.Machine.execFaultRecordWrite s
  | .inp n => Sys2Proof.Machine.execIn n s
  | .mov n => Sys2Proof.Machine.execMov n s
  | .const n => Sys2Proof.Machine.execConst n s
  | .lanei n => Sys2Proof.Machine.execLanei n s
  | .dlrd n => Sys2Proof.Machine.execDlrd n s
  | .sxld n => Sys2Proof.Machine.execSxld n s
  | .sxst n => Sys2Proof.Machine.execSxst n s
  | .bufrd n => Sys2Proof.Machine.execBufrd n s
  | .bufwr n => Sys2Proof.Machine.execBufwr n s
  | .add n => Sys2Proof.Machine.execAdd n s
  | .sub n => Sys2Proof.Machine.execSub n s
  | .mul n => Sys2Proof.Machine.execMul n s
  | .mulh n => Sys2Proof.Machine.execMulh n s
  | .mad n => Sys2Proof.Machine.execMad n s
  | .and n => Sys2Proof.Machine.execAnd n s
  | .or n => Sys2Proof.Machine.execOr n s
  | .xor n => Sys2Proof.Machine.execXor n s
  | .not n => Sys2Proof.Machine.execNot n s
  | .shl n => Sys2Proof.Machine.execShl n s
  | .shr n => Sys2Proof.Machine.execShr n s
  | .sar n => Sys2Proof.Machine.execSar n s
  | .rot n => Sys2Proof.Machine.execRot n s
  | .min n => Sys2Proof.Machine.execMin n s
  | .max n => Sys2Proof.Machine.execMax n s
  | .abs n => Sys2Proof.Machine.execAbs n s
  | .neg n => Sys2Proof.Machine.execNeg n s
  | .clz n => Sys2Proof.Machine.execClz n s
  | .popc n => Sys2Proof.Machine.execPopc n s
  | .cmp n => Sys2Proof.Machine.execCmp n s
  | .sel n => Sys2Proof.Machine.execSel n s
  | .adds n => Sys2Proof.Machine.execAdds n s
  | .subs n => Sys2Proof.Machine.execSubs n s
  | .fadd n => Sys2Proof.Machine.execFadd n s
  | .fsub n => Sys2Proof.Machine.execFsub n s
  | .fmul n => Sys2Proof.Machine.execFmul n s
  | .ffma n => Sys2Proof.Machine.execFfma n s
  | .fmin n => Sys2Proof.Machine.execFmin n s
  | .fmax n => Sys2Proof.Machine.execFmax n s
  | .fabs n => Sys2Proof.Machine.execFabs n s
  | .fneg n => Sys2Proof.Machine.execFneg n s
  | .fcmp n => Sys2Proof.Machine.execFcmp n s
  | .frcp n => Sys2Proof.Machine.execFrcp n s
  | .fsqrt n => Sys2Proof.Machine.execFsqrt n s
  | .frsq n => Sys2Proof.Machine.execFrsq n s
  | .fexp2 n => Sys2Proof.Machine.execFexp2 n s
  | .flog2 n => Sys2Proof.Machine.execFlog2 n s
  | .ftanh n => Sys2Proof.Machine.execFtanh n s
  | .fclass n => Sys2Proof.Machine.execFclass n s
  | .cvt n => Sys2Proof.Machine.execCvt n s
  | .bscale n => Sys2Proof.Machine.execBscale n s
  | .pack n => Sys2Proof.Machine.execPack n s
  | .unpack n => Sys2Proof.Machine.execUnpack n s
  | .ofesc n => Sys2Proof.Machine.execOfesc n s
  | .lred n => Sys2Proof.Machine.execLred n s
  | .lscan n => Sys2Proof.Machine.execLscan n s
  | .lbcast n => Sys2Proof.Machine.execLbcast n s
  | .reord n => Sys2Proof.Machine.execReord n s
  | .rowstat n => Sys2Proof.Machine.execRowstat n s
  | .rowbuf n => Sys2Proof.Machine.execRowbuf n s
  | .rowscl n => Sys2Proof.Machine.execRowscl n s
  | .steer n => Sys2Proof.Machine.execSteer n s
  | .merge n => Sys2Proof.Machine.execMerge n s
  | .mergea n => Sys2Proof.Machine.execMergea n s
  | .carry n => Sys2Proof.Machine.execCarry n s
  | .gate n => Sys2Proof.Machine.execGate n s
  | .pres n => Sys2Proof.Machine.execPres n s
  | .dflt n => Sys2Proof.Machine.execDflt n s
  | .absn n => Sys2Proof.Machine.execAbsn n s
  | .orp n => Sys2Proof.Machine.execOrp n s
  | .nest n => Sys2Proof.Machine.execNest n s
  | .lcrd n => Sys2Proof.Machine.execLcrd n s
  | .inst n => Sys2Proof.Machine.execInst n s
  | .cyc n => Sys2Proof.Machine.execCyc n s
  | .merid n => Sys2Proof.Machine.execMerid n s
  | .rmark n => Sys2Proof.Machine.execRmark n s
  | .cores n => Sys2Proof.Machine.execCores n s
  | .tileid n => Sys2Proof.Machine.execTileid n s
  | .regid n => Sys2Proof.Machine.execRegid n s
  | .resize n => Sys2Proof.Machine.execResize n s
  | .endk n => Sys2Proof.Machine.execEnd n s
  | .semsig n => Sys2Proof.Machine.execSemsig n s
  | .semwait n => Sys2Proof.Machine.execSemwait n s
  | .semrd n => Sys2Proof.Machine.execSemrd n s
  | .semset n => Sys2Proof.Machine.execSemset n s
  | .djoin n => Sys2Proof.Machine.execDjoin n s
  | .fence n => Sys2Proof.Machine.execFence n s
  | .trap n => Sys2Proof.Machine.execTrap n s
  | .brk n => Sys2Proof.Machine.execBrk n s
  | .agen n => Sys2Proof.Machine.execAgen n s
  | .ld n => Sys2Proof.Machine.execLd n s
  | .st n => Sys2Proof.Machine.execSt n s
  | .ldx n => Sys2Proof.Machine.execLdx n s
  | .stx n => Sys2Proof.Machine.execStx n s
  | .atom n => Sys2Proof.Machine.execAtom n s
  | .handover n => Sys2Proof.Machine.execHandover n s
  | .bfillAcqw n => Sys2Proof.Machine.execBfillAcqw n s
  | .bfillPub n => Sys2Proof.Machine.execBfillPub n s
  | .bfreeAcqr n => Sys2Proof.Machine.execBfreeAcqr n s
  | .bfreeRel n => Sys2Proof.Machine.execBfreeRel n s
  | .eng n => Sys2Proof.Machine.execEng n s
  | .launch n => Sys2Proof.Machine.execLaunch n s
  | .sxset n => Sys2Proof.Machine.execSxset n s
  | .sxmix n => Sys2Proof.Machine.execSxmix n s
  | .sxhid n => Sys2Proof.Machine.execSxhid n s
  | .sxemb n => Sys2Proof.Machine.execSxemb n s
  | .sxkind n => Sys2Proof.Machine.execSxkind n s
  | .sxhash n => Sys2Proof.Machine.execSxhash n s
  | .collapse n => Sys2Proof.Machine.execCollapse n s
  | .krd n => Sys2Proof.Machine.execKrd n s
  | .kwr n => Sys2Proof.Machine.execKwr n s
  | .slotw n => Sys2Proof.Machine.execSlotw n s
  | .genbump n => Sys2Proof.Machine.execGenbump n s
  | .regsave n => Sys2Proof.Machine.execRegsave n s
  | .regload n => Sys2Proof.Machine.execRegload n s
  | .fltackResume n => Sys2Proof.Machine.execFltackResume n s
  | .fltackKill n => Sys2Proof.Machine.execFltackKill n s
  | .fltackFailcmd n => Sys2Proof.Machine.execFltackFailcmd n s
  | .fltackNote n => Sys2Proof.Machine.execFltackNote n s
  | .mxTokenAccept tile => Sys2Proof.Machine.execMxTokenAccept tile s
  | .mma t => Sys2Proof.Machine.execMma t s
  | .mmaz t => Sys2Proof.Machine.execMmaz t s
  | .clr t => Sys2Proof.Machine.execClr t s
  | .drain t => Sys2Proof.Machine.execDrain t s
  | .mxCompletion tile => Sys2Proof.Machine.execMxCompletion tile s
  | .mxFeed tile which => Sys2Proof.Machine.execMxFeed tile which s
  | .epiNop => Sys2Proof.Machine.execEpiNop s
  | .epiLdc => Sys2Proof.Machine.execEpiLdc s
  | .epiAddb a => Sys2Proof.Machine.execEpiAddb a s
  | .epiMuls a => Sys2Proof.Machine.execEpiMuls a s
  | .epiAdda a => Sys2Proof.Machine.execEpiAdda a s
  | .epiAct k => Sys2Proof.Machine.execEpiAct k s
  | .epiClamp a => Sys2Proof.Machine.execEpiClamp a s
  | .epiCvt sat r d => Sys2Proof.Machine.execEpiCvt sat r d s
  | .epiBsc a => Sys2Proof.Machine.execEpiBsc a s
  | .epiRowm a => Sys2Proof.Machine.execEpiRowm a s
  | .epiRows a => Sys2Proof.Machine.execEpiRows a s
  | .epiSta a => Sys2Proof.Machine.execEpiSta a s
  | .epiSto k => Sys2Proof.Machine.execEpiSto k s
  | .epiEnd => Sys2Proof.Machine.execEpiEnd s
  | .travrd c => Sys2Proof.Machine.execTravrd c s
  | .travwr c => Sys2Proof.Machine.execTravwr c s
  | .travmc c => Sys2Proof.Machine.execTravmc c s
  | .copy c => Sys2Proof.Machine.execCopy c s
  | .gather c => Sys2Proof.Machine.execGather c s
  | .scatter c => Sys2Proof.Machine.execScatter c s
  | .fill c => Sys2Proof.Machine.execFill c s
  | .allred c => Sys2Proof.Machine.execAllred c s
  | .allgath c => Sys2Proof.Machine.execAllgath c s
  | .redscat c => Sys2Proof.Machine.execRedscat c s
  | .xsend c => Sys2Proof.Machine.execXsend c s
  | .xrecv c => Sys2Proof.Machine.execXrecv c s
  | .sample c => Sys2Proof.Machine.execSample c s
  | .argmax c => Sys2Proof.Machine.execArgmax c s
  | .pgalloc c => Sys2Proof.Machine.execPgalloc c s
  | .pgfree c => Sys2Proof.Machine.execPgfree c s
  | .pgfork c => Sys2Proof.Machine.execPgfork c s
  | .pgappend c => Sys2Proof.Machine.execPgappend c s
  | .pgcommit c => Sys2Proof.Machine.execPgcommit c s
  | .pgtrunc c => Sys2Proof.Machine.execPgtrunc c s
  | .pgstat c => Sys2Proof.Machine.execPgstat c s
  | .admission c => Sys2Proof.Machine.execAdmit c s
  | .batch c => Sys2Proof.Machine.execBatch c s
  | .retire c => Sys2Proof.Machine.execRetire c s
  | .egress c => Sys2Proof.Machine.execEgress c s
  | .logapp c => Sys2Proof.Machine.execLogapp c s
  | .pfxmatch c => Sys2Proof.Machine.execPfxmatch c s
  | .replay c => Sys2Proof.Machine.execReplay c s
  | .migout c => Sys2Proof.Machine.execMigout c s
  | .migin c => Sys2Proof.Machine.execMigin c s
  | .faultRecordHandle => Sys2Proof.Machine.execFaultRecordHandle s
  | .faultDecision => Sys2Proof.Machine.execFaultDecision s
  | .decisionTimeout => Sys2Proof.Machine.execDecisionTimeout s
  | .regpreReq region gated => Sys2Proof.Machine.execRegpreReq region gated s
  | .preemptQuiesce region => Sys2Proof.Machine.execPreemptQuiesce region s
  | .preemptTimeout region => Sys2Proof.Machine.execPreemptTimeout region s
  | .regpreResume region => Sys2Proof.Machine.execRegpreResume region s
  | .schedulerDecision part => Sys2Proof.Machine.execSchedulerDecision part s
  | .launchComplete launch => Sys2Proof.Machine.execLaunchComplete launch s
  | .sqenEnable part q => Sys2Proof.Machine.execSqenEnable part q s
  | .sqenDisable part q => Sys2Proof.Machine.execSqenDisable part q s
  | .psqpostWrite v => Sys2Proof.Machine.execPsqpostWrite v s
  | .psqKernelStart => Sys2Proof.Machine.execPsqKernelStart s
  | .engshareWrite ctx v => Sys2Proof.Machine.execEngshareWrite ctx v s
  | .tinvWrite ctx v => Sys2Proof.Machine.execTinvWrite ctx v s
  | .imaskWrite part set k v => Sys2Proof.Machine.execImaskWrite part set k v s
  | .imctlWrite part set v => Sys2Proof.Machine.execImctlWrite part set v s
  | .dcsplitWrite die v => Sys2Proof.Machine.execDcsplitWrite die v s
  | .memctlCacheWrite stack v => Sys2Proof.Machine.execMemctlCacheWrite stack v s
  | .memctlReset stack v => Sys2Proof.Machine.execMemctlReset stack v s
  | .pmemWrite part k v => Sys2Proof.Machine.execPmemWrite part k v s
  | .semWindowInc offset width value tee => Sys2Proof.Machine.execSemWindowInc offset width value tee s
  | .semWindowRead slot byte width tee => Sys2Proof.Machine.execSemWindowRead slot byte width tee s
  | .hostMemRead hpa len tee => Sys2Proof.Machine.execHostMemRead hpa len tee s
  | .hostMemWrite hpa bytes tee => Sys2Proof.Machine.execHostMemWrite hpa bytes tee s
  | .hostSnoop pa => Sys2Proof.Machine.execHostSnoop pa s
  | .lockInterface part => Sys2Proof.Machine.execLockInterface part s
  | .startInterface part => Sys2Proof.Machine.execStartInterface part s
  | .stopInterface part => Sys2Proof.Machine.execStopInterface part s
  | .getDeviceInterfaceState part => Sys2Proof.Machine.execGetDeviceInterfaceState part s
  | .getDeviceInterfaceReport part => Sys2Proof.Machine.execGetDeviceInterfaceReport part s
  | .unsupportedRequest part => Sys2Proof.Machine.execUnsupportedRequest part s
  | .interfaceError part => Sys2Proof.Machine.execInterfaceError part s
  | .getMeasurements => Sys2Proof.Machine.execGetMeasurements s
  | .agentMeasurements peer key => Sys2Proof.Machine.execAgentMeasurements peer key s
  | .measurementEvent mr item => Sys2Proof.Machine.execMeasurementEvent mr item s
  | .recordUpdate image signed => Sys2Proof.Machine.execRecordUpdate image signed s
  | .migrationImageReceive ctx peer no at_ c => Sys2Proof.Machine.execMigrationImageReceive ctx peer no at_ c s
  | .migrationNotify ctx n => Sys2Proof.Machine.execMigrationNotify ctx n s
  | .flitSend link vc payload => Sys2Proof.Machine.execFlitSend link vc payload s
  | .flitReceive link f => Sys2Proof.Machine.execFlitReceive link f s
  | .linkRetrain link ok => Sys2Proof.Machine.execLinkRetrain link ok s
  | .bmsHeartbeat o => Sys2Proof.Machine.execBmsHeartbeat o s
  | .refresh p => Sys2Proof.Machine.execRefresh p s
  | .refreshTakeover o => Sys2Proof.Machine.execRefreshTakeover o s
  | .refreshHandback o => Sys2Proof.Machine.execRefreshHandback o s
  | .rowRepair stack row => Sys2Proof.Machine.execRowRepair stack row s
  | .laneSpare die edge => Sys2Proof.Machine.execLaneSpare die edge s
  | .waySpare die slice => Sys2Proof.Machine.execWaySpare die slice s
  | .lifeFlush => Sys2Proof.Machine.execLifeFlush s
  | .powerCheck watts tempC => Sys2Proof.Machine.execPowerCheck watts tempC s
  | .droopStretch tile beyond => Sys2Proof.Machine.execDroopStretch tile beyond s
  | .boot copyA copyB => Sys2Proof.Machine.execBoot copyA copyB s
  | .controlRegionReload => Sys2Proof.Machine.execControlRegionReload s
  | .ctxstateWrite ctx v => Sys2Proof.Machine.execCtxstateWrite ctx v s
  | .partctlWrite part v => Sys2Proof.Machine.execPartctlWrite part v s
  | .spanctlWrite k v => Sys2Proof.Machine.execSpanctlWrite k v s
  | .brkResume region => Sys2Proof.Machine.execBrkResume region s
  | .throttle stack level => Sys2Proof.Machine.execThrottle stack level s

end Sys2Proof.Machine
end

