-- ==== Sys2Proof/Machine/Fetch.lean ====
section
/-!
DEFINITION. Which step comes next and the word it takes: a node's word in the slot store (R76), the epilogue word of the DRAIN
in progress (R243, R246), the token at the head of a matrix queue (R227), a started command's beat (R190), or an event.
-/
namespace Sys2Proof.Machine

/-- The next move, and the state without it: the agenda's head, or, when it is empty, what the part's own order gives (R18, R46). DESIGN CHOICE, notes/assumptions/2.md. -/
def State.nextMove (s : State) : Move × State :=
  match s.agenda with
  | m :: ms => (m, { s with agenda := ms })
  | [] => (Config.schedule s.tick, { s with tick := s.tick + 1 })

/-- Cycles that pass while a region is idle do not count toward its watchdog (R26, R28). -/
def State.idlePass (s : State) (dt : Nat) : State :=
  if dt = 0 then s
  else { s with regions := s.regions.map fun (g, r) =>
                  (g, if r.phase == .running && s.idle g then { r with lastFire := r.lastFire + dt } else r) }

/-- The state as the mover finds it: the cycles before its move have passed. -/
def State.arrive (s : State) (m : Move) : State := { s.idlePass m.dt with cycle := s.cycle + m.dt, cursor := m.act }

/-- A node word with the word after it (R76). -/
def State.nodeWord (s : State) (t k : Nat) : Option (W64 × Option W64) :=
  ((nodeWords (s.tile t).words 0).find? fun (j, _, _) => j == k).map fun (_, w, e) => (w, e)

/-- The epilogue word that the DRAIN in progress takes next (R243, R244). -/
def State.epiWord (s : State) (t : Nat) : Option W16 :=
  match (s.tile t).mx.drain, (s.tile t).mx.queue with
  | some d, e :: _ => e.prog[d.pc]?
  | _, _ => none

/-- The command that a cursor names, among the started ones (R197). -/
def State.startedCmd (s : State) (c e u : Nat) : Option CmdSt := ((s.ctx c).queue e).started.find? fun x => x.uid == u

/-- The step that a move takes: none where nothing stands at the place it names, else the decoded word or the event. -/
def State.fetch (s : State) (a : Act) : Option (Except Reject Instr) :=
  match a with
  | .event i => some (.ok i)
  | .node t k => (s.nodeWord t k).map fun (w, e) => decodeWord w e
  | .epi t => (s.epiWord t).map decodeEpi
  | .token t => (s.tile t).mx.queue.head?.map fun e => decodeToken e.word
  | .cmd c e u => (s.startedCmd c e u).map fun x => decodeCmd x.words

/-! Placing one instruction where the next step fetches (it stands for the load of a program: notes/assumptions/11.md). -/

/-- A tile in its first instant with given words, in a running region. -/
def State.placeNode (s : State) (ws : List W64) : State :=
  let x := s.tile 0
  let s1 := s.setTile 0 { x with words := ws, nodes := ws.map fun _ => NodeSt.fresh, begun := true }
  s1.setRegion x.region { s1.region x.region with phase := .running }

/-- A matrix node whose DRAIN is about to take a given epilogue word. -/
def State.placeEpi (s : State) (w : W16) : State :=
  let x := s.tile 0
  let e : MxEntry := { word := 2#64, seq := 0, inst := 0, accepted := s.cycle, prog := [w], started := some s.cycle, finish := s.cycle,
                       owed := 0, owedBeats := 0, undef := false, cov := [] }
  let d : Drain := { row := 0, pc := 0, v := [], kind := .f32, asm := [], blocks := 0, block := none }
  s.setTile 0 { x with mx := { x.mx with queue := [e], drain := some d } }

/-- A started command with given words. -/
def State.placeCmd (s : State) (ws : List W64) : State :=
  let c : CmdSt := { uid := 0, issue := 0, region := 0, gen := 0, tile := 0, canon := 0, slot := 0, inst := 0, words := ws, actx := some 0, cov := [],
                     cport := none, bound := false, phase := .started, cycle := s.cycle, pos := 0, bytes := 0, first := 0, lanes := [],
                     row := [], acq := [], mark := 0, reason := 0, cut := [], beats := 0, delay := 0, extra := 0, host := false, since := 0, kept := [], head := 0, tail := 0 }
  s.setCtx 0 ((s.ctx 0).setQueue 0 { (s.ctx 0).queue 0 with started := [c] })

/-- An instruction of `nbits` bits in its place, with the move that takes it at the head of the agenda. DESIGN CHOICE, notes/assumptions/11.md. -/
def State.place (s : State) (nbits w : Nat) : State :=
  if nbits ≤ 16 then { s.placeEpi (BitVec.ofNat 16 w) with agenda := [⟨0, .epi 0⟩] }
  else if nbits ≤ 128 then
    { s.placeNode [BitVec.ofNat 64 w, BitVec.ofNat 64 (w / 2 ^ 64)] with agenda := [⟨0, .node 0 0⟩] }
  else { s.placeCmd (wordsOf w 8) with agenda := [⟨0, .cmd 0 0 0⟩] }

end Sys2Proof.Machine
end

