-- ==== Sys2Proof/Machine/Step.lean ====
section
/-!
DEFINITION. One step of the part, and placing one instruction where the next step fetches.
-/
namespace Sys2Proof.Machine

/-- One step: the next move, its word, its meaning. A move that finds nothing at its place changes nothing. -/
def step (s : State) : Host.Outcome State Fault Refusal :=
  match (s.nextMove.2.arrive s.nextMove.1).fetch s.nextMove.1.act with
  | none => .next (s.nextMove.2.arrive s.nextMove.1)
  | some (.error why) => .refused (.noInstruction why)
  | some (.ok i) => exec i (s.nextMove.2.arrive s.nextMove.1)

/-- `s` with an instruction of `nbits` bits where step fetches its next instruction. -/
def State.withFetchWord (s : State) (nbits w : Nat) : State := s.place nbits w

end Sys2Proof.Machine
end

