-- ==== Sys2Proof/Safety.lean ====
section
/-!
DEFINITION. What claims mean by a safe run: runs of the step, and the form that memory keeps.
-/
namespace Sys2Proof

/-- States that steps lead to from a state. -/
inductive Reaches : Machine.State → Machine.State → Prop where
  | refl (s : Machine.State) : Reaches s s
  | tail (s t u : Machine.State) : Reaches s t → Machine.step t = .next u → Reaches s u

/-- A safe run never stops with a fault of the model's own. -/
def Safe (s : Machine.State) : Prop := ∀ t, Reaches s t → ∀ f, Machine.step t ≠ .fault f

/-- What a firing that reads and sends beats alone can touch, of everything outside tiles and regions: the records of faults that it raises. All memory,
contexts, semaphores, queues, partitions, tables and registers stay. -/
def Outside (s s' : Machine.State) : Prop :=
  s' = { s with tiles := s'.tiles, regions := s'.regions, launches := s'.launches, life := s'.life, held := s'.held, ctlHalt := s'.ctlHalt }

/-- What it can touch of a tile: node slots, ports, the matrix node's inputs, delay registers not yet in force (R18, R21), and whether a typed buffer that cannot be
read makes it due for a spare (R405). -/
def TileFrame (x y : Machine.Tile) : Prop :=
  y = { x with nodes := y.nodes, dlN := y.dlN, inPorts := y.inPorts, outs := y.outs, dones := y.dones, mx := y.mx, errCount := y.errCount,
               spareDue := y.spareDue }

/-- What it can touch of a region: the watchdog with its limit, and whether a fault has stopped it (R28, R350). -/
def RegionFrame (x y : Machine.Region) : Prop :=
  y = { x with lastFire := y.lastFire, stallLim := y.stallLim, firedInst := y.firedInst, phase := y.phase, killed := y.killed }

/-- The frame of a firing that reads and sends beats alone. -/
def BeatsOnly (s s' : Machine.State) : Prop :=
  Outside s s' ∧ (∀ u, TileFrame (s.tile u) (s'.tile u)) ∧ ∀ g, RegionFrame (s.region g) (s'.region g)

/-- Memory, and every typed buffer, in canonical form. -/
def MemOk (s : Machine.State) : Prop :=
  s.mem.wf = true ∧ ∀ p ∈ s.tiles, p.2.w.wf = true ∧ p.2.a.wf = true ∧ p.2.c.wf = true

end Sys2Proof
end

