-- ==== Sys2Proof/Certificates/Slice0/Obligations.lean ====
section
/-!
DEFINITION. The statements for the provers. Each says for every state and operands what a step of the part answers.
-/
namespace Sys2Proof.Claims

open Machine

/-! What the statements are made of. -/

/-- A node word stands at position `k` of tile `t`, its firing condition holds there (R14, R17, R18), and it reads the inputs `a`. -/
def At (s : State) (n : Node) (t k : Nat) (a : Args) : Prop :=
  s.cursor = .node t k ∧ s.ready n t k = true ∧ (s.tile t).args n k = a

/-- The step answers a next state: `s1`, in which the node has fired and sent what `o` says to its targets. -/
def Fires (i : Instr) (s s1 : State) (n : Node) (t k : Nat) (o : Out) : Prop :=
  Machine.exec i s = .next (s1.emit t k n o)

/-- Element j of a beat of the node's type (R48). -/
abbrev el (n : Node) (x : Payload) (j : Nat) : Nat := bitsNat x (n.ty.bits * j) n.ty.bits

/-- An element as a bit vector of the type's width. -/
abbrev bv (n : Node) (x : Nat) : BitVec n.ty.bits := BitVec.ofNat n.ty.bits x

/-- Whether element j is computed under the mask on P (R88). -/
def computed (p : Arg) (j : Nat) : Bool :=
  match p with | .val m => m.getLsbD j | _ => true

/-- Both data inputs PRESENT: element j is `f` of the operands' elements, and L's where the mask has 0 (R88). -/
def Lanes2 (i : Instr) (n : Node) (f : Nat → Nat → Nat) : Prop :=
  ∀ s t k a x y, At s n t k a → a.l = .val x → a.r = .val y → a.p ≠ .absent →
    ∃ z, Fires i s s n t k (.same (Beat.val z a.cov)) ∧
      ∀ j, j < n.ty.elems → el n z j = if computed a.p j then f (el n x j) (el n y j) else el n x j

/-- One data input PRESENT: element j is `f` of L's, and L's where the mask has 0 (R88). -/
def Lanes1 (i : Instr) (n : Node) (f : Nat → Nat) : Prop :=
  ∀ s t k a x, At s n t k a → a.l = .val x → a.p ≠ .absent →
    ∃ z, Fires i s s n t k (.same (Beat.val z a.cov)) ∧
      ∀ j, j < n.ty.elems → el n z j = if computed a.p j then f (el n x j) else el n x j

/-- A comparison: bit j of the pred beat is the relation of the elements, 0 where the mask has 0 and above the elements (R88, R99). -/
def Compares (i : Instr) (n : Node) (f : Nat → Nat → Bool) : Prop :=
  ∀ s t k a x y, At s n t k a → a.l = .val x → a.r = .val y → a.p ≠ .absent →
    ∃ z, Fires i s s n t k (.same (Beat.val z a.cov)) ∧
      ∀ j, j < 512 → z.getLsbD j = (decide (j < n.ty.elems) && computed a.p j && f (el n x j) (el n y j))

/-- What the absence policy makes of two data inputs with the identities `idL` and `idR` (R19, R90). -/
def Absence2 (i : Instr) (n : Node) (idL idR : Option Nat) (f : Nat → Nat → Nat) : Prop :=
  ∀ s t k a, At s n t k a →
    (a.p = .absent → Fires i s s n t k (.same Beat.none)) ∧
    (a.p ≠ .absent → n.pol = .fault → (a.l = .absent ∨ a.r = .absent) → Fires i s s n t k .absentUse) ∧
    (n.pol = .prop → (a.l = .absent ∨ a.r = .absent) → Fires i s s n t k (.same Beat.none)) ∧
    (n.pol = .ident → a.l = .absent → a.r = .absent → Fires i s s n t k (.same Beat.none)) ∧
    (a.p ≠ .absent → n.pol = .ident → ∀ y, a.l = .absent → a.r = .val y →
      match idL with
      | none => Fires i s s n t k (.same Beat.none)
      | some e => ∃ z, Fires i s s n t k (.same (Beat.val z a.cov)) ∧
          ∀ j, j < n.ty.elems → el n z j = if computed a.p j then f e (el n y j) else e) ∧
    (a.p ≠ .absent → n.pol = .ident → ∀ x, a.l = .val x → a.r = .absent →
      match idR with
      | none => Fires i s s n t k (.same Beat.none)
      | some e => ∃ z, Fires i s s n t k (.same (Beat.val z a.cov)) ∧
          ∀ j, j < n.ty.elems → el n z j = if computed a.p j then f (el n x j) e else el n x j)

/-- The order of bits of a float format, −0 below +0 (R102): sign and magnitude as an integer. -/
def floatKey (mb x : Nat) : Int :=
  if x / 2 ^ (mb + 8) % 2 = 1 then -((x % 2 ^ (mb + 8) : Nat) : Int) - 1 else ((x % 2 ^ (mb + 8) : Nat) : Int)

/-- NaN patterns (R50). -/
def isNanBits (mb x : Nat) : Bool := decide (255 * 2 ^ mb < x % 2 ^ (mb + 8))

/-- What a REORD has stored of its filling and its previous group, nothing at round start (R113, R32). -/
def reorderGroups (l : Local) : List Beat × List Beat := match l with | .reord c p => (c, p) | _ => ([], [])

/-- The source beats an encode has collected of its block (R107). -/
def collectedBeats (l : Local) : List Payload := match l with | .collect bs => bs | _ => []

/-- The beats a ROWSTAT has counted of its row, and the statistic so far (R115). -/
def rowCount (l : Local) : Nat × Nat := match l with | .rowstat c acc => (c, acc) | _ => (0, 0)

/-- The nodes whose firing reads beats, registers and buffers and sends beats. -/
def beatNodes (n : Node) : List Instr :=
  [.mov n, .const n, .lanei n, .dlrd n, .sxld n, .add n, .sub n, .mul n, .mulh n, .mad n, .and n, .or n, .xor n, .not n, .shl n, .shr n, .sar n, .rot n,
    .min n, .max n, .abs n, .neg n, .clz n, .popc n, .cmp n, .sel n, .adds n, .subs n] ++
  [.fadd n, .fsub n, .fmul n, .ffma n, .fmin n, .fmax n, .fabs n, .fneg n, .fcmp n, .frcp n, .fsqrt n, .frsq n, .fexp2 n, .flog2 n, .ftanh n, .fclass n,
    .cvt n, .bscale n, .pack n, .unpack n, .ofesc n, .lred n, .lscan n, .lbcast n, .reord n, .rowstat n, .rowscl n] ++
  [.steer n, .merge n, .mergea n, .carry n, .gate n, .pres n, .absn n, .dflt n, .orp n, .lcrd n, .inst n, .cyc n, .cores n, .tileid n, .regid n,
    .semwait n, .semrd n, .djoin n, .bufrd n, .inp n, .sxkind n, .sxhash n]

/-- The nodes that also write their tile's registers or buffers, or their region. -/
def tileNodes (n : Node) : List Instr :=
  [.rowbuf n, .nest n, .sxst n, .bufwr n, .sxset n, .sxmix n, .sxhid n, .collapse n, .merid n, .endk n, .rmark n, .resize n, .trap n,
    .bfillAcqw n, .bfillPub n, .bfreeAcqr n, .bfreeRel n]

/-- The nodes that write memory. -/
def storeNodes (n : Node) : List Instr := [.st n, .stx n, .handover n]

/-- A record of a class and cause with a named agent waits to be written (R349, R352). -/
def Recorded (s : State) (cls cause : Nat) (a : Agent) : Prop :=
  ∃ r ∈ s.held, bitsNat (r.words.getD 0 0#64) 0 8 = cls ∧ bitsNat (r.words.getD 0 0#64) 8 8 = cause ∧ r.agent = a

/-- The step answers a next state with a property. -/
def Leads (i : Instr) (s : State) (p : State → Prop) : Prop := ∃ s1, Machine.exec i s = .next s1 ∧ p s1

/-- The step answers the state it was given: it has nothing to do there. -/
def Waits (i : Instr) (s : State) : Prop := Machine.exec i s = .next s

/-- The words of a command instruction (R191). -/
def cmdWordsOf (i : Instr) : List W64 :=
  match i.cmd? with | some (cls, kind, c) => cmdWords cls kind c | none => []

/-- A started command that advances in a cycle that its context owns, the turn being its own (R320, R363). -/
def AtTurn (s : State) (ctx eng : Nat) (c : CmdSt) : Prop :=
  s.startedOf ctx eng c.uid = some c ∧ c.phase = .started ∧ s.granted ctx eng = true ∧ s.turnOf ctx eng = some c.uid

/-- A started command stands under the cursor with the words of `i`. -/
def Placed (i : Instr) (s : State) (ctx eng : Nat) (c : CmdSt) : Prop :=
  s.cursor = .cmd ctx eng c.uid ∧ s.startedOf ctx eng c.uid = some c ∧ c.words = cmdWordsOf i ∧ c.phase = .started

/-- A started command stands under the cursor with the words of `i`, and it is its turn (R197, R320). -/
def Under (i : Instr) (s : State) (ctx eng : Nat) (c : CmdSt) : Prop := Placed i s ctx eng c ∧ AtTurn s ctx eng c

/-- No line part has a clean copy under which DRAM has changed without a snoop (R150, R225). -/
def Settled (s : State) : Prop := ∀ l x, tget? s.lines l = some x → x.owner = none → x.dirty = false → x.image = s.lineImage l

/-- The command's addresses are physical, no cell of memory is bad, every granule stands under the key of its address, and no copy of a line is out of date. -/
def Physical (s : State) (c : CmdSt) : Prop := c.actx = none ∧ isSup c.tile = false ∧ s.badBeats = [] ∧ s.tags = [] ∧ Settled s

/-- n bytes at an address of near memory (R326). -/
def near (a n : Nat) : Prop := a + n ≤ 0xC000000000

/-- The ranges are pairwise disjoint. -/
def Apart (rs : List (Nat × Nat)) : Prop := rs.Pairwise fun a b => a.1 + a.2 ≤ b.1 ∨ b.1 + b.2 ≤ a.1

/-- What a command has become. -/
def Ends (s : State) (ctx eng uid : Nat) (p : CmdSt → Prop) : Prop := ∃ c, s.startedOf ctx eng uid = some c ∧ p c

/-- Every byte outside a range reads as before. Where a clean copy lies over a newer image of DRAM, dropping it shows the image. -/
def SameOutside (s s1 : State) (lo n : Nat) : Prop := Settled s → ∀ a, a < lo ∨ lo + n ≤ a → s1.peekN a 1 = s.peekN a 1

/-- The granules that the pieces reach stand under the key of the addresses they are reached by: nothing is encrypted again when they are written (R376). -/
def SameKey (s : State) (ps : List Piece) : Prop :=
  ∀ p ∈ ps, ∀ g, p.x.loc / 64 ≤ g → g ≤ (p.x.loc + p.len - 1) / 64 → s.keyAt g = s.keyNum p.x.pa

/-- The orders that a read's data carries (R212): the inputs' as they came, and those that its done token covers at the read's scope. -/
def readOrds (n : Node) (a : Args) : List Ord := lunion a.cov (a.dcov.map fun o => { o with rd := n.aux.toNat % 8 % 5 })

/-- Memory after writes in order by an agent of the part. -/
def writes (s : State) (ws : List (Nat × List Byte)) : Memory := (ws.foldl (fun s w => s.devWrite w.1 w.2) s).mem

/-- A slot of the context's sequence table, as eight words (R261). -/
def slotAt (s : State) (x : Ctx) (i : Nat) : List Nat := wordsAt (s.peekN (x.seqbase + 64 * i) 64) 8

/-- The pool of a descriptor at POOLTAB (R269). -/
def poolAt (s : State) (x : Ctx) (k : Nat) : Pool :=
  let va := x.pooltab + 64 * k
  let d := wordsAt (s.peekN va 64) 8
  { k := k, va := va, ptab := qf d 0 0 57, pp := 8 * 2 ^ qf d 0 57 2, ppCode := qf d 0 57 2, frames := qf d 1 0 57, pages := qf d 2 0 32,
    pbytes := qf d 2 32 32, reserve := qf d 3 32 32, flist := qf d 4 0 57 }

/-- The sequence i of the context stands at physical addresses, its pool is usable, its page list is near (R261, R269). -/
def SeqOk (s : State) (x : Ctx) (i : Nat) : Prop :=
  let q := slotAt s x i
  let p := poolAt s x (seqPool q)
  near (x.seqbase + 64 * i) 64 ∧ x.pooltab ≠ 0 ∧ near p.va 64 ∧ p.pbytes ≠ 0 ∧ p.pbytes % 64 = 0 ∧ near (seqPlist q) 8

/-- The KV page-table entry of R341. -/
def entNat (refs fill : Nat) (copy : Bool) (page : Nat) : Nat :=
  refs + fill * 2 ^ 16 + (if refs = 0 then 0 else 2 ^ 24) + (if copy then 2 ^ 25 else 0) + page * 2 ^ 32

/-- A page of a pool with its entry (R341). -/
def Page (s : State) (p : Pool) (page refs fill : Nat) (copy : Bool) : Prop :=
  page < p.pages ∧ near (p.ptab + 8 * page) 8 ∧ refs < 2 ^ 16 ∧ fill ≤ p.pp ∧ s.peekNat (p.ptab + 8 * page) 8 = entNat refs fill copy page

/-- Bytes of a slot. -/
def slotBytes (q : List Nat) : List Byte := q.flatMap (leBytes 8)

/-- The greatest of some logits, ties to the lowest id (R268): id, and how many are finite. -/
def Greatest (l : List Nat) (id n : Nat) : Prop :=
  id < l.length ∧ f32Finite (l.getD id 0) = true ∧ n = (l.filter f32Finite).length ∧
    ∀ j, j < l.length → f32Finite (l.getD j 0) = true → f32Lt (l.getD id 0) (l.getD j 0) = false ∧ (j < id → f32Lt (l.getD j 0) (l.getD id 0) = true)

/-- A tile holds the next bank of a block (R37, R319). -/
def Banked (s : State) (t : Nat) : Prop := (s.tile t).next.isSome = true

/-- The bytes of a fault record (R352). -/
def recBytesOf (r : FltRec) : List Byte := r.words.flatMap fun w => leBytes 8 w.toNat

/-- A region whose launch is over: no longer valid, running nothing. -/
def Gone (s : State) (g : Nat) : Prop := (s.region g).valid = false ∧ (s.region g).phase = .off

end Sys2Proof.Claims

open Sys2Proof Sys2Proof.Machine Sys2Proof.Claims

/-- R75, R79, R191, R192, R228, R243: words from the spec's own worked encodings decode to what they stand for: node words with and without an
extension word, matrix tokens, epilogue words, a command beat; a reserved opcode, type, token field, epilogue opcode and command kind are refused. -/
def Obligations.DecodeSamples : Prop :=
  decodeWord 0x1050602000000400#64 none = .ok (.add ⟨.i32, 0#4, .out 0, .dl 0, 0#16, .ident, false, 0#8, none⟩) ∧
  decodeWord 0x1050605820000300#64 (some 0x0001117060F80000#64) =
    .ok (.add ⟨.i32, 0#4, .out 1, .out 2, 0#16, .prop, true, 0#8, some ⟨70000#32, .out 3, .none⟩⟩) ∧
  decodeWord 0xA20041380003F001#64 none = .ok (.st ⟨.f32, 0#4, .slot .p 4, .none, 63#16, .prop, false, 1#8, none⟩) ∧
  decodeWord 0x7960600020002000#64 none = .ok (.nest ⟨.n32, 0#4, .out 0, .slot .l 2, 2#16, .prop, false, 0#8, none⟩) ∧
  decodeWord 0xD66160B800000003#64 none = .ok (.collapse ⟨.n32, 1#4, .out 2, .none, 0#16, .prop, false, 3#8, none⟩) ∧
  decodeWord 0xE98040F801401100#64 none = .ok (.kwr ⟨.n64, 0#4, .slot .p 3, .none, 0x1401#16, .prop, true, 0#8, none⟩) ∧
  decodeToken 0x0000000000036029#64 = .ok (.mmaz ⟨2#2, 2#2, 0#7, 3#3, 3#3, false, 0#5, 0#12, 0#13, 0#10, false, false⟩) ∧
  decodeToken 0x0000000010012020#64 = .ok (.mma ⟨0#2, 2#2, 0#7, 1#3, 1#3, false, 0#5, 8#12, 0#13, 0#10, false, false⟩) ∧
  decodeEpi 0x5200#16 = .ok (.epiAct 2#4) ∧ decodeEpi 0xC003#16 = .ok (.epiSto 3#4) ∧
  decodeCmd [0x0101030001000060#64, 0x4C00000000602010#64, 0x1000030000000004#64, 0x0000070000000010#64, 0#64, 0#64, 0#64, 0#64] =
    .ok (.travrd ⟨⟨3#8, 1#16, 0#8, 0#8, 3#3, false, 0#2⟩, 0x4C00000000602010#64, 0x1000030000000004#64, 0x0000070000000010#64, 0#64, 0#64, 0#64, 0#64⟩) ∧
  decodeWord 0x27500000E0380000#64 none = .error (.node .opcode) ∧ decodeWord 0x10F0E038E0000000#64 none = .error (.node .type) ∧
  decodeToken 0x000000000003602D#64 = .error (.token 2) ∧ decodeEpi 0xE000#16 = .error .epilogue ∧
  decodeCmd [0x0104000000000060#64, 0#64, 0#64, 0#64, 0#64, 0#64, 0#64, 0#64] = .error .command

/-- R75–R81, R191–R193, R228–R231, R243, R260: the words of every well-formed instruction that the spec encodes decode to it, whatever its operands. -/
def Obligations.DecodingInvertsEncoding : Prop :=
  ∀ i : Instr, i.wellFormed = true → encode i ≠ .event → (encode i).decode = .ok i

/-- A step takes the agenda's next move, lets its cycles pass (idle ones uncounted by the watchdog) and runs what stands where it points: a decoded word or an event as exec of it, nothing where
nothing stands there; the bits of no instruction are refused by name. -/
def Obligations.StepRunsWhatItFetches : Prop :=
  ∀ (s : State) (m : Move) (ms : List Move), s.agenda = m :: ms →
    let s1 : State := { ({ s with agenda := ms } : State).idlePass m.dt with cycle := s.cycle + m.dt, cursor := m.act }
    (∀ t k w e i, m.act = .node t k → s.nodeWord t k = some (w, e) → decodeWord w e = .ok i → Machine.step s = Machine.exec i s1) ∧
    (∀ t w i, m.act = .epi t → s.epiWord t = some w → decodeEpi w = .ok i → Machine.step s = Machine.exec i s1) ∧
    (∀ t e es i, m.act = .token t → (s.tile t).mx.queue = e :: es → decodeToken e.word = .ok i → Machine.step s = Machine.exec i s1) ∧
    (∀ c e u x i, m.act = .cmd c e u → s.startedCmd c e u = some x → decodeCmd x.words = .ok i → Machine.step s = Machine.exec i s1) ∧
    (∀ i, m.act = .event i → Machine.step s = Machine.exec i s1) ∧
    (∀ t k, m.act = .node t k → s.nodeWord t k = none → Machine.step s = .next s1) ∧
    (∀ t k w e why, m.act = .node t k → s.nodeWord t k = some (w, e) → decodeWord w e = .error why → Machine.step s = .refused (.noInstruction why))

/-- R132, R291–R294, R307, R334, R398, R402, R408: the register values that the spec gives for reset, read through the part's own registers; nothing is
resident, nothing queued, and memory lists nothing. -/
def Obligations.ResetValues : Prop :=
  let s := State.reset
  s.mem = [] ∧ s.mem.wf = true ∧ s.lines = [] ∧ s.tcache = [] ∧ s.fq = [] ∧ s.bootstat = 0 ∧ s.fqsize = 8 ∧ s.clkCeil = 140 ∧ s.clkForce = 140 ∧ s.pwrCap = 3000 ∧
  s.psqN = 2 ∧ s.hrov = false ∧
  (∀ c, c ≠ 0 → (s.ctx c).state = 0 ∧ (s.ctx c).fxt = false ∧ (s.ctx c).relaxed = false ∧ (s.ctx c).debug = false ∧ (s.ctx c).qstall = 0 ∧
    (s.ctx c).ptv = false ∧ (s.ctx c).engshare = 0) ∧
  (∀ c i, ((s.ctx c).sem i).value = 0 ∧ ((s.ctx c).sem i).sticky = false) ∧
  (∀ g, (s.region g).valid = false ∧ (s.region g).gen = 0 ∧ (s.region g).phase = .off) ∧
  (∀ p, (s.part p).tdisp = .unlocked ∧ (s.part p).sqen = 0 ∧ (s.part p).dies = 0) ∧
  (∀ p k, k < 6 → ((s.part p).maskSet 0).masks.getD k 0 = 2 ^ (7 + k)) ∧
  (∀ d, s.linePart d = 16) ∧ (∀ t k, ((s.tile t).node k).fired = false)

/-- Memory keeps its canonical form (addresses strictly rising, no entry that an unlisted address would read as) through every step: equal memories are
equal data. -/
def Obligations.MemoryStaysCanonical : Prop :=
  ∀ s s' : State, s.mem.wf = true → Machine.step s = .next s' → s'.mem.wf = true

/-- R18, R21, R77, R153, R212: a firing marks its node and puts its beat where its target says: into the slot, behind the beats of the channel, for the
end of the instant into the delay register, or to wait for a write traverse. -/
def Sys2Proof.Claims.FiringDelivers : Prop :=
  ∀ (s : State) (n : Node) (t k : Nat) (b : Beat), n.b = .none → n.ext = none → k < (s.tile t).nodes.length →
    let s1 := s.emit t k n (.same b)
    ((s1.tile t).node k).fired = true ∧
    (∀ w j, n.a = .slot w j → j < (s.tile t).nodes.length → ((s1.tile t).node j).get w = some b) ∧
    (∀ j d, n.a = .out j → ((s.tile t).out j).dests = [d] → ((s.tile t).out j).resize = [] → d.1 < 8192 →
      ((s1.tile d.1).inPort d.2).flight = ((s.tile d.1).inPort d.2).flight ++ [b.leave]) ∧
    (∀ j, n.a = .out j → ((s.tile t).out j).dests = [] → ((s.tile t).out j).discard = false → b.present = true →
      ((s1.tile t).out j).q = ((s.tile t).out j).q ++ [((s.tile t).beginCycle, b)]) ∧
    (∀ j, n.a = .dl j → tget Beat.none (s1.tile t).dlN j = b ∧ (s1.tile t).dl = (s.tile t).dl) ∧
    s1.mem = s.mem ∧ s1.ctxs = s.ctxs

/-- R19, R350, R352, R353: an ABSENT input under FAULT raises ABSENT_USE at the node: the region stops, the node sends nothing, and the record names class, tile,
slot and instant. -/
def Sys2Proof.Claims.AbsentUseStopsRegion : Prop :=
  ∀ (s : State) (n : Node) (t k : Nat), t < 4096 → k < 128 →
    let s1 := s.emit t k n .absentUse
    (s1.region (s.tile t).region).phase = .stopped ∧ ((s1.tile t).node k).fired = ((s.tile t).node k).fired ∧ s1.mem = s.mem ∧
      ∃ r ∈ s1.held, bitsNat (r.words.getD 0 0#64) 0 8 = 0x05 ∧ bitsNat (r.words.getD 1 0#64) 0 13 = t ∧ bitsNat (r.words.getD 1 0#64) 13 7 = k ∧
        r.words.getD 2 0#64 = BitVec.ofNat 64 (s.tile t).inst ∧ r.agent = .region (s.tile t).region

/-- What a firing puts on its targets; an ABSENT input under FAULT stops the region: `FiringDelivers`, `AbsentUseStopsRegion`. -/
def Obligations.FiringAndAbsentUse : Prop :=
  Claims.FiringDelivers ∧ Claims.AbsentUseStopsRegion

/-- R18, R87: what the firing of a node can touch. The nodes that compute from beats, registers and buffers send beats and no more; those that write their tile's
registers or buffers, or their region, leave memory, contexts, queues, partitions and every register alone; the stores of a RELAXED or DET context change
memory, its lines and its translations besides. -/
def Obligations.NodesTouchNoMore : Prop :=
  ∀ (n : Node) (s s' : State),
    (∀ i ∈ beatNodes n, Machine.exec i s = .next s' → BeatsOnly s s') ∧
    (∀ i ∈ tileNodes n, Machine.exec i s = .next s' → Outside s s') ∧
    (∀ i ∈ storeNodes n, Machine.exec i s = .next s' →
      Outside s { s' with mem := s.mem, tags := s.tags, lines := s.lines, badBeats := s.badBeats, tcache := s.tcache, accessNo := s.accessNo, tick := s.tick })

/-- R12, R21, R29, R30, R39: where a tile may begin its next instant, INSTANT_BEGIN and FXT_INSTANT_START begin it: no node has fired, every slot is UNKNOWN,
the delay writes of the instant before are in force, each node keeps its own state. INSTANT_END counts an instant that every tile has ended. -/
def Obligations.InstantsBeginAndEnd : Prop :=
  ∀ (s : State),
    (∀ t, (s.ctx (s.tileCtx t)).fxt = false → s.mayBegin t = true →
      Leads (.instantBegin t) s fun s1 =>
        let x := s.tile t
        let y := s1.tile t
        y.begun = true ∧ y.inst = (if x.begun then x.inst + 1 else x.inst) ∧ y.nodes.length = x.nodes.length ∧
        (∀ k, k < x.nodes.length → (y.node k).fired = false ∧ (y.node k).l = none ∧ (y.node k).r = none ∧ (y.node k).p = none ∧
          (y.node k).loc = (x.node k).loc) ∧
        (x.dlN = [] → y.dl = x.dl) ∧ (∀ j b, x.dlN = [(j, b)] → tget Beat.none y.dl j = b) ∧ y.dlN = [] ∧ s1.mem = s.mem) ∧
    (∀ t, ((s.ctx (s.tileCtx t)).fxt = true ∨ s.mayBegin t = false) → (s.region (s.tile t).region).unbound = [] → Waits (.instantBegin t) s) ∧
    (∀ g, let r := s.region g
      (s.ctx r.ctx).fxt = true → r.tiles ≠ [] → r.tiles.Nodup → r.unbound = [] →
      (∀ t ∈ r.tiles, s.mayBegin t = true ∧ s.dueCycle t = s.cycle ∧ (s.tile t).mxOverdue s.cycle = false) →
      Leads (.fxtInstantStart g) s fun s1 => s1.mem = s.mem ∧
        ∀ t ∈ r.tiles, (s1.tile t).begun = true ∧ (s1.tile t).inst = (if (s.tile t).begun then (s.tile t).inst + 1 else (s.tile t).inst) ∧
          (s1.tile t).beginCycle = s.cycle) ∧
    (∀ g t, t ∈ (s.region g).tiles → (s.dueCycle t ≠ s.cycle ∨ (s.tile t).mxOverdue s.cycle = true) → (s.region g).unbound = [] → Waits (.fxtInstantStart g) s) ∧
    (∀ g, let r := s.region g
      r.phase ≠ .off → (∀ t ∈ r.tiles, r.inst < (s.tile t).inst ∨ r.inst = (s.tile t).inst ∧ (s.tile t).begun = true ∧ (s.tile t).allFired = true) → r.tiles ≠ [] →
      Leads (.instantEnd g) s fun s1 => (s1.region g).inst = r.inst + 1 ∧ s1.tiles = s.tiles ∧ s1.mem = s.mem)

/-- R11–R14, R66, R129, R131, R162, R164: what the head beat of a port's channel does: a value, absence or MERIDIAN goes to the buffer, a value in the port's format;
a control beat acts by its subtype and goes; a reserved one is counted. -/
def Obligations.BeatsArrive : Prop :=
  ∀ (s : State) (t k : Nat) (b : Beat) (bs : List Beat),
    let x := s.tile t
    let p := x.inPort k
    p.flight = b :: bs →
    let port (q : InPort) : State := s.setTile t (x.setIn k q)
    let p1 : InPort := { p with flight := bs }
    (b.kind = .value → ∃ z, Machine.exec (.beatArrive t k) s = .next (port { p1 with buf := p.buf ++ [{ b with data := z }] }) ∧ (p.fin = p.fout → z = b.data)) ∧
    ((b.kind = .absent ∨ b.kind = .meridian) → Machine.exec (.beatArrive t k) s = .next (port { p1 with buf := p.buf ++ [b] })) ∧
    (b.kind = .control → Waits (.beatArrive t k) s ∧
      (b.sub = 2 → Machine.exec (.resizeBeatArrive t k) s = .next (port { p1 with
        depth := min (bitsNat b.data 8 8) (p.depth + (256 - (x.inPorts.map fun q => q.2.depth).foldl (· + ·) 0)) })) ∧
      (b.sub = 4 → ∀ o m, p.due = [o] → b.data.toNat / 256 = m + o.by_ * 2 ^ 64 → m < 2 ^ 64 → o.start < m → m < o.start + o.count →
        Machine.exec (.detachedBeatArrive t k) s = .next (port { p1 with
          due := [{ o with count := m - o.start }, { o with start := m, count := o.start + o.count - m, dead := true }] })) ∧
      (b.sub = 5 → Machine.exec (.restartBeatArrive t k) s = .next (port p1)) ∧
      ((b.sub = 0 ∨ 5 < b.sub) → Machine.exec (.controlBeatDiscard t k) s = .next (s.setTile t { x.setIn k p1 with errCount := x.errCount + 1 })) ∧
      ((1 ≤ b.sub ∧ b.sub ≤ 5) → Waits (.controlBeatDiscard t k) s) ∧
      (b.sub = 1 → ∀ nb, x.next = some nb → (x.setIn k p1).configOwed = false →
        (∃ u ∈ (s.region x.region).tiles, u ≠ t ∧ (s.tile u).next.isSome = true) →
        Leads (.configBeatArrive t k) s fun s1 => (s1.tile t).words = nb.words ∧ (s1.tile t).canon = nb.canon ∧ (s1.tile t).next = none ∧
          (s1.tile t).inst = 0 ∧ (s1.tile t).begun = false ∧ s1.mem = s.mem) ∧
      (b.sub = 1 → ∀ nb, x.next = some nb → (x.setIn k p1).configOwed = false → (∀ u ∈ (s.region x.region).tiles, u ≠ t → (s.tile u).next = none) →
        (s.region x.region).phase = .off →
        Leads (.configBeatArrive t k) s fun s1 => (s1.tile t).words = nb.words ∧ (s1.region x.region).phase = .running ∧
          (s1.region x.region).roundCycle = s.cycle ∧ s1.mem = s.mem) ∧
      (b.sub = 3 → bitsNat b.data 8 8 = 0 → ∀ o, (s.region x.region).owners = [o] →
        Machine.exec (.handoverBeatArrive t k) s =
          .next ((port p1).setRegion x.region { s.region x.region with owners := [{ o with moving := false }] })))

/-- R31, R32, R176, R177: a node that has fired for the round's last instant passes its MERIDIAN when its producers have: it is marked, its own state is reset, an
AGEN keeps its position, and the MERIDIAN leaves on its output port. -/
def Sys2Proof.Claims.MeridianPasses : Prop :=
  ∀ (s : State) (t k : Nat) (o : Op) (n : Node),
    let x := s.tile t
    let r := s.region x.region
    let st := x.node k
    nodeAt x.words k = some (o, n) → r.phase = .running → x.begun = true → r.ended = some x.inst → st.fired = true →
    (agenPos st.loc).2.2.2.2 = [] →
    (st.passed = false → x.merAt k o n = true → (nodeTargets n).all (Tile.targetRoom s x) = true →
      Leads (.meridianPass t k) s fun s1 =>
        ((s1.tile t).node k).passed = true ∧ ((s1.tile t).node k).fired = true ∧
        ((s1.tile t).node k).loc = (match st.loc with | .agen i j l e _ => .agen i j l e [] | _ => .idle) ∧ s1.mem = s.mem ∧
        (∀ j d, n.a = .out j → n.b = .none → n.ext = none → (x.out j).dests = [d] → (x.out j).resize = [] → d.1 < 8192 →
          ((s1.tile d.1).inPort d.2).flight = ((s.tile d.1).inPort d.2).flight ++ [Beat.mer])) ∧
    ((st.passed = true ∨ x.merAt k o n = false) → Waits (.meridianPass t k) s)

/-- R31–R33, R39, R165, R166, R218, R220: once every node has passed, the round commits: the region goes to the next round at instant m + 1 with empty buffers and its tiles
before their first instant, a lone store stands in memory and nothing else does, and two stores of different groups to one byte race: neither is applied,
a RACE is recorded and the region stops; a byte of an owned range is not checked (R163). -/
def Sys2Proof.Claims.MeridianCommits : Prop :=
  ∀ (s0 : State) (g m : Nat),
    let s := (s0.region g).tiles.foldl State.pumpSto s0
    let r := s.region g
    g < 1024 → r.ended = some m → r.phase = .running → s.halted g = false → r.tiles ≠ [] → r.ctx ≠ 0 →
    (∀ t ∈ r.tiles, (s.tile t).inst = m ∧ (s.tile t).begun = true ∧ (∀ p ∈ nodeWords (s.tile t).words 0, ((s.tile t).node p.1).passed = true) ∧
      ∀ k ∈ (s.tile t).mxPorts, ((s.tile t).out k).merSent = true) →
    Leads (.meridianCommit g) s0 fun s1 =>
      (s1.region g).inst = m + 1 ∧ (s1.region g).ended = none ∧ (s1.region g).round = r.round + 1 ∧ (s1.region g).entries = [] ∧ (s1.region g).reads = [] ∧
      (∀ t ∈ r.tiles, (s1.tile t).begun = false ∧ (s1.tile t).inst = m + 1 ∧ (s1.tile t).lc = [] ∧ ((s.tile t).hdr.keep = false → (s1.tile t).dl = [])) ∧
      ((s.ctx r.ctx).relaxed = true → s1.mem = s0.mem) ∧
      (r.entries = [] → s1.mem = s0.mem) ∧
      (∀ e o b, r.entries = [e] → r.reads = [] → (s.ctx r.ctx).relaxed = false → e.op = .store → e.bytes = [(o, b)] → o < 64 → s.badBeats = [] →
        s.tags = [] → e.loc = e.granule → (e.strm = false ∨ s.lines = []) → Settled s →
        s1.peekN (e.loc * 64 + o) 1 = [b] ∧ ∀ c, c ≠ e.loc * 64 + o → s1.peekN c 1 = s0.peekN c 1) ∧
      (∀ e1 e2 o b1 b2, r.entries = [e1, e2] → r.reads = [] → (s.ctx r.ctx).relaxed = false → e1.op = .store → e2.op = .store → e1.bytes = [(o, b1)] →
        e2.bytes = [(o, b2)] → e1.granule = e2.granule → e1.group ≠ e2.group → e1.canon < e2.canon →
        (e1.owned = [] → e2.owned = [] → s1.mem = s0.mem ∧ Recorded s1 0x07 0 (.region g) ∧ (s1.region g).phase = .stopped) ∧
        (e2.owned = [o] → e1.loc = e1.granule → e2.loc = e2.granule → s.tags = [] → ((e1.strm = false ∧ e2.strm = false) ∨ s.lines = []) → o < 64 → s.badBeats = [] → s1.peekN (e2.loc * 64 + o) 1 = [b2] ∧ (s1.region g).phase ≠ .stopped))

/-- The meridian passes through the nodes and commits the round: `MeridianPasses`, `MeridianCommits`. -/
def Obligations.MeridianPassesAndCommits : Prop :=
  Claims.MeridianPasses ∧ Claims.MeridianCommits

/-- R25–R28, R40, R41, R237, R351, R413: the watchdogs. A quiescent region with nodes that cannot fire stops with CAUSALITY, one with no firing for the stall limit with
QSTALL, naming the first unfired node, cycles in which it is idle not counted; a fixed-timing tile, stream window, engine command or matrix token that is late stops it with TIMING_OVERRUN. -/
def Obligations.WatchdogsStopRegions : Prop :=
  ∀ (s : State) (g : Nat),
    let r := s.region g
    let stops (s1 : State) (c : Nat) (h : Nat) : Prop := Recorded s1 c 0 (.region h) ∧ (s1.region h).phase = .stopped ∧ s1.mem = s.mem
    (∀ s2, s2 = r.tiles.foldl State.pumpSto s → (s2.region g).phase = .running → s2.unfired g ≠ [] → s2.quiescent g = true → s2.idle g = false →
      (s2.ctx (s2.region g).ctx).fltpend = false → (s2.region g).ctx ≠ 0 → Leads (.causality g) s fun s1 => stops s1 0x04 g) ∧
    (∀ t k ps, r.phase = .running → s.broken g = false → s.unfired g = (t, k) :: ps → s.idle g = false → (s.ctx r.ctx).fltpend = false →
      r.lastFire + r.stallLim ≤ s.cycle → r.ctx ≠ 0 → t < 2 ^ 13 → k < 2 ^ 7 →
      Leads (.qstall g) s fun s1 => stops s1 0x0B g ∧
        ∃ x ∈ s1.held, bitsNat (x.words.getD 1 0#64) 0 13 = t ∧ bitsNat (x.words.getD 1 0#64) 13 7 = k ∧ x.words.getD 7 0#64 = BitVec.ofNat 64 r.stallLim) ∧
    (s.cycle < r.lastFire + r.stallLim → Waits (.qstall g) s) ∧
    (∀ dt r0, 0 < dt → (g, r0) ∈ s.regions → r0.phase = .running →
      (g, { r0 with lastFire := r0.lastFire + if s.idle g = true then dt else 0 }) ∈ (s.idlePass dt).regions) ∧
    (∀ t, let x := s.tile t
      x.region = g → r.ctx ≠ 0 → (s.ctx r.ctx).fxt = true → r.phase = .running → x.begun = true → x.overrun = false → x.unfired ≠ [] →
      r.roundCycle + (x.inst + 1 - r.roundBase) * x.hdr.period ≤ s.cycle → s.quiescent g = false →
      Leads (.timingOverrun (.tile t)) s fun s1 => stops s1 0x0A g ∧ (s1.tile t).overrun = true) ∧
    (∀ ctx eng uid c at_, ctx ≠ 0 → s.anyCmd ctx eng uid = some c → c.region = g → s.latestAt ctx eng c = some at_ → at_ < s.cycle → s.stale c = false →
      c.mark / 4 % 2 = 0 → Leads (.timingOverrun (.engine ctx eng uid)) s fun s1 => stops s1 0x0A g) ∧
    (∀ ctx eng uid c, ctx ≠ 0 → s.startedOf ctx eng uid = some c → c.region = g → (s.ctx ctx).fxt = true → c.cls = 1 → c.beatsOut < c.portBeats → s.stale c = false →
      c.mark / 4 % 2 = 0 → r.roundBase ≤ c.first + c.beatsOut → s.instStart c (c.first + c.beatsOut) < s.cycle →
      (∃ p ∈ s.endPorts c, c.first + c.beatsOut ≤ (s.tile p.1).inst ∧ (s.tile p.1).begun = true) →
      Leads (.timingOverrun (.window ctx eng uid)) s fun s1 => stops s1 0x0A g) ∧
    (∀ t b, let x := s.tile t
      x.region = g → r.ctx ≠ 0 → (s.ctx r.ctx).fxt = true → x.mx.ctl = some b → b.present = true → x.overrun = false →
      x.mx.ctlAt ≤ s.cycle → x.mx.ctlAt < x.mx.ctlCycle →
      Leads (.timingOverrun (.token t)) s fun s1 => stops s1 0x0A g ∧ (s1.tile t).overrun = true)

/-- R88, R99: the integer nodes of two operands compute element by element modulo 2^w, under the mask. -/
def Obligations.IntegerBinaryLanes : Prop :=
  ∀ n : Node,
    Lanes2 (.add n) n (fun x y => (bv n x + bv n y).toNat) ∧
    Lanes2 (.sub n) n (fun x y => (bv n x - bv n y).toNat) ∧
    Lanes2 (.mul n) n (fun x y => (bv n x * bv n y).toNat) ∧
    Lanes2 (.shl n) n (fun x y => (bv n x <<< y).toNat) ∧
    Lanes2 (.shr n) n (fun x y => (bv n x >>> y).toNat) ∧
    Lanes2 (.sar n) n (fun x y => ((bv n x).sshiftRight y).toNat) ∧
    Lanes2 (.rot n) n (fun x y => ((bv n x).rotateLeft y).toNat) ∧
    Lanes2 (.min n) n (fun x y => if (if n.ty.signed then (bv n y).slt (bv n x) else decide (y < x)) then y else x) ∧
    Lanes2 (.max n) n (fun x y => if (if n.ty.signed then (bv n x).slt (bv n y) else decide (x < y)) then y else x)

/-- R101: MULH gives the high half of the exact product; ADDS and SUBS compare the exact result with the type's range and clamp. -/
def Obligations.HighProductAndSaturation : Prop :=
  ∀ n : Node,
    Lanes2 (.mulh n) n (fun x y =>
      if n.ty.signed then (BitVec.ofInt n.ty.bits ((bv n x).toInt * (bv n y).toInt / 2 ^ n.ty.bits)).toNat else x * y / 2 ^ n.ty.bits) ∧
    Lanes2 (.adds n) n (fun x y =>
      if n.ty.signed then
        (BitVec.ofInt n.ty.bits (max (-(2 ^ (n.ty.bits - 1))) (min (2 ^ (n.ty.bits - 1) - 1) ((bv n x).toInt + (bv n y).toInt)))).toNat
      else min (x + y) (2 ^ n.ty.bits - 1)) ∧
    Lanes2 (.subs n) n (fun x y =>
      if n.ty.signed then
        (BitVec.ofInt n.ty.bits (max (-(2 ^ (n.ty.bits - 1))) (min (2 ^ (n.ty.bits - 1) - 1) ((bv n x).toInt - (bv n y).toInt)))).toNat
      else x - y)

/-- R88, R99: ABS, NEG, CLZ, POPC and NOT of integers; CLZ counts the zero bits above the highest one. -/
def Sys2Proof.Claims.IntegerUnaryLanes : Prop :=
  ∀ n : Node, n.ty.isInt = true →
    Lanes1 (.abs n) n (fun x => if n.ty.signed && (bv n x).msb then (-(bv n x)).toNat else x) ∧
    Lanes1 (.neg n) n (fun x => (-(bv n x)).toNat) ∧
    Lanes1 (.not n) n (fun x => (~~~(bv n x)).toNat) ∧
    Lanes1 (.popc n) n (fun x => ((List.range n.ty.bits).filter fun b => x.testBit b).length) ∧
    Lanes1 (.clz n) n (fun x => ((List.range n.ty.bits).filter fun b => decide (x < 2 ^ b)).length)

/-- R99: CMP compares by the type's signedness and writes one bit an element; SEL picks whole elements by P; MAD multiplies and adds
modulo 2^w. -/
def Sys2Proof.Claims.CompareSelectMultiplyAdd : Prop :=
  ∀ n : Node,
    Compares (.cmp n) n (fun x y =>
      let lt (a b : Nat) : Bool := if n.ty.signed then (bv n a).slt (bv n b) else decide (a < b)
      match n.mod.toNat with
      | 0 => x == y | 1 => x != y | 2 => lt x y | 3 => !lt y x | 4 => lt y x | _ => !lt x y) ∧
    (∀ s t k a x y m, At s n t k a → a.l = .val x → a.r = .val y → a.p = .val m →
      ∃ z, Fires (.sel n) s s n t k (.same (Beat.val z a.cov)) ∧
        ∀ j, j < n.ty.elems → el n z j = if m.getLsbD j then el n x j else el n y j) ∧
    (∀ s t k a x y p, At s n t k a → a.l = .val x → a.r = .val y → a.p = .val p →
      ∃ z, Fires (.mad n) s s n t k (.same (Beat.val z a.cov)) ∧
        ∀ j, j < n.ty.elems → el n z j = (bv n (el n x j) * bv n (el n y j) + bv n (el n p j)).toNat)

/-- R99, R100: AND, OR, XOR and NOT, lane by lane on integers and on all 512 bits of pred and raw. -/
def Sys2Proof.Claims.BitwiseNodes : Prop :=
  ∀ n : Node,
    (n.ty.isInt = true →
      Lanes2 (.and n) n (fun x y => (bv n x &&& bv n y).toNat) ∧
      Lanes2 (.or n) n (fun x y => (bv n x ||| bv n y).toNat) ∧
      Lanes2 (.xor n) n (fun x y => (bv n x ^^^ bv n y).toNat)) ∧
    ((n.ty = .pred ∨ n.ty = .raw) → ∀ s t k a x, At s n t k a → a.l = .val x →
      Fires (.not n) s s n t k (.same (Beat.val (~~~x) a.cov)) ∧
      ∀ y, a.r = .val y →
        Fires (.and n) s s n t k (.same (Beat.val (x &&& y) a.cov)) ∧
        Fires (.or n) s s n t k (.same (Beat.val (x ||| y) a.cov)) ∧
        Fires (.xor n) s s n t k (.same (Beat.val (x ^^^ y) a.cov)))

/-- Integer nodes of one operand, comparison, selection, multiply-add, bitwise nodes: `IntegerUnaryLanes`, `CompareSelectMultiplyAdd`, `BitwiseNodes`. -/
def Obligations.IntegerUnaryCompareBitwise : Prop :=
  Claims.IntegerUnaryLanes ∧ Claims.CompareSelectMultiplyAdd ∧ Claims.BitwiseNodes

/-- R19, R90, R99: what each absence policy makes of an integer node's ABSENT operands, with the identities of R99. -/
def Obligations.IntegerAbsencePolicies : Prop :=
  ∀ n : Node, n.ty.isInt = true →
    Absence2 (.add n) n (some 0) (some 0) (fun x y => (bv n x + bv n y).toNat) ∧
    Absence2 (.sub n) n none (some 0) (fun x y => (bv n x - bv n y).toNat) ∧
    Absence2 (.mul n) n (some 1) (some 1) (fun x y => (bv n x * bv n y).toNat) ∧
    Absence2 (.mulh n) n none none (fun _ _ => 0) ∧
    Absence2 (.and n) n (some (2 ^ n.ty.bits - 1)) (some (2 ^ n.ty.bits - 1)) (fun x y => (bv n x &&& bv n y).toNat) ∧
    Absence2 (.or n) n (some 0) (some 0) (fun x y => (bv n x ||| bv n y).toNat) ∧
    Absence2 (.shl n) n none (some 0) (fun x y => (bv n x <<< y).toNat) ∧
    Absence2 (.min n) n (some (if n.ty.signed then 2 ^ (n.ty.bits - 1) - 1 else 2 ^ n.ty.bits - 1))
      (some (if n.ty.signed then 2 ^ (n.ty.bits - 1) - 1 else 2 ^ n.ty.bits - 1))
      (fun x y => if (if n.ty.signed then (bv n y).slt (bv n x) else decide (y < x)) then y else x)

/-- R52, R88, R102: the exact result of the operands rounded once in the node's mode; FMIN and FMAX by the order in which −0 lies
below +0, the canonical NaN where either operand is NaN. -/
def Obligations.FloatBinaryLanes : Prop :=
  ∀ n : Node, n.ty.isFloat = true →
    let mb := fracBits n.ty
    let rnd := Rnd.ofCode n.mod.toNat
    Lanes2 (.fadd n) n (fun x y => ((Val.ofBits mb x).add rnd (Val.ofBits mb y)).toBits mb rnd) ∧
    Lanes2 (.fsub n) n (fun x y => ((Val.ofBits mb x).add rnd (Val.ofBits mb y).neg).toBits mb rnd) ∧
    Lanes2 (.fmul n) n (fun x y => ((Val.ofBits mb x).mul (Val.ofBits mb y)).toBits mb rnd) ∧
    Lanes2 (.fmin n) n (fun x y =>
      if isNanBits mb x || isNanBits mb y then nanBits mb else if floatKey mb y < floatKey mb x then y else x) ∧
    Lanes2 (.fmax n) n (fun x y =>
      if isNanBits mb x || isNanBits mb y then nanBits mb else if floatKey mb x < floatKey mb y then y else x)

/-- R50, R53, R102: the floating-point nodes of one operand; FABS and FNEG change the sign bit alone, but a NaN gives the canonical
NaN. -/
def Sys2Proof.Claims.FloatUnaryLanes : Prop :=
  ∀ n : Node, n.ty.isFloat = true →
    let mb := fracBits n.ty
    let rnd := Rnd.ofCode n.mod.toNat
    Lanes1 (.fabs n) n (fun x => if isNanBits mb x then nanBits mb else x % 2 ^ (mb + 8)) ∧
    Lanes1 (.fneg n) n (fun x => if isNanBits mb x then nanBits mb else x ^^^ 2 ^ (mb + 8)) ∧
    Lanes1 (.frcp n) n (fun x => frcpBits mb rnd (Val.ofBits mb x)) ∧
    Lanes1 (.fsqrt n) n (fun x => fsqrtBits mb rnd (Val.ofBits mb x)) ∧
    Lanes1 (.frsq n) n (fun x => frsqBits mb rnd (Val.ofBits mb x)) ∧
    Lanes1 (.fexp2 n) n (fun x => fexp2Bits mb rnd (Val.ofBits mb x)) ∧
    Lanes1 (.flog2 n) n (fun x => flog2Bits mb rnd (Val.ofBits mb x)) ∧
    Lanes1 (.ftanh n) n (fun x => ftanhBits mb rnd (Val.ofBits mb x))

/-- R102–R104: FFMA rounds the exact product and sum once; FCMP is false of NaN but for UN; FCLASS sets exactly the bit of the
element's class. -/
def Sys2Proof.Claims.FloatFusedCompareClass : Prop :=
  ∀ n : Node, n.ty.isFloat = true →
    let mb := fracBits n.ty
    let rnd := Rnd.ofCode n.mod.toNat
    (∀ s t k a x y p, At s n t k a → a.l = .val x → a.r = .val y → a.p = .val p →
      ∃ z, Fires (.ffma n) s s n t k (.same (Beat.val z a.cov)) ∧
        ∀ j, j < n.ty.elems → el n z j =
          (((Val.ofBits mb (el n x j)).mul (Val.ofBits mb (el n y j))).add rnd (Val.ofBits mb (el n p j))).toBits mb rnd) ∧
    (∀ s t k a x y, At s n t k a → a.l = .val x → a.r = .val y → a.p = .absent → n.pol = .ident →
      ∃ z, Fires (.ffma n) s s n t k (.same (Beat.val z a.cov)) ∧
        ∀ j, j < n.ty.elems → el n z j = ((Val.ofBits mb (el n x j)).mul (Val.ofBits mb (el n y j))).toBits mb rnd) ∧
    Compares (.fcmp n) n (fun x y =>
      let nan := isNanBits mb x || isNanBits mb y
      let zero := x % 2 ^ (mb + 8) == 0 && y % 2 ^ (mb + 8) == 0
      match n.mod.toNat with
      | 0 => !nan && (zero || x == y)
      | 1 => !nan && !zero && decide (floatKey mb x < floatKey mb y)
      | 2 => !nan && (zero || decide (floatKey mb x ≤ floatKey mb y))
      | _ => nan) ∧
    (∀ s t k a x, At s n t k a → a.l = .val x → a.p ≠ .absent →
      ∃ z, Fires (.fclass n) s s n t k (.same (Beat.val z a.cov)) ∧
        ∀ j, j < n.ty.elems → el n z j =
          if !computed a.p j then 0
          else
            let e := el n x j
            let neg := e / 2 ^ (mb + 8) % 2 = 1
            let mag := e % 2 ^ (mb + 8)
            if 255 * 2 ^ mb < mag then 2 ^ 8
            else if mag = 255 * 2 ^ mb then (if neg then 2 ^ 0 else 2 ^ 7)
            else if 2 ^ mb ≤ mag then (if neg then 2 ^ 1 else 2 ^ 6)
            else if mag = 0 then (if neg then 2 ^ 3 else 2 ^ 4)
            else if neg then 2 ^ 2 else 2 ^ 5)

/-- Floating-point nodes of one operand, FFMA, FCMP, FCLASS: `FloatUnaryLanes`, `FloatFusedCompareClass`. -/
def Obligations.FloatUnaryFusedCompare : Prop :=
  Claims.FloatUnaryLanes ∧ Claims.FloatFusedCompareClass

/-- R53's table: zeros, infinities, one and NaN, and the negative finite numbers, in both formats and every rounding mode. -/
def Sys2Proof.Claims.ElementarySpecialValues : Prop :=
  ∀ mb, mb = 7 ∨ mb = 23 → ∀ r : Rnd,
    let v (x : Nat) := Val.ofBits mb x
    let one := 127 * 2 ^ mb
    let sgn := 2 ^ (mb + 8)
    let inf := 255 * 2 ^ mb
    frcpBits mb r (v 0) = inf ∧ frcpBits mb r (v sgn) = sgn + inf ∧ frcpBits mb r (v inf) = 0 ∧ frcpBits mb r (v (sgn + inf)) = sgn ∧
    frcpBits mb r (v one) = one ∧
    fsqrtBits mb r (v 0) = 0 ∧ fsqrtBits mb r (v sgn) = sgn ∧ fsqrtBits mb r (v inf) = inf ∧ fsqrtBits mb r (v one) = one ∧
    frsqBits mb r (v 0) = inf ∧ frsqBits mb r (v sgn) = sgn + inf ∧ frsqBits mb r (v inf) = 0 ∧ frsqBits mb r (v one) = one ∧
    fexp2Bits mb r (v 0) = one ∧ fexp2Bits mb r (v sgn) = one ∧ fexp2Bits mb r (v inf) = inf ∧ fexp2Bits mb r (v (sgn + inf)) = 0 ∧
    fexp2Bits mb r (v one) = 128 * 2 ^ mb ∧
    flog2Bits mb r (v 0) = sgn + inf ∧ flog2Bits mb r (v sgn) = sgn + inf ∧ flog2Bits mb r (v inf) = inf ∧ flog2Bits mb r (v one) = 0 ∧
    ftanhBits mb r (v 0) = 0 ∧ ftanhBits mb r (v sgn) = sgn ∧ ftanhBits mb r (v inf) = one ∧ ftanhBits mb r (v (sgn + inf)) = sgn + one ∧
    (∀ x, sgn < x → x ≤ sgn + inf →
      fsqrtBits mb r (v x) = nanBits mb ∧ frsqBits mb r (v x) = nanBits mb ∧ flog2Bits mb r (v x) = nanBits mb) ∧
    (∀ x, isNanBits mb x = true → frcpBits mb r (v x) = nanBits mb ∧ fsqrtBits mb r (v x) = nanBits mb ∧
      frsqBits mb r (v x) = nanBits mb ∧ fexp2Bits mb r (v x) = nanBits mb ∧ flog2Bits mb r (v x) = nanBits mb ∧
      ftanhBits mb r (v x) = nanBits mb)

/-- R50: reading a pattern as an exact value and rounding that value back, in any mode, gives the pattern, and the canonical NaN for
every NaN: nothing is flushed to zero. -/
def Sys2Proof.Claims.FloatValuesRoundToThemselves : Prop :=
  ∀ mb, mb = 7 ∨ mb = 23 → ∀ (r : Rnd) (x : Nat), x < 2 ^ (mb + 9) →
    (Val.ofBits mb x).toBits mb r = if isNanBits mb x then nanBits mb else x

/-- Special values of the elementary functions; every pattern is what its value rounds to: `ElementarySpecialValues`, `FloatValuesRoundToThemselves`. -/
def Obligations.ElementaryFunctions : Prop :=
  Claims.ElementarySpecialValues ∧ Claims.FloatValuesRoundToThemselves

/-- R65, R106: a CVT between types that are not block-scaled. Same width converts element by element; widening emits part p, the
source elements from p × d; narrowing places the source elements from p × s and keeps R's, or 0, elsewhere. -/
def Sys2Proof.Claims.ConversionParts : Prop :=
  ∀ (n : Node) (src : Ty), Ty.ofCode (n.aux.toNat % 16) = some src → src.isBlock = false → n.ty.isBlock = false →
    bitAt n.aux 7 = false → n.aux.toNat / 16 % 8 < cvtParts src n.ty →
    let p := n.aux.toNat / 16 % 8
    let rnd := Rnd.ofCode n.mod.toNat
    let selt (x : Payload) (j : Nat) := convElem src n.ty rnd (bitsNat x (src.bits * j) src.bits)
    ∀ s t k a x, At s n t k a → a.l = .val x → a.r ≠ .absent → a.p = .off →
      ∃ z, Fires (.cvt n) s s n t k (.same (Beat.val z a.cov)) ∧
        (n.ty.elems ≤ src.elems → ∀ j, j < n.ty.elems → el n z j = selt x (p * n.ty.elems + j) % 2 ^ n.ty.bits) ∧
        (src.elems < n.ty.elems → ∀ j, j < n.ty.elems → el n z j =
          if p * src.elems ≤ j ∧ j < p * src.elems + src.elems then selt x (j - p * src.elems) % 2 ^ n.ty.bits
          else match a.r with | .val y => el n y j | _ => 0)

/-- R106–R109: CVT to and from block-scaled types, BSCALE and OFESC. A decode emits the block's values from element p × d on,
rounded once; an encode emits nothing until its block is complete, then what R61–R64 form of it; a re-encode answers in the same
instant. -/
def Sys2Proof.Claims.BlockConversions : Prop :=
  (∀ (n : Node) (src : Ty), Ty.ofCode (n.aux.toNat % 16) = some src → src.isBlock = true → n.ty.isFloat = true →
    bitAt n.aux 7 = false → n.aux.toNat / 16 % 8 < cvtParts src n.ty →
    ∀ s t k a x, At s n t k a → a.l = .val x → a.r ≠ .absent → a.p ≠ .absent →
      ∃ z, Fires (.cvt n) s s n t k (.same (Beat.val z a.cov)) ∧
        ∀ j, j < n.ty.elems → el n z j =
          ((readBlock src a.l.get a.r.get a.p.get).getD (n.aux.toNat / 16 % 8 * n.ty.elems + j) .nan).toBits (fracBits n.ty)
            (Rnd.ofCode n.mod.toNat) % 2 ^ n.ty.bits) ∧
  (∀ (n : Node) (src : Ty), Ty.ofCode (n.aux.toNat % 16) = some src → src.isFloat = true → n.ty.isBlock = true →
    ∀ s t k a x, At s n t k a → a.l = .val x →
      let bs := collectedBeats ((s.tile t).node k).loc
      (bs.length + 1 < 128 / src.elems →
        Fires (.cvt n) s (s.setLoc t k (.collect (bs ++ [x]))) n t k (.pair Beat.none Beat.none) ∧
        Fires (.ofesc n) s (s.setLoc t k (.collect (bs ++ [x]))) n t k (.pair Beat.none Beat.none) ∧
        Fires (.bscale n) s (s.setLoc t k (.collect (bs ++ [x]))) n t k (.same Beat.none)) ∧
      (bs.length + 1 = 128 / src.elems →
        let vs := (bs ++ [x]).flatMap fun b => (tyElems src b).map (Val.ofBits (fracBits src))
        let enc (limit : Nat) := encodeBlock n.ty (Rnd.ofCode n.mod.toNat) (bitAt n.mod 2) limit vs
        let two (limit : Nat) : Out :=
          .pair (Beat.val (blockPair n.ty (enc limit)).1 a.cov) (Beat.val (blockPair n.ty (enc limit)).2 a.cov)
        Fires (.cvt n) s (s.setLoc t k .idle) n t k (two 0) ∧
        Fires (.ofesc n) s (s.setLoc t k .idle) n t k (two n.imm.toNat) ∧
        Fires (.bscale n) s (s.setLoc t k .idle) n t k
          (.same (Beat.val (BitVec.ofNat 512 (enc n.imm.toNat).scale) a.cov)))) ∧
  (∀ (n : Node) (src : Ty), Ty.ofCode (n.aux.toNat % 16) = some src → src.isBlock = true → n.ty.isBlock = true →
    ∀ s t k a, At s n t k a → a.l.isAbsent = false → a.r.isAbsent = false → a.p.isAbsent = false →
      let enc := encodeBlock n.ty (Rnd.ofCode n.mod.toNat) (bitAt n.mod 2) 0 (readBlock src a.l.get a.r.get a.p.get)
      let escd := encodeBlock n.ty (Rnd.ofCode n.mod.toNat) (bitAt n.mod 2) n.imm.toNat (readBlock src a.l.get a.r.get a.p.get)
      let s1 := s.setLoc t k ((s.tile t).node k).loc
      Fires (.cvt n) s s1 n t k (.pair (Beat.val (blockPair n.ty enc).1 a.cov) (Beat.val (blockPair n.ty enc).2 a.cov)) ∧
      Fires (.ofesc n) s s1 n t k (.pair (Beat.val (blockPair n.ty escd).1 a.cov) (Beat.val (blockPair n.ty escd).2 a.cov)) ∧
      Fires (.bscale n) s s1 n t k (.same (Beat.val (BitVec.ofNat 512 escd.scale) a.cov)))

/-- CVT, BSCALE, OFESC and the block formats: `ConversionParts`, `BlockConversions`. -/
def Obligations.Conversions : Prop :=
  Claims.ConversionParts ∧ Claims.BlockConversions

/-- R110: PACK keeps the low bits of the wide elements, or clamps them to the narrow range; L gives the low half and R the high half.
UNPACK sends the two halves widened, by the type's signedness. -/
def Sys2Proof.Claims.PackAndUnpack : Prop :=
  ∀ n : Node, n.ty.isInt = true → n.ty.bits ≤ 32 →
    let w := n.ty.bits
    let wide (x : Payload) (j : Nat) : Nat := bitsNat x (2 * w * j) (2 * w)
    (∀ s t k a x y, At s n t k a → a.l = .val x → a.r = .val y →
      ∃ z, Fires (.pack n) s s n t k (.same (Beat.val z a.cov)) ∧
        ∀ j, j < n.ty.elems →
          let e := if j < n.ty.elems / 2 then wide x j else wide y (j - n.ty.elems / 2)
          el n z j =
            if n.mod = 1#4 then
              (if n.ty.signed then
                (BitVec.ofInt w (max (-(2 ^ (w - 1))) (min (2 ^ (w - 1) - 1) (BitVec.ofNat (2 * w) e).toInt))).toNat
               else min e (2 ^ w - 1))
            else e % 2 ^ w) ∧
    (∀ s t k a x, At s n t k a → a.l = .val x →
      ∃ lo hi, Fires (.unpack n) s s n t k (.pair (Beat.val lo a.cov) (Beat.val hi a.cov)) ∧
        ∀ j, j < n.ty.elems / 2 →
          let ext (e : Nat) : Nat := if n.ty.signed then ((bv n e).signExtend (2 * w)).toNat else e
          wide lo j = ext (el n x j) ∧ wide hi j = ext (el n x (n.ty.elems / 2 + j)))

/-- R68, R111, R112: LRED leaves its reduction in element 0 and 0 above; LSCAN's element j + 1 combines element j with the operand's
element j + 1; LBCAST copies one element to all. -/
def Sys2Proof.Claims.LaneNodes : Prop :=
  ∀ n : Node, ∀ s t k a x, At s n t k a → a.l = .val x →
    let op := redOp n.ty n.mod.toNat (Rnd.ofCode n.aux.toNat)
    (∃ z, Fires (.lred n) s s n t k (.same (Beat.val z a.cov)) ∧
      (1 < n.ty.elems → el n z 0 = treeRed op (lg n.ty.elems) (tyElems n.ty x) % 2 ^ n.ty.bits ∧
        ∀ j, 0 < j → j < n.ty.elems → el n z j = 0)) ∧
    ((n.ty.isInt = true ∨ n.ty.isFloat = true) →
      ∃ z, Fires (.lscan n) s s n t k (.same (Beat.val z a.cov)) ∧ el n z 0 = el n x 0 ∧
        ∀ j, j + 1 < n.ty.elems → el n z (j + 1) = op (el n z j) (el n x (j + 1))) ∧
    (n.imm.toNat < n.ty.elems →
      ∃ z, Fires (.lbcast n) s s n t k (.same (Beat.val z a.cov)) ∧ ∀ j, j < n.ty.elems → el n z j = el n x n.imm.toNat)

/-- R113: a REORD stores its input as the next beat of the filling group, and emits the permutation of the previous one, ABSENT where
there is none or it holds an ABSENT beat. -/
def Sys2Proof.Claims.ReorderGroups : Prop :=
  ∀ n : Node, ∀ s t k a x cur prev, At s n t k a → a.l = .val x → reorderGroups ((s.tile t).node k).loc = (cur, prev) →
    let g := if n.mod = 0#4 then n.ty.elems else n.aux.toNat
    let full := cur ++ [Beat.val x a.cov]
    let s1 := s.setLoc t k (if full.length = g then .reord [] full else .reord full prev)
    ((prev = [] ∨ ∃ b ∈ prev, b.present = false) → Fires (.reord n) s s1 n t k (.same Beat.none)) ∧
    (prev ≠ [] → (∀ b ∈ prev, b.present = true) →
      ∃ z, Fires (.reord n) s s1 n t k (.same (Beat.val z (prev.foldl (fun c b => lunion c b.cov) a.cov))) ∧
        ∀ j, j < n.ty.elems →
          (n.mod = 0#4 → el n z j = if cur.length < n.ty.elems then el n ((prev.getD j Beat.none).data) cur.length else 0) ∧
          (n.mod = 1#4 → el n z j = el n ((prev.getD (g - 1 - cur.length) Beat.none).data) j) ∧
          (n.mod = 2#4 → el n z j = el n ((prev.getD (cur.length * n.imm.toNat % g) Beat.none).data) j))

/-- PACK, UNPACK, lane nodes and REORD: `PackAndUnpack`, `LaneNodes`, `ReorderGroups`. -/
def Obligations.PackLaneReorder : Prop :=
  Claims.PackAndUnpack ∧ Claims.LaneNodes ∧ Claims.ReorderGroups

/-- R69, R115, R116: ROWBUF stores beat q of row m in half m mod 2 of its unit and passes it on; ROWSTAT emits the statistic with the
row's last beat and ABSENT before; ROWSCL releases one beat of the row that completed, scaled by the statistic. -/
def Obligations.RowNodes : Prop :=
  ∀ n : Node, ∀ s t k a x, At s n t k a → a.l = .val x →
    (∀ m q, rowState ((s.tile t).node k).loc = (m, q) →
      let b := n.imm.toNat % 1024
      let y := s.tile t
      let at_ := n.imm.toNat / 1024 * 4096 + (m % 2 * b + q) * 64
      let y1 := y.bufWrite s.cycle 1 at_ (payBytes 64 x)
      y1.a = y.a.writeN at_ (payBytes 64 x) ∧ y1.w = y.w ∧ y1.c = y.c ∧
      Fires (.rowbuf n) s ((s.setTile t y1).setLoc t k (if q + 1 = b then .rowbuf (m + 1) 0 else .rowbuf m (q + 1))) n t k (.same (Beat.val x a.cov))) ∧
    (∀ c acc, rowCount ((s.tile t).node k).loc = (c, acc) →
      let v := beatStat n.mod.toNat x
      let acc' := if c = 0 then v else if n.mod = 1#4 then fmaxBits 23 acc v else faddBits 23 .rne acc v
      if c + 1 = n.imm.toNat then Fires (.rowstat n) s (s.setLoc t k .idle) n t k (.same (Beat.val (splat32 acc') a.cov))
      else Fires (.rowstat n) s (s.setLoc t k (.rowstat (c + 1) acc')) n t k (.same Beat.none)) ∧
    (∀ j rb c q, rowbufOf (s.tile t).words (n.aux.toNat % 4) = some (j, rb) → ((s.tile t).node j).fired = true →
      rowState ((s.tile t).node j).loc = (c, q) →
      let b := rb.imm.toNat % 1024
      let h := (c - 1) % 2
      let row := (s.tile t).a.readN (rb.imm.toNat / 1024 * 4096 + h * b * 64) 64
      ∃ z, Fires (.rowscl n) s (s.setLoc t k (if b = 1 then .idle else .rowscl h 1 (lane32 x 0))) n t k
          (.same (Beat.val z (lunion a.cov ((s.tile t).node j).cov))) ∧
        ∀ i, i < 16 → lane32 z i = rowScale n.mod.toNat (lane32 x 0) (lane32 (payOf row) i) % 2 ^ 32)

/-- R15, R93–R96, R357: what the moves send; IN takes the beat that its port reads for the instant and waits while there is none, and reads ABSENT at a port without a
legend entry; DLRD's pair reads two registers; a BUFRD of bytes that cannot be corrected stops its region and delivers none. -/
def Sys2Proof.Claims.MoveNodes : Prop :=
  ∀ n : Node, ∀ s t k a, At s n t k a →
    (let q := n.aux.toNat % 16
     let p := (s.tile t).inPort q
     (∀ b bs, p.sampled = false → p.bind = .channel → p.buf = b :: bs → (b.kind = .value ∨ b.kind = .absent) →
       Fires (.inp n) s (s.setTile t ((s.tile t).setIn q { p with buf := bs })) n t k (.same b)) ∧
     ((s.tile t).bound q = true → p.sampled = false → p.bind = .channel → p.buf = [] → Machine.exec (.inp n) s = .next s) ∧
     ((s.tile t).bound q = false → ∃ s1, Fires (.inp n) s s1 n t k (.same Beat.none)) ∧
     (∀ b, p.sampled = true → p.latched = some b → Fires (.inp n) s (s.setTile t ((s.tile t).setIn q { p with latched := none })) n t k (.same b)) ∧
     (∀ b, p.sampled = false → p.bind ≠ .channel → tget? p.arrived (s.tile t).inst = some b → ∃ s1, Fires (.inp n) s s1 n t k (.same b))) ∧
    (∀ x, a.l = .val x → Fires (.mov n) s s n t k (.same (Beat.val x a.cov))) ∧
    (∀ v, widenImm n.ty n.imm n.ext = some v →
      (∃ z, Fires (.const n) s s n t k (.same (Beat.val z a.cov)) ∧ ∀ j, j < n.ty.elems → el n z j = v) ∧
      (n.ty.isInt = true → ∃ z, Fires (.lanei n) s s n t k (.same (Beat.val z a.cov)) ∧ ∀ j, j < n.ty.elems → el n z j = (v + j) % 2 ^ n.ty.bits)) ∧
    (bitAt n.aux 7 = false → Fires (.dlrd n) s s n t k (.same ((s.tile t).dlRead (n.aux.toNat % 64)))) ∧
    (bitAt n.aux 7 = true →
      Fires (.dlrd n) s s n t k (.pair ((s.tile t).dlRead (n.aux.toNat % 64)) ((s.tile t).dlRead (n.aux.toNat % 64 + 1)))) ∧
    Fires (.sxld n) s s n t k (.same (Beat.val ((s.tile t).sxRead (n.aux.toNat % 8)) a.cov)) ∧
    (∀ off, (a.l = .off ∧ off = n.imm.toNat * 64) ∨ (∃ x, a.l = .val x ∧ off = (n.imm.toNat + lane32 x 0) * 64) →
      off + 64 ≤ (s.tile t).bufSize (n.aux.toNat % 4) →
      ((s.tile t).isSpoilt (n.aux.toNat % 4) off 64 = false →
        Fires (.bufrd n) s s n t k (.same (Beat.val (payOf (((s.tile t).buf (n.aux.toNat % 4)).readN off 64)) a.cov))) ∧
      ((s.tile t).isSpoilt (n.aux.toNat % 4) off 64 = true → t < 4096 → Leads (.bufrd n) s fun s1 =>
        (s1.region (s.tile t).region).phase = .stopped ∧ (s1.tile t).spareDue = true ∧ s1.mem = s.mem))

/-- R95–R97: SXST and BUFWR pass their data on, and what they write is not read in the same instant: the registers and buffers that
reads see stay, the writes wait for the instant's end. -/
def Sys2Proof.Claims.TileWritesWaitForInstantEnd : Prop :=
  ∀ n : Node, ∀ s t k a x, At s n t k a → a.l = .val x →
    (∃ s1, Fires (.sxst n) s s1 n t k (.same (Beat.val x a.cov)) ∧ (s1.tile t).sx = (s.tile t).sx ∧
      tget 0#512 (s1.tile t).sxN (n.aux.toNat % 8) = x ∧
      ∀ u, u ≠ t → s1.tile u = s.tile u) ∧
    (∀ off, (a.r = .off ∧ off = n.imm.toNat * 64) ∨ (∃ y, a.r = .val y ∧ off = (n.imm.toNat + lane32 y 0) * 64) →
      off + 64 ≤ (s.tile t).bufSize (n.aux.toNat % 4) →
      ∃ s1, Fires (.bufwr n) s s1 n t k (.same (Beat.val x a.cov)) ∧
        (s1.tile t).a = (s.tile t).a ∧ (s1.tile t).c = (s.tile t).c ∧ (s1.tile t).w = (s.tile t).w ∧
        (s1.tile t).bufN = (s.tile t).bufN ++ [(k, n.aux.toNat % 4, off, x)] ∧
        ∀ u, u ≠ t → s1.tile u = s.tile u)

/-- R73, R96: an index past the declared size raises BUFRANGE at the node, which emits nothing and changes no buffer. -/
def Sys2Proof.Claims.BufferRangeFaults : Prop :=
  ∀ n : Node, ∀ s t k a, At s n t k a →
    (∀ x off, a.l = .val x → off = (n.imm.toNat + lane32 x 0) * 64 → (s.tile t).bufSize (n.aux.toNat % 4) < off + 64 →
      Machine.exec (.bufrd n) s = .next (s.raiseNode t k fun f => { f with cls := 0x0D, f6 := n.aux.toNat % 4 + off % 2 ^ 24 * 256 })) ∧
    (a.r = .off → (s.tile t).bufSize (n.aux.toNat % 4) < n.imm.toNat * 64 + 64 →
      Machine.exec (.bufwr n) s =
        .next (s.raiseNode t k fun f => { f with cls := 0x0D, f6 := n.aux.toNat % 4 + n.imm.toNat * 64 % 2 ^ 24 * 256 })) ∧
    ∀ g u, BeatsOnly s (s.raiseNode t k fun f => { f with cls := 0x0D, f6 := g + u % 2 ^ 24 * 256 })

/-- Moves, delayed writes of a tile, buffer ranges: `MoveNodes`, `TileWritesWaitForInstantEnd`, `BufferRangeFaults`. -/
def Obligations.MovesAndBuffers : Prop :=
  Claims.MoveNodes ∧ Claims.TileWritesWaitForInstantEnd ∧ Claims.BufferRangeFaults

/-- R120: STEER sends L to one side by the test of R119 and ABSENT to the other; GATE passes L where the test holds. -/
def Sys2Proof.Claims.SteerAndGate : Prop :=
  ∀ n : Node, ∀ s t k a, At s n t k a →
    (∀ x p, a.l = .val x → a.p = .val p →
      let test : Bool := match n.mod.toNat with
        | 0 => p.getLsbD 0
        | 1 => (List.range n.ty.elems).any fun j => p.getLsbD j
        | _ => (List.range n.ty.elems).all fun j => p.getLsbD j
      let take := test != bitAt n.aux 0
      let b := Beat.val x a.cov
      Fires (.steer n) s s n t k (if take then .split b Beat.none else .split Beat.none b) ∧
      Fires (.gate n) s s n t k (.same (if take then b else Beat.none))) ∧
    ((a.l = .absent ∨ a.p = .absent) →
      Fires (.steer n) s s n t k (.split Beat.none Beat.none) ∧ Fires (.gate n) s s n t k (.same Beat.none))

/-- R121, R124: MERGE sends its one PRESENT input, or under FIRST the first in the order L, R, P, and faults under EXCL on two; PRES and ABSN
tell PRESENT from ABSENT; DFLT falls back to R. -/
def Sys2Proof.Claims.MergeAndPresence : Prop :=
  ∀ n : Node, ∀ s t k a, At s n t k a →
    (∀ x, a.presents = [x] → Fires (.merge n) s s n t k (.same (Beat.val x a.cov))) ∧
    (a.presents = [] → Fires (.merge n) s s n t k (.same Beat.none)) ∧
    (∀ x y xs, a.presents = x :: y :: xs →
      (n.mod ≠ 0#4 → Fires (.merge n) s s n t k (.same (Beat.val x a.cov))) ∧
      (n.mod = 0#4 → Machine.exec (.merge n) s =
        .next (s.raiseNode t k fun f => { f with cls := 0x06, f6 := (((s.tile t).node k).withImm n).presentMask }))) ∧
    (∀ x, a.l = .val x →
      Fires (.pres n) s s n t k (.same (Beat.val (BitVec.allOnes 512) a.cov)) ∧
      Fires (.absn n) s s n t k (.same (Beat.val 0#512 a.cov)) ∧
      Fires (.dflt n) s s n t k (.same (Beat.val x a.cov))) ∧
    (a.l = .absent →
      Fires (.pres n) s s n t k (.same (Beat.val 0#512 a.cov)) ∧
      Fires (.absn n) s s n t k (.same (Beat.val (BitVec.allOnes 512) a.cov)) ∧
      (∀ y, a.r = .val y → Fires (.dflt n) s s n t k (.same (Beat.val y a.cov))) ∧
      (a.r = .absent → Fires (.dflt n) s s n t k (.same Beat.none)))

/-- R122, R125: MERGEA and ORP fire before all their inputs are resolved: MERGEA on the first PRESENT input, ORP on the first true one;
when all are resolved, MERGEA sends ABSENT and ORP false or what its policy says. -/
def Sys2Proof.Claims.EarlyFiringNodes : Prop :=
  ∀ n : Node, ∀ s t k, s.cursor = .node t k → s.mayFire t k = true → (nodeTargets n).all (Tile.targetRoom s (s.tile t)) = true →
    let a := (s.tile t).args n k
    let trueIn (x : Payload) : Bool := (List.range (n.imm.toNat + 1)).any fun j => x.getLsbD j
    (∀ x xs, a.presents = x :: xs → Fires (.mergea n) s s n t k (.same (Beat.val x a.cov))) ∧
    (a.presents = [] → (s.tile t).resolved k = true → Fires (.mergea n) s s n t k (.same Beat.none)) ∧
    (a.presents = [] → (s.tile t).resolved k = false → Machine.exec (.mergea n) s = .next s) ∧
    (n.imm.toNat < 512 → (∃ x ∈ a.presents, trueIn x = true) →
      ∃ z, Fires (.orp n) s s n t k (.same (Beat.val z a.cov)) ∧ ∀ j, j < 512 → z.getLsbD j = decide (j ≤ n.imm.toNat)) ∧
    ((∀ x ∈ a.presents, trueIn x = false) → (s.tile t).resolved k = true →
      ([a.l, a.r, a.p].any Arg.isAbsent = false ∨ n.pol = .ident → Fires (.orp n) s s n t k (.same (Beat.val 0#512 a.cov))) ∧
      ([a.l, a.r, a.p].any Arg.isAbsent = true → n.pol = .prop → Fires (.orp n) s s n t k (.same Beat.none))) ∧
    ((∀ x ∈ a.presents, trueIn x = false) → (s.tile t).resolved k = false → Machine.exec (.orp n) s = .next s)

/-- STEER, GATE, MERGE, MERGEA, PRES, ABSN, DFLT, ORP: `SteerAndGate`, `MergeAndPresence`, `EarlyFiringNodes`. -/
def Obligations.SteeringMergingPresence : Prop :=
  Claims.SteerAndGate ∧ Claims.MergeAndPresence ∧ Claims.EarlyFiringNodes

/-- R123: CARRY holds the last PRESENT beat of L, sends it on where L is ABSENT, and forgets it where bit 0 of P is 1. -/
def Sys2Proof.Claims.CarryHoldsLastBeat : Prop :=
  ∀ n : Node, ∀ s t k a, At s n t k a →
    let held := ((s.tile t).node k).loc
    let clear := match a.p with | .val p => p.getLsbD 0 | _ => false
    (∀ x, a.l = .val x → Fires (.carry n) s (s.setLoc t k (.carry (Beat.val x a.cov))) n t k (.same (Beat.val x a.cov))) ∧
    (∀ h, a.l = .absent → held = .carry h → clear = false → Fires (.carry n) s (s.setLoc t k (.carry h)) n t k (.same h)) ∧
    (a.l = .absent → (clear = true ∨ held = .idle) → Fires (.carry n) s (s.setLoc t k .idle) n t k (.same Beat.none))

/-- R126: NEST counts PRESENT triggers from the value at the start of the instant and wraps; what LCRD reads stays until the instant's end. -/
def Sys2Proof.Claims.LoopCounters : Prop :=
  ∀ n : Node, ∀ s t k a, At s n t k a →
    let c := tget 0 (s.tile t).lc (n.aux.toNat % 4)
    (∀ x, a.l = .val x →
      let last := c = n.imm.toNat
      ∃ s1 z, Fires (.nest n) s s1 n t k (.split (Beat.val z a.cov) (if last then Beat.val x a.cov else Beat.none)) ∧
        (∀ j, j < 16 → lane32 z j = c % 2 ^ 32) ∧ (s1.tile t).lc = (s.tile t).lc ∧
        tget 0 (s1.tile t).lcN (n.aux.toNat % 4) = (if last then 0 else c + 1) ∧ ∀ u, u ≠ t → s1.tile u = s.tile u) ∧
    (a.l = .absent → n.pol ≠ .fault → Fires (.nest n) s s n t k (.split Beat.none Beat.none)) ∧
    (∃ z, Fires (.lcrd n) s s n t k (.same (Beat.val z a.cov)) ∧ ∀ j, j < 16 → lane32 z j = c % 2 ^ 32)

/-- R127: what the counter and identity nodes read: the instant, the cycles since round start by the declared period, the canonical
count and index under DET and the actual ones otherwise, and the leaf with its completed invocations. -/
def Sys2Proof.Claims.CountersAndIdentities : Prop :=
  ∀ n : Node, ∀ s t k a, At s n t k a →
    let x := s.tile t
    let det := !(s.ctx (s.tileCtx t)).relaxed
    (∃ z, Fires (.inst n) s s n t k (.same (Beat.val z a.cov)) ∧ ∀ j, j < 8 → lane64 z j = x.inst % 2 ^ 64) ∧
    (∃ z, Fires (.cyc n) s s n t k (.same (Beat.val z a.cov)) ∧
      ∀ j, j < 8 → lane64 z j = (x.inst - (s.region x.region).roundBase) * x.hdr.period % 2 ^ 64) ∧
    (∃ z, Fires (.cores n) s s n t k (.same (Beat.val z a.cov)) ∧ ∀ j, j < 16 → lane32 z j =
      (if det then (s.region x.region).canon else (s.region (x.region % 1024)).allTiles.length) % 2 ^ 32) ∧
    (∃ z, Fires (.tileid n) s s n t k (.same (Beat.val z a.cov)) ∧ ∀ j, j < 16 → lane32 z j =
      (if n.mod = 0#4 ∨ det = true then x.canon else t) % 2 ^ 32) ∧
    (∃ z, Fires (.regid n) s s n t k (.same (Beat.val z a.cov)) ∧ lane32 z 0 = x.leaf % 2 ^ 32 ∧
      lane32 z 1 = tget 0 (s.region (x.region % 1024)).doneInv x.leaf % 2 ^ 32 ∧ ∀ j, 2 ≤ j → j < 16 → lane32 z j = 0)

/-- CARRY, NEST, LCRD, and the counters and identities: `CarryHoldsLastBeat`, `LoopCounters`, `CountersAndIdentities`. -/
def Obligations.CarriesAndCounters : Prop :=
  Claims.CarryHoldsLastBeat ∧ Claims.LoopCounters ∧ Claims.CountersAndIdentities

/-- R31, R128: a PRESENT MERID or END makes its instant the round's last, the earliest such instant standing; END ends the invocation too and
its exit code comes from the lowest canonical index, then the lowest word position; an ABSENT L ends nothing. -/
def Sys2Proof.Claims.RoundsEnd : Prop :=
  ∀ n : Node, ∀ s t k a, At s n t k a →
    let g := (s.tile t).region
    let r := s.region g
    let c := (s.tile t).canon
    let last := some (match r.ended with | some m => min m (s.tile t).inst | none => (s.tile t).inst)
    let first := r.ending = false ∨ c < r.exit.1 ∨ (c = r.exit.1 ∧ k < r.exit.2.1)
    (∀ x, a.l = .val x →
      let code := if first then (c, k, lane32 x 0) else r.exit
      Fires (.merid n) s (s.setRegion g { r with ended := last }) n t k (.same (Beat.val x a.cov)) ∧
      Fires (.endk n) s (s.setRegion g { r with ended := last, ending := true, exit := code }) n t k (.same (Beat.val x a.cov))) ∧
    (a.l = .absent → n.pol ≠ .fault →
      Fires (.merid n) s s n t k (.same Beat.none) ∧ Fires (.endk n) s s n t k (.same Beat.none))

/-- R129, R131: RMARK at the declared slot marks its instant; RESIZE sends a CONTROL beat with the depth min(D, 32) directly behind the
port's beat of the instant: at once where a node or the matrix node's output queue has sent that, with it otherwise, and nothing for D = 0. -/
def Sys2Proof.Claims.MarksAndDepthRequests : Prop :=
  ∀ n : Node, ∀ s t k a x, At s n t k a → a.l = .val x →
    (Fires (.rmark n) s
      (if (s.tile t).hdr.acr && (s.tile t).hdr.restart == k then s.setTile t { s.tile t with mark := some (s.tile t).inst } else s)
      n t k (.same (Beat.val x a.cov))) ∧
    (lane32 x 0 = 0 → Fires (.resize n) s s n t k (.same (Beat.val x a.cov))) ∧
    (lane32 x 0 ≠ 0 →
      let o := (s.tile t).out (n.aux.toNat % 16)
      let d := min (lane32 x 0) 32
      let go : Prop := Fires (.resize n) s (o.dests.foldl (fun s p => s.portSend p (Beat.ctl 2 d)) s) n t k (.same (Beat.val x a.cov))
      let later : Prop :=
        Fires (.resize n) s (s.setTile t ((s.tile t).setOut (n.aux.toNat % 16) { o with resize := o.resize ++ [((s.tile t).inst, d)] })) n t k
          (.same (Beat.val x a.cov))
      match producerOf (s.tile t).words (3 * 128 + n.aux.toNat % 16) with
      | some j => (((s.tile t).node j).fired = true → go) ∧ (((s.tile t).node j).fired = false → later)
      | none => ((s.tile t).inst < o.nextSend → go) ∧ (o.nextSend ≤ (s.tile t).inst → later))

/-- MERID, END, RMARK and RESIZE: `RoundsEnd`, `MarksAndDepthRequests`. -/
def Obligations.RoundEndsMarksDepths : Prop :=
  Claims.RoundsEnd ∧ Claims.MarksAndDepthRequests

/-- R132–R134: SEMSIG adds its increment and stops at 2^32 − 1 with the sticky bit, SEMSET writes and clears the bit; the other semaphores and
every tile stay. The operations of one tile's instant apply in ascending word position: one below which another has not fired waits for it, and one that fires last
of those below it applies with the fired ones above it. -/
def Sys2Proof.Claims.SemaphoreWrites : Prop :=
  ∀ n : Node, ∀ s t k a x, At s n t k a → a.l = .val x →
    let c := s.cmdCtx t
    let i := n.aux.toNat
    let old := (s.ctx c).sem i
    let ops := semOps (s.tile t).words i
    ((∃ p ∈ ops, p.1 < k ∧ ((s.tile t).node p.1).fired = false) →
      Fires (.semsig n) s s n t k (.same (Beat.val x a.cov)) ∧ (a.r.isAbsent = false → a.r ≠ .off → Fires (.semset n) s s n t k (.same (Beat.val x a.cov)))) ∧
    (∀ j m v w, ops = [(k, .semsig, n), (j, .semset, m)] → k < j → ((s.tile t).node j).fired = true → m.aux = n.aux →
      ((s.tile t).args m j).l = .val w → ((s.tile t).args m j).r = .val v →
      ∃ s1, Fires (.semsig n) s s1 n t k (.same (Beat.val x a.cov)) ∧ ((s1.ctx c).sem i).value = lane32 v 0 ∧ ((s1.ctx c).sem i).sticky = false) ∧
    ((∀ p ∈ ops, p.1 < k → ((s.tile t).node p.1).fired = true) → (∀ p ∈ ops, k < p.1 → ((s.tile t).node p.1).fired = false) →
    (∃ s1, Fires (.semsig n) s s1 n t k (.same (Beat.val x a.cov)) ∧
      ((s1.ctx c).sem i).value = min (old.value + n.imm.toNat) (2 ^ 32 - 1) ∧
      ((s1.ctx c).sem i).sticky = (old.sticky || decide (2 ^ 32 ≤ old.value + n.imm.toNat)) ∧
      (∀ j, j ≠ i → (s1.ctx c).sem j = (s.ctx c).sem j) ∧ s1.tiles = s.tiles ∧ s1.regions = s.regions ∧ s1.mem = s.mem) ∧
    (∀ v, a.r = .val v →
      ∃ s1, Fires (.semset n) s s1 n t k (.same (Beat.val x a.cov)) ∧
        ((s1.ctx c).sem i).value = lane32 v 0 ∧ ((s1.ctx c).sem i).sticky = false ∧ ((s1.ctx c).sem i).rel = [] ∧
        (∀ j, j ≠ i → (s1.ctx c).sem j = (s.ctx c).sem j) ∧ s1.tiles = s.tiles ∧ s1.regions = s.regions ∧ s1.mem = s.mem))

/-- R132: only the increment that turns the sticky bit from 0 to 1 raises a record, of class SEM_OVF, and it stops no agent. -/
def Sys2Proof.Claims.SemaphoreOverflowRecords : Prop :=
  ∀ (s : State) (c i n who : Nat) (rel : List (Ord × Nat)),
    let old := (s.ctx c).sem i
    let t := s.semInc c i n who rel
    (old.value + n < 2 ^ 32 → t.held = s.held) ∧
    (old.sticky = true → t.held = s.held) ∧
    (2 ^ 32 ≤ old.value + n → old.sticky = false →
      ∃ r, t.held = insertHeld r s.held ∧ r.agent = .none ∧ bitsNat (r.words.getD 0 0#64) 0 8 = 0x11 ∧
        t.regions = s.regions ∧ t.tiles = s.tiles)

/-- R118, R133, R135: SEMWAIT passes L where the semaphore, as it stood at the start of the instant, has reached the threshold; SEMRD reads
value and sticky bit; neither changes anything. -/
def Sys2Proof.Claims.SemaphoreReads : Prop :=
  ∀ n : Node, ∀ s t k a x, At s n t k a → a.l = .val x →
    let m := tget Sem.fresh (s.tile t).sems n.aux.toNat
    let thr := match n.ext with | some e => e.imm32.toNat | none => n.imm.toNat
    let acq := lunion a.cov (m.rel.map (·.1))
    (thr ≤ m.value → Fires (.semwait n) s s n t k (.same (Beat.val x acq))) ∧
    (m.value < thr → Fires (.semwait n) s s n t k (.same Beat.none)) ∧
    (∃ z, Fires (.semrd n) s s n t k (.same (Beat.val z acq)) ∧ lane32 z 0 = m.value % 2 ^ 32 ∧
      lane32 z 1 = (if m.sticky then 1 else 0) ∧ ∀ j, 2 ≤ j → j < 16 → lane32 z j = 0)

/-- R133: with an ABSENT trigger the four do nothing to the semaphore and send ABSENT, or raise ABSENT_USE under FAULT; a SEMSET without a value does the same. A SEMSIG
waits until its P is resolved, and an ABSENT P orders nothing. -/
def Sys2Proof.Claims.SemaphoreTriggers : Prop :=
  ∀ n : Node, ∀ s t k,
    let last : Prop := ∀ p ∈ semOps (s.tile t).words n.aux.toNat, k < p.1 → ((s.tile t).node p.1).fired = false
    (∀ a, At s n t k a → a.l = .absent → last → ∀ i ∈ [Instr.semsig n, .semset n, .semwait n, .semrd n],
      (n.pol ≠ .fault → Fires i s s n t k (.same Beat.none)) ∧ (n.pol = .fault → Fires i s s n t k .absentUse)) ∧
    (∀ a x, At s n t k a → a.l = .val x → a.r = .absent → last →
      (n.pol ≠ .fault → Fires (.semset n) s s n t k (.same Beat.none)) ∧ (n.pol = .fault → Fires (.semset n) s s n t k .absentUse)) ∧
    (s.cursor = .node t k → (s.tile t).resolved k = false → Machine.exec (.semsig n) s = .next s) ∧
    (∀ a x, At s n t k a → a.l = .val x → a.p = .absent → semOps (s.tile t).words n.aux.toNat = [(k, .semsig, n)] →
      ∃ s1, Fires (.semsig n) s s1 n t k (.same (Beat.val x a.cov)) ∧
        ((s1.ctx (s.cmdCtx t)).sem n.aux.toNat).rel = ((s.ctx (s.cmdCtx t)).sem n.aux.toNat).rel)

/-- SEMSIG, SEMSET, SEMWAIT and SEMRD: `SemaphoreWrites`, `SemaphoreOverflowRecords`, `SemaphoreReads`, `SemaphoreTriggers`. -/
def Obligations.SemaphoreNodes : Prop :=
  Claims.SemaphoreWrites ∧ Claims.SemaphoreOverflowRecords ∧ Claims.SemaphoreReads ∧ Claims.SemaphoreTriggers

/-- R137–R139: DJOIN sends a done token of the narrowest scope of its PRESENT inputs; FENCE sends one of its own scope once nothing of the
tile's earlier instants waits, and a FENCE of scope DIE or wider waits while the round buffer holds such an access. -/
def Obligations.DoneTokensJoinAndFence : Prop :=
  ∀ n : Node, ∀ s t k a, At s n t k a →
    (∀ b bs, (s.tile t).presentBeats k = b :: bs → [a.l, a.r, a.p].any Arg.isAbsent = false ∨ n.pol = .ident →
      ∃ z d, Fires (.djoin n) s s n t k (.same ⟨.value, z, a.cov, d⟩) ∧ bitsNat z 8 504 = 0 ∧
        (∀ c ∈ b :: bs, bitsNat z 0 8 ≤ tokenScope c.data) ∧ (bitsNat z 0 8 = 4 ∨ ∃ c ∈ b :: bs, bitsNat z 0 8 = tokenScope c.data)) ∧
    ((s.tile t).presentBeats k = [] → n.pol ≠ .fault → Fires (.djoin n) s s n t k (.same Beat.none)) ∧
    (∀ x, a.l = .val x → (s.tile t).nodes.any (NodeSt.holds (s.tile t).inst) = false → (s.region (s.tile t).region).entries = [] →
      n.mod.toNat ≤ 3 → ∃ z d, Fires (.fence n) s s n t k (.same ⟨.value, z, a.cov, d⟩) ∧ bitsNat z 0 8 = n.mod.toNat ∧ bitsNat z 8 504 = 0) ∧
    (∀ x, a.l = .val x → 2 ≤ n.mod.toNat →
      (∃ e ∈ (s.region (s.tile t).region).entries, e.canon = (s.tile t).canon ∧ e.inst < (s.tile t).inst) →
      Machine.exec (.fence n) s = .next s)

/-- R140, R141: TRAP with a PRESENT L raises its fault with the code and payload, stops its region and emits nothing; BRK always sends L on
and, with debugging off, does nothing more; with it on, the region halts and the debugger gets a record; BRK_RESUME lets it go on. -/
def Obligations.TrapsAndBreakpoints : Prop :=
  ∀ n : Node, ∀ s t k a x, At s n t k a → a.l = .val x →
    let g := (s.tile t).region
    (t < 4096 → ∃ s1, Machine.exec (.trap n) s = .next s1 ∧ (s1.region g).phase = .stopped ∧ ((s1.tile t).node k).fired = ((s.tile t).node k).fired ∧
      ∃ r ∈ s1.held, bitsNat (r.words.getD 0 0#64) 0 8 = 0x12 ∧ r.agent = .region g ∧
        r.words.getD 6 0#64 = BitVec.ofNat 64 n.imm.toNat ∧ r.words.getD 7 0#64 = BitVec.ofNat 64 (lane64 x 0)) ∧
    ((s.tile t).dbg = false → Fires (.brk n) s s n t k (.same (Beat.val x a.cov))) ∧
    ((s.tile t).dbg = true → ∃ s1, Fires (.brk n) s s1 n t k (.same (Beat.val x a.cov)) ∧
      (s1.region g).brkAt = some (s.tile t).inst ∧ s1.out.brk = s.out.brk ++ [(g, t, k, n.imm.toNat)] ∧ s1.tiles = s.tiles) ∧
    (∃ s2, Machine.exec (.brkResume g) s = .next s2 ∧ (s2.region g).brkAt = none ∧ s2.tiles = s.tiles ∧ s2.mem = s.mem)

/-- R147, R184: acquiring a slot takes one off FREE or FILLED and sends its index, first beat and size; publishing and releasing give one to
the other side; an acquire with nothing to take waits, a publish or release with nothing acquired raises BUFRANGE. -/
def Obligations.CircularBufferNodes : Prop :=
  ∀ n : Node, ∀ s t k a x, At s n t k a → a.l = .val x →
    let i := n.aux.toNat % 8
    let c := (s.tile t).cb i
    let put (c' : CBuf) : State := s.setTile t ((s.tile t).setCb i c')
    cbTurn (s.tile t) k i = true →
    (c.free ≠ 0 → ∃ z, Fires (.bfillAcqw n) s (put { c with free := c.free - 1, wc := (c.wc + 1) % c.slots, acqW := c.acqW ++ [c.wc] }) n t k
        (.same (Beat.val z a.cov)) ∧
      lane32 z 0 = c.wc % 2 ^ 32 ∧ lane32 z 1 = (c.base + c.wc * 2 ^ c.size) % 2 ^ 32 ∧ lane32 z 2 = 2 ^ c.size % 2 ^ 32 ∧
      ∀ j, 3 ≤ j → j < 16 → lane32 z j = 0) ∧
    (c.filled ≠ 0 → ∃ z, Fires (.bfreeAcqr n) s (put { c with filled := c.filled - 1, rc := (c.rc + 1) % c.slots, acqR := c.acqR ++ [c.rc] }) n t k
        (.same (Beat.val z a.cov)) ∧
      lane32 z 0 = c.rc % 2 ^ 32 ∧ lane32 z 1 = (c.base + c.rc * 2 ^ c.size) % 2 ^ 32 ∧ lane32 z 2 = 2 ^ c.size % 2 ^ 32 ∧
      ∀ j, 3 ≤ j → j < 16 → lane32 z j = 0) ∧
    (∀ w ws, c.acqW = w :: ws → c.filled ≠ c.slots →
      Fires (.bfillPub n) s (put { c with filled := c.filled + 1, acqW := ws }) n t k (.same (Beat.val x a.cov))) ∧
    (∀ w ws, c.acqR = w :: ws → c.free ≠ c.slots →
      Fires (.bfreeRel n) s (put { c with free := c.free + 1, acqR := ws }) n t k (.same (Beat.val x a.cov))) ∧
    (c.free = 0 → Machine.exec (.bfillAcqw n) s = .next s) ∧ (c.filled = 0 → Machine.exec (.bfreeAcqr n) s = .next s) ∧
    (c.acqW = [] → Machine.exec (.bfillPub n) s = .next (s.ctrRange t k i)) ∧
    (c.acqR = [] → Machine.exec (.bfreeRel n) s = .next (s.ctrRange t k i))

/-- R2, R150, R223–R225: bytes written through a die's line part or past it read back, and every byte outside them reads as before; bytes written without snooping read back from
DRAM, and a byte that snooping readers see changes only where no line holds it. -/
def Obligations.MemoryReadAfterWrite : Prop :=
  ∀ (s : State) (die pa loc : Nat) (bs : List Byte) (shared : Bool),
    (s.devWrite loc bs).peekN loc bs.length = bs ∧
    (s.lineWrite die false shared pa loc bs).peekN loc bs.length = bs ∧
    (s.lineWrite die true shared pa loc bs).rawN loc bs.length = bs ∧
    ∀ c, c < loc ∨ loc + bs.length ≤ c →
      (s.devWrite loc bs).peekN c 1 = s.peekN c 1 ∧ ∀ strm, (s.lineWrite die strm shared pa loc bs).peekN c 1 = s.peekN c 1

/-- R169, R171, R174, R179, R180: in a RELAXED context ST, STX and AGEN WR perform their write where the address that the element computes
translates to, where a read through the same translation finds it, send a done token of their scope, and leave every byte outside the pieces of the write as it was. -/
def Sys2Proof.Claims.RelaxedStoresWrite : Prop :=
  ∀ n : Node, ∀ s t k a x, At s n t k a → a.l = .val x → s.det t = false →
    let token (o : Op) (i : Instr) (ws : List (Acc × List Byte)) : Prop :=
      ∀ rs, s.elemReachAll t true (ws.map (·.1)) = .ok rs → s.gateShut t = false →
        (∀ w ∈ ws, s.awaitsHandover t k w.1.va.toNat w.1.len = false ∧ s.ownedByOther t k w.1.va.toNat w.1.len = none) →
        ∃ s1, Fires i s (if o = .agen then s1.setLoc t k (agenNext (agenDesc (s.tile t) n) ((s.tile t).node k).loc) else s1) n t k
            (.same (accToken (n.aux.toNat % 8 % 5) s.accessNo a)) ∧
          (SameKey s (rs.flatMap (·.2)) → Settled s → ∀ c, (∀ r ∈ rs, ∀ p ∈ r.2, c < p.x.loc ∨ p.x.loc + p.len ≤ c) → s1.peekN c 1 = s.peekN c 1) ∧
          (∀ w p, ws = [w] → (∃ q, rs = [(q, [p])]) → p.len = w.2.length → (p.x.attr.strm = true → s.lines = []) →
            s1.xlatBytes p.x p.x.loc p.len = w.2)
    (∀ y, a.r = .val y →
      token .st (.st n) [(⟨0, (lane64 x 0 : Nat), n.imm.toNat + 1⟩, payBytes (n.imm.toNat + 1) y)] ∧
      token .stx (.stx n) ((idxAccs n.ty (agenDesc (s.tile t) n) x 0).map fun c => (c, leBytes c.len ((tyElems n.ty y).getD c.lane 0)))) ∧
    (n.mod = 1#4 → a.r ≠ .absent → agenCoalesces n = false → (agenPos ((s.tile t).node k).loc).2.2.2.1 = false →
      let d := agenDesc (s.tile t) n
      token .agen (.agen n) [(⟨0, agenAddr d ((s.tile t).node k).loc a.r, agenEsz d⟩, payBytes (agenEsz d) x)])

/-- R165, R166, R167: in a DET context a store of one granule is kept in the round buffer under its canonical tile, word position and count,
and memory does not change before the meridian. -/
def Sys2Proof.Claims.DetStoresWaitForMeridian : Prop :=
  ∀ n : Node, ∀ s t k a x y p c, At s n t k a → a.l = .val x → a.r = .val y → s.det t = true →
    let acc : Acc := ⟨0, (lane64 x 0 : Nat), n.imm.toNat + 1⟩
    let g := (s.tile t).region
    s.elemReachAll t true [acc] = .ok [(acc, [p])] → granulesOf [p] (payBytes (n.imm.toNat + 1) y) = [c] →
    s.awaitsHandover t k acc.va.toNat acc.len = false → s.ownedByOther t k acc.va.toNat acc.len = none →
    s.gateShut t = false → s.rbFull g c = false →
    ∃ s1 e, Fires (.st n) s s1 n t k (.same (accToken (min (n.aux.toNat % 8 % 5) 1) s.accessNo a)) ∧
      s1.mem = s.mem ∧ s1.lines = s.lines ∧ (s1.region g).entries = (s.region g).entries ++ [e] ∧
      e.granule = c.g ∧ e.loc = c.loc ∧ e.bytes = c.cells ∧ e.strm = p.x.attr.strm ∧ e.op = .store ∧ e.canon = (s.tile t).canon ∧ e.slot = k ∧
      e.seq = ((s.tile t).node k).seq ∧ e.inst = (s.tile t).inst ∧ ((s.region g).owners = [] → e.owned = [])

/-- Stores in RELAXED and DET contexts: `RelaxedStoresWrite`, `DetStoresWaitForMeridian`. -/
def Obligations.StoresWrite : Prop :=
  Claims.RelaxedStoresWrite ∧ Claims.DetStoresWaitForMeridian

/-- R171: a read element sends its request once its address translates, and fires with its data only when its memory responds; nothing of memory
changes and the node has not fired. -/
def Sys2Proof.Claims.ReadsIssueOnce : Prop :=
  ∀ n : Node, ∀ s t k a x, At s n t k a → a.l = .val x → a.r ≠ .absent → ((s.tile t).node k).issued = false →
    let issues (o : Op) (i : Instr) : Prop :=
      let accs := elemAccs (s.tile t) k o n a
      ∀ rs, s.elemReachAll t false accs = .ok rs → s.gateShut t = false → (∀ c ∈ accs, s.awaitsHandover t k c.va.toNat c.len = false) →
        k < (s.tile t).nodes.length →
        ∃ s1, Machine.exec i s = .next s1 ∧ ((s1.tile t).node k).issued = true ∧ ((s1.tile t).node k).fired = ((s.tile t).node k).fired ∧
          s1.mem = s.mem ∧ s1.regions = s.regions ∧ ∀ u, u ≠ t → s1.tile u = s.tile u
    issues .ld (.ld n) ∧ issues .ldx (.ldx n) ∧
    (n.mod = 0#4 → (agenPos ((s.tile t).node k).loc).2.2.2.1 = false → issues .agen (.agen n))

/-- R167, R169, R171, R172, R179: the data of a LD and its done token go to the targets when the memory responds: the bytes of memory in a RELAXED
context, the view of the round in a DET one. -/
def Sys2Proof.Claims.LoadDataReturns : Prop :=
  ∀ n : Node, ∀ s t k p, s.mayFire t k = true → ((s.tile t).node k).issued = true → nodeAt (s.tile t).words k = some (.ld, n) →
    (nodeTargets n).all (Tile.targetRoom s (s.tile t)) = true →
    let a := (s.tile t).args n k
    let acc : Acc := ⟨0, (lane64 a.l.get 0 : Nat), n.imm.toNat + 1⟩
    s.reachAllAs t (s.nodeCtx t k) false [acc] = .ok [(acc, [p])] → s.badIn [p] = none →
    (SameKey s [p] → (p.x.attr.strm = false → s.xlatBytes p.x p.x.loc p.len = s.peekN p.x.loc p.len) ∧
      (p.x.attr.strm = true → s.xlatBytes p.x p.x.loc p.len = s.rawN p.x.loc p.len)) ∧
    (s.det t = false → ∃ s1 b2, Fires (.memResponse t k false) s s1 n t k
        (.split ⟨.value, payOf (s.xlatBytes p.x p.x.loc p.len), readOrds n a, []⟩ b2) ∧
      b2.kind = .value ∧ bitsNat b2.data 0 8 = n.aux.toNat % 8 % 5 ∧ s1.mem = s.mem ∧ s1.regions = s.regions ∧ s1.tiles = s.tiles) ∧
    (s.det t = true → (∀ c ∈ granulesOf [p] (s.viewBytes (s.tileRegion t) (s.tile t).canon a.ords p.x p.len),
        s.rdFull (s.tile t).region c = false) → p.len ≤ 64 - p.x.pa % 64 →
      ∃ s1 b2, Fires (.memResponse t k false) s s1 n t k
        (.split ⟨.value, payOf (s.viewBytes (s.tileRegion t) (s.tile t).canon a.ords p.x p.len), readOrds n a, []⟩ b2) ∧
      b2.kind = .value ∧ s1.mem = s.mem)

/-- R181: an ATOM of a RELAXED context reads its cell, sends the old value and writes what its operation makes of it, in one step. -/
def Sys2Proof.Claims.AtomicsReadModifyWrite : Prop :=
  ∀ n : Node, ∀ s t k p, s.mayFire t k = true → nodeAt (s.tile t).words k = some (.atom, n) →
    (nodeTargets n).all (Tile.targetRoom s (s.tile t)) = true → n.ty.bits = 32 ∨ n.ty.bits = 64 →
    let a := (s.tile t).args n k
    let acc : Acc := ⟨0, (lane64 a.l.get 0 : Nat), n.ty.bits / 8⟩
    p.len = n.ty.bits / 8 → s.det t = false →
    (s.elemReachAll t true [acc] = .ok [(acc, [p])] → s.gateShut t = false → ∀ x y, At s n t k a → a.l = .val x → a.r = .val y → ((s.tile t).node k).issued = false → acc.va % (n.ty.bits / 8 : Nat) = 0 →
      s.awaitsHandover t k acc.va.toNat acc.len = false → k < (s.tile t).nodes.length →
      ∃ s1, Machine.exec (.atom n) s = .next s1 ∧ ((s1.tile t).node k).issued = true ∧ s1.mem = s.mem) ∧
    (s.reachAllAs t (s.nodeCtx t k) true [acc] = .ok [(acc, [p])] → ((s.tile t).node k).issued = true → s.badIn [p] = none →
      s.ownedByOther t k acc.va.toNat acc.len = none → (p.x.attr.strm = true → s.lines = []) →
      let old := leNat (s.xlatBytes p.x p.x.loc p.len)
      let new := atomNew n.mod.toNat n.ty old (el n a.r.get 0) (el n a.r.get 1)
      ∃ s1 z b2, Fires (.memResponse t k false) s s1 n t k (.split ⟨.value, z, readOrds n a, []⟩ b2) ∧
        el n z 0 = old ∧ leNat (s1.xlatBytes p.x p.x.loc p.len) = new % 2 ^ n.ty.bits ∧
        (SameKey s [p] → SameOutside s s1 p.x.loc p.len))

/-- Loads and atomics: `ReadsIssueOnce`, `LoadDataReturns`, `AtomicsReadModifyWrite`. -/
def Obligations.ReadsAndAtomics : Prop :=
  Claims.ReadsIssueOnce ∧ Claims.LoadDataReturns ∧ Claims.AtomicsReadModifyWrite

/-- R11, R164, R183: HANDOVER by the owner's tile moves the list entry to its next owner, to whose tile, where it is loaded, the CONTROL beat that names the entry goes, and sends a
done token of scope REGION; from a tile that does not own the range it raises OWNER and moves nothing. -/
def Obligations.HandoverMovesOwnership : Prop :=
  ∀ n : Node, ∀ s t k a x, At s n t k a → a.l = .val x →
    let e := n.aux.toNat
    let g := (s.tile t).region
    let r := s.region g
    let o := r.owners.getD e default
    let here := ownerWord r (s.tile t) 0
    let cur := o.owners.getD o.cur 0 % 2 ^ 30
    let nxt := o.owners.getD (o.cur + 1) 0
    (e < r.owners.length → cur % 2 ^ 23 = here % 2 ^ 23 → nxt / 2 ^ 30 % 2 = 1 →
      (∀ i, i < r.owners.length → i ≠ e → let q := r.owners.getD i default
        q.owner q.cur ≠ nxt % 2 ^ 30 ∨ q.overlaps o.start o.len = false) →
      (agenPos ((s.tile t).node (cur / 2 ^ 23)).loc).2.2.2.2 = [] →
      ∃ s1 d, Fires (.handover n) s s1 n t k (.same ⟨.value, BitVec.ofNat 512 1, a.cov, d⟩) ∧
        ((s1.region g).owners.getD e default).cur = o.cur + 1 ∧
        (∀ i, i ≠ e → (s1.region g).owners.getD i default = r.owners.getD i default) ∧ s1.mem = s.mem ∧
        (s.ownerPort t nxt = none → ((s1.region g).owners.getD e default).moving = false ∧ s1.tiles = s.tiles) ∧
        (∀ u p, s.ownerPort t nxt = some (u, p) → u < 8192 → ((s1.region g).owners.getD e default).moving = true ∧
          ((s1.tile u).inPort p).flight = ((s.tile u).inPort p).flight ++ [Beat.ctl 3 e] ∧ ∀ v, v ≠ u → s1.tile v = s.tile v)) ∧
    (cur % 2 ^ 23 ≠ here % 2 ^ 23 →
      Machine.exec (.handover n) s =
        .next (s.raiseNode t k fun f => { f with cls := 0x08, f6 := cur, f7 := ownerWord r (s.tile t) k, f1x := e }))

/-- R190: with room in its queue and its turn come, ENG puts its command, patched by R, behind the commands before it and sends the issue number;
an ABSENT L issues nothing; with its queue full it waits. -/
def Sys2Proof.Claims.EngineCommandsIssue : Prop :=
  ∀ n : Node, ∀ s t k a, At s n t k a →
    let x := s.tile t
    let c := s.cmdCtx t
    let ws := (engWords x n a).1
    let e := s.engOf t (cmdClass ws)
    (∀ y, a.l = .val y → s.queueFull t (cmdClass ws) = false → (s.det t = true → s.engTurn t k = true) →
      (∀ q ∈ ((s.ctx c).queue e).entries, q.region ≠ x.region ∨ q.inst ≠ x.inst ∨ issuedBefore x.inst x.canon k q.inst q.canon q.slot = false) →
      ∃ s1 cmd z, Fires (.eng n) s s1 n t k (.same (Beat.val z a.cov)) ∧
        ((s1.ctx c).queue e).entries = ((s.ctx c).queue e).entries ++ [cmd] ∧ cmd.words = ws ∧ cmd.phase = .queued ∧
        cmd.region = x.region ∧ cmd.tile = t ∧ cmd.inst = x.inst ∧ cmd.slot = k ∧ cmd.cov = a.dcov ∧
        lane64 z 0 = cmd.issue % 2 ^ 64 ∧ cmd.issue = ((s.region x.region).issued.filter fun p => p.1 == e).length ∧
        (∀ j, 0 < j → j < 8 → lane64 z j = 0) ∧ s1.mem = s.mem ∧ (∀ u, u ≠ t → s1.tile u = s.tile u) ∧
        (bitAt n.aux 4 = false → s1.tile t = x) ∧
        (let p := x.inPort (n.aux.toNat % 16)
         bitAt n.aux 4 = true → p.sampled = false → (∀ o ∈ p.due, o.by_ ≠ s.uidNo) →
          ((s1.tile t).inPort (n.aux.toNat % 16)).due = p.due ++ [⟨cmd.uid, max (x.inst + 1) p.nextOwed, 1, false⟩])) ∧
    (∀ y, a.l = .val y → bitAt n.aux 5 = false → a.r = .off → ws = (elems 64 8 y).map (BitVec.ofNat 64)) ∧
    (∀ y, a.l = .val y → s.queueFull t (cmdClass ws) = true → Machine.exec (.eng n) s = .next s) ∧
    (a.l = .absent → n.pol ≠ .fault → Fires (.eng n) s s n t k (.same Beat.none))

/-- R207, R316: LAUNCH writes the argument beat where the child entry says and puts the child at the end of its level's queue; the beat holds the
launch number; while the entry's earlier launch runs, the node waits. -/
def Sys2Proof.Claims.ChildLaunches : Prop :=
  ∀ n : Node, ∀ s t k a y, At s n t k a → a.l = .val y →
    let g := (s.tile t).region
    let c := s.tileCtx t
    let i := n.aux.toNat % 16
    let e := (s.region g).childTab.getD i []
    let key := childKey g i
    ((tget? (s.ctx c).childRun key).isSome = true → Machine.exec (.launch n) s = .next s) ∧
    (∀ ps, tget? (s.ctx c).childRun key = none → s.elemReach t true ⟨0, (e.getD 1 0 % 2 ^ 57 : Nat), 64⟩ = .ok ps →
      ∃ s1 z l, Fires (.launch n) s s1 n t k (.same (Beat.val z a.cov)) ∧
        lane64 z 0 = (s.ctx c).childNo % 2 ^ 64 ∧ (∀ j, 0 < j → j < 8 → lane64 z j = 0) ∧
        tget? s1.launches s.launches.length = some l ∧ l.kernel = e.getD 0 0 % 2 ^ 57 ∧ l.count = n.imm.toNat + 1 ∧ l.phase = .waiting ∧
        tget? (s1.ctx c).childRun key = some s.launches.length ∧
        tget [] (s1.ctx c).childq l.level = tget [] (s.ctx c).childq l.level ++ [s.launches.length] ∧
        (∀ p, ps = [p] → p.len = 64 → s1.xlatBytes p.x p.x.loc 64 = payBytes 64 a.r.get) ∧
        (SameKey s ps → ∀ d, (∀ p ∈ ps, d < p.x.loc ∨ p.x.loc + p.len ≤ d) → s1.peekN d 1 = s.peekN d 1))

/-- ENG and LAUNCH: `EngineCommandsIssue`, `ChildLaunches`. -/
def Obligations.CommandsAndChildrenIssue : Prop :=
  Claims.EngineCommandsIssue ∧ Claims.ChildLaunches

/-- R95, R251, R254–R256: SXSET, SXMIX and SXHID build a descriptor that is well formed, write it for the end of the instant and send it; SXKIND and
SXHASH answer from the register as it stood at the start. -/
def Sys2Proof.Claims.SoftTokenDescriptors : Prop :=
  ∀ n : Node, ∀ s t k a x, At s n t k a → a.l = .val x →
    let reg := n.aux.toNat % 8
    let d := tget 0#512 (s.tile t).sx reg
    let writes (i : Instr) (z : Payload) : Prop :=
      ∃ s1, Fires i s s1 n t k (.same (Beat.val z a.cov)) ∧ (s1.tile t).sx = (s.tile t).sx ∧ tget 0#512 (s1.tile t).sxN reg = z
    (∃ z, writes (.sxset n) z ∧ sxKind z = 1 ∧ sxTextId z = lane32 x 0 ∧ sxFlags z = 0) ∧
    (∀ w, a.r = .val w → n.imm.toNat ≤ 7 →
      ∃ z, writes (.sxmix n) z ∧ sxKind z = 3 ∧ sxCount z = n.imm.toNat + 1 ∧ sxMixHash z = contentHash (sxContent z) ∧
        ∀ i, i ≤ n.imm.toNat → sxId z i = lane32 x i ∧
          sxWeight z i = if isNanBits 7 (bitsNat w (16 * i) 16) then 0x7FC0 else bitsNat w (16 * i) 16) ∧
    (∀ h, a.r = .val h → n.imm.toNat ≤ 4095 → n.ty.isFloat = true →
      ∃ z, writes (.sxhid n) z ∧ sxKindByte z = 2 ∧ sxFormat z = n.ty.code ∧ sxDim z = 16 * (n.imm.toNat + 1) ∧
        sxAddr z = lane64 x 0 % 2 ^ 57 ∧ sxHidHash z = lane64 h 0 ∧ (lane64 x 0 % 64 = 0 → sxKind z = 2)) ∧
    (∃ z, Fires (.sxkind n) s s n t k (.same (Beat.val z a.cov)) ∧ lane32 z 0 = sxKind d ∧
      (sxKind d = 255 → ∀ j, 0 < j → j < 16 → lane32 z j = 0) ∧ (sxKind d = 1 → lane32 z 6 = sxTextId d ∧ lane32 z 3 = sxFlags d)) ∧
    (n.mod = 0#4 → ∃ z, Fires (.sxhash n) s s n t k (.same (Beat.val z a.cov)) ∧
      lane64 z 0 = (match sxKind d with | 1 => contentHash (sxContent d) | 2 => sxHidHash d | 3 => contentHash (sxContent d) | _ => 0) ∧
      ∀ j, 0 < j → j < 8 → lane64 z j = 0)

/-- R258: COLLAPSE turns its register's descriptor into one token: under SAMPLE the sampler's, else the text's own id or, under ARGMAX, the id of the
greatest weight; a failure leaves the register. -/
def Sys2Proof.Claims.CollapseDescriptors : Prop :=
  ∀ n : Node, ∀ s t k a x, At s n t k a → a.l = .val x → a.r ≠ .absent →
    let reg := n.aux.toNat % 8
    let d := tget 0#512 (s.tile t).sx reg
    let takes (id : Nat) : Prop :=
      ∃ s1 z, Fires (.collapse n) s s1 n t k (.same (Beat.val z a.cov)) ∧ (s1.tile t).sx = (s.tile t).sx ∧
        tget 0#512 (s1.tile t).sxN reg = sxText id 1 ∧ lane32 z 0 = id % 2 ^ 32 ∧ lane32 z 1 = 0 ∧ lane32 z 2 = sxKind d
    let fails (st : Nat) : Prop :=
      ∃ z, Fires (.collapse n) s s n t k (.same (Beat.val z a.cov)) ∧ lane32 z 0 = 0 ∧ lane32 z 1 = st ∧ lane32 z 2 = sxKind d
    (sxKind d = 1 → n.mod ≠ 1#4 → takes (sxTextId d)) ∧
    (sxKind d = 3 → n.mod = 0#4 → takes (mixBest d)) ∧
    (∀ y, a.r = .val y → n.mod = 1#4 → (sxKind d = 1 ∨ sxKind d = 2 ∨ sxKind d = 3) →
      (lane32 y 0 = 0 → takes (lane32 y 2)) ∧ (lane32 y 0 ≠ 0 → fails 3)) ∧
    (n.mod = 2#4 → (sxKind d = 2 ∨ sxKind d = 3) → fails 1) ∧ (n.mod = 0#4 → sxKind d = 2 → fails 1) ∧
    ((sxKind d = 0 ∨ sxKind d = 255) → fails 2)

/-- R171, R253, R257: SXEMB's first beat raises SXFORM for a register that holds no usable descriptor, and else asks for the rows of its beat and
fires with the embedding's elements when they are there; after the last beat it starts over. -/
def Sys2Proof.Claims.SoftTokenEmbedding : Prop :=
  ∀ n : Node, ∀ s t k,
    let a := (s.tile t).args n k
    let b := (embNow s t k n).1
    let d := (embNow s t k n).2
    (∀ x y, At s n t k a → a.l = .val x → a.r = .val y → ((s.tile t).node k).issued = false →
      (b = 0 → sxFormBad n d y = true →
        Machine.exec (.sxemb n) s = .next (s.embFault t k 0 ⟨3, 0x15, 0, 0, 0⟩ (n.aux.toNat % 8))) ∧
      ((b ≠ 0 ∨ sxFormBad n d y = false) → k < (s.tile t).nodes.length → ∀ rs, s.elemReachAll t false (embAccs n b d y) = .ok rs →
        ∃ s1, Machine.exec (.sxemb n) s = .next s1 ∧ ((s1.tile t).node k).issued = true ∧ s1.mem = s.mem ∧ s1.regions = s.regions)) ∧
    (∀ rs, s.mayFire t k = true → ((s.tile t).node k).issued = true → nodeAt (s.tile t).words k = some (.sxemb, n) →
      (nodeTargets n).all (Tile.targetRoom s (s.tile t)) = true →
      s.reachAllAs t (s.nodeCtx t k) false (embAccs n b d a.r.get) = .ok rs → s.badIn (rs.flatMap (·.2)) = none →
      Fires (.memResponse t k false) s
        ((s.fillLines (Config.dieOf t) (rs.flatMap (·.2))).setLoc t k (if (b + 1) * n.ty.elems < lane64 a.r.get 1 then .emb (b + 1) d else .idle)) n t k
        (.same (Beat.val (embData n d (rs.map fun r => s.loadPieces t a.ords r.2)) a.ords)))

/-- Soft-token nodes: `SoftTokenDescriptors`, `CollapseDescriptors`, `SoftTokenEmbedding`. -/
def Obligations.SoftTokens : Prop :=
  Claims.SoftTokenDescriptors ∧ Claims.CollapseDescriptors ∧ Claims.SoftTokenEmbedding

/-- R300–R304: what the privileged nodes answer: KRD the register, KWR the register after the write, both with the status of R300; SLOTW the old entry once
the new one is in effect; GENBUMP the new generation of a region that is invalid or suspended. -/
def Sys2Proof.Claims.PrivilegedNodes : Prop :=
  ∀ n : Node, ∀ s t k a x, At s n t k a → a.l = .val x →
    let ans (r st : Nat) : Out := .same (Beat.val (lanes64 [r, st]) a.cov)
    (a.r ≠ .absent →
      (∀ v, regRead s (lane64 x 0) = some v → Fires (.krd n) s s n t k (ans v 0)) ∧
      (regRead s (lane64 x 0) = none → Fires (.krd n) s s n t k (ans 0 2))) ∧
    (∀ y, a.r = .val y →
      (∀ s1 st, opTurn (s.tile t) .kwr k = true → regWrite s t (lane64 x 0) (lane64 y 0) = some (s1, st) →
        Fires (.kwr n) s s1 n t k (ans ((regRead s1 (lane64 x 0)).getD 0) st.code)) ∧
      (nodeAt (s.tile t).words k = some (.slotw, n) → (s.tile t).slotwTodo = [k] →
        (slotStatus s (lane64 x 0) (lane64 x 1) (lane64 y 0) = .ok → k < (s.tile t).nodes.length →
          ∃ s1, Machine.exec (.slotw n) s = .next s1 ∧
            ((s1.tile t).node k).loc = .slotw ((s.table (lane64 x 0)).pending (lane64 x 1)).toNat ((s.cycle / 64 + 1) * 64) 0 ∧
            (s1.table (lane64 x 0)).pending (lane64 x 1) = Slot.ofNat (lane64 y 0)) ∧
        (slotStatus s (lane64 x 0) (lane64 x 1) (lane64 y 0) = .refused → Fires (.slotw n) s (s.setLoc t k .idle) n t k (ans 0 1)) ∧
        (slotStatus s (lane64 x 0) (lane64 x 1) (lane64 y 0) = .state → Fires (.slotw n) s (s.setLoc t k .idle) n t k (ans 0 3))) ∧
      (∀ old at_ st, ((s.tile t).node k).loc = .slotw old at_ st →
        (at_ ≤ s.cycle → Fires (.slotw n) s (s.setLoc t k .idle) n t k (ans old st)) ∧ (s.cycle < at_ → Machine.exec (.slotw n) s = .next s))) ∧
    (a.r ≠ .absent →
      let g := lane64 x 0
      let r := s.region g
      (1024 ≤ g → Fires (.genbump n) s s n t k (ans 0 1)) ∧
      (g < 1024 → r.valid = true → r.susp = false → Fires (.genbump n) s s n t k (ans 0 3)) ∧
      (g < 1024 → (r.valid = false ∨ r.susp = true) → s.genInFlight g ((r.gen + 1) % 256) = false →
        ∃ s1, Fires (.genbump n) s s1 n t k (ans ((r.gen + 1) % 256) 0) ∧ (s1.region g).gen = (r.gen + 1) % 256 ∧ s1.mem = s.mem ∧ s1.tiles = s.tiles))

/-- R305: REGSAVE and REGLOAD refuse a region number from 1024 on and an address that is not 4 KiB aligned, answer STATE for a region that is not suspended,
and else save the region's bytes at the address, again where it is parked already, or put them back: staged contents are fetched again, and the banks saved are put over them.
REGLOAD answers STATE for the bytes of another region, or of the region's present generation. -/
def Sys2Proof.Claims.RegionSaveAndLoad : Prop :=
  ∀ n : Node, ∀ s t k a x y, At s n t k a → a.l = .val x → a.r = .val y →
    let ans (r st : Nat) : Out := .same (Beat.val (lanes64 [r, st]) a.cov)
    let g := lane64 x 0
    let va := lane64 y 0
    ((1024 ≤ g ∨ va % 4096 ≠ 0) → Fires (.regsave n) s s n t k (ans 0 1) ∧ Fires (.regload n) s s n t k (ans 0 1)) ∧
    (g < 1024 → va % 4096 = 0 → (s.region g).susp = false → Fires (.regsave n) s s n t k (ans 0 3) ∧ Fires (.regload n) s s n t k (ans 0 3)) ∧
    (g < 1024 → va % 4096 = 0 → (s.region g).susp = true → (s.region g).parked = [] →
      ∀ s1, s.engWrite (Config.dieOf t) (s.accessCtx t) (isSup t) va (saveBytes s g (s.tilesOf g)) = .ok s1 →
        ∃ s2, Fires (.regsave n) s s2 n t k (ans (saveBytes s g (s.tilesOf g)).length 0) ∧ s2.mem = s1.mem ∧
          (s2.region g).parked = s.tilesOf g ∧ (s2.region g).saved = some (s.region g).gen) ∧
    (g < 1024 → va % 4096 = 0 → (s.region g).susp = true → (s.region g).parked ≠ [] →
      ∀ s1, s.engWrite (Config.dieOf t) (s.accessCtx t) (isSup t) va (saveBytes s g (s.region g).parked) = .ok s1 →
        Fires (.regsave n) s s1 n t k (ans (saveBytes s g (s.region g).parked).length 0)) ∧
    (g < 1024 → va % 4096 = 0 → (s.region g).susp = true → ∀ hd tiles bs s1 s2,
      let s0 := s.lift g
      let r := s0.region g
      s0.engRead (Config.dieOf t) (s.accessCtx t) (isSup t) va 256 = .ok hd → s0.regTiles t g = .ok tiles →
      (natAt hd.1 4 2 = g → natAt hd.1 6 1 = r.ctx → natAt hd.1 7 1 ≠ r.gen →
        s0.engRead (Config.dieOf t) (s.accessCtx t) (isSup t) va (natAt hd.1 32 8) = .ok (bs, s1) →
        ((s1.unpark g tiles bs).region g).allTiles.foldl (fun acc u => acc.bind fun s => replayTile s u) (some (s1.unpark g tiles bs)) = some s2 →
        Fires (.regload n) s ((r.sections bs).foldl (fun s p =>
          let v := moved (r.moves tiles) p.1
          s.setTile v (restoreBanks (s.tile v) p.2.1 p.2.2)) s2) n t k (ans bs.length 0)) ∧
      ((natAt hd.1 4 2 ≠ g ∨ natAt hd.1 6 1 ≠ r.ctx ∨ natAt hd.1 7 1 = r.gen) → Fires (.regload n) s s n t k (ans 0 3)))

/-- R306: FLTACK acts on the record at the head alone; RESUME, KILL, FAILCMD and NOTE take the record from the queue and answer the new FQHEAD, or answer STATE
and change nothing: RESUME only a record that is not resumable, KILL one that names no region. -/
def Sys2Proof.Claims.FaultAcknowledgement : Prop :=
  ∀ n : Node, ∀ s t k a x, At s n t k a → a.l = .val x → a.r ≠ .absent → opTurn (s.tile t) .fltack k = true →
    let ans (s1 : State) (st : Nat) : Out := .same (Beat.val (lanes64 [s1.fqhead, st]) a.cov)
    let acts (i : Instr) (act : Nat) : Prop :=
      (s.fq = [] → Fires i s s n t k (ans s 3)) ∧
      (lane64 x 0 ≠ s.fqhead → Fires i s s n t k (ans s 3)) ∧
      (∀ r rs, s.fq = r :: rs → lane64 x 0 = s.fqhead →
        (s.settleRecord act r = none → Fires i s s n t k (ans s 3)) ∧
        (∀ s1, s.settleRecord act r = some s1 → Fires i s (s1.popRecord r) n t k (ans (s1.popRecord r) 0)))
    acts (.fltackResume n) 0 ∧ acts (.fltackKill n) 1 ∧ acts (.fltackFailcmd n) 2 ∧ acts (.fltackNote n) 3 ∧
    (∀ r, s.settleRecord 0 r ≠ none → r.resumable = true) ∧ (∀ r, s.settleRecord 1 r ≠ none → r.region ≠ none) ∧
    (∀ r, r.resumable = true → s.agentStopped r = false → s.settleRecord 0 r = some s) ∧
    (∀ r, r.region ≠ none → s.regionOf r = none → s.settleRecord 1 r = some s) ∧
    (∀ r, s.settleRecord 2 r ≠ none → r.engine = true) ∧ (∀ r, s.settleRecord 3 r ≠ none → s.agentStopped r = false)

/-- Privileged nodes, REGSAVE, REGLOAD, FLTACK: `PrivilegedNodes`, `RegionSaveAndLoad`, `FaultAcknowledgement`. -/
def Obligations.PrivilegedNodesAndRegions : Prop :=
  Claims.PrivilegedNodes ∧ Claims.RegionSaveAndLoad ∧ Claims.FaultAcknowledgement

/-- R290–R293, R322, R333: the context register writes the table lists: what each takes, refuses and when it answers STATE; TINV waits for the accesses of the context that are
under way. -/
def Obligations.ContextRegisterWrites : Prop :=
  ∀ (s : State) (c : Nat) (v : BitVec 64), c ≠ 0 →
    let x := s.ctx c
    (v.toNat % 8 < 4 → (x.state ≠ 0 ∨ v.toNat % 8 = 0 ∨ shareOver s c { x with state := v.toNat % 8 } = false) →
      ∃ s1, Machine.exec (.ctxstateWrite c v) s = .next s1 ∧ (s1.ctx c).state = v.toNat % 8 ∧ s1.mem = s.mem ∧ s1.tiles = s.tiles ∧ s1.parts = s.parts) ∧
    ((4 ≤ v.toNat % 8 ∨ (x.state = 0 ∧ v.toNat % 8 ≠ 0 ∧ shareOver s c { x with state := v.toNat % 8 } = true)) → Machine.exec (.ctxstateWrite c v) s = .next s) ∧
    ((x.state = 2 ∨ x.state = 3) → Machine.exec (.engshareWrite c v) s = .next s) ∧
    (x.state ≠ 2 → x.state ≠ 3 → (∀ k, k < 4 → ({ x with engshare := v.toNat % 2 ^ 30 } : Ctx).share k ≤ 64) →
      shareOver s c { x with engshare := v.toNat % 2 ^ 30 } = false →
      ∃ s1, Machine.exec (.engshareWrite c v) s = .next s1 ∧ (s1.ctx c).engshare = v.toNat % 2 ^ 30 ∧ s1.mem = s.mem ∧ s1.tiles = s.tiles ∧ s1.parts = s.parts) ∧
    (x.state = 0 → Machine.exec (.tinvWrite c v) s = .next s) ∧
    (x.state ≠ 0 → v.toNat % 2 = 1 → v.toNat / 2 ^ 3 % 2 ^ 13 = 0 → v.toNat / 2 ^ 57 = 0 → (∃ r ∈ s.regions, r.2.ctx = c ∧ r.2.entries ≠ []) →
      Waits (.tinvWrite c v) s) ∧
    (x.state ≠ 0 → v.toNat % 2 = 1 → v.toNat / 2 ^ 3 % 2 ^ 13 = 0 → v.toNat / 2 ^ 57 = 0 → (∀ r ∈ s.regions, r.2.ctx = c → r.2.entries = []) →
      (∀ p ∈ s.owedReads, p.1 ≠ some c) →
      ∃ s1, Machine.exec (.tinvWrite c v) s = .next s1 ∧ (∀ e, e ∈ s1.tcache ↔ e ∈ s.tcache ∧ e.ctx ≠ c) ∧ s1.mem = s.mem ∧ s1.ctxs = s.ctxs)

/-- R334–R337, R374, R290: the partition register writes the table lists: IMASK and IMCTL take a valid set once nothing translated under the old one is under way, or stage it
while held; PMEM and PARTCTL
answer STATE and put the interface in ERROR where the partition is not CONFIG_UNLOCKED. -/
def Sys2Proof.Claims.PartitionRegisterWrites : Prop :=
  ∀ (s : State) (p i k : Nat) (v : BitVec 64),
    let x := s.part p
    let m := x.maskSet i
    (v.toNat % 2 ^ 7 = 0 → v.toNat / 2 ^ 36 = 0 →
      (m.hold = true → Machine.exec (.imaskWrite p i k v) s = .next (s.setMaskSet p i { m with staged := lset m.staged k v.toNat })) ∧
      (m.hold = false → maskValid x.ranges (lset m.masks k v.toNat) m.spread = true → s.maskBusy p i = true → lset m.masks k v.toNat ≠ m.masks →
        Waits (.imaskWrite p i k v) s) ∧
      (m.hold = false → maskValid x.ranges (lset m.masks k v.toNat) m.spread = true → s.maskBusy p i = false →
        Machine.exec (.imaskWrite p i k v) s = .next (s.setMaskSet p i { m with masks := lset m.masks k v.toNat, staged := lset m.masks k v.toNat })) ∧
      (m.hold = false → maskValid x.ranges (lset m.masks k v.toNat) m.spread = false → Machine.exec (.imaskWrite p i k v) s = .next s)) ∧
    ((v.toNat % 2 ^ 7 ≠ 0 ∨ v.toNat / 2 ^ 36 ≠ 0) → Machine.exec (.imaskWrite p i k v) s = .next s) ∧
    (v.toNat < 8 → v.toNat % 4 ≠ 3 → m.hold = true → v.toNat / 4 = 0 → maskValid x.ranges m.staged (v.toNat % 4) = true → s.maskBusy p i = false →
      Machine.exec (.imctlWrite p i v) s =
        .next (s.setMaskSet p i { masks := m.staged, staged := m.staged, spread := v.toNat % 4, hold := false })) ∧
    (v.toNat < 8 → v.toNat % 4 ≠ 3 → m.hold = true → v.toNat / 4 = 1 → maskValid x.ranges m.masks (v.toNat % 4) = true → s.maskBusy p i = false →
      Machine.exec (.imctlWrite p i v) s = .next (s.setMaskSet p i { m with spread := v.toNat % 4 })) ∧
    (v.toNat < 8 → v.toNat % 4 ≠ 3 → m.hold = false → maskValid x.ranges m.masks (v.toNat % 4) = true → s.maskBusy p i = false →
      Machine.exec (.imctlWrite p i v) s =
        .next (s.setMaskSet p i { masks := m.masks, staged := m.masks, spread := v.toNat % 4, hold := decide (4 ≤ v.toNat) })) ∧
    ((8 ≤ v.toNat ∨ v.toNat % 4 = 3) → Machine.exec (.imctlWrite p i v) s = .next s) ∧
    (x.tdisp ≠ .unlocked → Machine.exec (.pmemWrite p i v) s = .next (s.interfaceFail p) ∧ Machine.exec (.partctlWrite p v) s = .next (s.interfaceFail p)) ∧
    (x.tdisp = .unlocked → v.toNat / 2 ^ 2 % 2 ^ 10 = 768 → Machine.exec (.pmemWrite p i v) s = .next s) ∧
    (x.tdisp = .unlocked → v.toNat % 2 = 0 → v.toNat / 2 ^ 2 % 2 ^ 10 < 768 → v.toNat / 2 ^ 2 % 2 ^ 10 + v.toNat / 2 ^ 12 % 2 ^ 10 ≤ 768 → x.masks = [] →
      ∃ s1, Machine.exec (.pmemWrite p i v) s = .next s1 ∧ (s1.part p).pmem = tset x.pmem i
        ⟨false, decide (v.toNat / 2 % 2 = 1), v.toNat / 2 ^ 2 % 2 ^ 10, v.toNat / 2 ^ 12 % 2 ^ 10, decide (v.toNat / 2 ^ 22 % 2 = 1), none⟩ ∧
        s1.mem = s.mem ∧ s1.tiles = s.tiles) ∧
    (x.tdisp = .unlocked → v.toNat % 64 = x.dies → v.toNat / 2 ^ 8 % 2 ^ 13 ≤ 4096 →
      (∀ d, d < 6 → x.dies / 2 ^ d % 2 = 1 → (s.parts.filter fun q => q.1 != p && q.2.dies / 2 ^ d % 2 == 1).length < 4) →
      Machine.exec (.partctlWrite p v) s = .next (s.setPart p { x with dies := v.toNat % 64, tiles := v.toNat / 2 ^ 8 % 2 ^ 13 }))

/-- R308, R387, R393, R396–R398, R401: the other register writes of the table: SQEN, PSQPOST, SPANCTL, MEMCTL and DCSPLIT; a change of MEMCTL's cache bits waits for requests under
way to the stack, a new split for the windows that do not fit, and its die's gateways and window allocations wait with it. -/
def Sys2Proof.Claims.OtherRegisterWrites : Prop :=
  ∀ (s : State) (k : Nat) (v : BitVec 64),
    ((v.toNat / 2 ^ 32 = 0 ∧ s.psqPost ≤ v.toNat ∧ v.toNat - s.psqDone ≤ 2 ^ s.psqN) → Machine.exec (.psqpostWrite v) s = .next { s with psqPost := v.toNat }) ∧
    ((2 ^ 32 ≤ v.toNat ∨ v.toNat < s.psqPost ∨ 2 ^ s.psqN < v.toNat - s.psqDone) → Machine.exec (.psqpostWrite v) s = .next s) ∧
    ((v.toNat / 2 % 16 = s.partid ∨ 12 ≤ v.toNat / 2 ^ 5 % 16) → Machine.exec (.spanctlWrite k v) s = .next s) ∧
    (v.toNat / 2 % 16 ≠ s.partid → v.toNat / 2 ^ 5 % 16 < 12 → v.toNat % 2 = 1 → (s.link k).en = false →
      Machine.exec (.spanctlWrite k v) s =
        .next (s.setLink k { LinkSt.fresh with up := true, en := true, peer := v.toNat / 2 % 16, peerLink := v.toNat / 2 ^ 5 % 16 })) ∧
    (v.toNat / 2 % 16 ≠ s.partid → v.toNat / 2 ^ 5 % 16 < 12 → v.toNat % 2 = 0 → (s.link k).en = true →
      ∃ s1, Machine.exec (.spanctlWrite k v) s = .next s1 ∧ (s1.link k).en = false ∧ (s1.link k).up = false ∧ s1.mem = s.mem) ∧
    (let same : Prop := (v.toNat % 2 = 1 ↔ (s.stack k).mscen = true) ∧ (v.toNat / 2 % 2 = 1 ↔ (s.stack k).walloc = true) ∧
        (v.toNat / 2 ^ 2 % 2 = 1 ↔ (s.stack k).farbyp = true)
     (same ∨ s.stackBusy k = false → Machine.exec (.memctlCacheWrite k v) s = .next (s.setStack k { s.stack k with
        mscen := decide (v.toNat % 2 = 1), walloc := decide (v.toNat / 2 % 2 = 1), farbyp := decide (v.toNat / 2 ^ 2 % 2 = 1), rpthr := v.toNat / 2 ^ 8 % 2 ^ 8 })) ∧
     (¬ same → s.stackBusy k = true → Waits (.memctlCacheWrite k v) s)) ∧
    (v.toNat / 2 ^ 3 % 2 = 1 → (s.stack k).takeover = true →
      ∃ s1, Machine.exec (.memctlReset k v) s = .next s1 ∧ (s1.stack k).alive = false ∧ s1.mem = s.mem ∧
        ∀ i o, (i, o) ∈ (s.stack k).owners → (i, if o.takeover then { o with resetting := true, beats := 0 } else o) ∈ (s1.stack k).owners) ∧
    ((v.toNat / 2 ^ 3 % 2 = 0 ∨ (s.stack k).takeover = false) → Machine.exec (.memctlReset k v) s = .next s) ∧
    (32 < v.toNat % 64 → Machine.exec (.dcsplitWrite k v) s = .next s) ∧
    (v.toNat % 64 ≤ 32 → (192 - 2 * (v.toNat % 64)) * 2 ^ 20 < s.windowBytes k → k < 6 →
      Machine.exec (.dcsplitWrite k v) s = .next { s with dcwait := tset s.dcwait k (v.toNat % 64) }) ∧
    (v.toNat % 64 ≤ 32 → s.windowBytes k ≤ (192 - 2 * (v.toNat % 64)) * 2 ^ 20 →
      ∃ s1, Machine.exec (.dcsplitWrite k v) s = .next s1 ∧ s1.linePart k = v.toNat % 64 ∧ (Settled s → s1.mem = s.mem) ∧ tget? s1.dcwait k = none ∧
        ∀ p ∈ s1.lines, p.2.owner ≠ some k ∧ p.2.dies / 2 ^ k % 2 = 0) ∧
    (∀ p q, q < 64 →
      ∃ s1, Machine.exec (.sqenEnable p q) s = .next s1 ∧ (s1.part p).sqen = (s.part p).sqen ||| 2 ^ q ∧ s1.tiles = s.tiles ∧ s1.regions = s.regions) ∧
    (∀ p q, q < 64 → (s.part p).sqen / 2 ^ q % 2 = 1 →
      ∃ s1, Machine.exec (.sqenDisable p q) s = .next s1 ∧ (s1.part p).sqen = (s.part p).sqen - 2 ^ q ∧ (s1.subq p q).status = 4 ∧
        s1.peekN ((s.part p).sqtab + 64 * q + 16) 8 = leBytes 8 ((s.subq p q).started % 2 ^ 32 + 4 * 2 ^ 32) ∧ s1.tiles = s.tiles ∧ s1.regions = s.regions)

/-- Register writes of partitions and of the part: `PartitionRegisterWrites`, `OtherRegisterWrites`. -/
def Obligations.PartitionAndPartRegisterWrites : Prop :=
  Claims.PartitionRegisterWrites ∧ Claims.OtherRegisterWrites

/-- R227, R228, R230: a well-formed token of MMA, MMAZ or CLR that arrives while the queue has room is appended with the next sequence number; a malformed
one stops the region with CFG_MXTOK; a beat that is not PRESENT goes. In fixed timing the token is accepted at its instant's cycle 10, and not at all where it came late. -/
def Sys2Proof.Claims.MatrixTokensAccepted : Prop :=
  ∀ (s : State) (t : Nat) (b : Beat),
    let s0 := s.pumpSto t
    let m := (s0.tile t).mx
    let w : W64 := BitVec.ofNat 64 (lane64 b.data 0)
    m.ctl = some b →
    (b.present = false → Machine.exec (.mxTokenAccept t) s = .next (s0.setTile t { s0.tile t with mx := { m with ctl := none } })) ∧
    let fxt := (s0.ctx (s0.tileCtx t)).fxt
    (b.present = true → fxt = false → m.full s0.cycle = true → Machine.exec (.mxTokenAccept t) s = .next s0) ∧
    (b.present = true → fxt = true → (s0.cycle < m.ctlAt ∨ m.late = true) → Machine.exec (.mxTokenAccept t) s = .next s0) ∧
    (∀ cy, b.present = true → ((fxt = false ∧ m.full s0.cycle = false ∧ cy = s0.cycle) ∨ (fxt = true ∧ m.ctlAt ≤ s0.cycle ∧ m.late = false ∧ cy = m.ctlAt)) →
      m.failed = false → bitsNat w 0 2 ≠ 2 →
      (acceptFault (s0.tile t) w [] = none →
        ∃ s1 e, Machine.exec (.mxTokenAccept t) s = .next s1 ∧ (s1.tile t).mx.queue = m.queue ++ [e] ∧ (s1.tile t).mx.ctl = none ∧
          (s1.tile t).mx.nextSeq = (m.nextSeq + 1) % 2 ^ 32 ∧ e.word = w ∧ e.seq = m.nextSeq ∧ e.inst = m.ctlInst ∧ e.accepted = cy ∧
          e.started = none ∧ s1.mem = s0.mem ∧ s1.regions = s0.regions) ∧
      (∀ f, acceptFault (s0.tile t) w [] = some f → t < 4096 →
        ∃ s1 r, Machine.exec (.mxTokenAccept t) s = .next s1 ∧ (s1.tile t).mx.failed = true ∧ (s1.tile t).mx.queue = m.queue ∧ r ∈ s1.held ∧
          bitsNat (r.words.getD 0 0#64) 0 16 = 0x4401 ∧ (s1.region (s0.tile t).region).phase = .stopped))

/-- R238, R239: MX_COMPLETION puts the beat of the oldest finished token, its sequence number, operation and owed beats, on the bound port for the instant owed, or, at the cycle that R237 gives in fixed timing, among the at most 8 that a sampled port holds; MX_FEED appends a PRESENT
beat to its feed while that holds fewer than 64 and drops any other. -/
def Sys2Proof.Claims.MatrixPorts : Prop :=
  ∀ (s : State) (t : Nat),
    (∀ e es p, let s0 := s.pumpSto t
      let x := s0.tile t
      x.mx.done = e :: es → e.finish ≤ s0.cycle → x.mxPort = some p → (x.inPort p).sampled = false →
        ∃ s1 b, Machine.exec (.mxCompletion t) s = .next s1 ∧ (s1.tile t).mx.done = es ∧ tget? ((s1.tile t).inPort p).arrived e.owed = some b ∧
          b.kind = .value ∧ lane32 b.data 0 = 0 ∧ lane32 b.data 1 = e.seq % 2 ^ 32 ∧ lane32 b.data 2 = e.op ∧ lane32 b.data 3 = e.owedBeats % 2 ^ 32 ∧
          ∀ j, 4 ≤ j → j < 16 → lane32 b.data j = 0) ∧
    (∀ e es p, let s0 := s.pumpSto t
      let x := s0.tile t
      x.mx.done = e :: es → e.finish ≤ s0.cycle → x.mxPort = some p → (x.inPort p).sampled = true →
        ((x.inPort p).held.length < 8 → Leads (.mxCompletion t) s fun s1 => (s1.tile t).mx.done = es ∧
          ∃ b, ((s1.tile t).inPort p).held = (x.inPort p).held ++ [(if (s0.ctx (s0.tileCtx t)).fxt = true then e.finish else s0.cycle, b)] ∧ b.kind = .value ∧
            lane32 b.data 1 = e.seq % 2 ^ 32 ∧ lane32 b.data 2 = e.op) ∧
        (8 ≤ (x.inPort p).held.length → Machine.exec (.mxCompletion t) s = .next s0)) ∧
    (∀ b, let x := s.tile t
      (x.mx.ain = some b → b.present = true → x.mx.afeed.length < 64 →
        ∃ s1, Machine.exec (.mxFeed t 0) s = .next s1 ∧ (s1.tile t).mx.afeed = x.mx.afeed ++ [b.data] ∧ (s1.tile t).mx.ain = none ∧
          (s1.tile t).mx.wfeed = x.mx.wfeed) ∧
      (x.mx.win = some b → b.present = true → x.mx.wfeed.length < 64 →
        ∃ s1, Machine.exec (.mxFeed t 1) s = .next s1 ∧ (s1.tile t).mx.wfeed = x.mx.wfeed ++ [b.data] ∧ (s1.tile t).mx.win = none ∧
          (s1.tile t).mx.afeed = x.mx.afeed) ∧
      (x.mx.ain = some b → b.present = false →
        ∃ s1, Machine.exec (.mxFeed t 0) s = .next s1 ∧ (s1.tile t).mx.afeed = x.mx.afeed ∧ (s1.tile t).mx.ain = none) ∧
      (x.mx.ain = some b → b.present = true → 64 ≤ x.mx.afeed.length → Machine.exec (.mxFeed t 0) s = .next s))

/-- Acceptance of matrix tokens, the matrix ports: `MatrixTokensAccepted`, `MatrixPorts`. -/
def Obligations.MatrixTokensAndPorts : Prop :=
  Claims.MatrixTokensAccepted ∧ Claims.MatrixPorts

/-- R233–R239: a token at the head of its queue starts at its cycle when its operands lie inside the buffers, and when its time has passed MMA and MMAZ have written
the products of R67 over C's row-major elements, CLR zeros; a DRAIN's program runs from its start; the token leaves the queue and its completion is
owed; buffers that it does not write stay. -/
def Obligations.MatrixTokensRun : Prop :=
  ∀ (s : State) (t : Nat) (k : MxTok) (e : MxEntry) (es : List MxEntry), s.cursor = .token t → (s.tile t).mx.queue = e :: es →
    let x := s.tile t
    let m := x.mx
    let starts (op : Nat) (i : Instr) : Prop :=
      e.started = none → mxStartAt m.lastBusy m.lastFinish m.lastWasMm e.accepted op ≤ s.cycle → x.mxOutside op k = none →
        (op = 2 → 0 ≤ progAt x k.epi.toNat) → x.spoilt = [] →
        ∃ s1 e1, Machine.exec i s = .next s1 ∧ (s1.tile t).mx.queue = e1 :: es ∧
          e1.started = some (mxStartAt m.lastBusy m.lastFinish m.lastWasMm e.accepted op) ∧ e1.word = e.word ∧
          (s1.tile t).a = x.a ∧ (s1.tile t).c = x.c ∧ (s1.tile t).w = x.w ∧
          (op = 2 → (s1.tile t).mx.drain = some ⟨0, 0, List.replicate k.cols 0, .f32, [], 0, none⟩)
    let ends (i : Instr) (bs : List Byte) : Prop :=
      e.started ≠ none → e.finish ≠ 0 → e.finish ≤ s.cycle → e.undef = false →
        ∃ s1 e1, Machine.exec i s = .next s1 ∧ (s1.tile t).mx.queue = es ∧ (s1.tile t).mx.done = m.done ++ [e1] ∧
          e1.word = e.word ∧ e1.seq = e.seq ∧ e1.finish = e.finish ∧ e1.owed = e.owed ∧ e1.owedBeats = e.owedBeats ∧
          (s1.tile t).c = x.c.writeN (k.coff.toNat * 64) bs ∧ (s1.tile t).a = x.a ∧ (s1.tile t).w = x.w ∧ s1.mem = s.mem ∧ s1.regions = s.regions
    let as := (takeOperand x.a m.afeed k.afeed (k.aoff.toNat * 64) k.aBytes).1
    let ws := (takeOperand x.w m.wfeed k.wfeed (k.woff.toNat * 64) k.wBytes).1
    let c0 := elemsAux 32 (k.rows * k.cols) (x.c.readNat (k.coff.toNat * 64) k.cBytes)
    starts 0 (.mma k) ∧ starts 1 (.mmaz k) ∧ starts 2 (.drain k) ∧ starts 3 (.clr k) ∧
    ends (.mma k) ((mxProduct k as ws fun i => c0.getD i 0).flatMap (leBytes 4)) ∧
    ends (.mmaz k) ((mxProduct k as ws fun _ => 0).flatMap (leBytes 4)) ∧
    ends (.clr k) (List.replicate (k.rows * k.cols * 4) 0#8)

/-- R243–R246: an epilogue word that only changes the working row leaves the new row and the next word. -/
def Sys2Proof.Claims.EpilogueRowWords : Prop :=
  ∀ (s : State) (t : Nat) (d : Drain) (e : MxEntry) (es : List MxEntry),
    s.cursor = .epi t → (s.tile t).mx.drain = some d → (s.tile t).mx.queue = e :: es → d.pc < 31 →
    let x := s.tile t
    let n := e.tok.cols
    let next (i : Instr) (d1 : Drain) : Prop := Machine.exec i s = .next (s.setDrain t (some { d1 with pc := d.pc + 1 }))
    let lanes (w b : Nat) : List Nat := elemsAux (8 * w) n (x.a.readNat b (n * w))
    let inside (b len : Nat) : Prop := b + len ≤ x.hdr.abuf * 1024
    next .epiNop d ∧
    next .epiLdc { d with v := elemsAux 32 n (x.c.readNat (e.tok.coff.toNat * 64 + d.row * n * 4) (n * 4)) } ∧
    (∀ k : BitVec 4, next (.epiAct k) { d with v := d.v.map (actBits k.toNat) }) ∧
    (∀ (sat : BitVec 1) (r : BitVec 2) (k : BitVec 4), next (.epiCvt sat r k) (cvtRow (sat == 1#1) (Rnd.ofCode r.toNat) k.toNat d)) ∧
    (∀ a : BitVec 12,
      (inside (a.toNat * 64) (n * 4) →
        next (.epiAddb a) { d with v := List.zipWith (faddBits 23 .rne) d.v (lanes 4 (a.toNat * 64)) } ∧
        next (.epiMuls a) { d with v := List.zipWith (fmulBits 23 .rne) d.v (lanes 4 (a.toNat * 64)) }) ∧
      (inside (a.toNat * 64 + d.row * n * 2) (n * 2) →
        next (.epiAdda a) { d with v := List.zipWith (fun v y => faddBits 23 .rne v (y * 65536)) d.v (lanes 2 (a.toNat * 64 + d.row * n * 2)) }) ∧
      (inside (a.toNat * 64) 8 →
        next (.epiClamp a) { d with v := d.v.map (fun y =>
          fminBits 23 (fmaxBits 23 y (x.a.readNat (a.toNat * 64) 4)) (x.a.readNat (a.toNat * 64 + 4) 4)) }) ∧
      (d.block = none → next (.epiBsc a) d) ∧
      (rowBytes d = [] → next (.epiSta a) d) ∧
      (x.hdr.abuf * 1024 < a.toNat * 64 + n * 4 → Machine.exec (.epiAddb a) s = .next (s.epiRange ⟨t, e, e.tok, d⟩ (a.toNat * 64))))

/-- R235, R244–R247: the epilogue words that write: BSC a scale byte, ROWM and ROWS the row's maximum and sum, STA the row, each to the A-buffer alone; STO the row's beats to a
port's queue; END the row's end, which clears C's row unless the token accumulates, and after the last row ends the token. -/
def Sys2Proof.Claims.EpilogueWritingWords : Prop :=
  ∀ (s : State) (t : Nat) (d : Drain) (e : MxEntry) (es : List MxEntry),
    s.cursor = .epi t → (s.tile t).mx.drain = some d → (s.tile t).mx.queue = e :: es → d.pc < 31 → e.undef = false →
    let x := s.tile t
    let n := e.tok.cols
    let puts (i : Instr) (b : Nat) (bs : List Byte) : Prop :=
      b + bs.length ≤ x.hdr.abuf * 1024 →
      ∃ s1, Machine.exec i s = .next s1 ∧ (s1.tile t).a = x.a.writeN b bs ∧ (s1.tile t).c = x.c ∧ (s1.tile t).w = x.w ∧
        (s1.tile t).mx.drain = some { d with pc := d.pc + 1 } ∧ (s1.tile t).mx.queue = e :: es ∧ s1.mem = s.mem ∧ ∀ u, u ≠ t → s1.tile u = s.tile u
    (∀ a : BitVec 12,
      (∀ cs v, d.block = some (cs, v) → puts (.epiBsc a) (a.toNat * 64 + (d.blocks - 1)) [BitVec.ofNat 8 v]) ∧
      puts (.epiRowm a) (a.toNat * 64 + 4 * d.row) (leBytes 4 (treeRed (fmaxBits 23) (lg n) d.v)) ∧
      puts (.epiRows a) (a.toNat * 64 + 4 * d.row) (leBytes 4 (treeRed (faddBits 23 .rne) (lg n) d.v)) ∧
      (rowBytes d ≠ [] → puts (.epiSta a) (a.toNat * 64 + staOffset n d) (rowBytes d))) ∧
    (∀ k : BitVec 4, let o := x.out k.toNat
      o.sto.length + (beatsOf 3 (rowBytes d)).length ≤ 64 →
      Machine.exec (.epiSto k) s = .next
        (((s.setTile t (x.setOut k.toNat { o with sto := o.sto ++ (beatsOf 3 (rowBytes d)).map fun y => Beat.val y e.cov })).nextWord
          ⟨t, e, e.tok, d⟩).pumpSto t)) ∧
    (∃ s1, Machine.exec .epiEnd s = .next s1 ∧ (s1.tile t).a = x.a ∧ (s1.tile t).w = x.w ∧
      (s1.tile t).c = (if e.tok.acc then x.c else x.c.writeN (e.tok.coff.toNat * 64 + d.row * n * 4) (List.replicate (n * 4) 0#8)) ∧
      (d.row + 1 = e.tok.rows → (s1.tile t).mx.drain = none ∧ (s1.tile t).mx.queue = es ∧ (s1.tile t).mx.done = x.mx.done ++ [e]) ∧
      (d.row + 1 ≠ e.tok.rows → (s1.tile t).mx.drain = some { d with row := d.row + 1, pc := 0, v := List.replicate n 0, kind := .f32, block := none }))

/-- Epilogue words: `EpilogueRowWords`, `EpilogueWritingWords`. -/
def Obligations.EpilogueWords : Prop :=
  Claims.EpilogueRowWords ∧ Claims.EpilogueWritingWords

/-- R152, R156, R157, R190, R195, R320, R350, R398: the head of a queue that fails a check is reported as CONFIG and leaves; one that passes is checked, and its endpoint's
port is owed its instants behind those owed before; a checked head that may start is started, and otherwise stays: behind its semaphore, as a barrier, behind eight that
run, where a started command could use the cycle, while its region has stopped, a traverse also while DCSPLIT is being written. -/
def Sys2Proof.Claims.CommandsCheckedAndStarted : Prop :=
  ∀ (s : State) (ctx eng : Nat) (c : CmdSt) (cs : List CmdSt),
    ((s.ctx ctx).queue eng).entries = c :: cs →
    (c.phase = .queued → s.keepsQueued c = false → s.headTurn eng c = true → s.portPending ctx c = false → s.endLoaded c = true → (∀ r ∈ s.regions, r.2.unbound = []) →
      (∀ k, s.cmdCheck c ctx eng = some k → c.cport = none →
        Leads (.cmdHeadCheck ctx eng) s fun s1 => Recorded s1 0x01 k.code .none ∧ ((s1.ctx ctx).queue eng).entries = cs ∧
          ((s1.ctx ctx).queue eng).started = ((s.ctx ctx).queue eng).started ∧ s1.mem = s.mem) ∧
      (s.cmdCheck c ctx eng = none → c.portBeats = 0 →
        Leads (.cmdHeadCheck ctx eng) s fun s1 => ((s1.ctx ctx).queue eng).entries = { c with phase := .checked, first := 0 } :: cs ∧ s1.tiles = s.tiles ∧ s1.mem = s.mem) ∧
      (∀ t k, s.cmdCheck c ctx eng = none → c.portBeats ≠ 0 → c.bound = false → s.endPorts c = [(t, k)] →
        let st := max (c.inst + 1) ((s.tile t).inPort k).nextOwed
        Leads (.cmdHeadCheck ctx eng) s fun s1 => ((s1.ctx ctx).queue eng).entries = { c with phase := .checked, first := st } :: cs ∧
          ((s1.tile t).inPort k).due = ((s.tile t).inPort k).due ++ [⟨c.uid, st, c.portBeats, false⟩] ∧ s1.mem = s.mem)) ∧
    (c.phase ≠ .queued → Waits (.cmdHeadCheck ctx eng) s) ∧
    (s.keepsQueued c = true → Waits (.cmdHeadCheck ctx eng) s ∧ Waits (.commandStart ctx eng) s) ∧
    (s.mayStart ctx eng c = true → (∀ r ∈ s.regions, r.2.unbound = []) →
      Leads (.commandStart ctx eng) s fun s1 => ((s1.ctx ctx).queue eng).entries = cs ∧
        (∃ m, (m = c.mark ∨ m = c.mark + 64) ∧
          ((s1.ctx ctx).queue eng).started = ((s.ctx ctx).queue eng).started ++ [{ c with phase := .started, mark := m }]) ∧
        (s1.table eng).last = s.cycle + 1 ∧ s1.mem = s.mem) ∧
    (s.canAdvance ctx eng = true → Waits (.commandStart ctx eng) s) ∧
    (8 ≤ ((s.ctx ctx).queue eng).running.length → Waits (.commandStart ctx eng) s) ∧
    (c.cls = 1 → eng / 8 % 4 ≠ 3 → (tget? s.dcwait (eng % 8)).isSome = true → Waits (.commandStart ctx eng) s) ∧
    (c.phase = .checked → c.thr ≠ 0 → ((s.ctx ctx).sem c.wsem).value < c.thr → Waits (.commandStart ctx eng) s) ∧
    (c.phase = .checked → c.barrier = true → ((s.ctx ctx).queue eng).started ≠ [] → Waits (.commandStart ctx eng) s)

/-- R132, R152, R196, R197, R295: a command that is done puts its completion beat on its port for the instant it owed, status, issue number and bytes, then signals its semaphore,
and is gone; a refused or faulted one delivers its status and signals nothing; a reply of an old generation is counted and delivers nothing. -/
def Sys2Proof.Claims.CommandsComplete : Prop :=
  ∀ (s : State) (ctx eng uid : Nat) (c : CmdSt),
    s.startedOf ctx eng uid = some c → c.phase = .performed ∨ c.phase = .refused ∨ c.phase = .faulted → s.timeToPresent ctx eng c = true →
    let sem := (s.ctx ctx).sem c.ssem
    (s.stale c = false → ∀ p o, c.cport = some p → ((s.tile c.tile).inPort p).sampled = false →
      ((s.tile c.tile).inPort p).due.find? (fun o => o.by_ == c.uid) = some o →
      Leads (.commandComplete ctx eng uid) s fun s1 => s1.startedOf ctx eng uid = none ∧ s1.mem = s.mem ∧
        (∃ z, tget? ((s1.tile c.tile).inPort p).arrived o.start = some (Beat.val z) ∧ lane32 z 1 = c.issue % 2 ^ 32 ∧
          lane32 z 0 = (match c.phase with | .performed => 0 | .refused => 1 | _ => 2) ∧
          (c.phase ≠ .refused → (c.cls = 1 ∨ c.cls = 2) → lane32 z 2 = c.bytes % 2 ^ 32)) ∧
        ((s1.ctx ctx).sem c.ssem).value = (if c.phase = .performed ∧ c.inc ≠ 0 then min (sem.value + c.inc) (2 ^ 32 - 1) else sem.value)) ∧
    (s.stale c = true → c.cport ≠ none →
      Leads (.commandComplete ctx eng uid) s fun s1 => s1.startedOf ctx eng uid = none ∧ s1.tiles = s.tiles ∧ s1.mem = s.mem ∧
        (s1.home c.region).stale = ((s.home c.region).stale + 1) % 2 ^ 32) ∧
    (s.stale c = false → ∀ p, c.cport = some p → ((s.tile c.tile).inPort p).sampled = true → 8 ≤ ((s.tile c.tile).inPort p).held.length →
      Waits (.commandComplete ctx eng uid) s)

/-- Commands at the queue head, their start and completion: `CommandsCheckedAndStarted`, `CommandsComplete`. -/
def Obligations.CommandsStartAndComplete : Prop :=
  Claims.CommandsCheckedAndStarted ∧ Claims.CommandsComplete

/-- R150–R154, R158, R160, R200, R320: a read traverse is set up once; then each beat, at its turn, reads the elements of its place in the pattern and goes, zero-filled, to
every port of its endpoint for the next instant owed; the last beat ends the command. -/
def Obligations.ReadTraversesDeliver : Prop :=
  ∀ (cc : Cmd) (s : State) (ctx eng : Nat) (c : CmdSt),
    (setUp c = false → s.holdsStream c = false → ∀ i, i = .travrd cc ∨ i = .travmc cc → Placed i s ctx eng c →
      Leads i s fun s1 => s1.mem = s.mem ∧ s1.tiles = s.tiles ∧
        Ends s1 ctx eng c.uid fun c1 => setUp c1 = true ∧ c1.pos = 0 ∧ c1.row = [] ∧ c1.phase = .started) ∧
    (AtTurn s ctx eng c → setUp c = true →
      c.cls = 1 → c.kind ≠ 2 → c.row = [] → c.kept = [] → c.cut = [] → c.windowBad = false → s.stale c = false → (∀ e, c.endPt = some e → e.ekind ≠ 1) → c.endPt ≠ none →
      (s.endPorts c).Nodup → (∀ p ∈ s.endPorts c, ((s.tile p.1).inPort p.2).streamRoom = true) →
      let t := c.trav
      let delivers (b : Nat) (pos : Nat) (bs : List Byte) : Prop :=
        Leads (.traverseBeat ctx eng c.uid) s fun s1 => s1.mem = s.mem ∧
          (∀ p ∈ s.endPorts c, ∃ z, tget? ((s1.tile p.1).inPort p.2).arrived (c.first + b) = some (Beat.val z) ∧
            (Ty.ofCode (c.f 1 57 4) = some ((s.tile p.1).inPort p.2).fout → z = payOf bs)) ∧
          Ends s1 ctx eng c.uid fun c1 => c1.pos = pos ∧ c1.row = [] ∧ c1.bytes = c.bytes + 64 * (s.endPorts c).length ∧
            (c1.phase = .performed ↔ b + 1 = t.beats)
      (∀ ps, t.esz = 64 → s.cmdReach eng c false (t.addr c.pos) 64 = .ok ps → delivers c.pos (c.pos + 1) (s.readPieces ps)) ∧
      (∀ b, Physical s c → t.rowBytes ≤ 64 → c.pos = b * t.count 0 → (∀ j, j < t.count 0 → 0 ≤ t.addr (c.pos + j) ∧ near (t.addr (c.pos + j)).toNat t.esz) →
        let bs := (List.range (t.count 0)).flatMap fun j => s.peekN (t.addr (c.pos + j)).toNat t.esz
        delivers b (c.pos + t.count 0) (bs ++ List.replicate (64 - bs.length) 0#8))) ∧
    (∀ p, s.startedOf ctx eng c.uid = some c → c.phase = .started → setUp c = true → c.cls = 1 → c.kind ≠ 2 → c.row = [] → c.cut = [] → s.stale c = false →
      (∀ e, c.endPt = some e → e.ekind ≠ 1) → p ∈ s.endPorts c → ((s.tile p.1).inPort p.2).streamRoom = false →
      ∀ s1, Machine.exec (.traverseBeat ctx eng c.uid) s = .next s1 → ((s1.tile p.1).inPort p.2).arrived = ((s.tile p.1).inPort p.2).arrived)

/-- R145, R150, R153, R158, R320: a write traverse takes its output port, unless another has it; at its turn the oldest beat of the port, or the next one of its buffer, is
written where the pattern's next element stands, and nothing else of memory changes; with the last beat the port is free again. -/
def Sys2Proof.Claims.WriteTraversesStore : Prop :=
  ∀ (cc : Cmd) (s : State) (ctx eng : Nat) (c : CmdSt) (e : EndPt) (t : Nat), c.endPt = some e → s.holder c.region e.canon = some t → c.cls = 1 → c.kind = 2 →
    (Placed (.travwr cc) s ctx eng c → s.holdsStream c = false → setUp c = false → e.ekind = 0 →
      (((s.tile t).out e.port).trav = none → Leads (.travwr cc) s fun s1 => ((s1.tile t).out e.port).trav = some c.uid ∧ s1.mem = s.mem ∧
        Ends s1 ctx eng c.uid fun c1 => setUp c1 = true ∧ c1.pos = 0) ∧
      (((s.tile t).out e.port).trav ≠ none → Waits (.travwr cc) s)) ∧
    (AtTurn s ctx eng c → setUp c = true → c.row = [] → c.windowBad = false →
      c.trav.esz = 64 → ∀ p, s.cmdReach eng c true (c.trav.addr c.pos) 64 = .ok [p] → p.len = 64 → SameKey s [p] →
      (∀ cy b rest, e.ekind = 0 → ((s.tile t).out e.port).trav = some c.uid → ((s.tile t).out e.port).q = (cy, b) :: rest → s.cmdCtx t = ctx →
        (s.ctx ctx).engineOf c.uid = some eng →
        Leads (.travwrBeat t e.port) s fun s1 => s1.xlatBytes p.x p.x.loc 64 = payBytes 64 b.data ∧ SameOutside s s1 p.x.loc 64 ∧ ((s1.tile t).out e.port).q = rest ∧
          (((s1.tile t).out e.port).trav = none ↔ c.pos + 1 = c.trav.beats) ∧
          Ends s1 ctx eng c.uid fun c1 => c1.pos = c.pos + 1 ∧ c1.bytes = 64 * (c.pos + 1) ∧ (c1.phase = .performed ↔ c.pos + 1 = c.trav.beats)) ∧
      (e.ekind = 1 → e.circ = false → (e.offset + c.pos) * 64 + 64 ≤ (s.tile t).bufSize e.buf → (s.tile t).isSpoilt e.buf ((e.offset + c.pos) * 64) 64 = false →
        Leads (.traverseBeat ctx eng c.uid) s fun s1 => s1.xlatBytes p.x p.x.loc 64 = ((s.tile t).buf e.buf).readN ((e.offset + c.pos) * 64) 64 ∧
          SameOutside s s1 p.x.loc 64 ∧ s1.tiles = s.tiles))

/-- R159–R162: a branch of a multicast that has had no room for the fork's stall limit while the fork holds a beat is cut where the fork's legend entry says so:
CONTROL/DETACHED is on its way to it with the instant from which it reads ABSENT; elsewhere every running consumer stops with MCAST. -/
def Sys2Proof.Claims.MulticastStalls : Prop :=
  ∀ (s : State) (ctx eng br t k : Nat) (c : CmdSt),
    s.startedOf ctx eng c.uid = some c → c.phase = .started → setUp c = true → c.kind = 3 → s.stale c = false →
    (s.livePorts c).find? (fun q => q.2 == br) = some ((t, k), br) → ((s.tile t).inPort k).streamRoom = false → ∀ fork,
    (s.region c.region).forkEntry ((c.endPt.getD default).group) (s.tile t).canon k = some fork →
    let limit := stallLimit fork.legend
    (s.cycle < c.since + limit → Waits (.mcastStall ctx eng c.uid br) s) ∧
    (c.holdsBeat = false → Waits (.mcastStall ctx eng c.uid br) s) ∧
    (c.holdsBeat = true → c.since + limit ≤ s.cycle → (s.region c.region).susp = false → (s.tileRegion t).susp = false →
      (bitAt fork.legend 35 = true → t < 8192 →
        Leads (.mcastStall ctx eng c.uid br) s fun s1 =>
          ((s1.tile t).inPort k).flight = ((s.tile t).inPort k).flight ++ [Beat.ctl 4 (c.first + c.readAt.1 + c.uid * 2 ^ 64)] ∧
          (s1.region c.region).detached = true ∧ s1.mem = s.mem ∧ Ends s1 ctx eng c.uid fun c1 => c1.cut = c.cut ++ [br] ∧ c1.phase = .started) ∧
      (bitAt fork.legend 35 = false →
        Leads (.mcastStall ctx eng c.uid br) s fun s1 => Recorded s1 0x0C 0 (.region (s.tile t).region) ∧ s1.mem = s.mem ∧
          (∃ r ∈ s1.held, r.words.getD 7 0#64 = BitVec.ofNat 64 c.readAt.1) ∧
          ∀ q ∈ s.livePorts c, ((s.tileRegion q.1.1).phase = .running → (s1.tileRegion q.1.1).phase = .stopped)))

/-- TRAVWR; a branch of a fork that stalls is cut: `WriteTraversesStore`, `MulticastStalls`. -/
def Obligations.WriteTraversesAndForks : Prop :=
  Claims.WriteTraversesStore ∧ Claims.MulticastStalls

/-- R65, R202: the copy commands: COPY moves its bytes, FILL repeats its eight, GATHER brings the rows that its indices name and SCATTER takes rows to them; every byte outside the
destination reads as before. Said for addresses taken as physical; COPY also into a typed buffer. -/
def Obligations.CopyCommandsMove : Prop :=
  ∀ (cc : Cmd) (s : State) (ctx eng : Nat) (c : CmdSt), Physical s c → c.pos = 0 → c.bytes = 0 → c.row = [] → c.kept = [] →
    let src := bitsNat cc.w1 0 57
    let dst := bitsNat cc.w2 0 57
    let len := bitsNat cc.w3 0 40
    let idx := bitsNat cc.w4 0 57
    let row := bitsNat cc.w5 0 16
    let x (i : Nat) : Nat := s.peekNat (idx + 4 * i) 4
    let done (s1 : State) (n : Nat) : Prop := Ends s1 ctx eng c.uid fun c1 => c1.phase = .performed ∧ c1.bytes = n
    (Under (.copy cc) s ctx eng c → bitsNat cc.w5 16 4 = bitsNat cc.w5 20 4 → near src len →
      (bitAt cc.w5 24 = false → near dst len →
        Leads (.copy cc) s fun s1 => s1.peekN dst len = s.peekN src len ∧ SameOutside s s1 dst len ∧ done s1 len) ∧
      (∀ e t, bitAt cc.w5 24 = true → e = endOf cc.w6 → e.ekind = 1 → e.circ = false → s.stale c = false → s.holder c.region e.canon = some t →
        e.offset * 64 + len ≤ (s.tile t).bufSize e.buf →
        Leads (.copy cc) s fun s1 => ((s1.tile t).buf e.buf).readN (e.offset * 64) len = s.peekN src len ∧ s1.mem = s.mem ∧ done s1 len)) ∧
    (Under (.fill cc) s ctx eng c → bitAt cc.w5 24 = false → near dst len →
      Leads (.fill cc) s fun s1 => (∀ b, b < len → s1.peekN (dst + b) 1 = [BitVec.ofNat 8 (cc.w4.toNat / 2 ^ (8 * (b % 8)))]) ∧ SameOutside s s1 dst len ∧ done s1 len) ∧
    (Under (.gather cc) s ctx eng c → bitAt cc.w5 24 = false → near idx (4 * len) → near dst (len * row) → Apart [(dst, len * row), (idx, 4 * len)] →
      (∀ i, i < len → near (src + x i * row) row ∧ Apart [(dst, len * row), (src + x i * row, row)]) →
      Leads (.gather cc) s fun s1 => (∀ i, i < len → s1.peekN (dst + i * row) row = s.peekN (src + x i * row) row) ∧ SameOutside s s1 dst (len * row) ∧
        done s1 (len * row)) ∧
    (Under (.scatter cc) s ctx eng c → near idx (4 * len) → near src (len * row) →
      (∀ i, i < len → near (dst + x i * row) row ∧ Apart [(dst + x i * row, row), (src, len * row)] ∧ Apart [(dst + x i * row, row), (idx, 4 * len)]) →
      Leads (.scatter cc) s fun s1 =>
        (∀ i, i < len → (∀ j, i < j → j < len → x j ≠ x i) → s1.peekN (dst + x i * row) row = s.peekN (src + i * row) row) ∧
        (∀ a, (∀ i, i < len → a < dst + x i * row ∨ dst + x i * row + row ≤ a) → s1.peekN a 1 = s.peekN a 1) ∧ done s1 (len * row))

/-- R196, R204: a collective of two members of this part. Once both matching commands have started, their sources are read; then each member has its result: ALLRED the sums,
ALLGATH the sources in order of rank, REDSCAT its own part of the sums; writing it performs the command. -/
def Sys2Proof.Claims.CollectivesCombineSources : Prop :=
  ∀ (s : State) (ctx : Nat) (e0 e1 : Nat) (c0 c1 : CmdSt) (cc : Cmd),
    let g := bitsNat cc.w4 0 16
    let n := bitsNat cc.w3 0 40
    let m (c : CmdSt) : Member := (s.partid, c.region, c.canon)
    let src (c : CmdSt) : Nat := c.f 1 0 57
    let here : Prop := groupMembers s ctx c0.actx g = some [m c0, m c1] ∧ m c0 ≠ m c1 ∧ Physical s c0 ∧ Physical s c1 ∧ c0.uid ≠ c1.uid ∧
      begun c0 = false ∧ begun c1 = false ∧ sentOff c0 = false ∧ sentOff c1 = false ∧ s.startedOf ctx e1 c1.uid = some c1
    let start (i : Instr) (len : Nat) (r0 r1 : List Byte → List Byte → List Byte) : Prop :=
      here → Under i s ctx e0 c0 → near (src c0) len → near (src c1) len →
      s.memberCmd ctx (m c0) (fun d => d.colKind ≤ 3 && d.colGroup == g) = some (e0, c0) →
      s.memberCmd ctx (m c1) (fun d => d.colKind ≤ 3 && d.colGroup == g) = some (e1, c1) →
      c1.colKind = c0.colKind → c1.w 3 = c0.w 3 → c0.colTy = .n32 → c0.colOp = 0 →
      (0 < len → c0.pos = 0 → c0.row = [] → c1.pos = 0 → c1.row = [] →
        Leads i s fun s1 => s1.mem = s.mem ∧ Ends s1 ctx e0 c0.uid (fun d => begun d = false ∧ d.pos = len ∧ d.row = s.peekN (src c0) len) ∧
          Ends s1 ctx e1 c1.uid (fun d => begun d = false ∧ d.pos = len ∧ d.row = s.peekN (src c1) len)) ∧
      (c0.pos = len → c0.row.length = len → c1.pos = len → c1.row.length = len →
        Leads i s fun s1 => s1.mem = s.mem ∧ Ends s1 ctx e0 c0.uid (fun d => begun d = true ∧ d.row = r0 c0.row c1.row) ∧
          Ends s1 ctx e1 c1.uid (fun d => begun d = true ∧ d.row = r1 c0.row c1.row))
    let sum (base : Nat) (x y : List Byte) : List Byte := (List.range n).flatMap fun j =>
      leBytes 4 ((leNat ((x.drop (4 * (base + j))).take 4) + leNat ((y.drop (4 * (base + j))).take 4)) % 2 ^ 32)
    start (.allred cc) (4 * n) (sum 0) (sum 0) ∧ start (.allgath cc) (4 * n) (· ++ ·) (· ++ ·) ∧ start (.redscat cc) (8 * n) (sum 0) (sum n) ∧
    (∀ i k, (i, k) ∈ [(Instr.allred cc, n), (.redscat cc, n), (.allgath cc, 2 * n)] → Under i s ctx e0 c0 → begun c0 = true →
      groupMembers s ctx c0.actx g = some [m c0, m c1] → Physical s c0 → c0.bytes = 0 → near (bitsNat cc.w2 0 57) c0.row.length →
      Leads i s fun s1 => s1.peekN (bitsNat cc.w2 0 57) c0.row.length = c0.row ∧ SameOutside s s1 (bitsNat cc.w2 0 57) c0.row.length ∧
        Ends s1 ctx e0 c0.uid fun d => d.phase = .performed ∧ d.lanes = [k])

/-- R205: an XSEND and an XRECV of this part match into one transfer, whose source is read when both have started; the receiver writes it, which performs both. -/
def Sys2Proof.Claims.TransfersMatch : Prop :=
  ∀ (s : State) (ctx : Nat) (e0 e1 : Nat) (c0 c1 : CmdSt) (cc : Cmd),
    let g := bitsNat cc.w4 0 16
    let n := bitsNat cc.w3 0 40
    let m (c : CmdSt) : Member := (s.partid, c.region, c.canon)
    groupMembers s ctx c0.actx g = some [m c0, m c1] → m c0 ≠ m c1 → c0.uid ≠ c1.uid → s.startedOf ctx e1 c1.uid = some c1 → Physical s c0 → bitsNat cc.w4 16 16 = 1 →
    (Under (.xsend cc) s ctx e0 c0 → begun c0 = false → begun c1 = false → c0.pos = 0 → c0.row = [] → c0.colTy = .n32 → c1.w 3 = c0.w 3 → near (c0.f 1 0 57) (4 * n) →
      s.memberCmd ctx (m c1) (fun d => d.colKind == 5 && d.colGroup == g && d.colPeer == 0 && d.colTag == c0.colTag) = some (e1, c1) →
      s.memberCmd ctx (m c0) (fun d => d.colKind == 4 && d.colGroup == g && d.colPeer == 1 && d.colTag == c0.colTag) = some (e0, c0) →
      Leads (.xsend cc) s fun s1 => s1.mem = s.mem ∧ Ends s1 ctx e0 c0.uid (fun d => begun d = true ∧ d.phase = .started) ∧
        Ends s1 ctx e1 c1.uid (fun d => begun d = true ∧ d.row = s.peekN (c0.f 1 0 57) (4 * n) ∧ d.acq = [c0.uid])) ∧
    (Under (.xrecv cc) s ctx e0 c0 → begun c0 = true → c0.bytes = 0 → near (bitsNat cc.w2 0 57) c0.row.length →
      Leads (.xrecv cc) s fun s1 => s1.peekN (bitsNat cc.w2 0 57) c0.row.length = c0.row ∧ SameOutside s s1 (bitsNat cc.w2 0 57) c0.row.length ∧
        Ends s1 ctx e0 c0.uid (fun d => d.phase = .performed ∧ d.lanes = [n]) ∧
        (c0.acq = [c1.uid] → (s.ctx ctx).engineOf c1.uid = some e1 → Ends s1 ctx e1 c1.uid fun d => d.phase = .performed ∧ d.lanes = [n]))

/-- Commands of the collective engines: `CollectivesCombineSources`, `TransfersMatch`. -/
def Obligations.CollectivesCombineSources : Prop :=
  Claims.CollectivesCombineSources ∧ Claims.TransfersMatch

/-- R259, R354: a command of the KVP and SQE unit, or of the sampler, is applied whole or not at all: memory changes only where the command is then performed. -/
def Sys2Proof.Claims.UnitCommandsApplyWhole : Prop :=
  ∀ (cc : Cmd) (s : State) (ctx eng : Nat) (c : CmdSt),
    ∀ i ∈ [Instr.pgalloc cc, .pgfree cc, .pgfork cc, .pgappend cc, .pgcommit cc, .pgtrunc cc, .pgstat cc, .admission cc, .batch cc, .retire cc, .egress cc,
      .logapp cc, .pfxmatch cc, .replay cc, .migout cc, .migin cc, .sample cc, .argmax cc],
    Under i s ctx eng c → Leads i s fun s1 => s1.mem = s.mem ∨ Ends s1 ctx eng c.uid fun d => d.phase = .performed

/-- R267, R268: ARGMAX, and SAMPLE over a chain of the greedy stage alone, give the id of the greatest logit, ties to the lowest, and the number of finite ones; with no finite logit they are
refused with EMPTY, and a chain that does not end in a final stage with CHAIN. Said for physical addresses. -/
def Sys2Proof.Claims.SamplerChooses : Prop :=
  ∀ (cc : Cmd) (s : State) (ctx eng : Nat) (c : CmdSt),
    let x := s.ctx ctx
    let v := bitsNat cc.w2 0 20 + 1
    let l := (List.range v).map fun j => readLogit (s.peekNat (bitsNat cc.w1 0 57 + 4 * j) 4)
    let out := bitsNat cc.w3 0 57
    let chain := seqChain (slotAt s x (bitsNat cc.w2 32 12))
    let chooses (i : Instr) : Prop :=
      (l.any f32Finite = false → Leads i s fun s1 => s1.mem = s.mem ∧ Ends s1 ctx eng c.uid fun d => d.phase = .refused ∧ d.reason = 9) ∧
      (l.any f32Finite = true → Leads i s fun s1 => ∃ id n, Greatest l id n ∧ s1.mem = (if out = 0 then s.mem else writes s [(out, leBytes 4 id)]) ∧
        Ends s1 ctx eng c.uid fun d => d.phase = .performed ∧ d.lanes = [id, n])
    Physical s c → near (bitsNat cc.w1 0 57) (4 * v) → near out 4 →
    (Under (.argmax cc) s ctx eng c → chooses (.argmax cc)) ∧
    (Under (.sample cc) s ctx eng c → near (x.seqbase + 64 * bitsNat cc.w2 32 12) 64 → near chain 64 →
      (s.peekN chain 64 = [9#8, 1#8] ++ List.replicate 62 0#8 → chooses (.sample cc)) ∧
      (s.peekN chain 64 = [1#8, 1#8] ++ List.replicate 62 0#8 → Leads (.sample cc) s fun s1 => s1.mem = s.mem ∧
        Ends s1 ctx eng c.uid fun d => d.phase = .refused ∧ d.reason = 10))

/-- Commands of the units apply whole or not at all; the sampler: `UnitCommandsApplyWhole`, `SamplerChooses`. -/
def Obligations.UnitCommandsAndSampler : Prop :=
  Claims.UnitCommandsApplyWhole ∧ Claims.SamplerChooses

/-- R269–R274, R341–R343: what each KVP command does to page entries, free stack, page list and slot, with the reason of each refusal; KV_COW and KV_REFOVF stop the
unit. Said for physical addresses and the smallest case of each outcome. -/
def Obligations.KvPageCommands : Prop :=
  ∀ (cc : Cmd) (s : State) (ctx eng : Nat) (c : CmdSt),
    let x := s.ctx ctx
    let i := bitsNat cc.w1 0 12
    let q := slotAt s x i
    let p := poolAt s x (seqPool q)
    let free := s.peekNat (p.va + 24) 4
    let l := seqPlist q
    let cnt := s.peekNat l 8 % 2 ^ 32
    let cap := s.peekNat l 8 / 2 ^ 32
    let slot (j : Nat) : Nat := x.seqbase + 64 * j
    let refused (s1 : State) (r : Nat) : Prop := s1.mem = s.mem ∧ Ends s1 ctx eng c.uid fun d => d.phase = .refused ∧ d.reason = r
    let done (s1 : State) (lanes : List Nat) (ws : List (Nat × List Byte)) : Prop :=
      s1.mem = writes s ws ∧ Ends s1 ctx eng c.uid fun d => d.phase = .performed ∧ d.lanes = lanes
    let ent (page : Nat) : Nat := p.ptab + 8 * page
    Physical s c → SeqOk s x i →
    (Under (.pgalloc cc) s ctx eng c →
      let n := bitsNat cc.w2 0 16
      (free < n → Leads (.pgalloc cc) s fun s1 => refused s1 3) ∧ (n ≤ free → cap < cnt + n → Leads (.pgalloc cc) s fun s1 => refused s1 4) ∧
      (∀ page, n = 1 → 1 ≤ free → cnt < cap → page = s.peekNat (p.flist + 4 * (free - 1)) 4 → near (p.flist + 4 * (free - 1)) 4 → Page s p page 0 0 false →
        near (l + 64 + 4 * cnt) 4 →
        Leads (.pgalloc cc) s fun s1 => done s1 [0, 0] [(ent page, leBytes 8 (entNat 1 0 false page)), (p.va + 24, leBytes 4 (free - 1)),
          (l + 64 + 4 * cnt, leBytes 4 page), (l, leBytes 4 (cnt + 1))])) ∧
    (Under (.pgfree cc) s ctx eng c →
      let j := bitsNat cc.w2 0 32
      ((j < ceilDiv (seqLength q) p.pp ∨ cnt < j) → Leads (.pgfree cc) s fun s1 => refused s1 5) ∧
      (ceilDiv (seqLength q) p.pp ≤ j → cnt = j → Leads (.pgfree cc) s fun s1 => done s1 [0, 0] [(l, leBytes 4 j)]) ∧
      (∀ page refs fill cp, ceilDiv (seqLength q) p.pp ≤ j → cnt = j + 1 → near (l + 64 + 4 * j) 4 → page = s.peekNat (l + 64 + 4 * j) 4 → Page s p page refs fill cp →
        (1 < refs → Leads (.pgfree cc) s fun s1 => done s1 [0, 0] [(ent page, leBytes 8 (entNat (refs - 1) fill cp page)), (l, leBytes 4 j)]) ∧
        (refs = 1 → Apart [(ent page, 8), (p.va, 64)] → near (p.flist + 4 * free) 4 →
          Leads (.pgfree cc) s fun s1 => done s1 [0, 0] [(ent page, leBytes 8 (entNat 0 fill cp page)), (p.flist + 4 * free, leBytes 4 page),
            (p.va + 24, leBytes 4 (free + 1)), (l, leBytes 4 j)]))) ∧
    (Under (.pgfork cc) s ctx eng c →
      let d := bitsNat cc.w2 0 12
      let f := seqLength q
      let l2 := bitsNat cc.w4 0 57
      near (slot d) 64 →
      ((seqState q ≠ 1 ∧ seqState q ≠ 2 ∨ seqState (slotAt s x d) ≠ 0 ∨ seqRetpend (slotAt s x d) = true) → Leads (.pgfork cc) s fun s1 => refused s1 1) ∧
      (∀ page refs fill cp, (seqState q = 1 ∨ seqState q = 2) → seqState (slotAt s x d) = 0 → seqRetpend (slotAt s x d) = false → 0 < f → f ≤ p.pp → f ≤ seqCap q →
        near l2 68 → 1 ≤ s.peekNat l2 8 / 2 ^ 32 → bitAt cc.w2 12 = true → near (l + 64) 4 → page = s.peekNat (l + 64) 4 → Page s p page refs fill cp →
        (refs < 0xFFFF → Leads (.pgfork cc) s fun s1 => done s1 [0, 0] [(ent page, leBytes 8 (entNat (refs + 1) fill cp page)), (l2 + 64, leBytes 4 page), (l2, leBytes 4 1),
          (slot d, slotBytes [2 + 2 ^ 3 + i * 2 ^ 4 + qf q 0 32 32 * 2 ^ 32, f + f * 2 ^ 32, l2 + seqPool q * 2 ^ 57, bitsNat cc.w3 0 57, f, seqChain q, seqKey q,
            seqEgress q + seqCap q * 2 ^ 20 + seqScap q * 2 ^ 44])]) ∧
        (refs = 0xFFFF → Leads (.pgfork cc) s fun s1 => Recorded s1 0x10 0 (.unit ctx eng c.uid) ∧ s1.mem = s.mem ∧ (s1.ctx ctx).kvpHeld = true))) ∧
    (Under (.pgappend cc) s ctx eng c →
      let old := seqLength q
      let j := old / p.pp
      let a := p.frames + s.peekNat (l + 64 + 4 * j) 4 * p.pp * p.pbytes + old % p.pp * p.pbytes
      ((seqState q ≠ 1 ∧ seqState q ≠ 2) → Leads (.pgappend cc) s fun s1 => refused s1 1) ∧
      (∀ page refs fill cp, bitsNat cc.w2 0 16 = 1 → seqState q = 2 → j < cnt → cnt ≤ cap → near (l + 64 + 4 * j) 4 → page = s.peekNat (l + 64 + 4 * j) 4 →
        Page s p page refs fill cp →
        (1 < refs → Leads (.pgappend cc) s fun s1 => Recorded s1 0x0F 0 (.unit ctx eng c.uid) ∧ s1.mem = s.mem ∧ (s1.ctx ctx).kvpHeld = true) ∧
        (refs = 1 → Apart [(ent page, 8), (l, 4), (slot i, 64), (l + 64 + 4 * j, 4)] →
          Leads (.pgappend cc) s fun s1 => done s1 [a, a / 2 ^ 32 % 2 ^ 25] [(ent page, leBytes 8 (entNat 1 (max fill (old % p.pp + 1)) cp page)), (l, leBytes 4 cnt),
            (slot i, slotBytes (qset q 1 0 32 (old + 1)))]))) ∧
    (Under (.pgcommit cc) s ctx eng c →
      let di := bitsNat cc.w2 0 12
      let k := bitsNat cc.w3 0 32
      let d := slotAt s x di
      let ld := seqPlist d
      near (slot di) 64 →
      ((seqBranch d = false ∨ seqOrigin d ≠ i ∨ seqLength q ≠ seqFork d) → Leads (.pgcommit cc) s fun s1 => refused s1 1) ∧
      (seqBranch d = true → seqOrigin d = i → seqLength q = seqFork d → seqLength d < seqFork d + k → Leads (.pgcommit cc) s fun s1 => refused s1 5) ∧
      (∀ page fill cp r, seqBranch d = true → seqOrigin d = i → seqLength q = 0 → seqFork d = 0 → k = 1 → 1 ≤ seqLength d → 1 ≤ seqTail d → bitsNat cc.w4 32 1 = 0 →
        r = s.peekN (seqArea d + 64) 32 → recKind r = 1 → 1 ≤ seqCap q → cnt = 0 → 1 ≤ cap → s.peekNat ld 8 % 2 ^ 32 = 1 → page = s.peekNat (ld + 64) 4 →
        Page s p page 1 fill cp → near l 68 → near ld 68 → near (seqArea q + 64) 32 → near (seqArea d + 64) 32 →
        Apart [(slot i, 64), (slot di, 64), (p.va, 64), (ent page, 8), (l, 68), (ld, 68), (seqArea q + 64, 32), (seqArea d + 64, 32)] →
        Leads (.pgcommit cc) s fun s1 => done s1 [0, 0]
          [(seqArea q + 64, r.take 5 ++ leBytes 1 (recFlags r / 4 * 4 + recFlags r % 2) ++ r.drop 6), (l + 64, leBytes 4 page), (l, leBytes 4 1),
            (ent page, leBytes 8 (entNat 1 1 cp page)), (ld, leBytes 4 0),
            (slot i, slotBytes (qset (qset (qset q 1 0 32 1) 4 0 32 1) 4 32 32 (seqSpill q))),
            (slot di, slotBytes (qset (qset (qset d 1 0 32 0) 0 0 2 3) 0 2 1 1))])) ∧
    (Under (.pgtrunc cc) s ctx eng c →
      let len := bitsNat cc.w2 0 32
      let e := x.egrtab + 32 * seqEgress q
      (seqLength q < len → Leads (.pgtrunc cc) s fun s1 => refused s1 5) ∧
      (len ≤ seqLength q → seqEgress q < x.egrcnt → near e 32 →
        (len < s.peekNat (e + 20) 4 → Leads (.pgtrunc cc) s fun s1 => refused s1 12) ∧
        (s.peekNat (e + 20) 4 ≤ len → cnt = 0 →
          Leads (.pgtrunc cc) s fun s1 => done s1 [0, 0] [(l, leBytes 4 0), (slot i, slotBytes (qset (qset q 1 0 32 len) 4 0 32 (min (seqTail q) len)))]) ∧
        (∀ page fill cp, s.peekNat (e + 20) 4 ≤ len → cnt = 1 → 0 < len → len ≤ p.pp → near l 68 → page = s.peekNat (l + 64) 4 → Page s p page 1 fill cp →
          Apart [(ent page, 8), (l, 68)] →
          Leads (.pgtrunc cc) s fun s1 => done s1 [0, 0] [(l, leBytes 4 1), (ent page, leBytes 8 (entNat 1 len cp page)),
            (slot i, slotBytes (qset (qset q 1 0 32 len) 4 0 32 (min (seqTail q) len)))]))) ∧
    (Under (.pgstat cc) s ctx eng c →
      (cnt = 0 → Leads (.pgstat cc) s fun s1 => done s1 [free, p.reserve, 0, seqLength q, 0] []) ∧
      (∀ page refs fill cp, cnt ≠ 0 → near (l + 64 + 4 * (cnt - 1)) 4 → page = s.peekNat (l + 64 + 4 * (cnt - 1)) 4 → Page s p page refs fill cp →
        Leads (.pgstat cc) s fun s1 => done s1 [free, p.reserve, cnt, seqLength q, refs] []))

/-- R261–R266, R275–R280: what each SQE command does to its slot, its log, its egress entry and ring, and its image, with the reason of each refusal. Said for physical addresses
and the smallest case of each outcome; a BATCH grants no more than its budget over all slots. -/
def Obligations.SequenceCommands : Prop :=
  (∀ ws b, (grant ws b).length = ws.length ∧ (grant ws b).foldl (· + ·) 0 = min b (ws.foldl (· + ·) 0)) ∧
  ∀ (cc : Cmd) (s : State) (ctx eng : Nat) (c : CmdSt),
    let x := s.ctx ctx
    let i := bitsNat cc.w1 0 12
    let q := slotAt s x i
    let l := seqPlist q
    let cnt := s.peekNat l 8 % 2 ^ 32
    let slot (j : Nat) : Nat := x.seqbase + 64 * j
    let refused (s1 : State) (r : Nat) : Prop := s1.mem = s.mem ∧ Ends s1 ctx eng c.uid fun d => d.phase = .refused ∧ d.reason = r
    let done (s1 : State) (lanes : List Nat) (ws : List (Nat × List Byte)) : Prop :=
      s1.mem = writes s ws ∧ Ends s1 ctx eng c.uid fun d => d.phase = .performed ∧ d.lanes = lanes
    let performed (s1 : State) : Prop := Ends s1 ctx eng c.uid fun d => d.phase = .performed
    Physical s c →
    (Under (.admission cc) s ctx eng c →
      let p := poolAt s x (bitsNat cc.w1 12 4)
      let free := s.peekNat (p.va + 24) 4
      let pl := bitsNat cc.w2 0 32
      let u := ceilDiv pl p.pp
      let l2 := bitsNat cc.w4 0 57
      let eg := bitsNat cc.w7 0 16
      near (slot i) 64 → x.pooltab ≠ 0 → near p.va 64 → p.pbytes ≠ 0 → p.pbytes % 64 = 0 → near l2 68 → eg < x.egrcnt → near (x.egrtab + 32 * eg) 32 →
      ((seqState q ≠ 0 ∨ seqRetpend q = true) → Leads (.admission cc) s fun s1 => refused s1 1) ∧
      (seqState q = 0 → seqRetpend q = false →
        (s.peekNat l2 8 / 2 ^ 32 < u → Leads (.admission cc) s fun s1 => refused s1 4) ∧
        (u ≤ s.peekNat l2 8 / 2 ^ 32 → free < u + p.reserve → Leads (.admission cc) s fun s1 => refused s1 2) ∧
        (∀ page, u = 1 → 1 ≤ s.peekNat l2 8 / 2 ^ 32 → 1 + p.reserve ≤ free → near (p.flist + 4 * (free - 1)) 4 → page = s.peekNat (p.flist + 4 * (free - 1)) 4 →
          Page s p page 0 0 false →
          Leads (.admission cc) s fun s1 => done s1 [1, 0] [(p.ptab + 8 * page, leBytes 8 (entNat 1 0 false page)), (p.va + 24, leBytes 4 (free - 1)), (l2 + 64, leBytes 4 page),
            (l2, leBytes 4 1),
            (slot i, slotBytes [1 + bitsNat cc.w1 32 32 * 2 ^ 32, pl * 2 ^ 32, l2 + bitsNat cc.w1 12 4 * 2 ^ 57, bitsNat cc.w3 0 57, 0, bitsNat cc.w5 0 57, cc.w6.toNat,
              eg + bitsNat cc.w2 32 24 * 2 ^ 20 + bitsNat cc.w7 16 20 * 2 ^ 44]), (x.egrtab + 32 * eg + 20, leBytes 4 pl)]))) ∧
    (Under (.batch cc) s ctx eng c → bitsNat cc.w1 0 13 = 1 → near (slot 0) 64 → near (bitsNat cc.w2 0 57) 32 →
      let q0 := slotAt s x 0
      let b := bitsNat cc.w1 32 32
      let rec_ (st t len : Nat) : List Byte :=
        [if 0 < t then 1 else 0, t, 1, 0, st * 2 ^ 16 + (if 0 < t then 2 ^ 18 else 0), t, len, 0].flatMap (leBytes 4)
      (seqRetpend q0 = true → Leads (.batch cc) s fun s1 => done s1 [0, 0] [(slot 0, List.replicate 64 0#8), (bitsNat cc.w2 0 57, rec_ 0 0 0)]) ∧
      (seqRetpend q0 = false → ∀ t, t = (if seqState q0 = 2 then min 1 b else if seqState q0 = 1 then min (min (seqFork q0) (bitsNat cc.w3 0 32)) b else 0) →
        Leads (.batch cc) s fun s1 => done s1 [if 0 < t then 1 else 0, t] [(bitsNat cc.w2 0 57, rec_ (seqState q0) t (seqLength q0))])) ∧
    (Under (.retire cc) s ctx eng c → SeqOk s x i →
      let p := poolAt s x (seqPool q)
      let free := s.peekNat (p.va + 24) 4
      let gone := slotBytes (qset (qset q 0 0 2 3) 0 2 1 1)
      (seqState q = 0 → Leads (.retire cc) s fun s1 => refused s1 1) ∧
      (seqState q ≠ 0 → cnt = 0 → Leads (.retire cc) s fun s1 => done s1 [0, 0] [(l, leBytes 4 0), (slot i, gone)]) ∧
      (∀ page fill cp, seqState q ≠ 0 → cnt = 1 → near (l + 64) 4 → page = s.peekNat (l + 64) 4 → Page s p page 1 fill cp → Apart [(p.ptab + 8 * page, 8), (p.va, 64)] →
        near (p.flist + 4 * free) 4 →
        Leads (.retire cc) s fun s1 => done s1 [1, 0] [(p.ptab + 8 * page, leBytes 8 (entNat 0 fill cp page)), (p.flist + 4 * free, leBytes 4 page),
          (p.va + 24, leBytes 4 (free + 1)), (l, leBytes 4 0), (slot i, gone)])) ∧
    (Under (.egress cc) s ctx eng c → near (slot i) 64 → seqEgress q < x.egrcnt →
      let e := x.egrtab + 32 * seqEgress q
      let w := wordsAt (s.peekN e 32) 4
      let ring := qf w 0 0 57
      let ctr := qf w 1 0 57
      let cap := qf w 2 0 32
      let next := qf w 2 32 32
      let n := s.peekNat ctr 8
      let last := min (seqLength q) (seqTail q)
      near e 32 → near ctr 8 →
      (last = next → n ≤ cap + w.getD 3 0 → Leads (.egress cc) s fun s1 => done s1 [0, 0] [(ctr, leBytes 8 n), (e + 20, leBytes 4 last)]) ∧
      (∀ r, last = next + 1 → near (seqArea q + 64 + 32 * next) 32 → r = s.peekN (seqArea q + 64 + 32 * next) 32 → recKind r = 1 →
        (cap + w.getD 3 0 < n + 1 → Leads (.egress cc) s fun s1 => refused s1 11) ∧
        (n + 1 ≤ cap + w.getD 3 0 → near (ring + 4 * (n % cap)) 4 →
          Leads (.egress cc) s fun s1 => done s1 [1, 0] [(ring + 4 * (n % cap), leBytes 4 (recId r)), (ctr, leBytes 8 (n + 1)), (e + 20, leBytes 4 last)]))) ∧
    (Under (.logapp cc) s ctx eng c → near (slot i) 64 → near (bitsNat cc.w2 0 57) 64 →
      let d := payOf (s.peekN (bitsNat cc.w2 0 57) 64)
      let pos := bitsNat cc.w3 0 32
      let at_ := seqArea q + 64 + 32 * pos
      ((sxKind d = 0 ∨ sxKind d = 255) → Leads (.logapp cc) s fun s1 => refused s1 7) ∧
      (sxKind d = 1 → (pos ≠ seqTail q ∨ seqLength q ≤ pos) → Leads (.logapp cc) s fun s1 => refused s1 5) ∧
      (sxKind d = 1 → pos = seqTail q → pos < seqLength q → (seqTail q = seqCap q → Leads (.logapp cc) s fun s1 => refused s1 4) ∧
        (seqTail q ≠ seqCap q → near at_ 32 → Apart [(at_, 32), (slot i, 64)] →
          Leads (.logapp cc) s fun s1 => performed s1 ∧ s1.peekNat at_ 4 = pos ∧ s1.peekNat (at_ + 4) 1 = 1 ∧ s1.peekNat (at_ + 8) 8 = sxTextId d ∧
            slotAt s1 x i = qset q 4 0 32 (pos + 1) ∧ ∀ a, (a < at_ ∨ at_ + 32 ≤ a) → (a < slot i ∨ slot i + 64 ≤ a) → s1.peekN a 1 = s.peekN a 1))) ∧
    (Under (.pfxmatch cc) s ctx eng c →
      let n := min (bitsNat cc.w2 0 32) (bitsNat cc.w4 0 32)
      let ra (p : Nat) : List Byte := s.peekN (bitsNat cc.w1 0 57 + 64 + 32 * p) 32
      let rb_ (p : Nat) : List Byte := s.peekN (bitsNat cc.w3 0 57 + 64 + 32 * p) 32
      near (bitsNat cc.w1 0 57 + 64) (32 * n) → near (bitsNat cc.w3 0 57 + 64) (32 * n) → (∀ p, p < n → recKind (ra p) = 1 ∧ recKind (rb_ p) = 1) →
      ((∀ p, p < n → recId (ra p) = recId (rb_ p)) → Leads (.pfxmatch cc) s fun s1 => done s1 [n, 0] []) ∧
      (∀ p, p < n → (∀ j, j < p → recId (ra j) = recId (rb_ j)) → recId (ra p) ≠ recId (rb_ p) → Leads (.pfxmatch cc) s fun s1 => done s1 [p, 1] [])) ∧
    (Under (.replay cc) s ctx eng c → bitsNat cc.w5 0 2 = 0 →
      let pos := bitsNat cc.w2 0 32
      let r := s.peekN (bitsNat cc.w1 0 57 + 64 + 32 * pos) 32
      ((bitsNat cc.w5 32 32 ≤ pos ∨ bitsNat cc.w2 32 32 ≤ pos) → Leads (.replay cc) s fun s1 => refused s1 5) ∧
      (∀ t k, pos < bitsNat cc.w5 32 32 → pos < bitsNat cc.w2 32 32 → near (bitsNat cc.w1 0 57 + 64 + 32 * pos) 32 → recPos r = pos → recKind r = 1 → badRec r = false →
        s.stale c = false → c.cut = [] → s.endPorts c = [(t, k)] → ((s.tile t).inPort k).streamRoom = true → ((s.tile t).inPort k).fin = ((s.tile t).inPort k).fout →
        Leads (.replay cc) s fun s1 => performed s1 ∧ s1.mem = s.mem ∧
          ∃ z, tget? ((s1.tile t).inPort k).arrived c.first = some (Beat.val z) ∧ sxKind z = 1 ∧ sxTextId z = recId r ∧ sxFlags z = 2)) ∧
    (Under (.migout cc) s ctx eng c → SeqOk s x i →
      let img := bitsNat cc.w2 0 57
      let p := poolAt s x (seqPool q)
      let e := x.egrtab + 32 * seqEgress q
      let ctr := qf (wordsAt (s.peekN e 32) 4) 1 0 57
      ((seqState q = 0 ∨ seqState q = 3 ∨ seqBranch q = true) → Leads (.migout cc) s fun s1 => refused s1 1) ∧
      ((seqState q = 1 ∨ seqState q = 2) → seqBranch q = false → seqTail q ≠ seqLength q → Leads (.migout cc) s fun s1 => refused s1 5) ∧
      ((seqState q = 1 ∨ seqState q = 2) → seqBranch q = false → seqTail q = 0 → seqLength q = 0 → seqSpill q = 0 → seqEgress q < x.egrcnt → near e 32 → near ctr 8 →
        near (seqChain q) 64 → s.peekNat (seqChain q + 1) 1 % 2 = 1 → near (seqArea q) 64 → near img 4160 →
        Leads (.migout cc) s fun s1 => performed s1 ∧ s1.peekNat img 4 = 0x47494D31 ∧ s1.peekNat (img + 4) 4 = 1 ∧ s1.peekNat (img + 8) 8 = cc.w3.toNat ∧
          s1.peekNat (img + 20) 4 = p.pbytes ∧ s1.peekNat (img + 24) 4 = 0 ∧ s1.peekNat (img + 40) 8 = s.peekNat ctr 8 ∧ s1.peekNat (img + 52) 4 = 1 ∧
          s1.peekN (img + 128) 64 = s.peekN (seqArea q) 64 ∧ s1.peekN (img + 4096) 64 = s.peekN (seqChain q) 64 ∧
          ∀ a, (a < img ∨ img + 256 ≤ a) → (a < img + 4096 ∨ img + 4160 ≤ a) → s1.peekN a 1 = s.peekN a 1)) ∧
    (Under (.migin cc) s ctx eng c → near (slot i) 64 →
      let img := bitsNat cc.w2 0 57
      let h := s.peekN img 256
      let area := bitsNat cc.w5 0 57
      let l2 := bitsNat cc.w6 0 57
      let eg := x.egrtab + 32 * bitsNat cc.w7 0 16
      let p := poolAt s x (bitsNat cc.w1 12 4)
      let free := s.peekNat (p.va + 24) 4
      let hq := wordsAt (h.drop 64) 8
      let chain := area + 64 + 32 * seqCap hq + 1024 * seqScap hq
      let ctr := qf (wordsAt (s.peekN eg 32) 4) 1 0 57
      bitsNat cc.w7 0 16 < x.egrcnt → near img 4160 → x.pooltab ≠ 0 → near p.va 64 → p.pbytes ≠ 0 → p.pbytes % 64 = 0 →
      ((rb h 0 4 ≠ 0x47494D31 ∨ rb h 8 8 ≠ cc.w3.toNat ∨ rb h 20 4 ≠ p.pbytes) → Leads (.migin cc) s fun s1 => refused s1 8) ∧
      (rb h 0 4 = 0x47494D31 → rb h 4 4 = 1 → rb h 8 8 = cc.w3.toNat → rb h 16 2 = bitsNat cc.w4 0 13 → rb h 18 1 = p.ppCode → rb h 20 4 = p.pbytes → rb h 56 8 = 0 →
        (seqState q ≠ 0 → Leads (.migin cc) s fun s1 => refused s1 1) ∧
        (x.relaxed = false → seqState q = 0 → rb h 24 4 = 0 → rb h 32 4 = 0 → rb h 36 4 = 0 → rb h 52 4 = 1 → p.reserve ≤ free → near l2 8 → near area 64 → near chain 64 →
          near eg 32 → near ctr 8 →
          Apart [(img, 4160), (l2, 8), (area, 64), (chain, 64), (slot i, 64), (ctr, 8), (eg, 32)] →
          Leads (.migin cc) s fun s1 => performed s1 ∧ s1.peekNat l2 4 = 0 ∧ s1.peekN area 64 = (h.drop 128).take 64 ∧ s1.peekN chain 64 = s.peekN (img + 4096) 64 ∧
            seqPlist (slotAt s1 x i) = l2 ∧ seqArea (slotAt s1 x i) = area ∧ seqChain (slotAt s1 x i) = chain % 2 ^ 57 ∧ seqEgress (slotAt s1 x i) = bitsNat cc.w7 0 16 ∧
            s1.peekNat ctr 8 = rb h 40 8 ∧ s1.peekNat (eg + 24) 8 = rb h 40 8 ∧ s1.peekNat (eg + 20) 4 = rb h 48 4)))

/-- R289, R295, R329, R331, R339: the walk of a waiting element caches the translations that its access uses, or stops that element alone and records its fault; a record
waiting enters the queue at FQTAIL once its cycle is over and sets FLTPEND, while the queue is full it is held, a SEM_OVF one dropped and counted; a late reply of an old generation is discarded
and counted. -/
def Obligations.FaultsReachTheQueue : Prop :=
  ∀ (s : State),
    (∀ t k n, t < 4096 → k < (s.tile t).nodes.length → s.mayFire t k = true → (s.tile t).resolved k = true → nodeAt (s.tile t).words k = some (.ld, n) →
      ((s.tile t).node k).issued = false →
      let a := (s.tile t).args n k
      a.l ≠ .absent → a.r ≠ .absent →
      (∀ rs, s.elemReachAll t false (elemAccs (s.tile t) k .ld n a) = .ok rs → Leads (.translationWalk t k) s fun s1 =>
        s1.mem = s.mem ∧ s1.tiles = s.tiles ∧ ∀ r ∈ rs, ∀ p ∈ r.2, ∃ e ∈ s1.tcache, e.ctx = s.tileCtx t ∧ e.page = p.x.page ∧ e.bits = p.x.bits ∧ e.entry = p.x.entry) ∧
      (∀ f lane, s.elemReachAll t false (elemAccs (s.tile t) k .ld n a) = .error (f, lane) → f.cls < 256 → f.cause < 256 → Leads (.translationWalk t k) s fun s1 =>
        s1.mem = s.mem ∧ Recorded s1 f.cls f.cause (.node t k) ∧ ((s1.tile t).node k).stopped = true ∧ (s1.region (s.tile t).region).phase = (s.tileRegion t).phase)) ∧
    (∀ r rs, s.held = r :: rs → r.cycle = s.cycle → Waits .faultRecordWrite s) ∧
    (∀ r rs, s.held = r :: rs → r.cycle ≠ s.cycle →
      (s.fqtail - s.fqhead < 2 ^ s.fqsize → Leads .faultRecordWrite s fun s1 =>
        s1.mem = writes s [(s.fqbase + 64 * (s.fqtail % 2 ^ s.fqsize), recBytesOf r)] ∧ s1.held = rs ∧ s1.fq = s.fq ++ [r] ∧ s1.fqtail = s.fqtail + 1 ∧
        s1.fqhead = s.fqhead ∧ (s1.ctx r.ctx).fltpend = true) ∧
      (2 ^ s.fqsize ≤ s.fqtail - s.fqhead → (∀ x ∈ s.held, x.cls ≠ 0x11) → Waits .faultRecordWrite s) ∧
      (2 ^ s.fqsize ≤ s.fqtail - s.fqhead → r.cls = 0x11 → Leads .faultRecordWrite s fun s1 =>
        s1.held = rs ∧ s1.fq = s.fq ∧ s1.fqdrop = (s.fqdrop + 1) % 2 ^ 32 ∧ s1.mem = s.mem)) ∧
    (s.held = [] → Waits .faultRecordWrite s) ∧
    (∀ g gen, let r := s.region g
      (gen ∈ r.late → gen ≠ r.gen → Leads (.staleReplyDiscard g gen) s fun s1 =>
        (s1.region g).late = r.late.erase gen ∧ (s1.region g).stale = (r.stale + 1) % 2 ^ 32 ∧ s1.tiles = s.tiles ∧ s1.mem = s.mem) ∧
      ((gen ∉ r.late ∨ gen = r.gen) → Waits (.staleReplyDiscard g gen) s))

/-- R306, R358–R360: the handler takes the record at the head of the queue: it notes one that stops nothing, kills the region of one that no decision can
resume, and for a resumable one of a context with a log writes the entry, posts the semaphore and waits; the decision's byte, or the timeout, settles it. -/
def Obligations.FaultsAreSettled : Prop :=
  ∀ (s : State) (r : FltRec) (rs : List FltRec), s.fq = r :: rs → s.ctlHalt = false →
    let x := s.ctx r.ctx
    let post := fld x.flogctl 0 8
    let dsem := fld x.flogctl 8 8
    let gone (s1 : State) : Prop := s1.fq = rs ∧ s1.fqhead = s.fqhead + 1 ∧ s1.mem = s.mem
    (s.await = none → r.cls ≠ 0x0F → r.cls ≠ 0x10 → x.flogbase = 0 → r.agent = .none → r.stoppedBit = false →
      Leads .faultRecordHandle s gone) ∧
    (∀ g, s.await = none → r.cls ≠ 0x0F → r.cls ≠ 0x10 → x.flogbase = 0 → r.stoppedBit = true → r.engine = false → s.regionOf r = some g → g < 1024 →
      Leads .faultRecordHandle s fun s1 => gone s1 ∧ Gone s1 g) ∧
    (∀ s2, s.await = none → r.cls ≠ 0x0F → r.cls ≠ 0x10 → r.stoppedBit = true → r.resumable = true → x.flogbase ≠ 0 → post ≠ dsem → (x.sem post).value < 2 ^ 32 - 1 →
      s.engWrite 0 (some r.ctx) false (x.flogbase + 128 * (x.flogCount % 2 ^ (fld x.flogctl 16 4 + 4))) (recBytesOf r ++ List.replicate 64 0#8) = .ok s2 →
      Leads .faultRecordHandle s fun s1 => s1.fq = s.fq ∧ s1.mem = s2.mem ∧ (s1.ctx r.ctx).flogCount = x.flogCount + 1 ∧
        ((s1.ctx r.ctx).sem post).value = (x.sem post).value + 1 ∧ s1.await = some (s.fqhead, s.cycle, (x.sem dsem).value)) ∧
    (∀ c e u d s2, s.await = none → r.cls = 0x0F → r.resumable = true → r.agent = .unit c e u → s.startedOf c e u = some d → d.phase = .stopped →
      handlerRun s r.ctx (cowSteps (r.f 6 0 12) (r.f 6 12 4) (r.f 6 16 32) (r.f 7 0 64)) = some (.ok s2) →
      s2.fq = s.fq → s2.fqhead = s.fqhead → s2.ctxs = s.ctxs →
      Leads .faultRecordHandle s fun s1 => s1.fq = rs ∧ s1.mem = s2.mem ∧ (s1.ctx c).kvpHeld = false ∧ Ends s1 c e u fun d => d.phase = .started) ∧
    (∀ cy v bs, s.await = some (s.fqhead, cy, v) → v < (x.sem dsem).value →
      s.fetchBytes ⟨some r.ctx, false⟩ (x.flogbase + 128 * ((x.flogCount - 1) % 2 ^ (fld x.flogctl 16 4 + 4)) + 64) 8 = some bs →
      (∀ t k, leNat bs = 1 → r.resumable = true → r.agent = .node t k → (s.regionOf r).isSome = true → ((s.tile t).node k).stopped = true →
        Leads .faultDecision s fun s1 => gone s1 ∧ s1.await = none ∧ ((s1.tile t).node k).stopped = false) ∧
      (∀ g, leNat bs ≠ 1 → leNat bs ≠ 3 → r.engine = false → s.regionOf r = some g → g < 1024 → Leads .faultDecision s fun s1 => gone s1 ∧ s1.await = none ∧ Gone s1 g) ∧
      (∀ c e u d, leNat bs = 3 → r.engine = true → r.agent = .command c e u → s.startedOf c e u = some d → e / 8 % 4 ≠ 3 →
        Leads .faultDecision s fun s1 => gone s1 ∧ s1.await = none ∧ Ends s1 c e u fun d => d.phase = .faulted)) ∧
    (∀ cy v, s.await = some (s.fqhead, cy, v) → (x.sem dsem).value ≤ v →
      let limit := let us := fld x.flogctl 20 16; if us = 0 then 10000000 else us * 1000
      Waits .faultDecision s ∧ (s.cycle < cy + limit → Waits .decisionTimeout s) ∧
      (∀ g, cy + limit ≤ s.cycle → r.engine = false → s.regionOf r = some g → g < 1024 →
        Leads .decisionTimeout s fun s1 => gone s1 ∧ s1.await = none ∧ Gone s1 g))

/-- R293, R296, R361–R364, R366–R368: a request makes its region BUSY and fixes its limit, but the control region's is never pre-empted; a gated one is suspended after the meridian, one with restart marks throughout is cut at them;
at the limit a region with a block without them is killed with PREEMPT, another one cut; RESUME lets a suspended region run on. -/
def Obligations.RegionsArePreempted : Prop :=
  ∀ (s : State) (g : Nat), g < 1024 →
    let h := s.region g
    let limit := h.preLim
    (h.valid = true → h.susp = false → h.busy = false → h.ctx ≠ 0 →
      Leads (.regpreReq g true) s fun s1 => (s1.region g).busy = true ∧ (s1.region g).gated = true ∧ (s1.region g).reqCycle = s.cycle ∧ (s1.region g).phase = h.phase ∧
        (s1.region g).preLim = (if (s.ctx h.ctx).plim = 0 then 2000000 else 2 ^ (s.ctx h.ctx).plim) ∧ s1.mem = s.mem) ∧
    (h.valid = true → h.susp = false → h.busy = false → h.ctx = 0 → ∀ b,
      Leads (.regpreReq g b) s fun s1 => (s1.region g).busy = false ∧ (s1.region g).phase = h.phase ∧ s1.tiles = s.tiles ∧ s1.mem = s.mem) ∧
    ((h.valid = false ∨ h.susp = true) → ∀ b, Waits (.regpreReq g b) s) ∧
    (h.valid = true → h.busy = true → h.form = false → s.family g = [g] → h.phase = .running → (∀ t ∈ h.tiles, (s.tile t).begun = false) →
      s.drained g = true → s.startedDone g = true → h.past = [] → (∀ e ∈ (s.ctx h.ctx).queues, e.2.started = []) →
      Leads (.preemptQuiesce g) s fun s1 => (s1.region g).susp = true ∧ (s1.region g).busy = false ∧ (s1.region g).phase = .suspended ∧ s1.mem = s.mem) ∧
    (h.valid = true → h.busy = true → h.form = false → s.family g = [g] → h.phase = .running → (∃ t ∈ h.tiles, (s.tile t).begun = true) → Waits (.preemptQuiesce g) s) ∧
    (h.valid = true → h.busy = true → h.form = true → s.family g = [g] → h.phase = .running → s.noneStopped g = true → (∀ t, (s.tile t).marks = []) →
      Leads (.preemptQuiesce g) s fun s1 => (s1.region g).phase = .suspended ∧ (s1.region g).gen = (h.gen + 1) % 256) ∧
    (h.valid = true → h.busy = true → h.form = false → (s.ctx h.ctx).fltpend = false → h.ctx ≠ 0 → s.family g = [g] → h.phase = .running →
      (∃ t ∈ h.tiles, (s.tile t).begun = true) →
      (s.cycle < h.reqCycle + limit → Waits (.preemptTimeout g) s) ∧
      (h.reqCycle + limit ≤ s.cycle → (∃ t ∈ h.allTiles, (s.tile t).words ≠ [] ∧ (s.tile t).hdr.acr = false) →
        Leads (.preemptTimeout g) s fun s1 => Gone s1 g ∧ Recorded s1 0x14 0 .none ∧ s1.mem = s.mem) ∧
      (h.reqCycle + limit ≤ s.cycle → (∀ t ∈ h.allTiles, (s.tile t).hdr.acr = true) → s.noneStopped g = true → (∀ t, (s.tile t).marks = []) →
        Leads (.preemptTimeout g) s fun s1 => (s1.region g).form = true ∧ (s1.region g).phase = .suspended)) ∧
    (h.susp = true → s.family g = [g] → h.phase = .suspended →
      Leads (.regpreResume g) s fun s1 => (s1.region g).susp = false ∧ (s1.region g).phase = .running ∧ (s1.region g).lastFire = s.cycle ∧ s1.mem = s.mem) ∧
    (h.susp = false → Waits (.regpreResume g) s)

/-- R35, R82–R84, R187, R311, R317–R319: a started launch whose record, kernel or place is not good, or with a PRIV block in any leaf of a kernel that may hold none, is refused
with a CONFIG record and nothing of it runs; one that stands every check
gets the lowest unused region under a new generation, and the blocks of its first instances go to the next banks of its tiles. -/
def Obligations.LaunchesAreLoaded : Prop :=
  ∀ (s : State) (id : Nat) (cfg : ChanCfg) (l : Launch), tget? s.launches id = some l → l.phase = .started → s.ctlHalt = false →
    let refused (s1 : State) (code : Nat) : Prop :=
      (∃ l1, tget? s1.launches id = some l1 ∧ l1.phase = .refused ∧ l1.detail = code * 2 ^ 56 + 0x82 * 2 ^ 48 + 0xFF * 2 ^ 40) ∧
        Recorded s1 0x01 code .none ∧ s1.regions = s.regions ∧ s1.tiles = s.tiles ∧ s1.mem = s.mem
    (l.bad = true → Leads (.configLoad id cfg) s fun s1 => refused s1 CfgCheck.launch.code) ∧
    (l.bad = false → s.kernelOf l = none → Leads (.configLoad id cfg) s fun s1 => refused s1 CfgCheck.kernel.code) ∧
    (∀ k os, l.bad = false → s.kernelOf l = some (k, os) → (if l.isPsq then 4 else (s.part (s.ctx l.ctx).part).tiles) < k.need →
      Leads (.configLoad id cfg) s fun s1 => refused s1 CfgCheck.place.code) ∧
    (∀ k os g, l.bad = false → l.isPsq = false → s.kernelOf l = some (k, os) → k.need ≤ (s.part (s.ctx l.ctx).part).tiles → s.freeRegion = some g →
      let ts := s.placeTiles id l k.need
      k.need ≤ ts.length → s.genInFlight g (((s.home g).gen + 1) % 256) = false →
      let s2 := (s.takeTiles ts).openRegion g id l k cfg ts
      let ds := ((s2.home g).beginGroups.decisions (ts.length + 1) ts).1
      let e := s.loadEnv l os.length k.childTab.length
      ∀ xs, checkConf s l.via e cfg k.leaves os (ds.flatMap (·.2)) = .ok xs →
        (∀ i, privLeaf s l.via e k.leaves = some i → Leads (.configLoad id cfg) s fun s1 =>
          (∃ l1, tget? s1.launches id = some l1 ∧ l1.phase = .refused) ∧ Recorded s1 0x01 CfgCheck.priv.code .none ∧ s1.regions = s.regions ∧ s1.tiles = s.tiles) ∧
        (privLeaf s l.via e k.leaves = none → Leads (.configLoad id cfg) s fun s1 =>
          (∃ l1, tget? s1.launches id = some l1 ∧ l1.phase = .running ∧ l1.region = g ∧ l1.need = k.need) ∧
          (s1.region g).valid = true ∧ (s1.region g).ctx = l.ctx ∧ (s1.region g).canon = l.count ∧ (s1.region g).gen = ((s.region g).gen + 1) % 256 ∧
          (s1.region g).allTiles = ts ∧ s1.mem = s.mem ∧ ∀ x ∈ xs, (∃ d ∈ ds, ∃ m ∈ d.2, m.2.2 = x.tile) → Banked s1 x.tile))

/-- R35, R83, R318: a free tile of a running launch takes the next instance: of the leaf with the most thread tokens, ties to the lowest, unless a leaf has been passed over 7 times; ages count
the decisions since. Its checked block goes to the tile's next bank; a configuration that fails its check marks the launch, which is killed with CONFIG once nothing of it runs. -/
def Obligations.FreeTilesTakeLeaves : Prop :=
  (∀ (h : Region) (l : Nat), h.chooseLeaf = some l →
    let ts := h.tokens
    let age (x : Nat) : Nat := tget 0 h.ages x
    (∃ n, (l, n) ∈ ts) ∧
    ((∀ x ∈ ts, age x.1 < 7) → ∀ n, (l, n) ∈ ts → ∀ x ∈ ts, x.2 ≤ n ∧ (x.2 = n → l ≤ x.1)) ∧
    ((∃ x ∈ ts, 7 ≤ age x.1) → ∀ x ∈ ts, age x.1 ≤ age l ∧ (age x.1 = age l → l ≤ x.1)) ∧
    (h.waitingGroup = none → ∀ t free, ∃ i m h1, h.decide (t :: free) = some (i, [(l, m, t)], h1) ∧ tget 0 h1.ages l = 0 ∧
      (∀ x ∈ ts, x.1 ≠ l → tget 0 h1.ages x.1 = age x.1 + 1) ∧ ∀ k, (∀ x ∈ ts, x.1 ≠ k) → tget 0 h1.ages k = 0)) ∧
  ∀ (s : State) (g t : Nat) (l : Launch), g < 1024 →
    let h := s.region g
    tget? s.launches h.launch = some l → s.ctlHalt = false → h.valid = true → h.susp = false → h.busy = false → l.phase = .running →
    (∀ k ∈ s.family g, (s.region k).phase ≠ .stopped) →
    (l.bad = true → (∀ k ∈ s.family g, (s.region k).phase = .off ∧ s.loading k = false) →
      Leads (.leafDecision g t) s fun s1 => Gone s1 g ∧ s1.mem = s.mem ∧ ∃ l1, tget? s1.launches h.launch = some l1 ∧ l1.phase = .killed ∧ l1.cls = 1) ∧
    ((l.bad = false ∧ (t ∉ h.allTiles ∨ s.tileFree t = false)) → Waits (.leafDecision g t) s) ∧
    (∀ i ms h1, l.bad = false → t ∈ h.allTiles → s.tileFree t = true → h.decide (t :: (h.allTiles.filter s.tileFree).filter (· != t)) = some (i, ms, h1) →
      let os := h.owners.map fun o => [o.start, o.len, o.owners.getD 0 0 + o.owners.getD 1 0 * 2 ^ 32, o.owners.getD 2 0 + o.owners.getD 3 0 * 2 ^ 32]
      let check := checkConf s l.via (s.loadEnv l h.owners.length h.childTab.length) h.cfg h.leaves os ms
      (∀ xs, check = .ok xs → Leads (.leafDecision g t) s fun s1 => (∀ x ∈ xs, Banked s1 x.tile) ∧ s1.mem = s.mem ∧ s1.launches = s.launches) ∧
      (∀ x, check = .error x → Leads (.leafDecision g t) s fun s1 =>
        Recorded s1 0x01 x.1.1.code .none ∧ s1.tiles = s.tiles ∧ ∃ l1, tget? s1.launches h.launch = some l1 ∧ l1.phase = .running ∧ l1.bad = true))

/-- R299, R308, R309, R313, R316, R375, R387: outside RUN nothing of a partition starts; in RUN, with nothing pinned or suspended, a decision starts a posted head whose barrier is satisfied and whose tiles are free: of the
lowest level that has one, and there the first after the queue that last started one; its queue counts it. Supervisor records start in order, one at a time. -/
def Sys2Proof.Claims.HeadsAreStarted : Prop :=
  ∀ (s : State),
    (∀ p, let s1 := (s.updateQueues p).copyHeads p
      let hs := s1.heads p
      let free := s1.freeCount p none
      let can (h : Head) : Prop := h ∈ hs ∧ h.launch.level < 4 ∧ h.ready = true ∧ s1.needNow h.launch ≤ free
      s.ctlHalt = false → (s.part p).tdisp = .run → (s.part p).suspended = [] → (∀ h ∈ hs, (s1.subq p h.queue).pinned = false) →
      ((∃ h, can h) → Leads (.schedulerDecision p) s fun s2 => ∃ h id l, can h ∧
        (∀ y, can y → h.launch.level ≤ y.launch.level) ∧
        (∀ y q, can y → y.launch.level = h.launch.level → tget? (s.part p).lastStart h.launch.level = some q → q < y.queue → q < h.queue) ∧
        tget? s2.launches id = some l ∧ l.phase = .started ∧ l.kernel = h.launch.kernel ∧ l.tag = h.launch.tag ∧ l.ctx = h.launch.ctx ∧
        (∀ i, h.id = some i → id = i) ∧
        (h.queue < 64 → (s2.subq p h.queue).started = (s1.subq p h.queue).started + 1 ∧ id ∈ (s2.subq p h.queue).running ∧ (s2.subq p h.queue).passes = 0)) ∧
      ((∀ h, ¬ can h) → Leads (.schedulerDecision p) s fun s2 => s2.launches = s.launches ∧ s2.regions = s.regions)) ∧
    (∀ p, s.ctlHalt = true → Waits (.schedulerDecision p) s) ∧
    (∀ p, (s.part p).tdisp ≠ .run → Leads (.schedulerDecision p) s fun s2 => s2.launches = s.launches ∧ s2.regions = s.regions ∧ s2.tiles = s.tiles) ∧
    (s.psqBusy = false → s.psqDone < s.psqPost → s.ctlHalt = false → Leads .psqKernelStart s fun s1 =>
      s1.psqBusy = true ∧ s1.psqDone = s.psqDone ∧ s1.mem = s.mem ∧
        ∃ l, tget? s1.launches s.launches.length = some l ∧ l.phase = .started ∧ l.src = .psq s.psqDone) ∧
    ((s.psqBusy = true ∨ s.psqPost ≤ s.psqDone ∨ s.ctlHalt = true) → Waits .psqKernelStart s)

/-- R196, R226, R311, R312: a launch that has ended, been killed or been refused, with every command of its region done, completes once its record can be written: its record of tag, exit code, status, class, flags, instants and detail is
written, its semaphore counts it, its tiles go, and its queue or the supervisor's counts it. -/
def Sys2Proof.Claims.LaunchesComplete : Prop :=
  (∀ l : Launch, let r := recordBytes l
    r.length = 32 ∧ leNat (r.take 8) = l.tag % 2 ^ 64 ∧ leNat ((r.drop 8).take 4) = (if l.phase = .ended then l.exit % 2 ^ 32 else 0) ∧
      leNat ((r.drop 12).take 1) = (if l.phase = .killed then 1 else if l.phase = .refused then 2 else 0) ∧
      leNat ((r.drop 13).take 1) = (if l.phase = .killed then l.cls % 256 else 0) ∧
      leNat ((r.drop 14).take 1) = (if l.detached then 1 else 0) + (if l.preempted then 2 else 0) ∧
      leNat ((r.drop 16).take 8) = (if l.phase = .refused then 0 else l.instants % 2 ^ 64) ∧
      leNat (r.drop 24) = if l.phase = .refused then l.detail % 2 ^ 64 else 0) ∧
  ∀ (s : State) (id : Nat) (l : Launch), tget? s.launches id = some l → s.ctlHalt = false →
    let g := l.region
    let counted (s1 : State) : Prop :=
      (∃ l1, tget? s1.launches id = some l1 ∧ l1.phase = .complete) ∧
      (l.cinc ≠ 0 → ((s.ctx l.ctx).sem l.csem).value + l.cinc < 2 ^ 32 → ((s1.ctx l.ctx).sem l.csem).value = ((s.ctx l.ctx).sem l.csem).value + l.cinc) ∧
      (∀ p q k, l.src = .queue p q k → id ∈ (s.subq p q).running → (s1.subq p q).completed = (s.subq p q).completed + 1) ∧
      (∀ k, l.src = .psq k → s1.psqDone = s.psqDone + 1 ∧ s1.psqBusy = false)
    (l.phase = .refused → l.crec ≠ 0 → l.crec % 32 = 0 → ∀ s2, s.engWrite 0 l.via.actx l.via.sup l.crec (recordBytes l) = .ok s2 →
      Leads (.launchComplete id) s fun s1 => s1.mem = s2.mem ∧ s1.regions = s.regions ∧ counted s1) ∧
    (l.phase = .ended → g < 1024 → s.commandsDone g = true → (∀ k ∈ s.family g, (s.region k).wrote = []) → l.crec ≠ 0 → l.crec % 32 = 0 →
      let l1 : Launch := { l with instants := s.instants g, detached := l.detached || (s.family g).any (fun k => (s.region k).detached),
                                  preempted := l.preempted || (s.region g).preempted }
      ∀ s2, s.engWrite 0 l.via.actx l.via.sup l.crec (recordBytes l1) = .ok s2 →
        Leads (.launchComplete id) s fun s1 => s1.mem = s2.mem ∧ Gone s1 g ∧ (∀ t ∈ (s.region g).allTiles, (s1.tile t).words = []) ∧ counted s1) ∧
    (l.phase = .killed → g < 1024 → s.dying g = false → s.commandsDone g = true → (∀ k ∈ s.family g, (s.region k).wrote = []) → l.crec ≠ 0 → l.crec % 32 = 0 →
      ∀ s2, s.engWrite 0 l.via.actx l.via.sup l.crec (recordBytes l) = .ok s2 →
        Leads (.launchComplete id) s fun s1 => s1.mem = s2.mem ∧ Gone s1 g ∧ counted s1) ∧
    (l.phase = .refused → l.crec ≠ 0 → l.crec % 32 = 0 → ∀ f, s.engWrite 0 l.via.actx l.via.sup l.crec (recordBytes l) = .error f → Waits (.launchComplete id) s) ∧
    ((l.phase = .waiting ∨ l.phase = .started ∨ l.phase = .running ∨ l.phase = .complete ∨ (l.phase = .ended ∧ s.commandsDone g = false)) → Waits (.launchComplete id) s)

/-- Scheduler decisions, supervisor kernels, completion of launches: `HeadsAreStarted`, `LaunchesComplete`. -/
def Obligations.LaunchesStartAndComplete : Prop :=
  Claims.HeadsAreStarted ∧ Claims.LaunchesComplete

/-- R225, R378, R385–R387: what the host reads and writes once the memory paths are open: BAR0 by whole registers, device memory past the partitions' guard and the RO_HOST bitmap; a line of a
HOSTSHARED page is read and written as the device sees it, another past the line parts. What is turned away reads ones, changes nothing and is counted for the partition. Before
that nothing answers. -/
def Sys2Proof.Claims.HostMemory : Prop :=
  ∀ (s : State),
    (s.bootstat ≠ 6 → ∀ a n bs tee, Waits (.hostMemRead a n tee) s ∧ Waits (.hostMemWrite a bs tee) s) ∧
    (s.bootstat = 6 →
      (∀ v tee, Leads (.hostMemRead (2 ^ 52) 8 tee) s fun s1 => leNat s1.out.host = (s.psqN + s.psqBase) % 2 ^ 64 ∧ s1.mem = s.mem ∧
        (v < 2 ^ 32 → s.psqPost ≤ v → v - s.psqDone ≤ 2 ^ s.psqN → Leads (.hostMemWrite (2 ^ 52 + 8) (leBytes 8 v) tee) s fun s2 => s2.psqPost = v ∧ s2.mem = s.mem)) ∧
      (∀ a tee, a < 0xC000000000 →
        let shut := s.hostBarred a tee
        let coherent : Prop := ∃ x, tget? s.lines (a / 128) = some x ∧ x.shared = true
        (shut = none → s.badBeats.contains (a / 64) = false →
          (coherent → Leads (.hostMemRead a 1 tee) s fun s1 => s1.out.host = s.peekN a 1 ∧ s1.mem = s.mem) ∧
          (¬ coherent → Leads (.hostMemRead a 1 tee) s fun s1 => s1.out.host = [s.dramByte a] ∧ s1.mem = s.mem ∧ s1.lines = s.lines)) ∧
        (∀ p, shut = some (some p) → Leads (.hostMemRead a 1 tee) s fun s1 => s1.out.host = [0xFF#8] ∧ s1.mem = s.mem ∧
          tget 0 s1.life (0xE0 + p) = min (tget 0 s.life (0xE0 + p) + 1) (2 ^ 64 - 1)) ∧
        (shut = some none → Leads (.hostMemRead a 1 tee) s fun s1 => s1.out.host = [0xFF#8] ∧ s1.mem = s.mem ∧ s1.life = s.life) ∧
        (∀ b, shut = none → s.roHost a = false →
          (tget? s.lines (a / 128) = none ∨ coherent → Leads (.hostMemWrite a [b] tee) s fun s1 => s1.peekN a 1 = [b] ∧ SameOutside s s1 a 1) ∧
          (∀ x, tget? s.lines (a / 128) = some x → x.shared = false → Leads (.hostMemWrite a [b] tee) s fun s1 => s1.dramByte a = b)) ∧
        (∀ b, shut ≠ none ∨ s.roHost a = true → Leads (.hostMemWrite a [b] tee) s fun s1 => s1.mem = s.mem ∧ s1.lines = s.lines)))

/-- R216, R378, R388: the increment window: a 4-byte access at byte 0 of a slot adds to its semaphore or reads its value, one at byte 4 reads the sticky bit; other accesses write nothing and
read ones, as does one to a context that is FREE or, in RUN, not from the partition's own. -/
def Sys2Proof.Claims.SemaphoreWindow : Prop :=
  ∀ (s : State),
    (s.bootstat ≠ 6 → ∀ o w v b tee, Waits (.semWindowInc o w v tee) s ∧ Waits (.semWindowRead o b w tee) s) ∧
    (s.bootstat = 6 → ∀ c m tee, 0 < c → c < 256 → m < 256 →
      let x := s.ctx c
      let at_ := 4096 * c + 16 * m
      let shut := x.state = 0 ∨ ((s.part x.part).tdisp = .run ∧ tee = false)
      (∀ n : BitVec 64, ¬ shut → n.toNat % 2 ^ 32 ≠ 0 → (x.sem m).value + n.toNat % 2 ^ 32 < 2 ^ 32 → Leads (.semWindowInc at_ 4 n tee) s fun s1 =>
        ((s1.ctx c).sem m).value = (x.sem m).value + n.toNat % 2 ^ 32 ∧ s1.mem = s.mem ∧ ∀ j, j ≠ m → (s1.ctx c).sem j = x.sem j) ∧
      (∀ n, shut → Leads (.semWindowInc at_ 4 n tee) s fun s1 => s1.ctxs = s.ctxs ∧ s1.mem = s.mem) ∧
      (∀ n, Waits (.semWindowInc (at_ + 4) 4 n tee) s) ∧
      (∀ o w n, (w ≠ 4 ∨ o % 16 ≠ 0) → Waits (.semWindowInc o w n tee) s) ∧
      (¬ shut → Leads (.semWindowRead (256 * c + m) 0 4 tee) s fun s1 => s1.out.window = (x.sem m).value ∧ s1.ctxs = s.ctxs) ∧
      (¬ shut → Leads (.semWindowRead (256 * c + m) 4 4 tee) s fun s1 => s1.out.window = if (x.sem m).sticky then 1 else 0) ∧
      (shut → Leads (.semWindowRead (256 * c + m) 0 4 tee) s fun s1 => s1.out.window = 2 ^ 32 - 1 ∧ s1.ctxs = s.ctxs) ∧
      (∀ o b w, b < 16 → (w ≠ 4 ∨ (b ≠ 0 ∧ b ≠ 4)) → Leads (.semWindowRead o b w tee) s fun s1 => s1.out.window = 2 ^ (8 * w) - 1 ∧ s1.ctxs = s.ctxs))

/-- R225: a snoop of a host page takes its line out of the line parts. -/
def Sys2Proof.Claims.HostSnoops : Prop :=
  ∀ (s : State),
    (∀ a, 2 ^ 51 ≤ a → a < 2 ^ 52 → Leads (.hostSnoop a) s fun s1 => tget? s1.lines (a / 128) = none ∧ (Settled s → s1.mem = s.mem)) ∧
    (∀ a, a < 2 ^ 51 → Waits (.hostSnoop a) s)

/-- What the host does: `HostMemory`, `SemaphoreWindow`, `HostSnoops`. -/
def Obligations.HostAccesses : Prop :=
  Claims.HostMemory ∧ Claims.SemaphoreWindow ∧ Claims.HostSnoops

/-- R374–R379, R410: what the mailbox requests do to a partition's interface, and the answers; each request out of its state changes nothing. Locking fixes the
report, starting draws a key for every range, stopping ends the partition's regions and submission queues and destroys its keys; a failure in RUN leads to ERROR. Measurement
events extend MR5–MR7 alone; a signed record image goes to the copy not in use. The answer codes are the model's (notes/assumptions/41.md). -/
def Obligations.InterfaceRequests : Prop :=
  ∀ (s : State) (p : Nat),
    let x := s.part p
    let answers (i : Instr) (code : Nat) (q : State → Prop) : Prop := Leads i s fun s1 => s1.out.tdisp = [code] ∧ q s1
    let keeps (i : Instr) : Prop := answers i 1 fun s1 => s1.parts = s.parts ∧ s1.mem = s.mem ∧ s1.regions = s.regions
    let ends (s1 : State) : Prop := (s1.part p).sqen = 0 ∧ (∀ j, (tget Pmem.fresh (s1.part p).pmem j).v = true → (tget Pmem.fresh (s1.part p).pmem j).key = none) ∧
      ∀ g c, g < 1024 → (s.region g).ctx = c → c ≠ 0 → (c, s.ctx c) ∈ s.ctxs → (s.ctx c).part = p → (s1.region g).valid = false
    (x.tdisp = .unlocked → answers (.lockInterface p) 0 fun s1 => (s1.part p).tdisp = .locked ∧ (s1.part p).report = s.reportOf p ∧ s1.mem = s.mem) ∧
    (x.tdisp ≠ .unlocked → keeps (.lockInterface p)) ∧
    (x.tdisp = .locked → answers (.startInterface p) 0 fun s1 => (s1.part p).tdisp = .run ∧
      (∀ j, j < 16 → (tget Pmem.fresh x.pmem j).v = true → (tget Pmem.fresh (s1.part p).pmem j).key.isSome = true) ∧
      ((∀ j, j < 16 → (tget Pmem.fresh x.pmem j).v = false) → s1.mem = s.mem) ∧
      (∀ j m, j < 16 → m = tget Pmem.fresh x.pmem j → m.v = true → m.zero = true → (∀ i, i < 16 → i ≠ j → (tget Pmem.fresh x.pmem i).v = false) → s.tags = [] →
        ∀ a, m.range.1 ≤ a → a < m.range.2 → s1.peekN a 1 = [0#8])) ∧
    (x.tdisp ≠ .locked → keeps (.startInterface p)) ∧
    ((x.tdisp = .locked ∨ x.tdisp = .run) → answers (.stopInterface p) 0 fun s1 => (s1.part p).tdisp = .unlocked ∧ ends s1) ∧
    (x.tdisp = .error → answers (.stopInterface p) 0 fun s1 => (s1.part p).tdisp = .unlocked ∧ s1.mem = s.mem) ∧
    (x.tdisp = .unlocked → keeps (.stopInterface p)) ∧
    (Leads (.getDeviceInterfaceState p) s fun s1 => s1.out.tdisp = [0, x.tdisp.code] ∧ s1.parts = s.parts) ∧
    (Leads (.getDeviceInterfaceReport p) s fun s1 => s1.out.mailbox = signed (if x.tdisp = .unlocked then s.reportOf p else x.report) ∧ s1.parts = s.parts) ∧
    (answers (.unsupportedRequest p) 2 fun s1 => s1.parts = s.parts) ∧
    (x.tdisp = .run → Leads (.interfaceError p) s fun s1 => (s1.part p).tdisp = .error ∧ ends s1) ∧
    (x.tdisp ≠ .run → Waits (.interfaceError p) s) ∧
    (Leads .getMeasurements s fun s1 => s1.out.mailbox = signed ((List.range 8).flatMap s.mrBytes) ∧ s1.mr = s.mr ∧ s1.sessions = s.sessions) ∧
    (∀ peer key, Leads (.agentMeasurements peer key) s fun s1 => s1.out.mailbox = signed ((List.range 8).flatMap s.mrBytes) ∧ s1.mr = s.mr ∧
      s1.session peer = some key) ∧
    (∀ m item, 5 ≤ m → m ≤ 7 → Leads (.measurementEvent m item) s fun s1 =>
      tget 0 s1.mr m = (sha384 (s.mrBytes m ++ hashBytes (sha384 item).toNat)).toNat ∧ ∀ j, j ≠ m → tget 0 s1.mr j = tget 0 s.mr j) ∧
    (∀ m item, (m < 5 ∨ 7 < m) → Waits (.measurementEvent m item) s) ∧
    (∀ img, (s.copyB = true → Leads (.recordUpdate img true) s fun s1 => s1.recordA = img ∧ s1.recordB = s.recordB) ∧
      (s.copyB = false → Leads (.recordUpdate img true) s fun s1 => s1.recordB = img ∧ s1.recordA = s.recordA) ∧ Waits (.recordUpdate img false) s)

/-- R382, R383: between agents that have a session, an arriving image whose tag holds, by link or through host memory, is put in the context's memory and its MIGIN is queued on
the context's unit, with ACTCTX naming the context; one whose tag fails is discarded. The notice that MIGIN is done, authenticated, lets the source queue RETIRE for the
slot that it sent. An agent without a session, or that can issue nothing, waits. -/
def Sys2Proof.Claims.MigrationAgents : Prop :=
  ∀ (s : State) (c : Nat),
    let e := (s.ctx c).kvpunit + 3 * 8
    let die := Config.dieOf agentTile
    let q := (s.ctx c).queue e
    let gives (s1 : State) (p : CmdSt → Prop) : Prop := ∃ d, ((s1.ctx c).queue e).entries = q.entries ++ [d] ∧ d.actx = some c ∧ d.phase = .queued ∧ p d
    (∀ peer img n no cc, s.session peer = none ∨ s.agentRoom c = false → Waits (.migrationImageReceive c peer no ⟨img, n⟩ cc) s) ∧
    (∀ peer img n no cc key, s.session peer = some key → s.agentRoom c = true →
      let taken (m : Nat) (s0 : State) (bs : List Payload) : Prop :=
        (∀ ps s2, openBeats key (nonceOf peer false m) bs = some ps → s0.engWrite die (some c) false img (ps.flatMap (payBytes 64)) = .ok s2 →
          Leads (.migrationImageReceive c peer no ⟨img, n⟩ cc) s fun s1 => s1.mem = s2.mem ∧ tget 256 s1.actctx (agentTile - 4096) = c ∧
            (∃ a ∈ s1.arrivals, a.peer = peer ∧ a.no = m) ∧ gives s1 fun d => d.cls = 6 ∧ d.kind = 9 ∧ d.words.getD 2 0#64 = BitVec.ofNat 64 img) ∧
        (openBeats key (nonceOf peer false m) bs = none →
          Leads (.migrationImageReceive c peer no ⟨img, n⟩ cc) s fun s1 => s1.mem = s.mem ∧ ((s1.ctx c).queue e).entries = q.entries ∧ s1.arrivals = s.arrivals)
      (n ≠ 0 → ∀ bs s0, s.engRead die (some c) false img (64 * (n + 1)) = .ok (bs, s0) → taken no s0 (bytesBeats bs)) ∧
      (n = 0 → ∀ s0 m bs, s.takeImage peer = some (s0, m, bs) → taken m s0 bs) ∧
      (n = 0 → s.takeImage peer = none → Waits (.migrationImageReceive c peer no ⟨img, n⟩ cc) s)) ∧
    (∀ slot notice, s.departures.find? (fun d => d.ctx == c && d.slot == slot) = none → Waits (.migrationNotify c ⟨slot, notice⟩) s) ∧
    (∀ slot notice d p key, s.departures.find? (fun d => d.ctx == c && d.slot == slot) = some d → d.peer = some p → s.session p = some key →
      (s.agentRoom c = false → Waits (.migrationNotify c ⟨slot, notice⟩) s) ∧
      (s.agentRoom c = true → slot < 4096 → ∀ s0 bs, (s.takeNotice p).getD (s, notice) = (s0, bs) →
        (openBeats key (nonceOf p true d.no) bs = some [lanes64 [d.no]] → Leads (.migrationNotify c ⟨slot, notice⟩) s fun s1 => s1.mem = s.mem ∧ d ∉ s1.departures ∧
          gives s1 fun d => d.cls = 6 ∧ d.kind = 3 ∧ d.slotIx = slot) ∧
        (openBeats key (nonceOf p true d.no) bs ≠ some [lanes64 [d.no]] → Machine.exec (.migrationNotify c ⟨slot, notice⟩) s = .next s0)))

/-- R382, R390–R394: a link sends the oldest flit of a channel that its peer is ready for, else an idle one, under the next sequence number, and keeps it until it is acknowledged;
on channel MIG the source agent's next image, sealed, comes first; a replay under way comes before new flits, held back by the ready bits. What arrives out of sequence or
broken is discarded with a NAK owed; what arrives in order is delivered with its partition, or forwarded to the part it names over at most two hops, or dropped and
counted; once a flit has been replayed 16 times the link retrains, at reduced width, or goes down. -/
def Sys2Proof.Claims.LinksCarryFlits : Prop :=
  ∀ (s : State) (k : Nat),
    let l := s.link k
    (l.up = true → l.worn = false → l.resend = 0 → l.replay.length < 256 → ∀ vc beats,
      (vc ≠ 1 ∨ l.mayCarry 1 = false ∨ (∃ f ∈ l.todo, f.vc = 1) → Leads (.flitSend k vc beats) s fun s1 => let l1 := s1.link k
        l1.txSeq = (l.txSeq + 1) % 4096 ∧ (∃ f, l1.replay = l.replay ++ [f] ∧ f.seq = l.txSeq ∧
          (l.mayCarry vc = false → f.beats = [] ∧ l1.todo = l.todo) ∧
          (∀ g, l.mayCarry vc = true → l.todo.find? (fun f => f.vc == vc) = some g → f = { g with seq := l.txSeq } ∧ l1.todo = l.todo.erase g)) ∧
        (∃ w, l1.sent = l.sent ++ [w] ∧ leNat (w.take 2) = l.txSeq % 4096 ∧ leNat ((w.drop 4).take 1) = l.readyBits ∧
          ((∀ g ∈ l.todo, g.beats.length ≤ 4) → w.length = 288)) ∧ s1.mem = s.mem) ∧
      (∀ d key s0 bs, vc = 1 → l.mayCarry 1 = true → (∀ f ∈ l.todo, f.vc ≠ 1) → s.departures.find? (fun d => d.peer.isNone) = some d → s.session l.peer = some key →
        s.ctlHalt = false → s.imageOf d = .ok (s0, bs) → bs ≠ [] → Leads (.flitSend k vc beats) s fun s1 => s1.mem = s0.mem ∧
          (∃ f, (s1.link k).replay = l.replay ++ [f] ∧ f.vc = 1 ∧ f.beats = (crypt key (nonceOf s.partid false d.no) bs).take 4) ∧
          { d with peer := some l.peer } ∈ s1.departures)) ∧
    (∀ vc beats f, l.up = true → l.worn = false → l.resend ≠ 0 → l.replay[l.replay.length - l.resend]? = some f →
      (l.mayCarry f.vc = true → Leads (.flitSend k vc beats) s fun s1 => (s1.link k).resend = l.resend - 1 ∧ (s1.link k).txSeq = l.txSeq ∧
        (s1.link k).replay = l.replay.set (l.replay.length - l.resend) { f with replays := f.replays + 1 } ∧ s1.mem = s.mem) ∧
      (f.beats ≠ [] → l.mayCarry f.vc = false → Waits (.flitSend k vc beats) s)) ∧
    ((l.up = false ∨ l.worn = true ∨ (l.resend = 0 ∧ 256 ≤ l.replay.length)) → ∀ vc beats, Waits (.flitSend k vc beats) s) ∧
    (∀ f : Flit, l.up = false → Waits (.flitReceive k f) s) ∧
    (∀ f : Flit, l.up = true → (f.crcOk = false ∨ f.seq ≠ l.rxSeq) → Leads (.flitReceive k f) s fun s1 =>
      (s1.link k).naking = true ∧ (s1.link k).rxSeq = l.rxSeq ∧ (s1.link k).got = l.got) ∧
    (∀ f : Flit, l.up = true → f.crcOk = true → f.seq = l.rxSeq →
      (f.vc < 4 → f.dest = s.partid → 0 < f.count → Leads (.flitReceive k f) s fun s1 => (s1.link k).rxSeq = (l.rxSeq + 1) % 4096 ∧ (s1.link k).naking = false ∧
        (s1.link k).got = l.got ++ [⟨f.vc, f.partition, f.route, f.payload.take f.count⟩] ∧ (s1.link k).ready = f.ready.toNat) ∧
      (∀ o, f.vc < 4 → f.dest ≠ s.partid → 0 < f.count → f.hops < 2 → s.routeLink f.dest = some o → Leads (.flitReceive k f) s fun s1 =>
        (s1.link k).got = l.got ∧ ∃ g, (s1.link o).todo = (s.link o).todo ++ [g] ∧ g.vc = 3 ∧ g.partition = f.partition ∧ g.beats = f.payload.take f.count) ∧
      ((4 ≤ f.vc ∨ (f.dest ≠ s.partid ∧ 0 < f.count ∧ (2 ≤ f.hops ∨ s.routeLink f.dest = none))) →
        Leads (.flitReceive k f) s fun s1 => (s1.link k).got = l.got ∧ (s1.link k).dropped = l.dropped + 1) ∧
      (∀ x xs, l.replay = x :: xs → f.ack = x.seq → f.vc < 4 → f.count = 0 → Leads (.flitReceive k f) s fun s1 => (s1.link k).replay = xs ∧
        (f.nak = true → l.resend = 0 → (s1.link k).resend = xs.length))) ∧
    (l.up = true → l.worn = true →
      (Leads (.linkRetrain k true) s fun s1 => (s1.link k).up = true ∧ (s1.link k).degraded = true ∧ (s1.link k).resend = l.replay.length ∧
        (s1.link k).replay.length = l.replay.length ∧ ∀ f ∈ (s1.link k).replay, f.replays = 0) ∧
      (Leads (.linkRetrain k false) s fun s1 => (s1.link k).up = false ∧ s1.mem = s.mem)) ∧
    ((l.up = false ∨ l.worn = false) → ∀ b, Waits (.linkRetrain k b) s)

/-- Migration agents and span links: `MigrationAgents`, `LinksCarryFlits`. -/
def Obligations.MigrationAndLinks : Prop :=
  Claims.MigrationAgents ∧ Claims.LinksCarryFlits

/-- R338, R399–R401: each SE that owns channels of a stack takes the heartbeats of the base die in their time and keeps count of the refreshes due; it takes over at the fourth
missed heartbeat, which is counted once for the stack, and hands back, after a reset of the base die and four heartbeats in a row, at a tREFI boundary with the counts
kept; a heartbeat lost in between starts the takeover again. -/
def Sys2Proof.Claims.RefreshChangesHands : Prop :=
  ∀ (s : State) (k se : Nat), k < 12 → se < 16 →
    let x := (s.stack k).owner se
    let now (s1 : State) : Refresher := (s1.stack k).owner se
    let counted (s1 : State) (i : Nat) : Prop := tget 0 s1.life i = min (tget 0 s.life i + 1) (2 ^ 64 - 1)
    let pinned (s1 : State) : Prop := s1.mem = s.mem ∧ s1.tiles = s.tiles ∧ s1.ctxs = s.ctxs ∧ s1.regions = s.regions
    let inTime : Prop := x.lastBeat + 1000 ≤ s.cycle ∧ s.cycle ≤ x.lastBeat + 4000
    (x.takeover = false → inTime → Leads (.bmsHeartbeat ⟨k, se⟩) s fun s1 => (s1.stack k).alive = true ∧ (now s1).lastBeat = s.cycle ∧ pinned s1) ∧
    (x.takeover = true → x.resetting = true → x.beats = 0 → Leads (.bmsHeartbeat ⟨k, se⟩) s fun s1 => (now s1).beats = 1 ∧ (now s1).lastBeat = s.cycle ∧ pinned s1) ∧
    (x.takeover = true → x.resetting = true → x.beats ≠ 0 → inTime → Leads (.bmsHeartbeat ⟨k, se⟩) s fun s1 =>
      (now s1).beats = (if x.lastBeat + 1000 < s.cycle then 1 else x.beats + 1) ∧ (now s1).lastBeat = s.cycle ∧ pinned s1) ∧
    (((x.takeover = true ∧ x.resetting = false) ∨ ((x.resetting = false ∨ x.beats ≠ 0) ∧ ¬ inTime)) → Waits (.bmsHeartbeat ⟨k, se⟩) s) ∧
    (∀ p, p < 8 →
      (x.behind s.cycle p ≠ 0 → x.takeover = true ∨ s.cycle ≤ x.lastBeat + 4000 → Leads (.refresh ⟨k, se, p⟩) s fun s1 =>
        (now s1).issued.getD p 0 = x.done s.cycle p + 1 ∧ pinned s1) ∧
      (x.behind s.cycle p = 0 ∨ (x.takeover = false ∧ x.lastBeat + 4000 < s.cycle) → Waits (.refresh ⟨k, se, p⟩) s) ∧
      (x.takeover = false → s.cycle / 3900 = x.lastBeat / 3900 → x.behind s.cycle p ≤ 1) ∧
      (x.takeover = true → x.lost + 8000 ≤ s.cycle → x.behind s.cycle p ≤ 1)) ∧
    (x.lastBeat + 4000 ≤ s.cycle → x.takeover = false ∨ (x.resetting = true ∧ x.beats ≠ 0) → Leads (.refreshTakeover ⟨k, se⟩) s fun s1 =>
      (now s1).takeover = true ∧ (now s1).resetting = false ∧ (now s1).beats = 0 ∧ (now s1).lost = x.lastBeat ∧ (s1.stack k).alive = false ∧ pinned s1 ∧
        ((∀ o ∈ (s.stack k).owners, o.2.takeover = false) → counted s1 (0x60 + k)) ∧
        ((∃ o ∈ (s.stack k).owners, o.2.takeover = true ∧ o.2.resetting = false) → s1.life = s.life)) ∧
    ((s.cycle < x.lastBeat + 4000 ∨ (x.takeover = true ∧ (x.resetting = false ∨ x.beats = 0))) → Waits (.refreshTakeover ⟨k, se⟩) s) ∧
    (x.takeover = true → x.resetting = true → 4 ≤ x.beats → s.cycle ≤ x.lastBeat + 1000 → s.cycle % 3900 = 0 →
      Leads (.refreshHandback ⟨k, se⟩) s fun s1 => (now s1).takeover = false ∧ (now s1).resetting = false ∧ (now s1).issued = (List.range 8).map (x.done s.cycle) ∧ pinned s1) ∧
    ((x.takeover = false ∨ x.resetting = false ∨ x.beats < 4 ∨ x.lastBeat + 1000 < s.cycle ∨ s.cycle % 3900 ≠ 0) → Waits (.refreshHandback ⟨k, se⟩) s)

/-- R402–R407, R413–R415: row, lane and way repair with their counters; THROTTLE, the flash copy of the counters, a droop of a fixed-timing tile; the power loop. -/
def Sys2Proof.Claims.RepairsAndPower : Prop :=
  ∀ (s : State) (k : Nat), k < 12 →
    let counted (s1 : State) (i : Nat) : Prop := tget 0 s1.life i = min (tget 0 s.life i + 1) (2 ^ 64 - 1)
    let pinned (s1 : State) : Prop := s1.mem = s.mem ∧ s1.tiles = s.tiles ∧ s1.ctxs = s.ctxs ∧ s1.regions = s.regions
    (∀ row j, j < 24 → let b := s.stack (j % 12)
      (b.takeover = false → s.errOpen j = false → Leads (.rowRepair j row) s fun s1 => (s1.stack j).repaired = (s.stack j).repaired ++ [row] ∧
        tget 0 s1.life j = min (tget 0 s.life j + (if b.rpthr = 0 then 16 else b.rpthr)) (2 ^ 64 - 1) ∧ counted s1 (0x40 + j) ∧ counted s1 0xC1 ∧ pinned s1) ∧
      ((b.takeover = true ∨ s.errOpen j = true) → Waits (.rowRepair j row) s)) ∧
    (∀ v, v < 4 → Leads (.throttle k v) s fun s1 => (s1.stack k).throttle = v ∧ pinned s1) ∧
    (∀ d e, d < 6 → e < 4 →
      (tget 0 s.lanes (d * 4 + e) < 2 → Leads (.laneSpare d e) s fun s1 => tget 0 s1.lanes (d * 4 + e) = tget 0 s.lanes (d * 4 + e) + 1 ∧ counted s1 0xC3 ∧ pinned s1) ∧
      (2 ≤ tget 0 s.lanes (d * 4 + e) → Leads (.laneSpare d e) s fun s1 => tget 0 s1.lanes (d * 4 + e) = 3 ∧ s1.life = s.life ∧ pinned s1)) ∧
    (∀ d e, d < 6 → e < 32 → tget 0 s.ways (d * 32 + e) = 0 → Leads (.waySpare d e) s fun s1 =>
      tget 0 s1.ways (d * 32 + e) = 1 ∧ counted s1 0xC4 ∧ (∀ i ∈ s1.lines, i.2.home ≠ (d, e)) ∧ (Settled s → pinned s1)) ∧
    (Leads .lifeFlush s fun s1 => s1.lifeFlash = s.life ∧ s1.life = s.life ∧ pinned s1) ∧
    (∀ t, t < 4096 → (s.tile t).words ≠ [] → (s.ctx (s.tileCtx t)).fxt = true → (s.tile t).droop = none →
      Leads (.droopStretch t true) s fun s1 => (s1.tile t).droop = some (s.tile t).inst ∧ counted s1 (0xB0 + Config.dieOf t) ∧ s1.mem = s.mem) ∧
    (∀ t, Waits (.droopStretch t false) s) ∧
    (∀ w c, c < 110 → s.hotHold = false → (s.pwrCap < w ∨ 100 < c) → Leads (.powerCheck w c) s fun s1 =>
      s1.clkForce = max 50 (s.clkForce - 1) ∧ s1.thermal = 1 ∧ pinned s1 ∧
        (s.clkForce = 50 → s.pwrCap < w → s1.overMs = s.overMs + 1 ∧ (100 ≤ s.overMs + 1 → s1.holdFxt = true))) ∧
    (∀ w c, c < 95 → s.hotHold = false → 100 * w ≤ 95 * s.pwrCap → Leads (.powerCheck w c) s fun s1 => s1.clkForce = min s.clkCeil (s.clkForce + 1) ∧ pinned s1) ∧
    (∀ w c, 110 ≤ c → s.hotHold = false → Leads (.powerCheck w c) s fun s1 => s1.thermal = 2 ∧ s1.hotHold = true ∧ s1.ctlHalt = true ∧ s1.bootstat = 1 ∧ s1.mem = s.mem ∧
      ∀ g, g < 1024 → (s1.region g).valid = false)

/-- The memory system: `RefreshChangesHands`, `RepairsAndPower`. -/
def Obligations.TheMemorySystemIsKept : Prop :=
  Claims.RefreshChangesHands ∧ Claims.RepairsAndPower

/-- R405, R408–R412, R415: BOOT brings the part up from record copy A, or from B where A fails, with every register at its reset value and the counters, records and repairs kept; where both fail it stays in RECOVERY, while it
is hot in its first step. Reloading the control region frees its tiles and takes the record in hand again. -/
def Obligations.BootAndReload : Prop :=
  ∀ (s : State),
    (∀ a b, s.hotHold = false → (∀ p ∈ s.parts, p.2.tdisp ≠ .run) →
      let okA := a && recordReservedOk s.recordA
      let okB := b && recordReservedOk s.recordB
      let fresh (s1 : State) : Prop := s1.fq = [] ∧ s1.held = [] ∧ s1.regions = [] ∧ s1.launches = [] ∧ s1.lines = [] ∧ s1.tcache = [] ∧
        (∀ c, c ≠ 0 → s1.ctx c = Ctx.fresh) ∧ (∀ p, s1.part p = Part.fresh) ∧ s1.recordA = s.recordA ∧ s1.recordB = s.recordB ∧
        (s1.mem = s.mem ∨ s1.mem = s.mem.filter fun c => decide (2 ^ 51 ≤ c.1)) ∧ ∀ k, k < 24 → (s1.stack k).repaired = (s.stack k).repaired
      (okA = true → Leads (.boot a b) s fun s1 => s1.bootstat = 6 ∧ s1.copyB = false ∧ s1.partid = (s.recordA.getD 16 0#8).toNat % 16 ∧ fresh s1) ∧
      (okA = false → okB = true → Leads (.boot a b) s fun s1 => s1.bootstat = 6 ∧ s1.copyB = true ∧ s1.partid = (s.recordB.getD 16 0#8).toNat % 16 ∧ fresh s1) ∧
      (okA = false → okB = false → Leads (.boot a b) s fun s1 => s1.bootstat = 1 ∧ s1.recovery = true ∧ fresh s1)) ∧
    (∀ a b, s.hotHold = true → Machine.exec (.boot a b) s = .next { s with bootstat := 1 }) ∧
    (s.ctlHalt = true → s.hotHold = false → Leads .controlRegionReload s fun s1 =>
      s1.ctlHalt = false ∧ s1.await = none ∧ s1.fq = s.fq ∧ s1.reloads = min 255 (s.reloads + 1) ∧ s1.mem = s.mem ∧ (∀ i, i < 64 → (s1.tile (4096 + i)).words = []) ∧
        ∀ g, g < 1024 → (∃ t ∈ (s.region g).allTiles, 4096 ≤ t) → (s1.region g).valid = false) ∧
    ((s.ctlHalt = false ∨ s.hotHold = true) → Waits .controlRegionReload s)
end

