-- ==== Sys2Proof/Laws/Agents.lean ====
section
/-!
SUPPORT. What one migration agent seals the other opens (R383), whatever the key stream and the tag are.
-/
namespace Sys2Proof.Machine

theorem crypt_length (key : BitVec 256) (nonce : Nat) (bs : List Payload) : (crypt key nonce bs).length = bs.length := by simp [crypt]

/-- Encrypting twice gives the beats back. -/
theorem crypt_crypt (key : BitVec 256) (nonce : Nat) (bs : List Payload) : crypt key nonce (crypt key nonce bs) = bs := by
  apply List.ext_getElem (by simp [crypt])
  intro i _ _
  simp [crypt, BitVec.xor_assoc]

/-- An image or notice opened under the key and nonce that sealed it is what was sealed. -/
theorem openBeats_sealBeats (key : BitVec 256) (nonce : Nat) (bs : List Payload) :
    openBeats key nonce ((sealBeats key nonce bs).1 ++ [(sealBeats key nonce bs).2]) = some bs := by
  simp [openBeats, sealBeats, crypt_crypt]

end Sys2Proof.Machine
end

