-- ==== Sys2Proof/Laws/Tables.lean ====
section
/-!
SUPPORT. Tables: what a lookup finds after an insertion or a removal, whatever the order of the table.
-/
namespace Sys2Proof.Machine

theorem tget_tset_same {α : Type} (d : α) (l : List (Nat × α)) (k : Nat) (v : α) : tget d (tset l k v) k = v := by
  induction l with
  | nil => simp [tset, tget]
  | cons p l ih =>
    obtain ⟨j, w⟩ := p
    simp only [tset]
    split
    · simp [tget]
    · split
      · simp [tget]
      · simp only [tget]; rw [if_neg (by omega)]; exact ih

theorem tget_tset_other {α : Type} (d : α) (l : List (Nat × α)) (k j : Nat) (v : α) (h : j ≠ k) :
    tget d (tset l k v) j = tget d l j := by
  induction l with
  | nil => simp [tset, tget]; omega
  | cons p l ih =>
    obtain ⟨i, w⟩ := p
    simp only [tset]
    split
    · simp only [tget]; rw [if_neg (by omega)]
    · split
      · next hk => simp only [tget]; rw [if_neg (by omega), if_neg (by omega)]
      · simp only [tget]; split
        · rfl
        · exact ih

@[simp] theorem tget_tset {α : Type} (d : α) (l : List (Nat × α)) (k j : Nat) (v : α) :
    tget d (tset l k v) j = if j = k then v else tget d l j := by
  split
  · next h => subst h; exact tget_tset_same d l j v
  · next h => exact tget_tset_other d l k j v h

@[simp] theorem tget?_tset {α : Type} (l : List (Nat × α)) (k j : Nat) (v : α) :
    tget? (tset l k v) j = if j = k then some v else tget? l j := by
  induction l with
  | nil => simp only [tset, tget?]; by_cases h : k = j <;> simp [h, eq_comm]
  | cons p l ih =>
    obtain ⟨i, w⟩ := p
    simp only [tset]
    split
    · simp only [tget?]; by_cases h : k = j <;> simp [h, eq_comm]
    · split
      · next hk => subst hk; simp only [tget?]; by_cases h : k = j <;> simp [h, eq_comm]
      · simp only [tget?, ih]; by_cases h : i = j
        · subst h; rw [if_pos rfl, if_neg (by omega)]; simp
        · simp [h]

@[simp] theorem tget_tdel {α : Type} (d : α) (l : List (Nat × α)) (k j : Nat) :
    tget d (tdel l k) j = if j = k then d else tget d l j := by
  induction l with
  | nil => simp [tdel, tget]
  | cons p l ih =>
    obtain ⟨i, w⟩ := p
    simp only [tdel]
    split
    · next h => subst h; rw [ih]; simp only [tget]; by_cases h : j = i
                · simp [h]
                · simp [h]; intro h'; omega
    · simp only [tget]; by_cases h : i = j
      · subst h; simp; intro h; omega
      · simp [h, ih]

theorem lset_length {α : Type} (l : List α) (i : Nat) (v : α) : (lset l i v).length = l.length := by
  induction l generalizing i with
  | nil => rfl
  | cons x l ih => cases i <;> simp [lset, ih]

theorem lset_getD {α : Type} (l : List α) (i j : Nat) (v d : α) :
    (lset l i v).getD j d = if j = i ∧ i < l.length then v else l.getD j d := by
  induction l generalizing i j with
  | nil => simp [lset]
  | cons x l ih =>
    cases i with
    | zero => cases j <;> simp [lset]
    | succ i =>
      cases j with
      | zero => simp [lset]
      | succ j => simpa [lset] using ih i j

end Sys2Proof.Machine
end

