-- ==== Sys2Proof/Laws/State.lean ====
section
/-!
SUPPORT. What each update of the state leaves as it was, field by field, and what the accessors read after it.
-/
namespace Sys2Proof.Machine

/-! setTile: every field but tiles. -/

@[simp] theorem State.setTile_agenda (s : State) (t : Nat) (x : Tile) : (s.setTile t x).agenda = s.agenda := rfl
@[simp] theorem State.setTile_tick (s : State) (t : Nat) (x : Tile) : (s.setTile t x).tick = s.tick := rfl
@[simp] theorem State.setTile_cursor (s : State) (t : Nat) (x : Tile) : (s.setTile t x).cursor = s.cursor := rfl
@[simp] theorem State.setTile_cycle (s : State) (t : Nat) (x : Tile) : (s.setTile t x).cycle = s.cycle := rfl
@[simp] theorem State.setTile_accessNo (s : State) (t : Nat) (x : Tile) : (s.setTile t x).accessNo = s.accessNo := rfl
@[simp] theorem State.setTile_uidNo (s : State) (t : Nat) (x : Tile) : (s.setTile t x).uidNo = s.uidNo := rfl
@[simp] theorem State.setTile_regions (s : State) (t : Nat) (x : Tile) : (s.setTile t x).regions = s.regions := rfl
@[simp] theorem State.setTile_ctxs (s : State) (t : Nat) (x : Tile) : (s.setTile t x).ctxs = s.ctxs := rfl
@[simp] theorem State.setTile_parts (s : State) (t : Nat) (x : Tile) : (s.setTile t x).parts = s.parts := rfl
@[simp] theorem State.setTile_launches (s : State) (t : Nat) (x : Tile) : (s.setTile t x).launches = s.launches := rfl
@[simp] theorem State.setTile_tables (s : State) (t : Nat) (x : Tile) : (s.setTile t x).tables = s.tables := rfl
@[simp] theorem State.setTile_bootstat (s : State) (t : Nat) (x : Tile) : (s.setTile t x).bootstat = s.bootstat := rfl
@[simp] theorem State.setTile_copyB (s : State) (t : Nat) (x : Tile) : (s.setTile t x).copyB = s.copyB := rfl
@[simp] theorem State.setTile_recovery (s : State) (t : Nat) (x : Tile) : (s.setTile t x).recovery = s.recovery := rfl
@[simp] theorem State.setTile_reloads (s : State) (t : Nat) (x : Tile) : (s.setTile t x).reloads = s.reloads := rfl
@[simp] theorem State.setTile_fqbase (s : State) (t : Nat) (x : Tile) : (s.setTile t x).fqbase = s.fqbase := rfl
@[simp] theorem State.setTile_fqsize (s : State) (t : Nat) (x : Tile) : (s.setTile t x).fqsize = s.fqsize := rfl
@[simp] theorem State.setTile_fqhead (s : State) (t : Nat) (x : Tile) : (s.setTile t x).fqhead = s.fqhead := rfl
@[simp] theorem State.setTile_fqtail (s : State) (t : Nat) (x : Tile) : (s.setTile t x).fqtail = s.fqtail := rfl
@[simp] theorem State.setTile_fqdrop (s : State) (t : Nat) (x : Tile) : (s.setTile t x).fqdrop = s.fqdrop := rfl
@[simp] theorem State.setTile_partid (s : State) (t : Nat) (x : Tile) : (s.setTile t x).partid = s.partid := rfl
@[simp] theorem State.setTile_hrobase (s : State) (t : Nat) (x : Tile) : (s.setTile t x).hrobase = s.hrobase := rfl
@[simp] theorem State.setTile_hrov (s : State) (t : Nat) (x : Tile) : (s.setTile t x).hrov = s.hrov := rfl
@[simp] theorem State.setTile_clkCeil (s : State) (t : Nat) (x : Tile) : (s.setTile t x).clkCeil = s.clkCeil := rfl
@[simp] theorem State.setTile_clkForce (s : State) (t : Nat) (x : Tile) : (s.setTile t x).clkForce = s.clkForce := rfl
@[simp] theorem State.setTile_pwrCap (s : State) (t : Nat) (x : Tile) : (s.setTile t x).pwrCap = s.pwrCap := rfl
@[simp] theorem State.setTile_thermal (s : State) (t : Nat) (x : Tile) : (s.setTile t x).thermal = s.thermal := rfl
@[simp] theorem State.setTile_spanroute (s : State) (t : Nat) (x : Tile) : (s.setTile t x).spanroute = s.spanroute := rfl
@[simp] theorem State.setTile_lifesel (s : State) (t : Nat) (x : Tile) : (s.setTile t x).lifesel = s.lifesel := rfl
@[simp] theorem State.setTile_life (s : State) (t : Nat) (x : Tile) : (s.setTile t x).life = s.life := rfl
@[simp] theorem State.setTile_lifeFlash (s : State) (t : Nat) (x : Tile) : (s.setTile t x).lifeFlash = s.lifeFlash := rfl
@[simp] theorem State.setTile_actctx (s : State) (t : Nat) (x : Tile) : (s.setTile t x).actctx = s.actctx := rfl
@[simp] theorem State.setTile_dcsplit (s : State) (t : Nat) (x : Tile) : (s.setTile t x).dcsplit = s.dcsplit := rfl
@[simp] theorem State.setTile_psqN (s : State) (t : Nat) (x : Tile) : (s.setTile t x).psqN = s.psqN := rfl
@[simp] theorem State.setTile_psqBase (s : State) (t : Nat) (x : Tile) : (s.setTile t x).psqBase = s.psqBase := rfl
@[simp] theorem State.setTile_psqPost (s : State) (t : Nat) (x : Tile) : (s.setTile t x).psqPost = s.psqPost := rfl
@[simp] theorem State.setTile_psqDone (s : State) (t : Nat) (x : Tile) : (s.setTile t x).psqDone = s.psqDone := rfl
@[simp] theorem State.setTile_psqBusy (s : State) (t : Nat) (x : Tile) : (s.setTile t x).psqBusy = s.psqBusy := rfl
@[simp] theorem State.setTile_held (s : State) (t : Nat) (x : Tile) : (s.setTile t x).held = s.held := rfl
@[simp] theorem State.setTile_fq (s : State) (t : Nat) (x : Tile) : (s.setTile t x).fq = s.fq := rfl
@[simp] theorem State.setTile_await (s : State) (t : Nat) (x : Tile) : (s.setTile t x).await = s.await := rfl
@[simp] theorem State.setTile_mem (s : State) (t : Nat) (x : Tile) : (s.setTile t x).mem = s.mem := rfl
@[simp] theorem State.setTile_lines (s : State) (t : Nat) (x : Tile) : (s.setTile t x).lines = s.lines := rfl
@[simp] theorem State.setTile_wiped (s : State) (t : Nat) (x : Tile) : (s.setTile t x).wiped = s.wiped := rfl
@[simp] theorem State.setTile_tcache (s : State) (t : Nat) (x : Tile) : (s.setTile t x).tcache = s.tcache := rfl
@[simp] theorem State.setTile_badBeats (s : State) (t : Nat) (x : Tile) : (s.setTile t x).badBeats = s.badBeats := rfl
@[simp] theorem State.setTile_counts (s : State) (t : Nat) (x : Tile) : (s.setTile t x).counts = s.counts := rfl
@[simp] theorem State.setTile_tags (s : State) (t : Nat) (x : Tile) : (s.setTile t x).tags = s.tags := rfl
@[simp] theorem State.setTile_dcwait (s : State) (t : Nat) (x : Tile) : (s.setTile t x).dcwait = s.dcwait := rfl
@[simp] theorem State.setTile_sessions (s : State) (t : Nat) (x : Tile) : (s.setTile t x).sessions = s.sessions := rfl
@[simp] theorem State.setTile_departures (s : State) (t : Nat) (x : Tile) : (s.setTile t x).departures = s.departures := rfl
@[simp] theorem State.setTile_arrivals (s : State) (t : Nat) (x : Tile) : (s.setTile t x).arrivals = s.arrivals := rfl
@[simp] theorem State.setTile_links (s : State) (t : Nat) (x : Tile) : (s.setTile t x).links = s.links := rfl
@[simp] theorem State.setTile_stacks (s : State) (t : Nat) (x : Tile) : (s.setTile t x).memStacks = s.memStacks := rfl
@[simp] theorem State.setTile_mr (s : State) (t : Nat) (x : Tile) : (s.setTile t x).mr = s.mr := rfl
@[simp] theorem State.setTile_keyNo (s : State) (t : Nat) (x : Tile) : (s.setTile t x).keyNo = s.keyNo := rfl
@[simp] theorem State.setTile_recordA (s : State) (t : Nat) (x : Tile) : (s.setTile t x).recordA = s.recordA := rfl
@[simp] theorem State.setTile_recordB (s : State) (t : Nat) (x : Tile) : (s.setTile t x).recordB = s.recordB := rfl
@[simp] theorem State.setTile_lanes (s : State) (t : Nat) (x : Tile) : (s.setTile t x).lanes = s.lanes := rfl
@[simp] theorem State.setTile_ways (s : State) (t : Nat) (x : Tile) : (s.setTile t x).ways = s.ways := rfl
@[simp] theorem State.setTile_overMs (s : State) (t : Nat) (x : Tile) : (s.setTile t x).overMs = s.overMs := rfl
@[simp] theorem State.setTile_holdFxt (s : State) (t : Nat) (x : Tile) : (s.setTile t x).holdFxt = s.holdFxt := rfl
@[simp] theorem State.setTile_ctlHalt (s : State) (t : Nat) (x : Tile) : (s.setTile t x).ctlHalt = s.ctlHalt := rfl
@[simp] theorem State.setTile_hotHold (s : State) (t : Nat) (x : Tile) : (s.setTile t x).hotHold = s.hotHold := rfl
@[simp] theorem State.setTile_out (s : State) (t : Nat) (x : Tile) : (s.setTile t x).out = s.out := rfl

/-! setRegion: every field but regions. -/

@[simp] theorem State.setRegion_agenda (s : State) (r : Nat) (x : Region) : (s.setRegion r x).agenda = s.agenda := rfl
@[simp] theorem State.setRegion_tick (s : State) (r : Nat) (x : Region) : (s.setRegion r x).tick = s.tick := rfl
@[simp] theorem State.setRegion_cursor (s : State) (r : Nat) (x : Region) : (s.setRegion r x).cursor = s.cursor := rfl
@[simp] theorem State.setRegion_cycle (s : State) (r : Nat) (x : Region) : (s.setRegion r x).cycle = s.cycle := rfl
@[simp] theorem State.setRegion_accessNo (s : State) (r : Nat) (x : Region) : (s.setRegion r x).accessNo = s.accessNo := rfl
@[simp] theorem State.setRegion_uidNo (s : State) (r : Nat) (x : Region) : (s.setRegion r x).uidNo = s.uidNo := rfl
@[simp] theorem State.setRegion_tiles (s : State) (r : Nat) (x : Region) : (s.setRegion r x).tiles = s.tiles := rfl
@[simp] theorem State.setRegion_ctxs (s : State) (r : Nat) (x : Region) : (s.setRegion r x).ctxs = s.ctxs := rfl
@[simp] theorem State.setRegion_parts (s : State) (r : Nat) (x : Region) : (s.setRegion r x).parts = s.parts := rfl
@[simp] theorem State.setRegion_launches (s : State) (r : Nat) (x : Region) : (s.setRegion r x).launches = s.launches := rfl
@[simp] theorem State.setRegion_tables (s : State) (r : Nat) (x : Region) : (s.setRegion r x).tables = s.tables := rfl
@[simp] theorem State.setRegion_bootstat (s : State) (r : Nat) (x : Region) : (s.setRegion r x).bootstat = s.bootstat := rfl
@[simp] theorem State.setRegion_copyB (s : State) (r : Nat) (x : Region) : (s.setRegion r x).copyB = s.copyB := rfl
@[simp] theorem State.setRegion_recovery (s : State) (r : Nat) (x : Region) : (s.setRegion r x).recovery = s.recovery := rfl
@[simp] theorem State.setRegion_reloads (s : State) (r : Nat) (x : Region) : (s.setRegion r x).reloads = s.reloads := rfl
@[simp] theorem State.setRegion_fqbase (s : State) (r : Nat) (x : Region) : (s.setRegion r x).fqbase = s.fqbase := rfl
@[simp] theorem State.setRegion_fqsize (s : State) (r : Nat) (x : Region) : (s.setRegion r x).fqsize = s.fqsize := rfl
@[simp] theorem State.setRegion_fqhead (s : State) (r : Nat) (x : Region) : (s.setRegion r x).fqhead = s.fqhead := rfl
@[simp] theorem State.setRegion_fqtail (s : State) (r : Nat) (x : Region) : (s.setRegion r x).fqtail = s.fqtail := rfl
@[simp] theorem State.setRegion_fqdrop (s : State) (r : Nat) (x : Region) : (s.setRegion r x).fqdrop = s.fqdrop := rfl
@[simp] theorem State.setRegion_partid (s : State) (r : Nat) (x : Region) : (s.setRegion r x).partid = s.partid := rfl
@[simp] theorem State.setRegion_hrobase (s : State) (r : Nat) (x : Region) : (s.setRegion r x).hrobase = s.hrobase := rfl
@[simp] theorem State.setRegion_hrov (s : State) (r : Nat) (x : Region) : (s.setRegion r x).hrov = s.hrov := rfl
@[simp] theorem State.setRegion_clkCeil (s : State) (r : Nat) (x : Region) : (s.setRegion r x).clkCeil = s.clkCeil := rfl
@[simp] theorem State.setRegion_clkForce (s : State) (r : Nat) (x : Region) : (s.setRegion r x).clkForce = s.clkForce := rfl
@[simp] theorem State.setRegion_pwrCap (s : State) (r : Nat) (x : Region) : (s.setRegion r x).pwrCap = s.pwrCap := rfl
@[simp] theorem State.setRegion_thermal (s : State) (r : Nat) (x : Region) : (s.setRegion r x).thermal = s.thermal := rfl
@[simp] theorem State.setRegion_spanroute (s : State) (r : Nat) (x : Region) : (s.setRegion r x).spanroute = s.spanroute := rfl
@[simp] theorem State.setRegion_lifesel (s : State) (r : Nat) (x : Region) : (s.setRegion r x).lifesel = s.lifesel := rfl
@[simp] theorem State.setRegion_life (s : State) (r : Nat) (x : Region) : (s.setRegion r x).life = s.life := rfl
@[simp] theorem State.setRegion_lifeFlash (s : State) (r : Nat) (x : Region) : (s.setRegion r x).lifeFlash = s.lifeFlash := rfl
@[simp] theorem State.setRegion_actctx (s : State) (r : Nat) (x : Region) : (s.setRegion r x).actctx = s.actctx := rfl
@[simp] theorem State.setRegion_dcsplit (s : State) (r : Nat) (x : Region) : (s.setRegion r x).dcsplit = s.dcsplit := rfl
@[simp] theorem State.setRegion_psqN (s : State) (r : Nat) (x : Region) : (s.setRegion r x).psqN = s.psqN := rfl
@[simp] theorem State.setRegion_psqBase (s : State) (r : Nat) (x : Region) : (s.setRegion r x).psqBase = s.psqBase := rfl
@[simp] theorem State.setRegion_psqPost (s : State) (r : Nat) (x : Region) : (s.setRegion r x).psqPost = s.psqPost := rfl
@[simp] theorem State.setRegion_psqDone (s : State) (r : Nat) (x : Region) : (s.setRegion r x).psqDone = s.psqDone := rfl
@[simp] theorem State.setRegion_psqBusy (s : State) (r : Nat) (x : Region) : (s.setRegion r x).psqBusy = s.psqBusy := rfl
@[simp] theorem State.setRegion_held (s : State) (r : Nat) (x : Region) : (s.setRegion r x).held = s.held := rfl
@[simp] theorem State.setRegion_fq (s : State) (r : Nat) (x : Region) : (s.setRegion r x).fq = s.fq := rfl
@[simp] theorem State.setRegion_await (s : State) (r : Nat) (x : Region) : (s.setRegion r x).await = s.await := rfl
@[simp] theorem State.setRegion_mem (s : State) (r : Nat) (x : Region) : (s.setRegion r x).mem = s.mem := rfl
@[simp] theorem State.setRegion_lines (s : State) (r : Nat) (x : Region) : (s.setRegion r x).lines = s.lines := rfl
@[simp] theorem State.setRegion_wiped (s : State) (r : Nat) (x : Region) : (s.setRegion r x).wiped = s.wiped := rfl
@[simp] theorem State.setRegion_tcache (s : State) (r : Nat) (x : Region) : (s.setRegion r x).tcache = s.tcache := rfl
@[simp] theorem State.setRegion_badBeats (s : State) (r : Nat) (x : Region) : (s.setRegion r x).badBeats = s.badBeats := rfl
@[simp] theorem State.setRegion_counts (s : State) (r : Nat) (x : Region) : (s.setRegion r x).counts = s.counts := rfl
@[simp] theorem State.setRegion_tags (s : State) (r : Nat) (x : Region) : (s.setRegion r x).tags = s.tags := rfl
@[simp] theorem State.setRegion_dcwait (s : State) (r : Nat) (x : Region) : (s.setRegion r x).dcwait = s.dcwait := rfl
@[simp] theorem State.setRegion_sessions (s : State) (r : Nat) (x : Region) : (s.setRegion r x).sessions = s.sessions := rfl
@[simp] theorem State.setRegion_departures (s : State) (r : Nat) (x : Region) : (s.setRegion r x).departures = s.departures := rfl
@[simp] theorem State.setRegion_arrivals (s : State) (r : Nat) (x : Region) : (s.setRegion r x).arrivals = s.arrivals := rfl
@[simp] theorem State.setRegion_links (s : State) (r : Nat) (x : Region) : (s.setRegion r x).links = s.links := rfl
@[simp] theorem State.setRegion_stacks (s : State) (r : Nat) (x : Region) : (s.setRegion r x).memStacks = s.memStacks := rfl
@[simp] theorem State.setRegion_mr (s : State) (r : Nat) (x : Region) : (s.setRegion r x).mr = s.mr := rfl
@[simp] theorem State.setRegion_keyNo (s : State) (r : Nat) (x : Region) : (s.setRegion r x).keyNo = s.keyNo := rfl
@[simp] theorem State.setRegion_recordA (s : State) (r : Nat) (x : Region) : (s.setRegion r x).recordA = s.recordA := rfl
@[simp] theorem State.setRegion_recordB (s : State) (r : Nat) (x : Region) : (s.setRegion r x).recordB = s.recordB := rfl
@[simp] theorem State.setRegion_lanes (s : State) (r : Nat) (x : Region) : (s.setRegion r x).lanes = s.lanes := rfl
@[simp] theorem State.setRegion_ways (s : State) (r : Nat) (x : Region) : (s.setRegion r x).ways = s.ways := rfl
@[simp] theorem State.setRegion_overMs (s : State) (r : Nat) (x : Region) : (s.setRegion r x).overMs = s.overMs := rfl
@[simp] theorem State.setRegion_holdFxt (s : State) (r : Nat) (x : Region) : (s.setRegion r x).holdFxt = s.holdFxt := rfl
@[simp] theorem State.setRegion_ctlHalt (s : State) (r : Nat) (x : Region) : (s.setRegion r x).ctlHalt = s.ctlHalt := rfl
@[simp] theorem State.setRegion_hotHold (s : State) (r : Nat) (x : Region) : (s.setRegion r x).hotHold = s.hotHold := rfl
@[simp] theorem State.setRegion_out (s : State) (r : Nat) (x : Region) : (s.setRegion r x).out = s.out := rfl

/-! setCtx: every field but ctxs. -/

@[simp] theorem State.setCtx_agenda (s : State) (c : Nat) (x : Ctx) : (s.setCtx c x).agenda = s.agenda := rfl
@[simp] theorem State.setCtx_tick (s : State) (c : Nat) (x : Ctx) : (s.setCtx c x).tick = s.tick := rfl
@[simp] theorem State.setCtx_cursor (s : State) (c : Nat) (x : Ctx) : (s.setCtx c x).cursor = s.cursor := rfl
@[simp] theorem State.setCtx_cycle (s : State) (c : Nat) (x : Ctx) : (s.setCtx c x).cycle = s.cycle := rfl
@[simp] theorem State.setCtx_accessNo (s : State) (c : Nat) (x : Ctx) : (s.setCtx c x).accessNo = s.accessNo := rfl
@[simp] theorem State.setCtx_uidNo (s : State) (c : Nat) (x : Ctx) : (s.setCtx c x).uidNo = s.uidNo := rfl
@[simp] theorem State.setCtx_tiles (s : State) (c : Nat) (x : Ctx) : (s.setCtx c x).tiles = s.tiles := rfl
@[simp] theorem State.setCtx_regions (s : State) (c : Nat) (x : Ctx) : (s.setCtx c x).regions = s.regions := rfl
@[simp] theorem State.setCtx_parts (s : State) (c : Nat) (x : Ctx) : (s.setCtx c x).parts = s.parts := rfl
@[simp] theorem State.setCtx_launches (s : State) (c : Nat) (x : Ctx) : (s.setCtx c x).launches = s.launches := rfl
@[simp] theorem State.setCtx_tables (s : State) (c : Nat) (x : Ctx) : (s.setCtx c x).tables = s.tables := rfl
@[simp] theorem State.setCtx_bootstat (s : State) (c : Nat) (x : Ctx) : (s.setCtx c x).bootstat = s.bootstat := rfl
@[simp] theorem State.setCtx_copyB (s : State) (c : Nat) (x : Ctx) : (s.setCtx c x).copyB = s.copyB := rfl
@[simp] theorem State.setCtx_recovery (s : State) (c : Nat) (x : Ctx) : (s.setCtx c x).recovery = s.recovery := rfl
@[simp] theorem State.setCtx_reloads (s : State) (c : Nat) (x : Ctx) : (s.setCtx c x).reloads = s.reloads := rfl
@[simp] theorem State.setCtx_fqbase (s : State) (c : Nat) (x : Ctx) : (s.setCtx c x).fqbase = s.fqbase := rfl
@[simp] theorem State.setCtx_fqsize (s : State) (c : Nat) (x : Ctx) : (s.setCtx c x).fqsize = s.fqsize := rfl
@[simp] theorem State.setCtx_fqhead (s : State) (c : Nat) (x : Ctx) : (s.setCtx c x).fqhead = s.fqhead := rfl
@[simp] theorem State.setCtx_fqtail (s : State) (c : Nat) (x : Ctx) : (s.setCtx c x).fqtail = s.fqtail := rfl
@[simp] theorem State.setCtx_fqdrop (s : State) (c : Nat) (x : Ctx) : (s.setCtx c x).fqdrop = s.fqdrop := rfl
@[simp] theorem State.setCtx_partid (s : State) (c : Nat) (x : Ctx) : (s.setCtx c x).partid = s.partid := rfl
@[simp] theorem State.setCtx_hrobase (s : State) (c : Nat) (x : Ctx) : (s.setCtx c x).hrobase = s.hrobase := rfl
@[simp] theorem State.setCtx_hrov (s : State) (c : Nat) (x : Ctx) : (s.setCtx c x).hrov = s.hrov := rfl
@[simp] theorem State.setCtx_clkCeil (s : State) (c : Nat) (x : Ctx) : (s.setCtx c x).clkCeil = s.clkCeil := rfl
@[simp] theorem State.setCtx_clkForce (s : State) (c : Nat) (x : Ctx) : (s.setCtx c x).clkForce = s.clkForce := rfl
@[simp] theorem State.setCtx_pwrCap (s : State) (c : Nat) (x : Ctx) : (s.setCtx c x).pwrCap = s.pwrCap := rfl
@[simp] theorem State.setCtx_thermal (s : State) (c : Nat) (x : Ctx) : (s.setCtx c x).thermal = s.thermal := rfl
@[simp] theorem State.setCtx_spanroute (s : State) (c : Nat) (x : Ctx) : (s.setCtx c x).spanroute = s.spanroute := rfl
@[simp] theorem State.setCtx_lifesel (s : State) (c : Nat) (x : Ctx) : (s.setCtx c x).lifesel = s.lifesel := rfl
@[simp] theorem State.setCtx_life (s : State) (c : Nat) (x : Ctx) : (s.setCtx c x).life = s.life := rfl
@[simp] theorem State.setCtx_lifeFlash (s : State) (c : Nat) (x : Ctx) : (s.setCtx c x).lifeFlash = s.lifeFlash := rfl
@[simp] theorem State.setCtx_actctx (s : State) (c : Nat) (x : Ctx) : (s.setCtx c x).actctx = s.actctx := rfl
@[simp] theorem State.setCtx_dcsplit (s : State) (c : Nat) (x : Ctx) : (s.setCtx c x).dcsplit = s.dcsplit := rfl
@[simp] theorem State.setCtx_psqN (s : State) (c : Nat) (x : Ctx) : (s.setCtx c x).psqN = s.psqN := rfl
@[simp] theorem State.setCtx_psqBase (s : State) (c : Nat) (x : Ctx) : (s.setCtx c x).psqBase = s.psqBase := rfl
@[simp] theorem State.setCtx_psqPost (s : State) (c : Nat) (x : Ctx) : (s.setCtx c x).psqPost = s.psqPost := rfl
@[simp] theorem State.setCtx_psqDone (s : State) (c : Nat) (x : Ctx) : (s.setCtx c x).psqDone = s.psqDone := rfl
@[simp] theorem State.setCtx_psqBusy (s : State) (c : Nat) (x : Ctx) : (s.setCtx c x).psqBusy = s.psqBusy := rfl
@[simp] theorem State.setCtx_held (s : State) (c : Nat) (x : Ctx) : (s.setCtx c x).held = s.held := rfl
@[simp] theorem State.setCtx_fq (s : State) (c : Nat) (x : Ctx) : (s.setCtx c x).fq = s.fq := rfl
@[simp] theorem State.setCtx_await (s : State) (c : Nat) (x : Ctx) : (s.setCtx c x).await = s.await := rfl
@[simp] theorem State.setCtx_mem (s : State) (c : Nat) (x : Ctx) : (s.setCtx c x).mem = s.mem := rfl
@[simp] theorem State.setCtx_lines (s : State) (c : Nat) (x : Ctx) : (s.setCtx c x).lines = s.lines := rfl
@[simp] theorem State.setCtx_wiped (s : State) (c : Nat) (x : Ctx) : (s.setCtx c x).wiped = s.wiped := rfl
@[simp] theorem State.setCtx_tcache (s : State) (c : Nat) (x : Ctx) : (s.setCtx c x).tcache = s.tcache := rfl
@[simp] theorem State.setCtx_badBeats (s : State) (c : Nat) (x : Ctx) : (s.setCtx c x).badBeats = s.badBeats := rfl
@[simp] theorem State.setCtx_counts (s : State) (c : Nat) (x : Ctx) : (s.setCtx c x).counts = s.counts := rfl
@[simp] theorem State.setCtx_tags (s : State) (c : Nat) (x : Ctx) : (s.setCtx c x).tags = s.tags := rfl
@[simp] theorem State.setCtx_dcwait (s : State) (c : Nat) (x : Ctx) : (s.setCtx c x).dcwait = s.dcwait := rfl
@[simp] theorem State.setCtx_sessions (s : State) (c : Nat) (x : Ctx) : (s.setCtx c x).sessions = s.sessions := rfl
@[simp] theorem State.setCtx_departures (s : State) (c : Nat) (x : Ctx) : (s.setCtx c x).departures = s.departures := rfl
@[simp] theorem State.setCtx_arrivals (s : State) (c : Nat) (x : Ctx) : (s.setCtx c x).arrivals = s.arrivals := rfl
@[simp] theorem State.setCtx_links (s : State) (c : Nat) (x : Ctx) : (s.setCtx c x).links = s.links := rfl
@[simp] theorem State.setCtx_stacks (s : State) (c : Nat) (x : Ctx) : (s.setCtx c x).memStacks = s.memStacks := rfl
@[simp] theorem State.setCtx_mr (s : State) (c : Nat) (x : Ctx) : (s.setCtx c x).mr = s.mr := rfl
@[simp] theorem State.setCtx_keyNo (s : State) (c : Nat) (x : Ctx) : (s.setCtx c x).keyNo = s.keyNo := rfl
@[simp] theorem State.setCtx_recordA (s : State) (c : Nat) (x : Ctx) : (s.setCtx c x).recordA = s.recordA := rfl
@[simp] theorem State.setCtx_recordB (s : State) (c : Nat) (x : Ctx) : (s.setCtx c x).recordB = s.recordB := rfl
@[simp] theorem State.setCtx_lanes (s : State) (c : Nat) (x : Ctx) : (s.setCtx c x).lanes = s.lanes := rfl
@[simp] theorem State.setCtx_ways (s : State) (c : Nat) (x : Ctx) : (s.setCtx c x).ways = s.ways := rfl
@[simp] theorem State.setCtx_overMs (s : State) (c : Nat) (x : Ctx) : (s.setCtx c x).overMs = s.overMs := rfl
@[simp] theorem State.setCtx_holdFxt (s : State) (c : Nat) (x : Ctx) : (s.setCtx c x).holdFxt = s.holdFxt := rfl
@[simp] theorem State.setCtx_ctlHalt (s : State) (c : Nat) (x : Ctx) : (s.setCtx c x).ctlHalt = s.ctlHalt := rfl
@[simp] theorem State.setCtx_hotHold (s : State) (c : Nat) (x : Ctx) : (s.setCtx c x).hotHold = s.hotHold := rfl
@[simp] theorem State.setCtx_out (s : State) (c : Nat) (x : Ctx) : (s.setCtx c x).out = s.out := rfl

/-! setPart: every field but parts. -/

@[simp] theorem State.setPart_agenda (s : State) (p : Nat) (x : Part) : (s.setPart p x).agenda = s.agenda := rfl
@[simp] theorem State.setPart_tick (s : State) (p : Nat) (x : Part) : (s.setPart p x).tick = s.tick := rfl
@[simp] theorem State.setPart_cursor (s : State) (p : Nat) (x : Part) : (s.setPart p x).cursor = s.cursor := rfl
@[simp] theorem State.setPart_cycle (s : State) (p : Nat) (x : Part) : (s.setPart p x).cycle = s.cycle := rfl
@[simp] theorem State.setPart_accessNo (s : State) (p : Nat) (x : Part) : (s.setPart p x).accessNo = s.accessNo := rfl
@[simp] theorem State.setPart_uidNo (s : State) (p : Nat) (x : Part) : (s.setPart p x).uidNo = s.uidNo := rfl
@[simp] theorem State.setPart_tiles (s : State) (p : Nat) (x : Part) : (s.setPart p x).tiles = s.tiles := rfl
@[simp] theorem State.setPart_regions (s : State) (p : Nat) (x : Part) : (s.setPart p x).regions = s.regions := rfl
@[simp] theorem State.setPart_ctxs (s : State) (p : Nat) (x : Part) : (s.setPart p x).ctxs = s.ctxs := rfl
@[simp] theorem State.setPart_launches (s : State) (p : Nat) (x : Part) : (s.setPart p x).launches = s.launches := rfl
@[simp] theorem State.setPart_tables (s : State) (p : Nat) (x : Part) : (s.setPart p x).tables = s.tables := rfl
@[simp] theorem State.setPart_bootstat (s : State) (p : Nat) (x : Part) : (s.setPart p x).bootstat = s.bootstat := rfl
@[simp] theorem State.setPart_copyB (s : State) (p : Nat) (x : Part) : (s.setPart p x).copyB = s.copyB := rfl
@[simp] theorem State.setPart_recovery (s : State) (p : Nat) (x : Part) : (s.setPart p x).recovery = s.recovery := rfl
@[simp] theorem State.setPart_reloads (s : State) (p : Nat) (x : Part) : (s.setPart p x).reloads = s.reloads := rfl
@[simp] theorem State.setPart_fqbase (s : State) (p : Nat) (x : Part) : (s.setPart p x).fqbase = s.fqbase := rfl
@[simp] theorem State.setPart_fqsize (s : State) (p : Nat) (x : Part) : (s.setPart p x).fqsize = s.fqsize := rfl
@[simp] theorem State.setPart_fqhead (s : State) (p : Nat) (x : Part) : (s.setPart p x).fqhead = s.fqhead := rfl
@[simp] theorem State.setPart_fqtail (s : State) (p : Nat) (x : Part) : (s.setPart p x).fqtail = s.fqtail := rfl
@[simp] theorem State.setPart_fqdrop (s : State) (p : Nat) (x : Part) : (s.setPart p x).fqdrop = s.fqdrop := rfl
@[simp] theorem State.setPart_partid (s : State) (p : Nat) (x : Part) : (s.setPart p x).partid = s.partid := rfl
@[simp] theorem State.setPart_hrobase (s : State) (p : Nat) (x : Part) : (s.setPart p x).hrobase = s.hrobase := rfl
@[simp] theorem State.setPart_hrov (s : State) (p : Nat) (x : Part) : (s.setPart p x).hrov = s.hrov := rfl
@[simp] theorem State.setPart_clkCeil (s : State) (p : Nat) (x : Part) : (s.setPart p x).clkCeil = s.clkCeil := rfl
@[simp] theorem State.setPart_clkForce (s : State) (p : Nat) (x : Part) : (s.setPart p x).clkForce = s.clkForce := rfl
@[simp] theorem State.setPart_pwrCap (s : State) (p : Nat) (x : Part) : (s.setPart p x).pwrCap = s.pwrCap := rfl
@[simp] theorem State.setPart_thermal (s : State) (p : Nat) (x : Part) : (s.setPart p x).thermal = s.thermal := rfl
@[simp] theorem State.setPart_spanroute (s : State) (p : Nat) (x : Part) : (s.setPart p x).spanroute = s.spanroute := rfl
@[simp] theorem State.setPart_lifesel (s : State) (p : Nat) (x : Part) : (s.setPart p x).lifesel = s.lifesel := rfl
@[simp] theorem State.setPart_life (s : State) (p : Nat) (x : Part) : (s.setPart p x).life = s.life := rfl
@[simp] theorem State.setPart_lifeFlash (s : State) (p : Nat) (x : Part) : (s.setPart p x).lifeFlash = s.lifeFlash := rfl
@[simp] theorem State.setPart_actctx (s : State) (p : Nat) (x : Part) : (s.setPart p x).actctx = s.actctx := rfl
@[simp] theorem State.setPart_dcsplit (s : State) (p : Nat) (x : Part) : (s.setPart p x).dcsplit = s.dcsplit := rfl
@[simp] theorem State.setPart_psqN (s : State) (p : Nat) (x : Part) : (s.setPart p x).psqN = s.psqN := rfl
@[simp] theorem State.setPart_psqBase (s : State) (p : Nat) (x : Part) : (s.setPart p x).psqBase = s.psqBase := rfl
@[simp] theorem State.setPart_psqPost (s : State) (p : Nat) (x : Part) : (s.setPart p x).psqPost = s.psqPost := rfl
@[simp] theorem State.setPart_psqDone (s : State) (p : Nat) (x : Part) : (s.setPart p x).psqDone = s.psqDone := rfl
@[simp] theorem State.setPart_psqBusy (s : State) (p : Nat) (x : Part) : (s.setPart p x).psqBusy = s.psqBusy := rfl
@[simp] theorem State.setPart_held (s : State) (p : Nat) (x : Part) : (s.setPart p x).held = s.held := rfl
@[simp] theorem State.setPart_fq (s : State) (p : Nat) (x : Part) : (s.setPart p x).fq = s.fq := rfl
@[simp] theorem State.setPart_await (s : State) (p : Nat) (x : Part) : (s.setPart p x).await = s.await := rfl
@[simp] theorem State.setPart_mem (s : State) (p : Nat) (x : Part) : (s.setPart p x).mem = s.mem := rfl
@[simp] theorem State.setPart_lines (s : State) (p : Nat) (x : Part) : (s.setPart p x).lines = s.lines := rfl
@[simp] theorem State.setPart_wiped (s : State) (p : Nat) (x : Part) : (s.setPart p x).wiped = s.wiped := rfl
@[simp] theorem State.setPart_tcache (s : State) (p : Nat) (x : Part) : (s.setPart p x).tcache = s.tcache := rfl
@[simp] theorem State.setPart_badBeats (s : State) (p : Nat) (x : Part) : (s.setPart p x).badBeats = s.badBeats := rfl
@[simp] theorem State.setPart_counts (s : State) (p : Nat) (x : Part) : (s.setPart p x).counts = s.counts := rfl
@[simp] theorem State.setPart_tags (s : State) (p : Nat) (x : Part) : (s.setPart p x).tags = s.tags := rfl
@[simp] theorem State.setPart_dcwait (s : State) (p : Nat) (x : Part) : (s.setPart p x).dcwait = s.dcwait := rfl
@[simp] theorem State.setPart_sessions (s : State) (p : Nat) (x : Part) : (s.setPart p x).sessions = s.sessions := rfl
@[simp] theorem State.setPart_departures (s : State) (p : Nat) (x : Part) : (s.setPart p x).departures = s.departures := rfl
@[simp] theorem State.setPart_arrivals (s : State) (p : Nat) (x : Part) : (s.setPart p x).arrivals = s.arrivals := rfl
@[simp] theorem State.setPart_links (s : State) (p : Nat) (x : Part) : (s.setPart p x).links = s.links := rfl
@[simp] theorem State.setPart_stacks (s : State) (p : Nat) (x : Part) : (s.setPart p x).memStacks = s.memStacks := rfl
@[simp] theorem State.setPart_mr (s : State) (p : Nat) (x : Part) : (s.setPart p x).mr = s.mr := rfl
@[simp] theorem State.setPart_keyNo (s : State) (p : Nat) (x : Part) : (s.setPart p x).keyNo = s.keyNo := rfl
@[simp] theorem State.setPart_recordA (s : State) (p : Nat) (x : Part) : (s.setPart p x).recordA = s.recordA := rfl
@[simp] theorem State.setPart_recordB (s : State) (p : Nat) (x : Part) : (s.setPart p x).recordB = s.recordB := rfl
@[simp] theorem State.setPart_lanes (s : State) (p : Nat) (x : Part) : (s.setPart p x).lanes = s.lanes := rfl
@[simp] theorem State.setPart_ways (s : State) (p : Nat) (x : Part) : (s.setPart p x).ways = s.ways := rfl
@[simp] theorem State.setPart_overMs (s : State) (p : Nat) (x : Part) : (s.setPart p x).overMs = s.overMs := rfl
@[simp] theorem State.setPart_holdFxt (s : State) (p : Nat) (x : Part) : (s.setPart p x).holdFxt = s.holdFxt := rfl
@[simp] theorem State.setPart_ctlHalt (s : State) (p : Nat) (x : Part) : (s.setPart p x).ctlHalt = s.ctlHalt := rfl
@[simp] theorem State.setPart_hotHold (s : State) (p : Nat) (x : Part) : (s.setPart p x).hotHold = s.hotHold := rfl
@[simp] theorem State.setPart_out (s : State) (p : Nat) (x : Part) : (s.setPart p x).out = s.out := rfl

/-! setLink: every field but links. -/

@[simp] theorem State.setLink_agenda (s : State) (k : Nat) (x : LinkSt) : (s.setLink k x).agenda = s.agenda := rfl
@[simp] theorem State.setLink_tick (s : State) (k : Nat) (x : LinkSt) : (s.setLink k x).tick = s.tick := rfl
@[simp] theorem State.setLink_cursor (s : State) (k : Nat) (x : LinkSt) : (s.setLink k x).cursor = s.cursor := rfl
@[simp] theorem State.setLink_cycle (s : State) (k : Nat) (x : LinkSt) : (s.setLink k x).cycle = s.cycle := rfl
@[simp] theorem State.setLink_accessNo (s : State) (k : Nat) (x : LinkSt) : (s.setLink k x).accessNo = s.accessNo := rfl
@[simp] theorem State.setLink_uidNo (s : State) (k : Nat) (x : LinkSt) : (s.setLink k x).uidNo = s.uidNo := rfl
@[simp] theorem State.setLink_tiles (s : State) (k : Nat) (x : LinkSt) : (s.setLink k x).tiles = s.tiles := rfl
@[simp] theorem State.setLink_regions (s : State) (k : Nat) (x : LinkSt) : (s.setLink k x).regions = s.regions := rfl
@[simp] theorem State.setLink_ctxs (s : State) (k : Nat) (x : LinkSt) : (s.setLink k x).ctxs = s.ctxs := rfl
@[simp] theorem State.setLink_parts (s : State) (k : Nat) (x : LinkSt) : (s.setLink k x).parts = s.parts := rfl
@[simp] theorem State.setLink_launches (s : State) (k : Nat) (x : LinkSt) : (s.setLink k x).launches = s.launches := rfl
@[simp] theorem State.setLink_tables (s : State) (k : Nat) (x : LinkSt) : (s.setLink k x).tables = s.tables := rfl
@[simp] theorem State.setLink_bootstat (s : State) (k : Nat) (x : LinkSt) : (s.setLink k x).bootstat = s.bootstat := rfl
@[simp] theorem State.setLink_copyB (s : State) (k : Nat) (x : LinkSt) : (s.setLink k x).copyB = s.copyB := rfl
@[simp] theorem State.setLink_recovery (s : State) (k : Nat) (x : LinkSt) : (s.setLink k x).recovery = s.recovery := rfl
@[simp] theorem State.setLink_reloads (s : State) (k : Nat) (x : LinkSt) : (s.setLink k x).reloads = s.reloads := rfl
@[simp] theorem State.setLink_fqbase (s : State) (k : Nat) (x : LinkSt) : (s.setLink k x).fqbase = s.fqbase := rfl
@[simp] theorem State.setLink_fqsize (s : State) (k : Nat) (x : LinkSt) : (s.setLink k x).fqsize = s.fqsize := rfl
@[simp] theorem State.setLink_fqhead (s : State) (k : Nat) (x : LinkSt) : (s.setLink k x).fqhead = s.fqhead := rfl
@[simp] theorem State.setLink_fqtail (s : State) (k : Nat) (x : LinkSt) : (s.setLink k x).fqtail = s.fqtail := rfl
@[simp] theorem State.setLink_fqdrop (s : State) (k : Nat) (x : LinkSt) : (s.setLink k x).fqdrop = s.fqdrop := rfl
@[simp] theorem State.setLink_partid (s : State) (k : Nat) (x : LinkSt) : (s.setLink k x).partid = s.partid := rfl
@[simp] theorem State.setLink_hrobase (s : State) (k : Nat) (x : LinkSt) : (s.setLink k x).hrobase = s.hrobase := rfl
@[simp] theorem State.setLink_hrov (s : State) (k : Nat) (x : LinkSt) : (s.setLink k x).hrov = s.hrov := rfl
@[simp] theorem State.setLink_clkCeil (s : State) (k : Nat) (x : LinkSt) : (s.setLink k x).clkCeil = s.clkCeil := rfl
@[simp] theorem State.setLink_clkForce (s : State) (k : Nat) (x : LinkSt) : (s.setLink k x).clkForce = s.clkForce := rfl
@[simp] theorem State.setLink_pwrCap (s : State) (k : Nat) (x : LinkSt) : (s.setLink k x).pwrCap = s.pwrCap := rfl
@[simp] theorem State.setLink_thermal (s : State) (k : Nat) (x : LinkSt) : (s.setLink k x).thermal = s.thermal := rfl
@[simp] theorem State.setLink_spanroute (s : State) (k : Nat) (x : LinkSt) : (s.setLink k x).spanroute = s.spanroute := rfl
@[simp] theorem State.setLink_lifesel (s : State) (k : Nat) (x : LinkSt) : (s.setLink k x).lifesel = s.lifesel := rfl
@[simp] theorem State.setLink_life (s : State) (k : Nat) (x : LinkSt) : (s.setLink k x).life = s.life := rfl
@[simp] theorem State.setLink_lifeFlash (s : State) (k : Nat) (x : LinkSt) : (s.setLink k x).lifeFlash = s.lifeFlash := rfl
@[simp] theorem State.setLink_actctx (s : State) (k : Nat) (x : LinkSt) : (s.setLink k x).actctx = s.actctx := rfl
@[simp] theorem State.setLink_dcsplit (s : State) (k : Nat) (x : LinkSt) : (s.setLink k x).dcsplit = s.dcsplit := rfl
@[simp] theorem State.setLink_psqN (s : State) (k : Nat) (x : LinkSt) : (s.setLink k x).psqN = s.psqN := rfl
@[simp] theorem State.setLink_psqBase (s : State) (k : Nat) (x : LinkSt) : (s.setLink k x).psqBase = s.psqBase := rfl
@[simp] theorem State.setLink_psqPost (s : State) (k : Nat) (x : LinkSt) : (s.setLink k x).psqPost = s.psqPost := rfl
@[simp] theorem State.setLink_psqDone (s : State) (k : Nat) (x : LinkSt) : (s.setLink k x).psqDone = s.psqDone := rfl
@[simp] theorem State.setLink_psqBusy (s : State) (k : Nat) (x : LinkSt) : (s.setLink k x).psqBusy = s.psqBusy := rfl
@[simp] theorem State.setLink_held (s : State) (k : Nat) (x : LinkSt) : (s.setLink k x).held = s.held := rfl
@[simp] theorem State.setLink_fq (s : State) (k : Nat) (x : LinkSt) : (s.setLink k x).fq = s.fq := rfl
@[simp] theorem State.setLink_await (s : State) (k : Nat) (x : LinkSt) : (s.setLink k x).await = s.await := rfl
@[simp] theorem State.setLink_mem (s : State) (k : Nat) (x : LinkSt) : (s.setLink k x).mem = s.mem := rfl
@[simp] theorem State.setLink_lines (s : State) (k : Nat) (x : LinkSt) : (s.setLink k x).lines = s.lines := rfl
@[simp] theorem State.setLink_wiped (s : State) (k : Nat) (x : LinkSt) : (s.setLink k x).wiped = s.wiped := rfl
@[simp] theorem State.setLink_tcache (s : State) (k : Nat) (x : LinkSt) : (s.setLink k x).tcache = s.tcache := rfl
@[simp] theorem State.setLink_badBeats (s : State) (k : Nat) (x : LinkSt) : (s.setLink k x).badBeats = s.badBeats := rfl
@[simp] theorem State.setLink_counts (s : State) (k : Nat) (x : LinkSt) : (s.setLink k x).counts = s.counts := rfl
@[simp] theorem State.setLink_tags (s : State) (k : Nat) (x : LinkSt) : (s.setLink k x).tags = s.tags := rfl
@[simp] theorem State.setLink_dcwait (s : State) (k : Nat) (x : LinkSt) : (s.setLink k x).dcwait = s.dcwait := rfl
@[simp] theorem State.setLink_sessions (s : State) (k : Nat) (x : LinkSt) : (s.setLink k x).sessions = s.sessions := rfl
@[simp] theorem State.setLink_departures (s : State) (k : Nat) (x : LinkSt) : (s.setLink k x).departures = s.departures := rfl
@[simp] theorem State.setLink_arrivals (s : State) (k : Nat) (x : LinkSt) : (s.setLink k x).arrivals = s.arrivals := rfl
@[simp] theorem State.setLink_stacks (s : State) (k : Nat) (x : LinkSt) : (s.setLink k x).memStacks = s.memStacks := rfl
@[simp] theorem State.setLink_mr (s : State) (k : Nat) (x : LinkSt) : (s.setLink k x).mr = s.mr := rfl
@[simp] theorem State.setLink_keyNo (s : State) (k : Nat) (x : LinkSt) : (s.setLink k x).keyNo = s.keyNo := rfl
@[simp] theorem State.setLink_recordA (s : State) (k : Nat) (x : LinkSt) : (s.setLink k x).recordA = s.recordA := rfl
@[simp] theorem State.setLink_recordB (s : State) (k : Nat) (x : LinkSt) : (s.setLink k x).recordB = s.recordB := rfl
@[simp] theorem State.setLink_lanes (s : State) (k : Nat) (x : LinkSt) : (s.setLink k x).lanes = s.lanes := rfl
@[simp] theorem State.setLink_ways (s : State) (k : Nat) (x : LinkSt) : (s.setLink k x).ways = s.ways := rfl
@[simp] theorem State.setLink_overMs (s : State) (k : Nat) (x : LinkSt) : (s.setLink k x).overMs = s.overMs := rfl
@[simp] theorem State.setLink_holdFxt (s : State) (k : Nat) (x : LinkSt) : (s.setLink k x).holdFxt = s.holdFxt := rfl
@[simp] theorem State.setLink_ctlHalt (s : State) (k : Nat) (x : LinkSt) : (s.setLink k x).ctlHalt = s.ctlHalt := rfl
@[simp] theorem State.setLink_hotHold (s : State) (k : Nat) (x : LinkSt) : (s.setLink k x).hotHold = s.hotHold := rfl
@[simp] theorem State.setLink_out (s : State) (k : Nat) (x : LinkSt) : (s.setLink k x).out = s.out := rfl

/-! setStack: every field but memStacks. -/

@[simp] theorem State.setStack_agenda (s : State) (k : Nat) (x : Stack) : (s.setStack k x).agenda = s.agenda := rfl
@[simp] theorem State.setStack_tick (s : State) (k : Nat) (x : Stack) : (s.setStack k x).tick = s.tick := rfl
@[simp] theorem State.setStack_cursor (s : State) (k : Nat) (x : Stack) : (s.setStack k x).cursor = s.cursor := rfl
@[simp] theorem State.setStack_cycle (s : State) (k : Nat) (x : Stack) : (s.setStack k x).cycle = s.cycle := rfl
@[simp] theorem State.setStack_accessNo (s : State) (k : Nat) (x : Stack) : (s.setStack k x).accessNo = s.accessNo := rfl
@[simp] theorem State.setStack_uidNo (s : State) (k : Nat) (x : Stack) : (s.setStack k x).uidNo = s.uidNo := rfl
@[simp] theorem State.setStack_tiles (s : State) (k : Nat) (x : Stack) : (s.setStack k x).tiles = s.tiles := rfl
@[simp] theorem State.setStack_regions (s : State) (k : Nat) (x : Stack) : (s.setStack k x).regions = s.regions := rfl
@[simp] theorem State.setStack_ctxs (s : State) (k : Nat) (x : Stack) : (s.setStack k x).ctxs = s.ctxs := rfl
@[simp] theorem State.setStack_parts (s : State) (k : Nat) (x : Stack) : (s.setStack k x).parts = s.parts := rfl
@[simp] theorem State.setStack_launches (s : State) (k : Nat) (x : Stack) : (s.setStack k x).launches = s.launches := rfl
@[simp] theorem State.setStack_tables (s : State) (k : Nat) (x : Stack) : (s.setStack k x).tables = s.tables := rfl
@[simp] theorem State.setStack_bootstat (s : State) (k : Nat) (x : Stack) : (s.setStack k x).bootstat = s.bootstat := rfl
@[simp] theorem State.setStack_copyB (s : State) (k : Nat) (x : Stack) : (s.setStack k x).copyB = s.copyB := rfl
@[simp] theorem State.setStack_recovery (s : State) (k : Nat) (x : Stack) : (s.setStack k x).recovery = s.recovery := rfl
@[simp] theorem State.setStack_reloads (s : State) (k : Nat) (x : Stack) : (s.setStack k x).reloads = s.reloads := rfl
@[simp] theorem State.setStack_fqbase (s : State) (k : Nat) (x : Stack) : (s.setStack k x).fqbase = s.fqbase := rfl
@[simp] theorem State.setStack_fqsize (s : State) (k : Nat) (x : Stack) : (s.setStack k x).fqsize = s.fqsize := rfl
@[simp] theorem State.setStack_fqhead (s : State) (k : Nat) (x : Stack) : (s.setStack k x).fqhead = s.fqhead := rfl
@[simp] theorem State.setStack_fqtail (s : State) (k : Nat) (x : Stack) : (s.setStack k x).fqtail = s.fqtail := rfl
@[simp] theorem State.setStack_fqdrop (s : State) (k : Nat) (x : Stack) : (s.setStack k x).fqdrop = s.fqdrop := rfl
@[simp] theorem State.setStack_partid (s : State) (k : Nat) (x : Stack) : (s.setStack k x).partid = s.partid := rfl
@[simp] theorem State.setStack_hrobase (s : State) (k : Nat) (x : Stack) : (s.setStack k x).hrobase = s.hrobase := rfl
@[simp] theorem State.setStack_hrov (s : State) (k : Nat) (x : Stack) : (s.setStack k x).hrov = s.hrov := rfl
@[simp] theorem State.setStack_clkCeil (s : State) (k : Nat) (x : Stack) : (s.setStack k x).clkCeil = s.clkCeil := rfl
@[simp] theorem State.setStack_clkForce (s : State) (k : Nat) (x : Stack) : (s.setStack k x).clkForce = s.clkForce := rfl
@[simp] theorem State.setStack_pwrCap (s : State) (k : Nat) (x : Stack) : (s.setStack k x).pwrCap = s.pwrCap := rfl
@[simp] theorem State.setStack_thermal (s : State) (k : Nat) (x : Stack) : (s.setStack k x).thermal = s.thermal := rfl
@[simp] theorem State.setStack_spanroute (s : State) (k : Nat) (x : Stack) : (s.setStack k x).spanroute = s.spanroute := rfl
@[simp] theorem State.setStack_lifesel (s : State) (k : Nat) (x : Stack) : (s.setStack k x).lifesel = s.lifesel := rfl
@[simp] theorem State.setStack_life (s : State) (k : Nat) (x : Stack) : (s.setStack k x).life = s.life := rfl
@[simp] theorem State.setStack_lifeFlash (s : State) (k : Nat) (x : Stack) : (s.setStack k x).lifeFlash = s.lifeFlash := rfl
@[simp] theorem State.setStack_actctx (s : State) (k : Nat) (x : Stack) : (s.setStack k x).actctx = s.actctx := rfl
@[simp] theorem State.setStack_dcsplit (s : State) (k : Nat) (x : Stack) : (s.setStack k x).dcsplit = s.dcsplit := rfl
@[simp] theorem State.setStack_psqN (s : State) (k : Nat) (x : Stack) : (s.setStack k x).psqN = s.psqN := rfl
@[simp] theorem State.setStack_psqBase (s : State) (k : Nat) (x : Stack) : (s.setStack k x).psqBase = s.psqBase := rfl
@[simp] theorem State.setStack_psqPost (s : State) (k : Nat) (x : Stack) : (s.setStack k x).psqPost = s.psqPost := rfl
@[simp] theorem State.setStack_psqDone (s : State) (k : Nat) (x : Stack) : (s.setStack k x).psqDone = s.psqDone := rfl
@[simp] theorem State.setStack_psqBusy (s : State) (k : Nat) (x : Stack) : (s.setStack k x).psqBusy = s.psqBusy := rfl
@[simp] theorem State.setStack_held (s : State) (k : Nat) (x : Stack) : (s.setStack k x).held = s.held := rfl
@[simp] theorem State.setStack_fq (s : State) (k : Nat) (x : Stack) : (s.setStack k x).fq = s.fq := rfl
@[simp] theorem State.setStack_await (s : State) (k : Nat) (x : Stack) : (s.setStack k x).await = s.await := rfl
@[simp] theorem State.setStack_mem (s : State) (k : Nat) (x : Stack) : (s.setStack k x).mem = s.mem := rfl
@[simp] theorem State.setStack_lines (s : State) (k : Nat) (x : Stack) : (s.setStack k x).lines = s.lines := rfl
@[simp] theorem State.setStack_wiped (s : State) (k : Nat) (x : Stack) : (s.setStack k x).wiped = s.wiped := rfl
@[simp] theorem State.setStack_tcache (s : State) (k : Nat) (x : Stack) : (s.setStack k x).tcache = s.tcache := rfl
@[simp] theorem State.setStack_badBeats (s : State) (k : Nat) (x : Stack) : (s.setStack k x).badBeats = s.badBeats := rfl
@[simp] theorem State.setStack_counts (s : State) (k : Nat) (x : Stack) : (s.setStack k x).counts = s.counts := rfl
@[simp] theorem State.setStack_tags (s : State) (k : Nat) (x : Stack) : (s.setStack k x).tags = s.tags := rfl
@[simp] theorem State.setStack_dcwait (s : State) (k : Nat) (x : Stack) : (s.setStack k x).dcwait = s.dcwait := rfl
@[simp] theorem State.setStack_sessions (s : State) (k : Nat) (x : Stack) : (s.setStack k x).sessions = s.sessions := rfl
@[simp] theorem State.setStack_departures (s : State) (k : Nat) (x : Stack) : (s.setStack k x).departures = s.departures := rfl
@[simp] theorem State.setStack_arrivals (s : State) (k : Nat) (x : Stack) : (s.setStack k x).arrivals = s.arrivals := rfl
@[simp] theorem State.setStack_links (s : State) (k : Nat) (x : Stack) : (s.setStack k x).links = s.links := rfl
@[simp] theorem State.setStack_mr (s : State) (k : Nat) (x : Stack) : (s.setStack k x).mr = s.mr := rfl
@[simp] theorem State.setStack_keyNo (s : State) (k : Nat) (x : Stack) : (s.setStack k x).keyNo = s.keyNo := rfl
@[simp] theorem State.setStack_recordA (s : State) (k : Nat) (x : Stack) : (s.setStack k x).recordA = s.recordA := rfl
@[simp] theorem State.setStack_recordB (s : State) (k : Nat) (x : Stack) : (s.setStack k x).recordB = s.recordB := rfl
@[simp] theorem State.setStack_lanes (s : State) (k : Nat) (x : Stack) : (s.setStack k x).lanes = s.lanes := rfl
@[simp] theorem State.setStack_ways (s : State) (k : Nat) (x : Stack) : (s.setStack k x).ways = s.ways := rfl
@[simp] theorem State.setStack_overMs (s : State) (k : Nat) (x : Stack) : (s.setStack k x).overMs = s.overMs := rfl
@[simp] theorem State.setStack_holdFxt (s : State) (k : Nat) (x : Stack) : (s.setStack k x).holdFxt = s.holdFxt := rfl
@[simp] theorem State.setStack_ctlHalt (s : State) (k : Nat) (x : Stack) : (s.setStack k x).ctlHalt = s.ctlHalt := rfl
@[simp] theorem State.setStack_hotHold (s : State) (k : Nat) (x : Stack) : (s.setStack k x).hotHold = s.hotHold := rfl
@[simp] theorem State.setStack_out (s : State) (k : Nat) (x : Stack) : (s.setStack k x).out = s.out := rfl

/-! lifeAdd: every field but life. -/

@[simp] theorem State.lifeAdd_agenda (s : State) (i : Nat) (x : Nat) : (s.lifeAdd i x).agenda = s.agenda := rfl
@[simp] theorem State.lifeAdd_tick (s : State) (i : Nat) (x : Nat) : (s.lifeAdd i x).tick = s.tick := rfl
@[simp] theorem State.lifeAdd_cursor (s : State) (i : Nat) (x : Nat) : (s.lifeAdd i x).cursor = s.cursor := rfl
@[simp] theorem State.lifeAdd_cycle (s : State) (i : Nat) (x : Nat) : (s.lifeAdd i x).cycle = s.cycle := rfl
@[simp] theorem State.lifeAdd_accessNo (s : State) (i : Nat) (x : Nat) : (s.lifeAdd i x).accessNo = s.accessNo := rfl
@[simp] theorem State.lifeAdd_uidNo (s : State) (i : Nat) (x : Nat) : (s.lifeAdd i x).uidNo = s.uidNo := rfl
@[simp] theorem State.lifeAdd_tiles (s : State) (i : Nat) (x : Nat) : (s.lifeAdd i x).tiles = s.tiles := rfl
@[simp] theorem State.lifeAdd_regions (s : State) (i : Nat) (x : Nat) : (s.lifeAdd i x).regions = s.regions := rfl
@[simp] theorem State.lifeAdd_ctxs (s : State) (i : Nat) (x : Nat) : (s.lifeAdd i x).ctxs = s.ctxs := rfl
@[simp] theorem State.lifeAdd_parts (s : State) (i : Nat) (x : Nat) : (s.lifeAdd i x).parts = s.parts := rfl
@[simp] theorem State.lifeAdd_launches (s : State) (i : Nat) (x : Nat) : (s.lifeAdd i x).launches = s.launches := rfl
@[simp] theorem State.lifeAdd_tables (s : State) (i : Nat) (x : Nat) : (s.lifeAdd i x).tables = s.tables := rfl
@[simp] theorem State.lifeAdd_bootstat (s : State) (i : Nat) (x : Nat) : (s.lifeAdd i x).bootstat = s.bootstat := rfl
@[simp] theorem State.lifeAdd_copyB (s : State) (i : Nat) (x : Nat) : (s.lifeAdd i x).copyB = s.copyB := rfl
@[simp] theorem State.lifeAdd_recovery (s : State) (i : Nat) (x : Nat) : (s.lifeAdd i x).recovery = s.recovery := rfl
@[simp] theorem State.lifeAdd_reloads (s : State) (i : Nat) (x : Nat) : (s.lifeAdd i x).reloads = s.reloads := rfl
@[simp] theorem State.lifeAdd_fqbase (s : State) (i : Nat) (x : Nat) : (s.lifeAdd i x).fqbase = s.fqbase := rfl
@[simp] theorem State.lifeAdd_fqsize (s : State) (i : Nat) (x : Nat) : (s.lifeAdd i x).fqsize = s.fqsize := rfl
@[simp] theorem State.lifeAdd_fqhead (s : State) (i : Nat) (x : Nat) : (s.lifeAdd i x).fqhead = s.fqhead := rfl
@[simp] theorem State.lifeAdd_fqtail (s : State) (i : Nat) (x : Nat) : (s.lifeAdd i x).fqtail = s.fqtail := rfl
@[simp] theorem State.lifeAdd_fqdrop (s : State) (i : Nat) (x : Nat) : (s.lifeAdd i x).fqdrop = s.fqdrop := rfl
@[simp] theorem State.lifeAdd_partid (s : State) (i : Nat) (x : Nat) : (s.lifeAdd i x).partid = s.partid := rfl
@[simp] theorem State.lifeAdd_hrobase (s : State) (i : Nat) (x : Nat) : (s.lifeAdd i x).hrobase = s.hrobase := rfl
@[simp] theorem State.lifeAdd_hrov (s : State) (i : Nat) (x : Nat) : (s.lifeAdd i x).hrov = s.hrov := rfl
@[simp] theorem State.lifeAdd_clkCeil (s : State) (i : Nat) (x : Nat) : (s.lifeAdd i x).clkCeil = s.clkCeil := rfl
@[simp] theorem State.lifeAdd_clkForce (s : State) (i : Nat) (x : Nat) : (s.lifeAdd i x).clkForce = s.clkForce := rfl
@[simp] theorem State.lifeAdd_pwrCap (s : State) (i : Nat) (x : Nat) : (s.lifeAdd i x).pwrCap = s.pwrCap := rfl
@[simp] theorem State.lifeAdd_thermal (s : State) (i : Nat) (x : Nat) : (s.lifeAdd i x).thermal = s.thermal := rfl
@[simp] theorem State.lifeAdd_spanroute (s : State) (i : Nat) (x : Nat) : (s.lifeAdd i x).spanroute = s.spanroute := rfl
@[simp] theorem State.lifeAdd_lifesel (s : State) (i : Nat) (x : Nat) : (s.lifeAdd i x).lifesel = s.lifesel := rfl
@[simp] theorem State.lifeAdd_lifeFlash (s : State) (i : Nat) (x : Nat) : (s.lifeAdd i x).lifeFlash = s.lifeFlash := rfl
@[simp] theorem State.lifeAdd_actctx (s : State) (i : Nat) (x : Nat) : (s.lifeAdd i x).actctx = s.actctx := rfl
@[simp] theorem State.lifeAdd_dcsplit (s : State) (i : Nat) (x : Nat) : (s.lifeAdd i x).dcsplit = s.dcsplit := rfl
@[simp] theorem State.lifeAdd_psqN (s : State) (i : Nat) (x : Nat) : (s.lifeAdd i x).psqN = s.psqN := rfl
@[simp] theorem State.lifeAdd_psqBase (s : State) (i : Nat) (x : Nat) : (s.lifeAdd i x).psqBase = s.psqBase := rfl
@[simp] theorem State.lifeAdd_psqPost (s : State) (i : Nat) (x : Nat) : (s.lifeAdd i x).psqPost = s.psqPost := rfl
@[simp] theorem State.lifeAdd_psqDone (s : State) (i : Nat) (x : Nat) : (s.lifeAdd i x).psqDone = s.psqDone := rfl
@[simp] theorem State.lifeAdd_psqBusy (s : State) (i : Nat) (x : Nat) : (s.lifeAdd i x).psqBusy = s.psqBusy := rfl
@[simp] theorem State.lifeAdd_held (s : State) (i : Nat) (x : Nat) : (s.lifeAdd i x).held = s.held := rfl
@[simp] theorem State.lifeAdd_fq (s : State) (i : Nat) (x : Nat) : (s.lifeAdd i x).fq = s.fq := rfl
@[simp] theorem State.lifeAdd_await (s : State) (i : Nat) (x : Nat) : (s.lifeAdd i x).await = s.await := rfl
@[simp] theorem State.lifeAdd_mem (s : State) (i : Nat) (x : Nat) : (s.lifeAdd i x).mem = s.mem := rfl
@[simp] theorem State.lifeAdd_lines (s : State) (i : Nat) (x : Nat) : (s.lifeAdd i x).lines = s.lines := rfl
@[simp] theorem State.lifeAdd_wiped (s : State) (i : Nat) (x : Nat) : (s.lifeAdd i x).wiped = s.wiped := rfl
@[simp] theorem State.lifeAdd_tcache (s : State) (i : Nat) (x : Nat) : (s.lifeAdd i x).tcache = s.tcache := rfl
@[simp] theorem State.lifeAdd_badBeats (s : State) (i : Nat) (x : Nat) : (s.lifeAdd i x).badBeats = s.badBeats := rfl
@[simp] theorem State.lifeAdd_counts (s : State) (i : Nat) (x : Nat) : (s.lifeAdd i x).counts = s.counts := rfl
@[simp] theorem State.lifeAdd_tags (s : State) (i : Nat) (x : Nat) : (s.lifeAdd i x).tags = s.tags := rfl
@[simp] theorem State.lifeAdd_dcwait (s : State) (i : Nat) (x : Nat) : (s.lifeAdd i x).dcwait = s.dcwait := rfl
@[simp] theorem State.lifeAdd_sessions (s : State) (i : Nat) (x : Nat) : (s.lifeAdd i x).sessions = s.sessions := rfl
@[simp] theorem State.lifeAdd_departures (s : State) (i : Nat) (x : Nat) : (s.lifeAdd i x).departures = s.departures := rfl
@[simp] theorem State.lifeAdd_arrivals (s : State) (i : Nat) (x : Nat) : (s.lifeAdd i x).arrivals = s.arrivals := rfl
@[simp] theorem State.lifeAdd_links (s : State) (i : Nat) (x : Nat) : (s.lifeAdd i x).links = s.links := rfl
@[simp] theorem State.lifeAdd_stacks (s : State) (i : Nat) (x : Nat) : (s.lifeAdd i x).memStacks = s.memStacks := rfl
@[simp] theorem State.lifeAdd_mr (s : State) (i : Nat) (x : Nat) : (s.lifeAdd i x).mr = s.mr := rfl
@[simp] theorem State.lifeAdd_keyNo (s : State) (i : Nat) (x : Nat) : (s.lifeAdd i x).keyNo = s.keyNo := rfl
@[simp] theorem State.lifeAdd_recordA (s : State) (i : Nat) (x : Nat) : (s.lifeAdd i x).recordA = s.recordA := rfl
@[simp] theorem State.lifeAdd_recordB (s : State) (i : Nat) (x : Nat) : (s.lifeAdd i x).recordB = s.recordB := rfl
@[simp] theorem State.lifeAdd_lanes (s : State) (i : Nat) (x : Nat) : (s.lifeAdd i x).lanes = s.lanes := rfl
@[simp] theorem State.lifeAdd_ways (s : State) (i : Nat) (x : Nat) : (s.lifeAdd i x).ways = s.ways := rfl
@[simp] theorem State.lifeAdd_overMs (s : State) (i : Nat) (x : Nat) : (s.lifeAdd i x).overMs = s.overMs := rfl
@[simp] theorem State.lifeAdd_holdFxt (s : State) (i : Nat) (x : Nat) : (s.lifeAdd i x).holdFxt = s.holdFxt := rfl
@[simp] theorem State.lifeAdd_ctlHalt (s : State) (i : Nat) (x : Nat) : (s.lifeAdd i x).ctlHalt = s.ctlHalt := rfl
@[simp] theorem State.lifeAdd_hotHold (s : State) (i : Nat) (x : Nat) : (s.lifeAdd i x).hotHold = s.hotHold := rfl
@[simp] theorem State.lifeAdd_out (s : State) (i : Nat) (x : Nat) : (s.lifeAdd i x).out = s.out := rfl

/-! The accessors. -/

@[simp] theorem State.tile_setTile (s : State) (t j : Nat) (x : Tile) : (s.setTile t x).tile j = if j = t then x else s.tile j := by
  unfold State.tile State.setTile; simp
@[simp] theorem State.tile_setRegion (s : State) (r j : Nat) (x : Region) : (s.setRegion r x).tile j = s.tile j := rfl
@[simp] theorem State.tile_setCtx (s : State) (c j : Nat) (x : Ctx) : (s.setCtx c x).tile j = s.tile j := rfl
@[simp] theorem State.tile_setPart (s : State) (p j : Nat) (x : Part) : (s.setPart p x).tile j = s.tile j := rfl
@[simp] theorem State.tile_setLink (s : State) (k j : Nat) (x : LinkSt) : (s.setLink k x).tile j = s.tile j := rfl
@[simp] theorem State.tile_setStack (s : State) (k j : Nat) (x : Stack) : (s.setStack k x).tile j = s.tile j := rfl
@[simp] theorem State.tile_lifeAdd (s : State) (i j : Nat) (x : Nat) : (s.lifeAdd i x).tile j = s.tile j := rfl
@[simp] theorem State.region_setRegion (s : State) (r j : Nat) (x : Region) : (s.setRegion r x).region j = if j = r then x else s.region j := by
  unfold State.region State.setRegion; simp
@[simp] theorem State.region_setTile (s : State) (t j : Nat) (x : Tile) : (s.setTile t x).region j = s.region j := rfl
@[simp] theorem State.region_setCtx (s : State) (c j : Nat) (x : Ctx) : (s.setCtx c x).region j = s.region j := rfl
@[simp] theorem State.region_setPart (s : State) (p j : Nat) (x : Part) : (s.setPart p x).region j = s.region j := rfl
@[simp] theorem State.region_setLink (s : State) (k j : Nat) (x : LinkSt) : (s.setLink k x).region j = s.region j := rfl
@[simp] theorem State.region_setStack (s : State) (k j : Nat) (x : Stack) : (s.setStack k x).region j = s.region j := rfl
@[simp] theorem State.region_lifeAdd (s : State) (i j : Nat) (x : Nat) : (s.lifeAdd i x).region j = s.region j := rfl
@[simp] theorem State.ctx_setCtx (s : State) (c j : Nat) (x : Ctx) : (s.setCtx c x).ctx j = if j = c then x else s.ctx j := by
  unfold State.ctx State.setCtx; simp
@[simp] theorem State.ctx_setTile (s : State) (t j : Nat) (x : Tile) : (s.setTile t x).ctx j = s.ctx j := rfl
@[simp] theorem State.ctx_setRegion (s : State) (r j : Nat) (x : Region) : (s.setRegion r x).ctx j = s.ctx j := rfl
@[simp] theorem State.ctx_setPart (s : State) (p j : Nat) (x : Part) : (s.setPart p x).ctx j = s.ctx j := rfl
@[simp] theorem State.ctx_setLink (s : State) (k j : Nat) (x : LinkSt) : (s.setLink k x).ctx j = s.ctx j := rfl
@[simp] theorem State.ctx_setStack (s : State) (k j : Nat) (x : Stack) : (s.setStack k x).ctx j = s.ctx j := rfl
@[simp] theorem State.ctx_lifeAdd (s : State) (i j : Nat) (x : Nat) : (s.lifeAdd i x).ctx j = s.ctx j := rfl
@[simp] theorem State.part_setPart (s : State) (p j : Nat) (x : Part) : (s.setPart p x).part j = if j = p then x else s.part j := by
  unfold State.part State.setPart; simp
@[simp] theorem State.part_setTile (s : State) (t j : Nat) (x : Tile) : (s.setTile t x).part j = s.part j := rfl
@[simp] theorem State.part_setRegion (s : State) (r j : Nat) (x : Region) : (s.setRegion r x).part j = s.part j := rfl
@[simp] theorem State.part_setCtx (s : State) (c j : Nat) (x : Ctx) : (s.setCtx c x).part j = s.part j := rfl
@[simp] theorem State.part_setLink (s : State) (k j : Nat) (x : LinkSt) : (s.setLink k x).part j = s.part j := rfl
@[simp] theorem State.part_setStack (s : State) (k j : Nat) (x : Stack) : (s.setStack k x).part j = s.part j := rfl
@[simp] theorem State.part_lifeAdd (s : State) (i j : Nat) (x : Nat) : (s.lifeAdd i x).part j = s.part j := rfl
@[simp] theorem State.link_setLink (s : State) (k j : Nat) (x : LinkSt) : (s.setLink k x).link j = if j = k then x else s.link j := by
  unfold State.link State.setLink; simp
@[simp] theorem State.link_setTile (s : State) (t j : Nat) (x : Tile) : (s.setTile t x).link j = s.link j := rfl
@[simp] theorem State.link_setRegion (s : State) (r j : Nat) (x : Region) : (s.setRegion r x).link j = s.link j := rfl
@[simp] theorem State.link_setCtx (s : State) (c j : Nat) (x : Ctx) : (s.setCtx c x).link j = s.link j := rfl
@[simp] theorem State.link_setPart (s : State) (p j : Nat) (x : Part) : (s.setPart p x).link j = s.link j := rfl
@[simp] theorem State.link_setStack (s : State) (k j : Nat) (x : Stack) : (s.setStack k x).link j = s.link j := rfl
@[simp] theorem State.link_lifeAdd (s : State) (i j : Nat) (x : Nat) : (s.lifeAdd i x).link j = s.link j := rfl
@[simp] theorem State.stack_setStack (s : State) (k j : Nat) (x : Stack) : (s.setStack k x).stack j = if j = k then x else s.stack j := by
  unfold State.stack State.setStack; simp
@[simp] theorem State.stack_setTile (s : State) (t j : Nat) (x : Tile) : (s.setTile t x).stack j = s.stack j := rfl
@[simp] theorem State.stack_setRegion (s : State) (r j : Nat) (x : Region) : (s.setRegion r x).stack j = s.stack j := rfl
@[simp] theorem State.stack_setCtx (s : State) (c j : Nat) (x : Ctx) : (s.setCtx c x).stack j = s.stack j := rfl
@[simp] theorem State.stack_setPart (s : State) (p j : Nat) (x : Part) : (s.setPart p x).stack j = s.stack j := rfl
@[simp] theorem State.stack_setLink (s : State) (k j : Nat) (x : LinkSt) : (s.setLink k x).stack j = s.stack j := rfl
@[simp] theorem State.stack_lifeAdd (s : State) (i j : Nat) (x : Nat) : (s.lifeAdd i x).stack j = s.stack j := rfl

end Sys2Proof.Machine
end

