-- ==== Sys2Proof/Laws/Frames.lean ====
section
/-!
SUPPORT. What sending beats and raising a node's fault can touch: one lemma for each shared operation of Machine/Operands.lean.
-/
namespace Sys2Proof

open Machine

theorem BeatsOnly.refl (s : State) : BeatsOnly s s := ⟨rfl, fun _ => rfl, fun _ => rfl⟩

theorem Outside.trans {s t u : State} (h : Outside s t) (k : Outside t u) : Outside s u := by
  unfold Outside at *; rw [k, h]

theorem TileFrame.trans {x y z : Tile} (h : TileFrame x y) (k : TileFrame y z) : TileFrame x z := by
  unfold TileFrame at *; rw [k, h]

theorem RegionFrame.trans {x y z : Region} (h : RegionFrame x y) (k : RegionFrame y z) : RegionFrame x z := by
  unfold RegionFrame at *; rw [k, h]

theorem BeatsOnly.trans {s t u : State} (h : BeatsOnly s t) (k : BeatsOnly t u) : BeatsOnly s u :=
  ⟨h.1.trans k.1, fun v => (h.2.1 v).trans (k.2.1 v), fun g => (h.2.2 g).trans (k.2.2 g)⟩

/-- A tile replaced within its frame. -/
theorem BeatsOnly.setTile (s : State) (t : Nat) (x : Tile) (h : TileFrame (s.tile t) x) : BeatsOnly s (s.setTile t x) :=
  ⟨rfl, fun u => by rw [State.tile_setTile]; split
                    · next e => subst e; exact h
                    · rfl, fun _ => rfl⟩

/-- A region replaced within its frame. -/
theorem BeatsOnly.setRegion (s : State) (g : Nat) (x : Region) (h : RegionFrame (s.region g) x) : BeatsOnly s (s.setRegion g x) :=
  ⟨rfl, fun _ => rfl, fun r => by rw [State.region_setRegion]; split
                                  · next e => subst e; exact h
                                  · rfl⟩

theorem BeatsOnly.foldl {α : Type} (f : State → α → State) (h : ∀ s x, BeatsOnly s (f s x)) (s : State) (xs : List α) :
    BeatsOnly s (xs.foldl f s) := by
  induction xs generalizing s with
  | nil => exact BeatsOnly.refl s
  | cons x xs ih => exact (h s x).trans (ih (f s x))

theorem portSend_frame (s : State) (d : Nat × Nat) (b : Beat) : BeatsOnly s (s.portSend d b) := by
  unfold State.portSend; split
  · exact BeatsOnly.refl s
  · exact BeatsOnly.setTile _ _ _ (by exact rfl)

theorem lifeFlt_frame (s : State) (f : Flt) : BeatsOnly s (s.lifeFlt f) := by
  unfold State.lifeFlt; split
  · exact ⟨rfl, fun _ => rfl, fun _ => rfl⟩
  · exact BeatsOnly.refl s

theorem setLaunch_frame (s : State) (k : Nat) (f : Launch → Launch) : BeatsOnly s (s.setLaunch k f) := by
  unfold State.setLaunch; split
  · exact BeatsOnly.refl s
  · exact ⟨rfl, fun _ => rfl, fun _ => rfl⟩

/-- A fault that stops its region, or that goes to the module controller or to a supervisor slot's kernel. -/
theorem raise_frame (s : State) (f : Flt) (g : Nat) (h : f.agent = .region g) : BeatsOnly s (s.raise f) := by
  unfold State.raise
  simp only
  split
  · have stop (s : State) (k : Nat) :
        BeatsOnly s (if (s.region k).phase == .off then s else s.setRegion k { s.region k with phase := .stopped }) := by
      split
      · exact BeatsOnly.refl s
      · exact BeatsOnly.setRegion _ _ _ (by exact rfl)
    exact (((lifeFlt_frame s f).trans (BeatsOnly.foldl _ stop _ _)).trans
      (BeatsOnly.setRegion _ _ _ (by exact rfl))).trans (setLaunch_frame _ _ _)
  · split
    · exact (lifeFlt_frame s f).trans ⟨rfl, fun _ => rfl, fun _ => rfl⟩
    · refine (lifeFlt_frame s f).trans ?_
      rw [h]
      exact (BeatsOnly.setRegion (s.lifeFlt f) g _ (by exact rfl)).trans ⟨rfl, fun _ => rfl, fun _ => rfl⟩

theorem setNode_frame (x : Tile) (k : Nat) (n : NodeSt) : TileFrame x (x.setNode k n) := rfl

theorem raiseNode_frame (s : State) (t k : Nat) (f : Flt → Flt)
    (h : ∀ x : Flt, (f x).agent = x.agent) : BeatsOnly s (s.raiseNode t k f) := by
  unfold State.raiseNode
  exact (BeatsOnly.setTile _ _ _ (setNode_frame _ _ _)).trans (raise_frame _ _ (s.tile t).region (by rw [h]))

theorem slotArrive_frame (s : State) (t : Nat) (w : SlotName) (k : Nat) (b : Beat) : BeatsOnly s (s.slotArrive t w k b) := by
  unfold State.slotArrive
  simp only
  have h1 : BeatsOnly s (s.setTile t ((s.tile t).setNode k (((s.tile t).node k).put w b))) :=
    BeatsOnly.setTile _ _ _ (setNode_frame _ _ _)
  split
  · split
    · exact h1.trans (raiseNode_frame _ _ _ _ fun _ => rfl)
    · exact h1
  · split
    · exact h1.trans (raiseNode_frame _ _ _ _ fun _ => rfl)
    · exact h1
  · exact h1

theorem outSend_frame (s : State) (t : Nat) (done : Bool) (k : Nat) (b : Beat) : BeatsOnly s (s.outSend t done k b) := by
  unfold State.outSend
  simp only
  have h1 (xs : List (Nat × Nat)) (s : State) (b : Beat) : BeatsOnly s (xs.foldl (fun s d => s.portSend d b) s) :=
    BeatsOnly.foldl _ (fun s d => portSend_frame s d b) s xs
  generalize (if done = true then (s.tile t).done k else (s.tile t).out k) = o
  split
  · split
    · exact BeatsOnly.refl s
    · split
      · exact BeatsOnly.setTile _ _ _ (by exact rfl)
      · exact BeatsOnly.setTile _ _ _ (by exact rfl)
  · split
    · exact h1 _ _ _
    · refine ((h1 _ _ _).trans (BeatsOnly.foldl _ ?_ _ _)).trans (BeatsOnly.setTile _ _ _ (by exact rfl))
      intro s r
      exact h1 _ _ _

theorem sendTo_frame (s : State) (t : Nat) (b : Beat) (tg : Target) : BeatsOnly s (s.sendTo t b tg) := by
  unfold State.sendTo
  split
  · exact slotArrive_frame _ _ _ _ _
  · exact outSend_frame _ _ _ _ _
  · exact outSend_frame _ _ _ _ _
  · exact BeatsOnly.setTile _ _ _ (by exact rfl)
  · exact BeatsOnly.setTile _ _ _ (by exact rfl)
  · exact BeatsOnly.refl s

theorem markFired_frame (s : State) (t k : Nat) : BeatsOnly s (s.markFired t k) := by
  unfold State.markFired
  exact (BeatsOnly.setTile _ _ _ (setNode_frame _ _ _)).trans (BeatsOnly.setRegion _ _ _ (by exact rfl))

/-- Sending what a firing sends, or raising ABSENT_USE. -/
theorem emit_frame (s : State) (t k : Nat) (n : Node) (o : Out) : BeatsOnly s (s.emit t k n o) := by
  have pairOne (lo hi : Beat) (s : State) (b : Beat) (tg : Target) :
      BeatsOnly s (match tg with
        | .dl j => (s.sendTo t lo (.dl j)).sendTo t hi (.dl (j + 1))
        | _ => s.sendTo t b tg) := by
    split
    · exact (sendTo_frame _ _ _ _).trans (sendTo_frame _ _ _ _)
    · exact sendTo_frame _ _ _ _
  unfold State.emit
  simp only
  split
  · exact (markFired_frame s t k).trans (BeatsOnly.foldl _ (fun s tg => sendTo_frame s t _ tg) _ _)
  · exact ((((markFired_frame s t k).trans (sendTo_frame _ _ _ _)).trans (sendTo_frame _ _ _ _)).trans
      (sendTo_frame _ _ _ _)).trans (sendTo_frame _ _ _ _)
  · exact ((((markFired_frame s t k).trans (pairOne _ _ _ _ _)).trans (pairOne _ _ _ _ _)).trans
      (pairOne _ _ _ _ _)).trans (pairOne _ _ _ _ _)
  · exact raiseNode_frame _ _ _ _ fun _ => rfl
  · exact BeatsOnly.refl s

/-- A node whose result depends on its inputs alone touches nothing else. -/
theorem fireNode_frame (n : Node) (s : State) (f : Args → Out) : BeatsOnly s (fireNode n s f) := by
  unfold fireNode
  split
  · split
    · exact emit_frame _ _ _ _ _
    · exact BeatsOnly.refl s
  · exact BeatsOnly.refl s

/-- A node with an effect of its own touches what that effect touches. -/
theorem fireWith_frame (n : Node) (s : State) (f : Nat → Nat → Args → Option (State × Out))
    (h : ∀ t k a s1 o, f t k a = some (s1, o) → BeatsOnly s s1) : BeatsOnly s (fireWith n s f) := by
  unfold fireWith
  split
  · split
    · split
      · exact BeatsOnly.refl s
      · next s1 o e => exact (h _ _ _ s1 o e).trans (emit_frame _ _ _ _ _)
    · exact BeatsOnly.refl s
  · exact BeatsOnly.refl s

end Sys2Proof
end

