-- ==== Sys2Proof/Laws/Memory.lean ====
section
/-!
SUPPORT. Memory: every operation keeps the canonical form, and a read after a write.
-/
namespace Sys2Proof.Machine

theorem Memory.wfFrom_mono (m : Memory) (lo hi : Nat) (h : lo ≤ hi) (w : Memory.wfFrom hi m = true) :
    Memory.wfFrom lo m = true := by
  cases m with
  | nil => rfl
  | cons p m => simp only [Memory.wfFrom, Bool.and_eq_true, decide_eq_true_eq] at w ⊢; exact ⟨⟨by omega, w.1.2⟩, w.2⟩

theorem Memory.wfFrom_tset (m : Memory) (lo a : Nat) (b : Byte) (ha : lo ≤ a) (hb : b ≠ 0#8)
    (w : Memory.wfFrom lo m = true) : Memory.wfFrom lo (tset m a b) = true := by
  induction m generalizing lo with
  | nil => simp [tset, Memory.wfFrom, ha, hb]
  | cons p m ih =>
    obtain ⟨j, v⟩ := p
    simp only [Memory.wfFrom, Bool.and_eq_true, decide_eq_true_eq, bne_iff_ne, ne_eq] at w
    simp only [tset]
    split
    · simp [Memory.wfFrom, ha, hb, w]; omega
    · split
      · next h => subst h; simp [Memory.wfFrom, ha, hb, w]
      · simp [Memory.wfFrom, w]; exact ih (j + 1) (by omega) w.2

theorem Memory.wfFrom_tdel (m : Memory) (lo a : Nat) (w : Memory.wfFrom lo m = true) :
    Memory.wfFrom lo (tdel m a) = true := by
  induction m generalizing lo with
  | nil => rfl
  | cons p m ih =>
    obtain ⟨j, v⟩ := p
    simp only [Memory.wfFrom, Bool.and_eq_true, decide_eq_true_eq, bne_iff_ne, ne_eq] at w
    simp only [tdel]
    split
    · exact ih lo (Memory.wfFrom_mono m lo (j + 1) (by omega) w.2)
    · simp [Memory.wfFrom, w]; exact ih (j + 1) w.2

theorem Memory.wfFrom_filter (m : Memory) (lo : Nat) (p : Host.Cell → Bool) (w : Memory.wfFrom lo m = true) :
    Memory.wfFrom lo (m.filter p) = true := by
  induction m generalizing lo with
  | nil => rfl
  | cons c m ih =>
    obtain ⟨j, v⟩ := c
    simp only [Memory.wfFrom, Bool.and_eq_true, decide_eq_true_eq, bne_iff_ne, ne_eq] at w
    simp only [List.filter]
    split
    · simp [Memory.wfFrom, w]; exact ih (j + 1) w.2
    · exact ih lo (Memory.wfFrom_mono m lo (j + 1) (by omega) w.2)

theorem Memory.wf_filter (m : Memory) (p : Host.Cell → Bool) (w : m.wf = true) : Memory.wf (m.filter p) = true :=
  Memory.wfFrom_filter m 0 p w

theorem Memory.wf_write (m : Memory) (a : Nat) (b : Byte) (w : m.wf = true) : (m.write a b).wf = true := by
  unfold Memory.write; split
  · exact Memory.wfFrom_tdel m 0 a w
  · next h => exact Memory.wfFrom_tset m 0 a b (Nat.zero_le a) h w

theorem Memory.wf_writeN (m : Memory) (a : Nat) (bs : List Byte) (w : m.wf = true) : (m.writeN a bs).wf = true := by
  induction bs generalizing m a with
  | nil => exact w
  | cons b bs ih => exact ih (m.write a b) (a + 1) (Memory.wf_write m a b w)

@[simp] theorem Memory.read_write (m : Memory) (a j : Nat) (b : Byte) :
    (m.write a b).read j = if j = a then b else m.read j := by
  unfold Memory.write Memory.read
  split
  · next h => subst h; simp
  · simp

theorem Memory.read_writeN_out (m : Memory) (a j : Nat) (bs : List Byte) (h : j < a ∨ a + bs.length ≤ j) :
    (m.writeN a bs).read j = m.read j := by
  induction bs generalizing m a with
  | nil => rfl
  | cons b bs ih =>
    simp only [List.length_cons] at h
    show ((m.write a b).writeN (a + 1) bs).read j = _
    rw [ih _ _ (by omega), Memory.read_write, if_neg (by omega)]

theorem Memory.read_writeN_in (m : Memory) (a i : Nat) (bs : List Byte) (h : i < bs.length) :
    (m.writeN a bs).read (a + i) = bs[i] := by
  induction bs generalizing m a i with
  | nil => simp at h
  | cons b bs ih =>
    show ((m.write a b).writeN (a + 1) bs).read (a + i) = _
    cases i with
    | zero => rw [Memory.read_writeN_out _ _ _ _ (by omega)]; simp
    | succ i =>
      have := ih (m.write a b) (a + 1) i (by simpa using h)
      rw [show a + (i + 1) = a + 1 + i by omega, this]; simp

theorem Memory.readN_length (m : Memory) (a n : Nat) : (m.readN a n).length = n := by
  induction n generalizing a with
  | zero => rfl
  | succ n ih => simp [Memory.readN, ih]

theorem Memory.readN_get (m : Memory) (a n i : Nat) (h : i < (m.readN a n).length) : (m.readN a n)[i] = m.read (a + i) := by
  induction n generalizing a i with
  | zero => simp [Memory.readN] at h
  | succ n ih =>
    cases i with
    | zero => simp [Memory.readN]
    | succ i => simp only [Memory.readN, List.getElem_cons_succ]; rw [ih]; congr 1; omega

/-- A write of n bytes read back whole. -/
theorem Memory.readN_writeN (m : Memory) (a : Nat) (bs : List Byte) : (m.writeN a bs).readN a bs.length = bs := by
  apply List.ext_getElem
  · exact Memory.readN_length _ _ _
  · intro i h1 h2; rw [Memory.readN_get, Memory.read_writeN_in _ _ _ _ h2]

theorem Memory.readN_writeN_out (m : Memory) (a c n : Nat) (bs : List Byte) (h : c + n ≤ a ∨ a + bs.length ≤ c) :
    (m.writeN a bs).readN c n = m.readN c n := by
  apply List.ext_getElem
  · simp [Memory.readN_length]
  · intro i h1 h2
    rw [Memory.readN_length] at h1
    rw [Memory.readN_get, Memory.readN_get, Memory.read_writeN_out _ _ _ _ (by omega)]

theorem leNat_leBytes (n x : Nat) : leNat (leBytes n x) = x % 256 ^ n := by
  induction n generalizing x with
  | zero => simp [leBytes, leNat, Nat.mod_one]
  | succ n ih =>
    simp only [leBytes, leNat, ih, BitVec.toNat_ofNat]
    rw [show x % 2 ^ 8 = x % 256 from rfl, show (256 : Nat) ^ (n + 1) = 256 * 256 ^ n from by rw [Nat.pow_succ, Nat.mul_comm], Nat.mod_mul]

theorem leBytes_length (n x : Nat) : (leBytes n x).length = n := by
  induction n generalizing x with
  | zero => rfl
  | succ n ih => simp [leBytes, ih]

end Sys2Proof.Machine
end

