-- ==== Sys2Proof/Laws/Payload.lean ====
section
/-!
SUPPORT. Payloads: the elements of a beat and the beat of some elements.
-/
namespace Sys2Proof.Machine

theorem elemsAux_length (w n x : Nat) : (elemsAux w n x).length = n := by
  induction n generalizing x with
  | zero => rfl
  | succ n ih => simp [elemsAux, ih]

theorem elems_length (w n : Nat) (x : Payload) : (elems w n x).length = n := elemsAux_length w n _

theorem tyElems_length (t : Ty) (x : Payload) : (tyElems t x).length = t.elems := elems_length _ _ _

theorem elemsAux_get (w n x i : Nat) (h : i < (elemsAux w n x).length) : (elemsAux w n x)[i] = x / 2 ^ (w * i) % 2 ^ w := by
  induction n generalizing x i with
  | zero => simp [elemsAux] at h
  | succ n ih =>
    cases i with
    | zero => simp [elemsAux]
    | succ i =>
      simp only [elemsAux, List.getElem_cons_succ]
      rw [ih, Nat.div_div_eq_div_mul, ← Nat.pow_add, Nat.mul_succ, Nat.add_comm w]

/-- Element i is bits [w × i + w − 1 : w × i]. -/
theorem elems_get (w n i : Nat) (x : Payload) (h : i < (elems w n x).length) : (elems w n x)[i] = bitsNat x (w * i) w := by
  show (elemsAux w n x.toNat)[i]'h = x.toNat >>> (w * i) % 2 ^ w
  rw [elemsAux_get w n x.toNat i h, Nat.shiftRight_eq_div_pow]

theorem packNat_lt (w : Nat) (es : List Nat) : packNat w es < 2 ^ (w * es.length) := by
  induction es with
  | nil => simp [packNat]
  | cons e es ih =>
    simp only [packNat, List.length_cons, Nat.mul_succ, Nat.pow_add]
    have h1 : e % 2 ^ w < 2 ^ w := Nat.mod_lt _ (Nat.two_pow_pos w)
    have h2 : packNat w es + 1 ≤ 2 ^ (w * es.length) := ih
    calc e % 2 ^ w + 2 ^ w * packNat w es < 2 ^ w + 2 ^ w * packNat w es := by omega
      _ = 2 ^ w * (packNat w es + 1) := by rw [Nat.mul_add, Nat.mul_one, Nat.add_comm]
      _ ≤ 2 ^ w * 2 ^ (w * es.length) := Nat.mul_le_mul_left _ h2
      _ = 2 ^ (w * es.length) * 2 ^ w := Nat.mul_comm _ _

theorem packNat_get (w : Nat) (es : List Nat) (i : Nat) (h : i < es.length) :
    packNat w es / 2 ^ (w * i) % 2 ^ w = es[i] % 2 ^ w := by
  induction es generalizing i with
  | nil => simp at h
  | cons e es ih =>
    cases i with
    | zero => simp [packNat, Nat.add_mod]
    | succ i =>
      simp only [packNat, List.getElem_cons_succ]
      rw [Nat.mul_succ, Nat.add_comm (w * i) w, Nat.pow_add, ← Nat.div_div_eq_div_mul,
        Nat.add_mul_div_left _ _ (Nat.two_pow_pos w), Nat.div_eq_of_lt (Nat.mod_lt _ (Nat.two_pow_pos w)), Nat.zero_add]
      exact ih i (by simpa using h)

/-- Element i of a packed beat is the i-th element given, reduced to its width. -/
theorem bitsNat_pack (w : Nat) (es : List Nat) (i : Nat) (h : i < es.length) (hw : w * es.length ≤ 512) :
    bitsNat (pack w es) (w * i) w = es[i] % 2 ^ w := by
  unfold bitsNat pack
  rw [BitVec.toNat_ofNat, Nat.mod_eq_of_lt (Nat.lt_of_lt_of_le (packNat_lt w es) (Nat.pow_le_pow_right (by omega) hw)),
    Nat.shiftRight_eq_div_pow, packNat_get w es i h]

theorem Ty.bits_elems (t : Ty) : t.bits * t.elems = 512 := by cases t <;> decide

theorem bitsNat_tyPack (t : Ty) (es : List Nat) (i : Nat) (h : i < t.elems) (hl : es.length = t.elems) :
    bitsNat (tyPack t es) (t.bits * i) t.bits = (es[i]'(by omega)) % 2 ^ t.bits :=
  bitsNat_pack t.bits es i (by omega) (Nat.le_of_eq (by rw [hl, Ty.bits_elems]))

theorem tyElems_get (t : Ty) (x : Payload) (i : Nat) (h : i < (tyElems t x).length) :
    (tyElems t x)[i] = bitsNat x (t.bits * i) t.bits := elems_get _ _ _ _ h

theorem maskElems_length (m : Payload) (rs ks : List Nat) (j : Nat) : (maskElems m rs ks j).length = rs.length := by
  induction rs generalizing ks j with
  | nil => simp [maskElems]
  | cons r rs ih => cases ks <;> simp [maskElems, ih]

/-- A masked element keeps the other list's element where its bit is 0. -/
theorem maskElems_get (m : Payload) (rs ks : List Nat) (j i : Nat) (h : i < (maskElems m rs ks j).length) (hk : i < ks.length) :
    (maskElems m rs ks j)[i] = if predBit m (j + i) then rs[i]'(by rwa [maskElems_length] at h) else ks[i] := by
  induction rs generalizing ks j i with
  | nil => simp [maskElems] at h
  | cons r rs ih =>
    cases ks with
    | nil => simp at hk
    | cons k ks =>
      cases i with
      | zero => simp [maskElems]
      | succ i =>
        simp only [maskElems, List.getElem_cons_succ]
        rw [ih ks (j + 1) i _ (by simpa using hk), show j + 1 + i = j + (i + 1) by omega]

end Sys2Proof.Machine
end

