-- ==== Sys2Proof/Laws/PerInstr.lean ====
section
/-!
SUPPORT. Which table encodes an instruction, constructor by constructor: what the round trip of words cuts into.
-/
namespace Sys2Proof.Laws

/-- Which table encodes an instruction: node words are one or two, the second when there is an extension (R76); a command beat has
eight words, its own after the header (R191); an epilogue word comes from its own table (R243); an event is encoded nowhere. -/
def CodecKind.Statement (i : Instr) : Prop :=
  match encode i with
  | .node ws => ∃ op n, i.node? = some (op, n) ∧ ws = encodeNode op n ∧ ws.length = (if n.ext.isSome then 2 else 1)
  | .cmd ws => ∃ cls kind c, i.cmd? = some (cls, kind, c) ∧ cmdOf cls kind c = some i ∧ ws.length = 8
  | .epi w => ∃ x, encodeEpi i = some x ∧ w = BitVec.ofNat 16 x
  | .token w => ∃ t, (i = .mma t ∧ w = BitVec.ofNat 64 (encodeToken 0 t)) ∨ (i = .mmaz t ∧ w = BitVec.ofNat 64 (encodeToken 1 t))
      ∨ (i = .drain t ∧ w = BitVec.ofNat 64 (encodeToken 2 t)) ∨ (i = .clr t ∧ w = BitVec.ofNat 64 (encodeToken 3 t))
  | .event => i.node? = none ∧ i.cmd? = none ∧ encodeEpi i = none

theorem CodecKind.node {i : Instr} {op : Op} {n : Node} (h : i.node? = some (op, n)) : CodecKind.Statement i := by
  have e : encode i = .node (encodeNode op n) := by simp only [encode, h]
  simp only [CodecKind.Statement, e]
  exact ⟨op, n, h, rfl, by unfold encodeNode; cases n.ext <;> rfl⟩

theorem CodecKind.command {i : Instr} {cls kind : Nat} {c : Cmd} (hn : i.node? = none) (h : i.cmd? = some (cls, kind, c))
    (hc : cmdOf cls kind c = some i) : CodecKind.Statement i := by
  have e : encode i = .cmd [BitVec.ofNat 64 (encodeHdr cls kind c.hdr), c.w1, c.w2, c.w3, c.w4, c.w5, c.w6, c.w7] := by
    simp only [encode, hn, h]
  simp only [CodecKind.Statement, e]
  exact ⟨cls, kind, c, h, hc, rfl⟩

theorem CodecKind.epilogue {i : Instr} {x : Nat} (hn : i.node? = none) (hc : i.cmd? = none) (h : encodeEpi i = some x) :
    CodecKind.Statement i := by
  have e : encode i = .epi (BitVec.ofNat 16 x) := by simp only [encode, hn, hc, h]
  simp only [CodecKind.Statement, e]
  exact ⟨x, h, rfl⟩

theorem CodecKind.step {i : Instr} (e : encode i = .event) (h : i.node? = none ∧ i.cmd? = none ∧ encodeEpi i = none) :
    CodecKind.Statement i := by
  simp only [CodecKind.Statement, e]
  exact h

theorem CodecKind.instantBegin (tile : Nat) : CodecKind.Statement (.instantBegin tile) := CodecKind.step rfl ⟨rfl, rfl, rfl⟩
theorem CodecKind.fxtInstantStart (region : Nat) : CodecKind.Statement (.fxtInstantStart region) := CodecKind.step rfl ⟨rfl, rfl, rfl⟩
theorem CodecKind.instantEnd (region : Nat) : CodecKind.Statement (.instantEnd region) := CodecKind.step rfl ⟨rfl, rfl, rfl⟩
theorem CodecKind.beatArrive (tile port : Nat) : CodecKind.Statement (.beatArrive tile port) := CodecKind.step rfl ⟨rfl, rfl, rfl⟩
theorem CodecKind.configBeatArrive (tile port : Nat) : CodecKind.Statement (.configBeatArrive tile port) := CodecKind.step rfl ⟨rfl, rfl, rfl⟩
theorem CodecKind.resizeBeatArrive (tile port : Nat) : CodecKind.Statement (.resizeBeatArrive tile port) := CodecKind.step rfl ⟨rfl, rfl, rfl⟩
theorem CodecKind.handoverBeatArrive (tile port : Nat) : CodecKind.Statement (.handoverBeatArrive tile port) := CodecKind.step rfl ⟨rfl, rfl, rfl⟩
theorem CodecKind.detachedBeatArrive (tile port : Nat) : CodecKind.Statement (.detachedBeatArrive tile port) := CodecKind.step rfl ⟨rfl, rfl, rfl⟩
theorem CodecKind.restartBeatArrive (tile port : Nat) : CodecKind.Statement (.restartBeatArrive tile port) := CodecKind.step rfl ⟨rfl, rfl, rfl⟩
theorem CodecKind.controlBeatDiscard (tile port : Nat) : CodecKind.Statement (.controlBeatDiscard tile port) := CodecKind.step rfl ⟨rfl, rfl, rfl⟩
theorem CodecKind.meridianPass (tile slot : Nat) : CodecKind.Statement (.meridianPass tile slot) := CodecKind.step rfl ⟨rfl, rfl, rfl⟩
theorem CodecKind.meridianCommit (region : Nat) : CodecKind.Statement (.meridianCommit region) := CodecKind.step rfl ⟨rfl, rfl, rfl⟩
theorem CodecKind.causality (region : Nat) : CodecKind.Statement (.causality region) := CodecKind.step rfl ⟨rfl, rfl, rfl⟩
theorem CodecKind.qstall (region : Nat) : CodecKind.Statement (.qstall region) := CodecKind.step rfl ⟨rfl, rfl, rfl⟩
theorem CodecKind.timingOverrun (src : Overrun) : CodecKind.Statement (.timingOverrun src) := CodecKind.step rfl ⟨rfl, rfl, rfl⟩
theorem CodecKind.leafDecision (region tile : Nat) : CodecKind.Statement (.leafDecision region tile) := CodecKind.step rfl ⟨rfl, rfl, rfl⟩
theorem CodecKind.configLoad (launch : Nat) (cfg : ChanCfg) : CodecKind.Statement (.configLoad launch cfg) := CodecKind.step rfl ⟨rfl, rfl, rfl⟩
theorem CodecKind.memResponse (tile slot : Nat) (uncorrectable : Bool) : CodecKind.Statement (.memResponse tile slot uncorrectable) := CodecKind.step rfl ⟨rfl, rfl, rfl⟩
theorem CodecKind.staleReplyDiscard (region gen : Nat) : CodecKind.Statement (.staleReplyDiscard region gen) := CodecKind.step rfl ⟨rfl, rfl, rfl⟩
theorem CodecKind.traverseBeat (ctx eng issue : Nat) : CodecKind.Statement (.traverseBeat ctx eng issue) := CodecKind.step rfl ⟨rfl, rfl, rfl⟩
theorem CodecKind.travwrBeat (tile port : Nat) : CodecKind.Statement (.travwrBeat tile port) := CodecKind.step rfl ⟨rfl, rfl, rfl⟩
theorem CodecKind.mcastStall (ctx eng issue branch : Nat) : CodecKind.Statement (.mcastStall ctx eng issue branch) := CodecKind.step rfl ⟨rfl, rfl, rfl⟩
theorem CodecKind.cmdHeadCheck (ctx eng : Nat) : CodecKind.Statement (.cmdHeadCheck ctx eng) := CodecKind.step rfl ⟨rfl, rfl, rfl⟩
theorem CodecKind.commandStart (ctx eng : Nat) : CodecKind.Statement (.commandStart ctx eng) := CodecKind.step rfl ⟨rfl, rfl, rfl⟩
theorem CodecKind.commandComplete (ctx eng issue : Nat) : CodecKind.Statement (.commandComplete ctx eng issue) := CodecKind.step rfl ⟨rfl, rfl, rfl⟩
theorem CodecKind.translationWalk (tile slot : Nat) : CodecKind.Statement (.translationWalk tile slot) := CodecKind.step rfl ⟨rfl, rfl, rfl⟩
theorem CodecKind.faultRecordWrite : CodecKind.Statement (.faultRecordWrite) := CodecKind.step rfl ⟨rfl, rfl, rfl⟩
theorem CodecKind.inp (n : Node) : CodecKind.Statement (.inp n) := CodecKind.node rfl
theorem CodecKind.mov (n : Node) : CodecKind.Statement (.mov n) := CodecKind.node rfl
theorem CodecKind.const (n : Node) : CodecKind.Statement (.const n) := CodecKind.node rfl
theorem CodecKind.lanei (n : Node) : CodecKind.Statement (.lanei n) := CodecKind.node rfl
theorem CodecKind.dlrd (n : Node) : CodecKind.Statement (.dlrd n) := CodecKind.node rfl
theorem CodecKind.sxld (n : Node) : CodecKind.Statement (.sxld n) := CodecKind.node rfl
theorem CodecKind.sxst (n : Node) : CodecKind.Statement (.sxst n) := CodecKind.node rfl
theorem CodecKind.bufrd (n : Node) : CodecKind.Statement (.bufrd n) := CodecKind.node rfl
theorem CodecKind.bufwr (n : Node) : CodecKind.Statement (.bufwr n) := CodecKind.node rfl
theorem CodecKind.add (n : Node) : CodecKind.Statement (.add n) := CodecKind.node rfl
theorem CodecKind.sub (n : Node) : CodecKind.Statement (.sub n) := CodecKind.node rfl
theorem CodecKind.mul (n : Node) : CodecKind.Statement (.mul n) := CodecKind.node rfl
theorem CodecKind.mulh (n : Node) : CodecKind.Statement (.mulh n) := CodecKind.node rfl
theorem CodecKind.mad (n : Node) : CodecKind.Statement (.mad n) := CodecKind.node rfl
theorem CodecKind.and (n : Node) : CodecKind.Statement (.and n) := CodecKind.node rfl
theorem CodecKind.or (n : Node) : CodecKind.Statement (.or n) := CodecKind.node rfl
theorem CodecKind.xor (n : Node) : CodecKind.Statement (.xor n) := CodecKind.node rfl
theorem CodecKind.not (n : Node) : CodecKind.Statement (.not n) := CodecKind.node rfl
theorem CodecKind.shl (n : Node) : CodecKind.Statement (.shl n) := CodecKind.node rfl
theorem CodecKind.shr (n : Node) : CodecKind.Statement (.shr n) := CodecKind.node rfl
theorem CodecKind.sar (n : Node) : CodecKind.Statement (.sar n) := CodecKind.node rfl
theorem CodecKind.rot (n : Node) : CodecKind.Statement (.rot n) := CodecKind.node rfl
theorem CodecKind.min (n : Node) : CodecKind.Statement (.min n) := CodecKind.node rfl
theorem CodecKind.max (n : Node) : CodecKind.Statement (.max n) := CodecKind.node rfl
theorem CodecKind.abs (n : Node) : CodecKind.Statement (.abs n) := CodecKind.node rfl
theorem CodecKind.neg (n : Node) : CodecKind.Statement (.neg n) := CodecKind.node rfl
theorem CodecKind.clz (n : Node) : CodecKind.Statement (.clz n) := CodecKind.node rfl
theorem CodecKind.popc (n : Node) : CodecKind.Statement (.popc n) := CodecKind.node rfl
theorem CodecKind.cmp (n : Node) : CodecKind.Statement (.cmp n) := CodecKind.node rfl
theorem CodecKind.sel (n : Node) : CodecKind.Statement (.sel n) := CodecKind.node rfl
theorem CodecKind.adds (n : Node) : CodecKind.Statement (.adds n) := CodecKind.node rfl
theorem CodecKind.subs (n : Node) : CodecKind.Statement (.subs n) := CodecKind.node rfl
theorem CodecKind.fadd (n : Node) : CodecKind.Statement (.fadd n) := CodecKind.node rfl
theorem CodecKind.fsub (n : Node) : CodecKind.Statement (.fsub n) := CodecKind.node rfl
theorem CodecKind.fmul (n : Node) : CodecKind.Statement (.fmul n) := CodecKind.node rfl
theorem CodecKind.ffma (n : Node) : CodecKind.Statement (.ffma n) := CodecKind.node rfl
theorem CodecKind.fmin (n : Node) : CodecKind.Statement (.fmin n) := CodecKind.node rfl
theorem CodecKind.fmax (n : Node) : CodecKind.Statement (.fmax n) := CodecKind.node rfl
theorem CodecKind.fabs (n : Node) : CodecKind.Statement (.fabs n) := CodecKind.node rfl
theorem CodecKind.fneg (n : Node) : CodecKind.Statement (.fneg n) := CodecKind.node rfl
theorem CodecKind.fcmp (n : Node) : CodecKind.Statement (.fcmp n) := CodecKind.node rfl
theorem CodecKind.frcp (n : Node) : CodecKind.Statement (.frcp n) := CodecKind.node rfl
theorem CodecKind.fsqrt (n : Node) : CodecKind.Statement (.fsqrt n) := CodecKind.node rfl
theorem CodecKind.frsq (n : Node) : CodecKind.Statement (.frsq n) := CodecKind.node rfl
theorem CodecKind.fexp2 (n : Node) : CodecKind.Statement (.fexp2 n) := CodecKind.node rfl
theorem CodecKind.flog2 (n : Node) : CodecKind.Statement (.flog2 n) := CodecKind.node rfl
theorem CodecKind.ftanh (n : Node) : CodecKind.Statement (.ftanh n) := CodecKind.node rfl
theorem CodecKind.fclass (n : Node) : CodecKind.Statement (.fclass n) := CodecKind.node rfl
theorem CodecKind.cvt (n : Node) : CodecKind.Statement (.cvt n) := CodecKind.node rfl
theorem CodecKind.bscale (n : Node) : CodecKind.Statement (.bscale n) := CodecKind.node rfl
theorem CodecKind.pack (n : Node) : CodecKind.Statement (.pack n) := CodecKind.node rfl
theorem CodecKind.unpack (n : Node) : CodecKind.Statement (.unpack n) := CodecKind.node rfl
theorem CodecKind.ofesc (n : Node) : CodecKind.Statement (.ofesc n) := CodecKind.node rfl
theorem CodecKind.lred (n : Node) : CodecKind.Statement (.lred n) := CodecKind.node rfl
theorem CodecKind.lscan (n : Node) : CodecKind.Statement (.lscan n) := CodecKind.node rfl
theorem CodecKind.lbcast (n : Node) : CodecKind.Statement (.lbcast n) := CodecKind.node rfl
theorem CodecKind.reord (n : Node) : CodecKind.Statement (.reord n) := CodecKind.node rfl
theorem CodecKind.rowstat (n : Node) : CodecKind.Statement (.rowstat n) := CodecKind.node rfl
theorem CodecKind.rowbuf (n : Node) : CodecKind.Statement (.rowbuf n) := CodecKind.node rfl
theorem CodecKind.rowscl (n : Node) : CodecKind.Statement (.rowscl n) := CodecKind.node rfl
theorem CodecKind.steer (n : Node) : CodecKind.Statement (.steer n) := CodecKind.node rfl
theorem CodecKind.merge (n : Node) : CodecKind.Statement (.merge n) := CodecKind.node rfl
theorem CodecKind.mergea (n : Node) : CodecKind.Statement (.mergea n) := CodecKind.node rfl
theorem CodecKind.carry (n : Node) : CodecKind.Statement (.carry n) := CodecKind.node rfl
theorem CodecKind.gate (n : Node) : CodecKind.Statement (.gate n) := CodecKind.node rfl
theorem CodecKind.pres (n : Node) : CodecKind.Statement (.pres n) := CodecKind.node rfl
theorem CodecKind.dflt (n : Node) : CodecKind.Statement (.dflt n) := CodecKind.node rfl
theorem CodecKind.absn (n : Node) : CodecKind.Statement (.absn n) := CodecKind.node rfl
theorem CodecKind.orp (n : Node) : CodecKind.Statement (.orp n) := CodecKind.node rfl
theorem CodecKind.nest (n : Node) : CodecKind.Statement (.nest n) := CodecKind.node rfl
theorem CodecKind.lcrd (n : Node) : CodecKind.Statement (.lcrd n) := CodecKind.node rfl
theorem CodecKind.inst (n : Node) : CodecKind.Statement (.inst n) := CodecKind.node rfl
theorem CodecKind.cyc (n : Node) : CodecKind.Statement (.cyc n) := CodecKind.node rfl
theorem CodecKind.merid (n : Node) : CodecKind.Statement (.merid n) := CodecKind.node rfl
theorem CodecKind.rmark (n : Node) : CodecKind.Statement (.rmark n) := CodecKind.node rfl
theorem CodecKind.cores (n : Node) : CodecKind.Statement (.cores n) := CodecKind.node rfl
theorem CodecKind.tileid (n : Node) : CodecKind.Statement (.tileid n) := CodecKind.node rfl
theorem CodecKind.regid (n : Node) : CodecKind.Statement (.regid n) := CodecKind.node rfl
theorem CodecKind.resize (n : Node) : CodecKind.Statement (.resize n) := CodecKind.node rfl
theorem CodecKind.endk (n : Node) : CodecKind.Statement (.endk n) := CodecKind.node rfl
theorem CodecKind.semsig (n : Node) : CodecKind.Statement (.semsig n) := CodecKind.node rfl
theorem CodecKind.semwait (n : Node) : CodecKind.Statement (.semwait n) := CodecKind.node rfl
theorem CodecKind.semrd (n : Node) : CodecKind.Statement (.semrd n) := CodecKind.node rfl
theorem CodecKind.semset (n : Node) : CodecKind.Statement (.semset n) := CodecKind.node rfl
theorem CodecKind.djoin (n : Node) : CodecKind.Statement (.djoin n) := CodecKind.node rfl
theorem CodecKind.fence (n : Node) : CodecKind.Statement (.fence n) := CodecKind.node rfl
theorem CodecKind.trap (n : Node) : CodecKind.Statement (.trap n) := CodecKind.node rfl
theorem CodecKind.brk (n : Node) : CodecKind.Statement (.brk n) := CodecKind.node rfl
theorem CodecKind.agen (n : Node) : CodecKind.Statement (.agen n) := CodecKind.node rfl
theorem CodecKind.ld (n : Node) : CodecKind.Statement (.ld n) := CodecKind.node rfl
theorem CodecKind.st (n : Node) : CodecKind.Statement (.st n) := CodecKind.node rfl
theorem CodecKind.ldx (n : Node) : CodecKind.Statement (.ldx n) := CodecKind.node rfl
theorem CodecKind.stx (n : Node) : CodecKind.Statement (.stx n) := CodecKind.node rfl
theorem CodecKind.atom (n : Node) : CodecKind.Statement (.atom n) := CodecKind.node rfl
theorem CodecKind.handover (n : Node) : CodecKind.Statement (.handover n) := CodecKind.node rfl
theorem CodecKind.bfillAcqw (n : Node) : CodecKind.Statement (.bfillAcqw n) := CodecKind.node rfl
theorem CodecKind.bfillPub (n : Node) : CodecKind.Statement (.bfillPub n) := CodecKind.node rfl
theorem CodecKind.bfreeAcqr (n : Node) : CodecKind.Statement (.bfreeAcqr n) := CodecKind.node rfl
theorem CodecKind.bfreeRel (n : Node) : CodecKind.Statement (.bfreeRel n) := CodecKind.node rfl
theorem CodecKind.eng (n : Node) : CodecKind.Statement (.eng n) := CodecKind.node rfl
theorem CodecKind.launch (n : Node) : CodecKind.Statement (.launch n) := CodecKind.node rfl
theorem CodecKind.sxset (n : Node) : CodecKind.Statement (.sxset n) := CodecKind.node rfl
theorem CodecKind.sxmix (n : Node) : CodecKind.Statement (.sxmix n) := CodecKind.node rfl
theorem CodecKind.sxhid (n : Node) : CodecKind.Statement (.sxhid n) := CodecKind.node rfl
theorem CodecKind.sxemb (n : Node) : CodecKind.Statement (.sxemb n) := CodecKind.node rfl
theorem CodecKind.sxkind (n : Node) : CodecKind.Statement (.sxkind n) := CodecKind.node rfl
theorem CodecKind.sxhash (n : Node) : CodecKind.Statement (.sxhash n) := CodecKind.node rfl
theorem CodecKind.collapse (n : Node) : CodecKind.Statement (.collapse n) := CodecKind.node rfl
theorem CodecKind.krd (n : Node) : CodecKind.Statement (.krd n) := CodecKind.node rfl
theorem CodecKind.kwr (n : Node) : CodecKind.Statement (.kwr n) := CodecKind.node rfl
theorem CodecKind.slotw (n : Node) : CodecKind.Statement (.slotw n) := CodecKind.node rfl
theorem CodecKind.genbump (n : Node) : CodecKind.Statement (.genbump n) := CodecKind.node rfl
theorem CodecKind.regsave (n : Node) : CodecKind.Statement (.regsave n) := CodecKind.node rfl
theorem CodecKind.regload (n : Node) : CodecKind.Statement (.regload n) := CodecKind.node rfl
theorem CodecKind.fltackResume (n : Node) : CodecKind.Statement (.fltackResume n) := CodecKind.node rfl
theorem CodecKind.fltackKill (n : Node) : CodecKind.Statement (.fltackKill n) := CodecKind.node rfl
theorem CodecKind.fltackFailcmd (n : Node) : CodecKind.Statement (.fltackFailcmd n) := CodecKind.node rfl
theorem CodecKind.fltackNote (n : Node) : CodecKind.Statement (.fltackNote n) := CodecKind.node rfl
theorem CodecKind.mxTokenAccept (tile : Nat) : CodecKind.Statement (.mxTokenAccept tile) := CodecKind.step rfl ⟨rfl, rfl, rfl⟩
theorem CodecKind.mma (t : MxTok) : CodecKind.Statement (.mma t) := ⟨t, by simp⟩
theorem CodecKind.mmaz (t : MxTok) : CodecKind.Statement (.mmaz t) := ⟨t, by simp⟩
theorem CodecKind.clr (t : MxTok) : CodecKind.Statement (.clr t) := ⟨t, by simp⟩
theorem CodecKind.drain (t : MxTok) : CodecKind.Statement (.drain t) := ⟨t, by simp⟩
theorem CodecKind.mxCompletion (tile : Nat) : CodecKind.Statement (.mxCompletion tile) := CodecKind.step rfl ⟨rfl, rfl, rfl⟩
theorem CodecKind.mxFeed (tile which : Nat) : CodecKind.Statement (.mxFeed tile which) := CodecKind.step rfl ⟨rfl, rfl, rfl⟩
theorem CodecKind.epiNop : CodecKind.Statement (.epiNop) := CodecKind.epilogue rfl rfl rfl
theorem CodecKind.epiLdc : CodecKind.Statement (.epiLdc) := CodecKind.epilogue rfl rfl rfl
theorem CodecKind.epiAddb (a : BitVec 12) : CodecKind.Statement (.epiAddb a) := CodecKind.epilogue rfl rfl rfl
theorem CodecKind.epiMuls (a : BitVec 12) : CodecKind.Statement (.epiMuls a) := CodecKind.epilogue rfl rfl rfl
theorem CodecKind.epiAdda (a : BitVec 12) : CodecKind.Statement (.epiAdda a) := CodecKind.epilogue rfl rfl rfl
theorem CodecKind.epiAct (k : BitVec 4) : CodecKind.Statement (.epiAct k) := CodecKind.epilogue rfl rfl rfl
theorem CodecKind.epiClamp (a : BitVec 12) : CodecKind.Statement (.epiClamp a) := CodecKind.epilogue rfl rfl rfl
theorem CodecKind.epiCvt (s : BitVec 1) (r : BitVec 2) (d : BitVec 4) : CodecKind.Statement (.epiCvt s r d) := CodecKind.epilogue rfl rfl rfl
theorem CodecKind.epiBsc (a : BitVec 12) : CodecKind.Statement (.epiBsc a) := CodecKind.epilogue rfl rfl rfl
theorem CodecKind.epiRowm (a : BitVec 12) : CodecKind.Statement (.epiRowm a) := CodecKind.epilogue rfl rfl rfl
theorem CodecKind.epiRows (a : BitVec 12) : CodecKind.Statement (.epiRows a) := CodecKind.epilogue rfl rfl rfl
theorem CodecKind.epiSta (a : BitVec 12) : CodecKind.Statement (.epiSta a) := CodecKind.epilogue rfl rfl rfl
theorem CodecKind.epiSto (k : BitVec 4) : CodecKind.Statement (.epiSto k) := CodecKind.epilogue rfl rfl rfl
theorem CodecKind.epiEnd : CodecKind.Statement (.epiEnd) := CodecKind.epilogue rfl rfl rfl
theorem CodecKind.travrd (c : Cmd) : CodecKind.Statement (.travrd c) := CodecKind.command rfl rfl rfl
theorem CodecKind.travwr (c : Cmd) : CodecKind.Statement (.travwr c) := CodecKind.command rfl rfl rfl
theorem CodecKind.travmc (c : Cmd) : CodecKind.Statement (.travmc c) := CodecKind.command rfl rfl rfl
theorem CodecKind.copy (c : Cmd) : CodecKind.Statement (.copy c) := CodecKind.command rfl rfl rfl
theorem CodecKind.gather (c : Cmd) : CodecKind.Statement (.gather c) := CodecKind.command rfl rfl rfl
theorem CodecKind.scatter (c : Cmd) : CodecKind.Statement (.scatter c) := CodecKind.command rfl rfl rfl
theorem CodecKind.fill (c : Cmd) : CodecKind.Statement (.fill c) := CodecKind.command rfl rfl rfl
theorem CodecKind.allred (c : Cmd) : CodecKind.Statement (.allred c) := CodecKind.command rfl rfl rfl
theorem CodecKind.allgath (c : Cmd) : CodecKind.Statement (.allgath c) := CodecKind.command rfl rfl rfl
theorem CodecKind.redscat (c : Cmd) : CodecKind.Statement (.redscat c) := CodecKind.command rfl rfl rfl
theorem CodecKind.xsend (c : Cmd) : CodecKind.Statement (.xsend c) := CodecKind.command rfl rfl rfl
theorem CodecKind.xrecv (c : Cmd) : CodecKind.Statement (.xrecv c) := CodecKind.command rfl rfl rfl
theorem CodecKind.sample (c : Cmd) : CodecKind.Statement (.sample c) := CodecKind.command rfl rfl rfl
theorem CodecKind.argmax (c : Cmd) : CodecKind.Statement (.argmax c) := CodecKind.command rfl rfl rfl
theorem CodecKind.pgalloc (c : Cmd) : CodecKind.Statement (.pgalloc c) := CodecKind.command rfl rfl rfl
theorem CodecKind.pgfree (c : Cmd) : CodecKind.Statement (.pgfree c) := CodecKind.command rfl rfl rfl
theorem CodecKind.pgfork (c : Cmd) : CodecKind.Statement (.pgfork c) := CodecKind.command rfl rfl rfl
theorem CodecKind.pgappend (c : Cmd) : CodecKind.Statement (.pgappend c) := CodecKind.command rfl rfl rfl
theorem CodecKind.pgcommit (c : Cmd) : CodecKind.Statement (.pgcommit c) := CodecKind.command rfl rfl rfl
theorem CodecKind.pgtrunc (c : Cmd) : CodecKind.Statement (.pgtrunc c) := CodecKind.command rfl rfl rfl
theorem CodecKind.pgstat (c : Cmd) : CodecKind.Statement (.pgstat c) := CodecKind.command rfl rfl rfl
theorem CodecKind.admission (c : Cmd) : CodecKind.Statement (.admission c) := CodecKind.command rfl rfl rfl
theorem CodecKind.batch (c : Cmd) : CodecKind.Statement (.batch c) := CodecKind.command rfl rfl rfl
theorem CodecKind.retire (c : Cmd) : CodecKind.Statement (.retire c) := CodecKind.command rfl rfl rfl
theorem CodecKind.egress (c : Cmd) : CodecKind.Statement (.egress c) := CodecKind.command rfl rfl rfl
theorem CodecKind.logapp (c : Cmd) : CodecKind.Statement (.logapp c) := CodecKind.command rfl rfl rfl
theorem CodecKind.pfxmatch (c : Cmd) : CodecKind.Statement (.pfxmatch c) := CodecKind.command rfl rfl rfl
theorem CodecKind.replay (c : Cmd) : CodecKind.Statement (.replay c) := CodecKind.command rfl rfl rfl
theorem CodecKind.migout (c : Cmd) : CodecKind.Statement (.migout c) := CodecKind.command rfl rfl rfl
theorem CodecKind.migin (c : Cmd) : CodecKind.Statement (.migin c) := CodecKind.command rfl rfl rfl
theorem CodecKind.faultRecordHandle : CodecKind.Statement (.faultRecordHandle) := CodecKind.step rfl ⟨rfl, rfl, rfl⟩
theorem CodecKind.faultDecision : CodecKind.Statement (.faultDecision) := CodecKind.step rfl ⟨rfl, rfl, rfl⟩
theorem CodecKind.decisionTimeout : CodecKind.Statement (.decisionTimeout) := CodecKind.step rfl ⟨rfl, rfl, rfl⟩
theorem CodecKind.regpreReq (region : Nat) (gated : Bool) : CodecKind.Statement (.regpreReq region gated) := CodecKind.step rfl ⟨rfl, rfl, rfl⟩
theorem CodecKind.preemptQuiesce (region : Nat) : CodecKind.Statement (.preemptQuiesce region) := CodecKind.step rfl ⟨rfl, rfl, rfl⟩
theorem CodecKind.preemptTimeout (region : Nat) : CodecKind.Statement (.preemptTimeout region) := CodecKind.step rfl ⟨rfl, rfl, rfl⟩
theorem CodecKind.regpreResume (region : Nat) : CodecKind.Statement (.regpreResume region) := CodecKind.step rfl ⟨rfl, rfl, rfl⟩
theorem CodecKind.schedulerDecision (part : Nat) : CodecKind.Statement (.schedulerDecision part) := CodecKind.step rfl ⟨rfl, rfl, rfl⟩
theorem CodecKind.launchComplete (launch : Nat) : CodecKind.Statement (.launchComplete launch) := CodecKind.step rfl ⟨rfl, rfl, rfl⟩
theorem CodecKind.sqenEnable (part q : Nat) : CodecKind.Statement (.sqenEnable part q) := CodecKind.step rfl ⟨rfl, rfl, rfl⟩
theorem CodecKind.sqenDisable (part q : Nat) : CodecKind.Statement (.sqenDisable part q) := CodecKind.step rfl ⟨rfl, rfl, rfl⟩
theorem CodecKind.psqpostWrite (v : BitVec 64) : CodecKind.Statement (.psqpostWrite v) := CodecKind.step rfl ⟨rfl, rfl, rfl⟩
theorem CodecKind.psqKernelStart : CodecKind.Statement (.psqKernelStart) := CodecKind.step rfl ⟨rfl, rfl, rfl⟩
theorem CodecKind.engshareWrite (ctx : Nat) (v : BitVec 64) : CodecKind.Statement (.engshareWrite ctx v) := CodecKind.step rfl ⟨rfl, rfl, rfl⟩
theorem CodecKind.tinvWrite (ctx : Nat) (v : BitVec 64) : CodecKind.Statement (.tinvWrite ctx v) := CodecKind.step rfl ⟨rfl, rfl, rfl⟩
theorem CodecKind.imaskWrite (part set k : Nat) (v : BitVec 64) : CodecKind.Statement (.imaskWrite part set k v) := CodecKind.step rfl ⟨rfl, rfl, rfl⟩
theorem CodecKind.imctlWrite (part set : Nat) (v : BitVec 64) : CodecKind.Statement (.imctlWrite part set v) := CodecKind.step rfl ⟨rfl, rfl, rfl⟩
theorem CodecKind.dcsplitWrite (die : Nat) (v : BitVec 64) : CodecKind.Statement (.dcsplitWrite die v) := CodecKind.step rfl ⟨rfl, rfl, rfl⟩
theorem CodecKind.memctlCacheWrite (stack : Nat) (v : BitVec 64) : CodecKind.Statement (.memctlCacheWrite stack v) := CodecKind.step rfl ⟨rfl, rfl, rfl⟩
theorem CodecKind.memctlReset (stack : Nat) (v : BitVec 64) : CodecKind.Statement (.memctlReset stack v) := CodecKind.step rfl ⟨rfl, rfl, rfl⟩
theorem CodecKind.pmemWrite (part i : Nat) (v : BitVec 64) : CodecKind.Statement (.pmemWrite part i v) := CodecKind.step rfl ⟨rfl, rfl, rfl⟩
theorem CodecKind.semWindowInc (offset width : Nat) (value : BitVec 64) (tee : Bool) : CodecKind.Statement (.semWindowInc offset width value tee) := CodecKind.step rfl ⟨rfl, rfl, rfl⟩
theorem CodecKind.semWindowRead (slot byte width : Nat) (tee : Bool) : CodecKind.Statement (.semWindowRead slot byte width tee) := CodecKind.step rfl ⟨rfl, rfl, rfl⟩
theorem CodecKind.hostMemRead (hpa len : Nat) (tee : Bool) : CodecKind.Statement (.hostMemRead hpa len tee) := CodecKind.step rfl ⟨rfl, rfl, rfl⟩
theorem CodecKind.hostMemWrite (hpa : Nat) (bytes : List Byte) (tee : Bool) : CodecKind.Statement (.hostMemWrite hpa bytes tee) := CodecKind.step rfl ⟨rfl, rfl, rfl⟩
theorem CodecKind.hostSnoop (pa : Nat) : CodecKind.Statement (.hostSnoop pa) := CodecKind.step rfl ⟨rfl, rfl, rfl⟩
theorem CodecKind.lockInterface (part : Nat) : CodecKind.Statement (.lockInterface part) := CodecKind.step rfl ⟨rfl, rfl, rfl⟩
theorem CodecKind.startInterface (part : Nat) : CodecKind.Statement (.startInterface part) := CodecKind.step rfl ⟨rfl, rfl, rfl⟩
theorem CodecKind.stopInterface (part : Nat) : CodecKind.Statement (.stopInterface part) := CodecKind.step rfl ⟨rfl, rfl, rfl⟩
theorem CodecKind.getDeviceInterfaceState (part : Nat) : CodecKind.Statement (.getDeviceInterfaceState part) := CodecKind.step rfl ⟨rfl, rfl, rfl⟩
theorem CodecKind.getDeviceInterfaceReport (part : Nat) : CodecKind.Statement (.getDeviceInterfaceReport part) := CodecKind.step rfl ⟨rfl, rfl, rfl⟩
theorem CodecKind.unsupportedRequest (part : Nat) : CodecKind.Statement (.unsupportedRequest part) := CodecKind.step rfl ⟨rfl, rfl, rfl⟩
theorem CodecKind.interfaceError (part : Nat) : CodecKind.Statement (.interfaceError part) := CodecKind.step rfl ⟨rfl, rfl, rfl⟩
theorem CodecKind.getMeasurements : CodecKind.Statement (.getMeasurements) := CodecKind.step rfl ⟨rfl, rfl, rfl⟩
theorem CodecKind.agentMeasurements (peer : Nat) (key : BitVec 256) : CodecKind.Statement (.agentMeasurements peer key) := CodecKind.step rfl ⟨rfl, rfl, rfl⟩
theorem CodecKind.measurementEvent (mr : Nat) (item : List Byte) : CodecKind.Statement (.measurementEvent mr item) := CodecKind.step rfl ⟨rfl, rfl, rfl⟩
theorem CodecKind.recordUpdate (image : List Byte) (signed : Bool) : CodecKind.Statement (.recordUpdate image signed) := CodecKind.step rfl ⟨rfl, rfl, rfl⟩
theorem CodecKind.migrationImageReceive (ctx peer no : Nat) (at_ : ImageAt) (c : Cmd) : CodecKind.Statement (.migrationImageReceive ctx peer no at_ c) := CodecKind.step rfl ⟨rfl, rfl, rfl⟩
theorem CodecKind.migrationNotify (ctx : Nat) (n : Notice) : CodecKind.Statement (.migrationNotify ctx n) := CodecKind.step rfl ⟨rfl, rfl, rfl⟩
theorem CodecKind.flitSend (link vc : Nat) (payload : List Payload) : CodecKind.Statement (.flitSend link vc payload) := CodecKind.step rfl ⟨rfl, rfl, rfl⟩
theorem CodecKind.flitReceive (link : Nat) (f : Flit) : CodecKind.Statement (.flitReceive link f) := CodecKind.step rfl ⟨rfl, rfl, rfl⟩
theorem CodecKind.linkRetrain (link : Nat) (ok : Bool) : CodecKind.Statement (.linkRetrain link ok) := CodecKind.step rfl ⟨rfl, rfl, rfl⟩
theorem CodecKind.bmsHeartbeat (o : Owner) : CodecKind.Statement (.bmsHeartbeat o) := CodecKind.step rfl ⟨rfl, rfl, rfl⟩
theorem CodecKind.refresh (p : OwnedPch) : CodecKind.Statement (.refresh p) := CodecKind.step rfl ⟨rfl, rfl, rfl⟩
theorem CodecKind.refreshTakeover (o : Owner) : CodecKind.Statement (.refreshTakeover o) := CodecKind.step rfl ⟨rfl, rfl, rfl⟩
theorem CodecKind.refreshHandback (o : Owner) : CodecKind.Statement (.refreshHandback o) := CodecKind.step rfl ⟨rfl, rfl, rfl⟩
theorem CodecKind.rowRepair (stack row : Nat) : CodecKind.Statement (.rowRepair stack row) := CodecKind.step rfl ⟨rfl, rfl, rfl⟩
theorem CodecKind.laneSpare (die edge : Nat) : CodecKind.Statement (.laneSpare die edge) := CodecKind.step rfl ⟨rfl, rfl, rfl⟩
theorem CodecKind.waySpare (die slice : Nat) : CodecKind.Statement (.waySpare die slice) := CodecKind.step rfl ⟨rfl, rfl, rfl⟩
theorem CodecKind.lifeFlush : CodecKind.Statement (.lifeFlush) := CodecKind.step rfl ⟨rfl, rfl, rfl⟩
theorem CodecKind.powerCheck (watts tempC : Nat) : CodecKind.Statement (.powerCheck watts tempC) := CodecKind.step rfl ⟨rfl, rfl, rfl⟩
theorem CodecKind.droopStretch (tile : Nat) (beyond : Bool) : CodecKind.Statement (.droopStretch tile beyond) := CodecKind.step rfl ⟨rfl, rfl, rfl⟩
theorem CodecKind.boot (copyA copyB : Bool) : CodecKind.Statement (.boot copyA copyB) := CodecKind.step rfl ⟨rfl, rfl, rfl⟩
theorem CodecKind.controlRegionReload : CodecKind.Statement (.controlRegionReload) := CodecKind.step rfl ⟨rfl, rfl, rfl⟩
theorem CodecKind.ctxstateWrite (ctx : Nat) (v : BitVec 64) : CodecKind.Statement (.ctxstateWrite ctx v) := CodecKind.step rfl ⟨rfl, rfl, rfl⟩
theorem CodecKind.partctlWrite (part : Nat) (v : BitVec 64) : CodecKind.Statement (.partctlWrite part v) := CodecKind.step rfl ⟨rfl, rfl, rfl⟩
theorem CodecKind.spanctlWrite (k : Nat) (v : BitVec 64) : CodecKind.Statement (.spanctlWrite k v) := CodecKind.step rfl ⟨rfl, rfl, rfl⟩
theorem CodecKind.brkResume (region : Nat) : CodecKind.Statement (.brkResume region) := CodecKind.step rfl ⟨rfl, rfl, rfl⟩
theorem CodecKind.throttle (stack level : Nat) : CodecKind.Statement (.throttle stack level) := CodecKind.step rfl ⟨rfl, rfl, rfl⟩

end Sys2Proof.Laws
end

