-- ==== Sys2Proof/Machine/AsmText.lean ====
section
/-!
DEFINITION. The text of the assembly language that `zalm` reads: lines, tokens and numbers (R417), the errors it stops at (R424), and
the readers of values that every kind of line shares (R419, R422, R423).
-/
namespace Sys2Proof.Zalm

open Sys2Proof.Machine

/-- The error codes of R424. -/
inductive ErrCode where
  | z01 | z02 | z03 | z04 | z05 | z06 | z07 | z08 | z09 | z10 | z11 | z12 | z13
deriving DecidableEq, Repr, Inhabited

/-- The error `zalm` stops at: code, line and column, and the load check of a Z13 (R86, R424). -/
structure AsmErr where
  code : ErrCode
  line : Nat
  col : Nat
  check : Option CfgCheck
deriving DecidableEq, Repr, Inhabited

/-- A result, or the first error. -/
abbrev Asm := Except AsmErr

/-- Where something stands in the source, both counted from 1. -/
structure Pos where
  line : Nat
  col : Nat
deriving DecidableEq, Repr, Inhabited

def fail {α : Type} (p : Pos) (c : ErrCode) : Asm α := .error ⟨c, p.line, p.col, none⟩

/-- A number as written (R417): an integer with its digits counted, or a real (−1)^neg × m × 10^e. -/
inductive Num where
  | int (neg hex : Bool) (digits v : Nat)
  | real (neg : Bool) (m : Nat) (e : Int)
deriving DecidableEq, Repr, Inhabited

/-- A token; `bad` is a character or a number that R417 does not know. -/
inductive Tok where
  | name (s : String)
  | num (n : Num)
  | sym (c : Char)
  | arrow
  | negInf
  | bad
deriving DecidableEq, Repr, Inhabited

/-- A token, its column, and whether it follows the one before it without a space. -/
structure Tk where
  tok : Tok
  col : Nat
  glued : Bool
deriving DecidableEq, Repr, Inhabited

/-- A line that is not blank once its comment is gone. -/
structure SrcLine where
  no : Nat
  indented : Bool
  toks : List Tk
deriving DecidableEq, Repr, Inhabited

def isBlank (c : Char) : Bool := c == ' ' || c == '\t'
def nameStart (c : Char) : Bool := c.isAlpha || c == '_'
def nameChar (c : Char) : Bool := c.isAlphanum || c == '_'
def isHex (c : Char) : Bool := c.isDigit || ('a' ≤ c && c ≤ 'f') || ('A' ≤ c && c ≤ 'F')

def hexDigit (c : Char) : Nat :=
  if c.isDigit then c.toNat - 48 else if 'a' ≤ c then c.toNat - 87 else c.toNat - 55

def numOf (base : Nat) (cs : List Char) : Nat := cs.foldl (fun v c => v * base + hexDigit c) 0

/-- A comment runs from `;` or `//` to the end of the line. -/
def dropComment : List Char → List Char
  | [] => []
  | ';' :: _ => []
  | '/' :: '/' :: _ => []
  | c :: cs => c :: dropComment cs

/-- Every `_` stands between two digits. -/
def underscoresOk : List Char → Bool
  | '_' :: _ => false
  | [_] => true
  | c :: '_' :: cs => (match cs with | d :: _ => c != '_' && d != '_' && underscoresOk cs | [] => false)
  | _ :: cs => underscoresOk cs
  | [] => true

/-- A token and how many characters it takes. A number that runs into a name is no number. -/
def numToken (t : Option Num) (len : Nat) (rest : List Char) : Tok × Nat :=
  match t with
  | some n => if (rest.headD ' ' |> nameChar) then (.bad, len) else (.num n, len)
  | none => (.bad, len)

/-- The exponent of a decimal number, as far as it is one: its value and its characters. -/
def exponent (cs : List Char) : Option (Int × Nat) :=
  match cs with
  | e :: s :: ds =>
    if e == 'e' || e == 'E' then
      let signed := s == '-' || s == '+'
      let d := (if signed then ds else s :: ds).takeWhile Char.isDigit
      if d.isEmpty then none
      else some (if s == '-' then -((numOf 10 d : Nat) : Int) else (numOf 10 d : Nat), 1 + boolNat signed + d.length)
    else none
  | _ => none

/-- A number at the head of the text, after its sign (R417). -/
def lexNum (neg : Bool) (cs : List Char) : Tok × Nat :=
  match cs with
  | '0' :: 'x' :: hs =>
    let body := hs.takeWhile fun c => isHex c || c == '_'
    let ds := body.filter (· != '_')
    numToken (if ds.isEmpty || !underscoresOk body then none else some (.int neg true ds.length (numOf 16 ds))) (2 + body.length)
      (hs.drop body.length)
  | _ =>
    let ip := cs.takeWhile Char.isDigit
    let r := cs.drop ip.length
    let fp := match r with | '.' :: ds => ds.takeWhile Char.isDigit | _ => []
    let n := ip.length + (if fp.isEmpty then 0 else 1 + fp.length)
    let r2 := cs.drop n
    match exponent r2 with
    | some (e, k) => numToken (some (.real neg (numOf 10 (ip ++ fp)) (e - fp.length))) (n + k) (r2.drop k)
    | none =>
      numToken (some (if fp.isEmpty then .int neg false ip.length (numOf 10 ip) else .real neg (numOf 10 (ip ++ fp)) (-(fp.length : Int)))) n r2

/-- The first token of a text that begins with no blank. -/
def lexOne (cs : List Char) : Tok × Nat :=
  match cs with
  | [] => (.bad, 1)
  | '-' :: '>' :: _ => (.arrow, 2)
  | '-' :: r =>
    if r.take 3 == ['i', 'n', 'f'] && !((r.drop 3).headD ' ' |> nameChar) then (.negInf, 4)
    else if (r.headD ' ').isDigit then (let (t, n) := lexNum true r; (t, n + 1)) else (.bad, 1)
  | c :: _ =>
    if nameStart c then (let w := cs.takeWhile nameChar; (.name (String.ofList w), w.length))
    else if c.isDigit then lexNum false cs
    else if c == '.' || c == ':' || c == ',' || c == '=' || c == '#' then (.sym c, 1)
    else (.bad, 1)

/-- The tokens of a line; `n` bounds its length. -/
def lexLine : Nat → Nat → Bool → List Char → List Tk
  | 0, _, _, _ => []
  | _, _, _, [] => []
  | n + 1, col, glued, c :: cs =>
    if isBlank c then lexLine n (col + 1) false cs
    else
      let (t, k) := lexOne (c :: cs)
      ⟨t, col, glued⟩ :: lexLine n (col + k) true ((c :: cs).drop k)

/-- The text cut at its line ends. -/
def cutLines : List Char → List (List Char)
  | [] => [[]]
  | '\n' :: cs => [] :: cutLines cs
  | c :: cs => match cutLines cs with | l :: ls => (c :: l) :: ls | [] => [[c]]

/-- The lines that are not blank, numbered from 1 (R417). -/
def srcLines (src : String) : List SrcLine :=
  let ls := cutLines src.toList
  ((ls.zip (List.range ls.length)).map fun (cs, i) =>
    let body := dropComment cs
    (⟨i + 1, isBlank (body.headD 'x'), lexLine (body.length + 1) 1 false body⟩ : SrcLine)).filter fun l => !l.toks.isEmpty

/-- A name in the form in which mnemonics, types, modifiers, keys and directives are matched (R417). -/
def fold (s : String) : String := String.ofList (s.toList.map Char.toLower)

/-- The index of a name of the form prefix and digits, such as `in3`. -/
def indexed (pre s : String) : Option Nat :=
  let p := pre.toList
  let d := s.toList.drop p.length
  if s.toList.take p.length == p && !d.isEmpty && d.all Char.isDigit then some (numOf 10 d) else none

/-! Values. -/

/-- An item after the operands of a node, or of a directive: a key with the tokens of its value, or a word alone. -/
structure Item where
  word : String
  pos : Pos
  key : Bool
  val : List Tk
deriving DecidableEq, Repr, Inhabited

/-- The value of a key: its first token and those that follow without a space, up to a comma or an arrow. -/
def valueOf : List Tk → List Tk
  | [] => []
  | t :: ts => t :: ts.takeWhile fun x => x.glued && x.tok != .sym ',' && x.tok != .arrow

/-- Key-items, resources and flag words up to the end of the tokens. -/
def itemsOf (line : Nat) : Nat → List Tk → Asm (List Item)
  | 0, _ => .ok []
  | _, [] => .ok []
  | n + 1, t :: ts =>
    match t.tok with
    | .name w =>
      (match ts with
       | e :: vs =>
         if e.tok == .sym '=' then
           let v := valueOf vs
           if v.isEmpty then fail ⟨line, t.col⟩ .z04
           else return ⟨w, ⟨line, t.col⟩, true, v⟩ :: (← itemsOf line n (vs.drop v.length))
         else return ⟨w, ⟨line, t.col⟩, false, []⟩ :: (← itemsOf line n ts)
       | [] => .ok [⟨w, ⟨line, t.col⟩, false, []⟩])
    | _ => fail ⟨line, t.col⟩ .z01

/-- No key or flag word stands twice. -/
def noTwice : List Item → List String → Asm Unit
  | [], _ => .ok ()
  | i :: is, seen => if seen.contains (fold i.word) then fail i.pos .z03 else noTwice is (fold i.word :: seen)

def Num.intVal : Num → Option Int
  | .int neg _ _ v => some (if neg then -(v : Int) else v)
  | .real .. => none

/-- An integer as a value. -/
def intOf (p : Pos) : List Tk → Asm Int
  | [⟨.num n, _, _⟩] => match n.intVal with | some v => .ok v | none => fail p .z04
  | _ => fail p .z04

/-- A value that is a name of a list, or an integer. -/
def codeOf (names : List (String × Nat)) (p : Pos) (v : List Tk) : Asm Int :=
  match v with
  | [⟨.name w, _, _⟩] => match names.find? fun n => n.1 == fold w with | some n => .ok (n.2 : Int) | none => fail p .z04
  | _ => intOf p v

/-- A value within its field: unsigned of `w` bits, or signed. -/
def inField (p : Pos) (signed : Bool) (w : Nat) (v : Int) : Asm Nat :=
  let lo : Int := if signed then -((2 ^ (w - 1) : Nat) : Int) else 0
  let hi : Int := if signed then ((2 ^ (w - 1) : Nat) : Int) else ((2 ^ w : Nat) : Int)
  if lo ≤ v && v < hi then .ok (ofSigned w v) else fail p .z04

/-- A decimal real rounded once under RNE (R52, R419, R423): 10^(−k) leaves a sticky rest. -/
def realBits (mb : Nat) (neg : Bool) (m : Nat) (e : Int) : Nat :=
  if 0 ≤ e then (Dy.mk neg (m * 10 ^ e.toNat) 0).toBits mb .rne
  else
    let k := (-e).toNat
    let n := m * 2 ^ (4 * k + 200)
    (Dy.mk neg (n / 10 ^ k) (-((4 * k + 200 : Nat) : Int))).toBits mb .rne (n % 10 ^ k != 0)

/-- What a value for an f32 or bf16 field is: a bit pattern of so many digits, or a number rounded to the type. -/
inductive FloatLit where
  | pattern (digits bits : Nat)
  | value (bits : Nat)
deriving DecidableEq, Repr, Inhabited

/-- A value for a float field: a hexadecimal integer is a pattern, any other number a value (R419, R422, R423). -/
def floatOf (mb : Nat) : List Tk → Option FloatLit
  | [⟨.num (.int neg true d v), _, _⟩] => if neg then none else some (.pattern d v)
  | [⟨.num (.int neg false _ v), _, _⟩] => some (.value ((Val.ofInt (if neg then -(v : Int) else v)).toBits mb .rne))
  | [⟨.num (.real neg m e), _, _⟩] => some (.value (realBits mb neg m e))
  | [⟨.negInf, _, _⟩] => some (.value (infBits mb true))
  | [⟨.name w, _, _⟩] => if w == "inf" then some (.value (infBits mb false)) else if w == "nan" then some (.value (nanBits mb)) else none
  | _ => none

/-- The type names of R47. -/
def tyNames : List (String × Nat) :=
  [("f32", 0), ("bf16", 1), ("of8", 2), ("of4", 3), ("ds8", 4), ("i32", 5), ("n32", 6), ("i64", 7), ("n64", 8), ("i16", 9), ("n16", 10),
   ("i8", 11), ("n8", 12), ("pred", 13), ("raw", 14)]

/-- The scopes of R137. -/
def scopeNames : List (String × Nat) := [("tile", 0), ("region", 1), ("die", 2), ("device", 3), ("system", 4)]

/-- The rounding modes of R51. -/
def rndNames : List (String × Nat) := [("rne", 0), ("rtz", 1), ("rup", 2), ("rdn", 3)]

end Sys2Proof.Zalm
end

