-- ==== Sys2Proof/Machine/AsmData.lean ====
section
/-!
DEFINITION. What the assembly language writes beside nodes: command templates and traverses (R155, R191, R201, R203, R206, R259–R280, R422),
matrix tokens (R229), epilogue words (R243), sampler stages (R267) and data lines (R423).
-/
namespace Sys2Proof.Zalm

open Sys2Proof.Machine

/-! Command templates. -/

/-- A field of a command: its key, its word, its lowest bit and width, whether it is signed, the names its value may take. -/
structure CmdField where
  key : String
  word : Nat
  lo : Nat
  w : Nat
  signed : Bool
  names : List (String × Nat)
deriving DecidableEq, Repr, Inhabited

/-- Class and kind of every kind name (R192, R260). -/
def kindNames : List (String × Nat × Nat) :=
  [("travrd", 1, 1), ("travwr", 1, 2), ("travmc", 1, 3), ("copy", 2, 1), ("gather", 2, 2), ("scatter", 2, 3), ("fill", 2, 4),
   ("allred", 3, 1), ("allgath", 3, 2), ("redscat", 3, 3), ("xsend", 3, 4), ("xrecv", 3, 5), ("sample", 4, 1), ("argmax", 4, 2)] ++
  [("pgalloc", 5, 1), ("pgfree", 5, 2), ("pgfork", 5, 3), ("pgappend", 5, 4), ("pgcommit", 5, 5), ("pgtrunc", 5, 6), ("pgstat", 5, 7),
   ("admit", 6, 1), ("batch", 6, 2), ("retire", 6, 3), ("egress", 6, 4), ("logapp", 6, 5), ("pfxmatch", 6, 6), ("replay", 6, 7),
   ("migout", 6, 8), ("migin", 6, 9)]

/-- The fields that the keys of a command name: those that its kind uses (R155, R201, R203, R206, R264–R280). -/
def cmdFields (cls kind : Nat) : List CmdField :=
  let u (k : String) (word lo w : Nat) : CmdField := ⟨k, word, lo, w, false, []⟩
  let slot := u "slot" 1 0 12
  let cpySrc := [u "src" 1 0 57, u "dst" 2 0 57]
  let cpyLen := u "len" 3 0 40
  let colShape : List CmdField := [u "n" 3 0 40, ⟨"fmt", 3, 40, 4, false, tyNames⟩, u "group" 4 0 16]
  let colPair := [u "peer" 4 16 16, u "tag" 4 32 16]
  match cls, kind with
  | 1, _ =>
    [u "base" 1 0 57, ⟨"fmt", 1, 57, 4, false, tyNames⟩, u "window" 7 0 16, u "ooo" 7 16 1, ⟨"s0", 2, 0, 40, true, []⟩,
     ⟨"s1", 3, 0, 40, true, []⟩, ⟨"s2", 4, 0, 40, true, []⟩, ⟨"s3", 5, 0, 40, true, []⟩]
  | 2, 1 => cpySrc ++ [cpyLen, ⟨"sfmt", 5, 16, 4, false, tyNames⟩, ⟨"dfmt", 5, 20, 4, false, tyNames⟩, u "dbuf" 5 24 1]
  | 2, 2 => cpySrc ++ [cpyLen, u "aux" 4 0 64, u "row" 5 0 16, u "dbuf" 5 24 1, u "ooo" 5 25 1]
  | 2, 3 => cpySrc ++ [cpyLen, u "aux" 4 0 64, u "row" 5 0 16]
  | 2, _ => [u "dst" 2 0 57, cpyLen, u "aux" 4 0 64]
  | 3, 2 => cpySrc ++ colShape
  | 3, 4 => u "src" 1 0 57 :: colShape ++ colPair
  | 3, 5 => u "dst" 2 0 57 :: colShape ++ colPair
  | 3, _ => cpySrc ++ colShape ++ [⟨"op", 3, 44, 3, false, [("sum", 0), ("max", 1), ("min", 2)]⟩]
  | 4, 1 => [u "logits" 1 0 57, u "vocab" 2 0 20, u "slot" 2 32 12, u "result" 3 0 57]
  | 4, _ => [u "logits" 1 0 57, u "vocab" 2 0 20, u "result" 3 0 57]
  | 5, 1 => [slot, u "n" 2 0 16]
  | 5, 2 => [slot, u "j" 2 0 32]
  | 5, 3 =>
    [slot, u "d" 2 0 12, u "br" 2 12 1, u "area" 3 0 57, u "plist" 4 0 57, u "seqid" 5 0 32, u "egress" 6 0 16, u "key" 7 0 64]
  | 5, 4 => [slot, u "n" 2 0 16]
  | 5, 5 => [slot, u "d" 2 0 12, u "k" 3 0 32, u "stopid" 4 0 32, u "stop" 4 32 1]
  | 5, 6 => [slot, u "l" 2 0 32]
  | 5, _ => [slot]
  | 6, 1 =>
    [slot, u "pool" 1 12 4, u "seqid" 1 32 32, u "pl" 2 0 32, u "cap" 2 32 32, u "area" 3 0 57, u "plist" 4 0 57, u "chain" 5 0 57,
     u "key" 6 0 64, u "egress" 7 0 16, u "scap" 7 16 20]
  | 6, 2 => [u "s" 1 0 13, u "t" 1 32 32, u "record" 2 0 57, u "c" 3 0 32]
  | 6, 5 => [slot, u "desc" 2 0 57, u "position" 3 0 32]
  | 6, 6 => [u "areaa" 1 0 57, u "taila" 2 0 32, u "capa" 2 32 32, u "areab" 3 0 57, u "tailb" 4 0 32, u "capb" 4 32 32]
  | 6, 7 =>
    [u "area" 1 0 57, u "p" 2 0 32, u "cap" 2 32 32, u "dest" 3 0 57, ⟨"mode", 5, 0, 1, false, [("reg", 0), ("rows", 1)]⟩, u "tail" 5 32 32]
  | 6, 8 => [slot, u "image" 2 0 57, u "identity" 3 0 64, u "count" 4 0 13]
  | 6, 9 =>
    [slot, u "pool" 1 12 4, u "image" 2 0 57, u "identity" 3 0 64, u "count" 4 0 13, u "area" 5 0 57, u "plist" 6 0 57, u "egress" 7 0 16]
  | _, _ => [slot]

/-- The word that holds a command's endpoint, if its kind has one (R155, R201, R266). -/
def endWordOf (cls kind : Nat) : Option Nat :=
  if cls = 1 ∨ (cls = 2 ∧ kind ≤ 2) then some 6 else if cls = 6 ∧ kind = 7 then some 4 else none

/-- A command while its keys are read. -/
structure CmdAcc where
  hdr : CmdHdr
  words : List Nat
  dims : Nat
  esz : Option Nat
  seen : List String
deriving DecidableEq, Repr, Inhabited

def CmdAcc.mark (a : CmdAcc) (p : Pos) (n : String) : Asm CmdAcc :=
  if a.seen.contains n then fail p .z03 else .ok { a with seen := n :: a.seen }

/-- A value into a field of word `w` whose bits were 0. -/
def CmdAcc.put (a : CmdAcc) (w lo v : Nat) : CmdAcc := { a with words := a.words.modify w (· + v * 2 ^ lo) }

/-- A pair of integers `s:n` (R206). -/
def pairOf (p : Pos) : List Tk → Asm (Int × Int)
  | [⟨.num a, _, _⟩, ⟨.sym ':', _, _⟩, ⟨.num b, _, _⟩] =>
    match a.intVal, b.intVal with | some x, some y => .ok (x, y) | _, _ => fail p .z04
  | _ => fail p .z04

/-- The element sizes of R155 in bytes, as their codes. -/
def eszCode (v : Int) : Option Nat := (List.range 5).find? fun c => (eszOf c : Int) == v

/-- Whether the key is a common one, and its effect on the header (R206). -/
def commonKey (a : CmdAcc) (i : Item) : Option (Asm CmdAcc) :=
  let p := i.pos
  let bits (w : Nat) (v : Int) : Asm Nat := inField p false w v
  match fold i.word with
  | "wait" =>
    some (do let (s, t) ← pairOf p i.val
             return { a with hdr := { a.hdr with wsem := BitVec.ofNat 8 (← bits 8 s), thr := BitVec.ofNat 16 (← bits 16 t) } })
  | "sig" =>
    some (do let (s, n) ← pairOf p i.val
             return { a with hdr := { a.hdr with ssem := BitVec.ofNat 8 (← bits 8 s), inc := BitVec.ofNat 8 (← bits 8 n) } })
  | "scope" => some (do return { a with hdr := { a.hdr with scope := BitVec.ofNat 3 (← bits 3 (← codeOf scopeNames p i.val)) } })
  | "tc" => some (do return { a with hdr := { a.hdr with tc := BitVec.ofNat 2 (← bits 2 (← intOf p i.val)) } })
  | "barrier" => some (do return { a with hdr := { a.hdr with barrier := (← bits 1 (← intOf p i.val)) == 1 } })
  | _ => none

/-- The endpoint of `to=` into its word (R155, R157, R422): tileK names canonical index K. -/
def endpoint (w : Nat) (write : Bool) (p : Pos) (v : List Tk) (a : CmdAcc) : Asm CmdAcc :=
  match v with
  | [⟨.name g, _, _⟩, ⟨.sym '=', _, _⟩, ⟨.num k, _, _⟩] =>
    (match g, k.intVal with
     | "group", some x => do return (a.put w 0 2).put w 35 (← inField p false 8 x)
     | _, _ => fail p .z04)
  | [⟨.name t, _, _⟩, ⟨.sym '.', _, _⟩, ⟨.name e, _, _⟩] =>
    match indexed "tile" t with
    | none => fail p .z04
    | some k => do
      let a := a.put w 2 (← inField p false 13 k)
      match indexed (if write then "out" else "in") e, e with
      | some port, _ => return a.put w 15 (← inField p false 4 port)
      | none, "wbuf" => return a.put w 0 1
      | none, "abuf" => return (a.put w 0 1).put w 19 1
      | none, "cbuf" => return (a.put w 0 1).put w 19 2
      | none, _ => fail p .z04
  | _ => fail p .z04

/-- One key or flag word of a command (R206, R422). -/
def cmdItem (cls kind : Nat) (a : CmdAcc) (i : Item) : Asm CmdAcc := do
  let k := fold i.word
  let p := i.pos
  if !i.key then
    if k == "barrier" then return { ← a.mark p k with hdr := { a.hdr with barrier := true } }
    else
      match (cmdFields cls kind).find? fun f => f.key == k && f.w == 1 with
      | some f => return (← a.mark p k).put f.word f.lo 1
      | none => fail p .z02
  else
    match commonKey a i with
    | some r => (← r).mark p k
    | none =>
      match (cmdFields cls kind).find? fun f => f.key == k with
      | some f => do
        let v ← codeOf f.names p i.val
        let v := if cls = 4 ∧ k = "vocab" then v - 1 else v
        return (← a.mark p k).put f.word f.lo (← inField p f.signed f.w v)
      | none =>
        match endWordOf cls kind with
        | none => fail p .z02
        | some w =>
          if k == "to" then do
            let a ← endpoint w (cls = 1 ∧ kind = 2) p i.val (← a.mark p k)
            if cls = 2 then return (← a.mark p "dbuf").put 5 24 1 else return a
          else if k == "off" then do return (← a.mark p "off").put w 21 (← inField p false 13 (← intOf p i.val))
          else if k == "cb" then do return ((← a.mark p "off").put w 21 (← inField p false 3 (← intOf p i.val))).put w 34 1
          else if cls = 1 then
            match indexed "n" k, k with
            | some d, _ =>
              if 4 ≤ d then fail p .z02
              else do
                let n ← inField p false 20 ((← intOf p i.val) - 1)
                return { (← a.mark p k).put (2 + d) 40 n with dims := max a.dims d }
            | none, "esz" =>
              (match eszCode (← intOf p i.val) with
               | some c => return { ← a.mark p k with esz := some c }
               | none => fail p .z04)
            | none, _ => fail p .z02
          else fail p .z02

def cmdItems (cls kind : Nat) : CmdAcc → List Item → Asm CmdAcc
  | a, [] => .ok a
  | a, i :: is => do cmdItems cls kind (← cmdItem cls kind a i) is

/-- A template or launch binding of a `.traverse` (`str`) or a `.cmd`, and whether it is bound at launch: the fields that no key names keep
their Reset values (R155, R191, R201, R206, R421, R422). -/
def templateOf (str : Bool) (pos : Pos) (items : List Item) : Asm (List W64 × Bool) := do
  noTwice items []
  let isKey (s : String) (i : Item) : Bool := i.key && fold i.word == s
  let (cls, kind) ←
    (match items.find? (isKey "kind") with
     | none => fail pos .z04
     | some i =>
       match i.val with
       | [⟨.name w, _, _⟩] =>
         (match kindNames.find? fun k => k.1 == fold w with
          | some (_, c, k) => if (c == 1) == str then .ok (c, k) else fail i.pos .z04
          | none => fail i.pos .z04)
       | _ => fail i.pos .z04 : Asm (Nat × Nat))
  let bind ←
    (match items.find? (isKey "bind") with
     | none => .ok false
     | some i =>
       if !str then fail i.pos .z02
       else match i.val with | [⟨.name w, _, _⟩] => if fold w == "launch" then .ok true else fail i.pos .z04 | _ => fail i.pos .z04 : Asm Bool)
  let h : CmdHdr := { wsem := 0#8, thr := 0#16, ssem := 0#8, inc := 0#8, scope := 3#3, barrier := false, tc := 0#2 }
  let a ← cmdItems cls kind { hdr := h, words := List.replicate 8 0, dims := 0, esz := none, seen := [] }
    (items.filter fun i => !isKey "kind" i && !isKey "bind" i)
  let given (k : String) : Bool := a.seen.contains k
  let esz := a.esz.getD 4
  let a :=
    if cls = 1 then
      let a := (a.put 1 61 esz).put 2 60 a.dims
      let a := if given "fmt" then a else a.put 1 57 14
      if given "s0" then a else a.put 2 0 (eszOf esz)
    else if cls = 2 then
      let a := if given "sfmt" then a else a.put 5 16 14
      if given "dfmt" then a else a.put 5 20 14
    else a
  return (((encodeHdr cls kind a.hdr) :: a.words.drop 1).map (BitVec.ofNat 64), bind)

/-! Matrix tokens. -/

/-- The keys of `.mxtok` that name a field of the token: lowest bit and width (R228, R229). -/
def tokFields : List (String × Nat × Nat) :=
  [("acc", 19, 1), ("epi", 20, 5), ("aoff", 25, 12), ("woff", 37, 13), ("coff", 50, 10), ("afeed", 60, 1), ("wfeed", 61, 1)]

def dimCode (v : Int) : Option Nat := if v = 8 then some 0 else if v = 16 then some 1 else if v = 32 then some 2 else none

/-- One key of a token; k waits for the formats. -/
def tokItem (t : Nat × Option (Int × Pos)) (i : Item) : Asm (Nat × Option (Int × Pos)) :=
  let p := i.pos
  if !i.key then fail p .z02
  else
    match fold i.word with
    | "m" => do match dimCode (← intOf p i.val) with | some c => return (t.1 + c * 4, t.2) | none => fail p .z04
    | "n" => do match dimCode (← intOf p i.val) with | some c => return (t.1 + c * 16, t.2) | none => fail p .z04
    | "k" => do return (t.1, some (← intOf p i.val, p))
    | "a" => do return (t.1 + (← inField p false 3 (← codeOf tyNames p i.val)) * 2 ^ 13, t.2)
    | "w" => do return (t.1 + (← inField p false 3 (← codeOf tyNames p i.val)) * 2 ^ 16, t.2)
    | k =>
      match tokFields.find? fun f => f.1 == k with
      | some (_, lo, w) => do return (t.1 + (← inField p false w (← intOf p i.val)) * 2 ^ lo, t.2)
      | none => fail p .z02

def tokItems : Nat × Option (Int × Pos) → List Item → Asm (Nat × Option (Int × Pos))
  | t, [] => .ok t
  | t, i :: is => do tokItems (← tokItem t i) is

/-- A matrix token of `.mxtok op`; one that fails a check of R230 that depends on the token alone is refused (R229). -/
def tokenOf (pos : Pos) (op : String) (items : List Item) : Asm (List Byte) := do
  noTwice items []
  let o ← (match fold op with | "mma" => .ok 0 | "mmaz" => .ok 1 | "drain" => .ok 2 | "clr" => .ok 3 | _ => fail pos .z01 : Asm Nat)
  let has (k : String) : Bool := items.any fun i => fold i.word == k
  if !(has "m" && has "n") then fail pos .z04
  else
    let (t, k) ← tokItems (o, none) items
    let w ←
      (match k with
       | none => .ok t
       | some (v, p) =>
         let x := decodeTokenFields (BitVec.ofNat 64 t)
         match mxGranule x.afmt x.wfmt with
         | none => fail p .z04
         | some g => if v < g ∨ v % g ≠ 0 then fail p .z04 else do return t + (← inField p false 7 (v / g - 1)) * 64 : Asm Nat)
    let x := decodeTokenFields (BitVec.ofNat 64 w)
    if (tokenFault (BitVec.ofNat 64 w)).isSome || (o ≤ 1 && ((x.afeed && 4096 < x.aBytes) || (x.wfeed && 4096 < x.wBytes))) then fail pos .z04
    else return leBytes 8 w

/-! Epilogue words. -/

/-- Mnemonics of epilogue words: the word without its operand, and whether the operand is a beat (R243). -/
def epiNames : List (String × Nat × Bool) :=
  [("nop", 0x0000, false), ("ldc", 0x1000, false), ("addb", 0x2000, true), ("muls", 0x3000, true), ("adda", 0x4000, true),
   ("act", 0x5000, false), ("clamp", 0x6000, true), ("cvt", 0x7000, false), ("bsc", 0x8000, true), ("rowm", 0x9000, true),
   ("rows", 0xA000, true), ("sta", 0xB000, true), ("sto", 0xC000, false), ("end", 0xD000, false)]

/-- The suffixes of ACT and CVT: the field each belongs to and its bits (R243). -/
def epiSuffixes (mn : String) : List (String × Nat × Nat) :=
  match mn with
  | "act" => [("relu", 0, 0), ("gelut", 0, 0x100), ("silu", 0, 0x200), ("sigm", 0, 0x300)]
  | "cvt" =>
    [("f32", 0, 0), ("bf16", 0, 1), ("of8", 0, 2), ("ds8", 0, 4), ("rne", 1, 0), ("rtz", 1, 0x10), ("rup", 1, 0x20), ("rdn", 1, 0x30),
     ("satn", 2, 0x40)]
  | _ => []

/-- The suffixes of an epilogue word. -/
def epiMods (mn : String) (line : Nat) : Nat → List Nat → Nat → List Tk → Asm (Nat × List Tk)
  | 0, _, w, ts => .ok (w, ts)
  | n + 1, seen, w, ts =>
    match ts with
    | ⟨.sym '.', c, true⟩ :: ⟨.name s, _, true⟩ :: rest =>
      (match (epiSuffixes mn).find? fun x => x.1 == fold s with
       | some (_, f, b) => if seen.contains f then fail ⟨line, c + 1⟩ .z03 else epiMods mn line n (f :: seen) (w + b) rest
       | none => fail ⟨line, c + 1⟩ .z02)
    | _ => .ok (w, ts)

/-- One epilogue word (R243); a word that R243 refuses wherever it runs is an error. -/
def epiWord (line : Nat) (ts : List Tk) : Asm Nat :=
  match ts with
  | ⟨.name m, c, _⟩ :: rest =>
    let pos : Pos := ⟨line, c⟩
    match epiNames.find? fun e => e.1 == fold m with
    | none => fail pos .z01
    | some (mn, base, beat) => do
      let (w, rest) ← epiMods mn line rest.length [] base rest
      let items ← itemsOf line (rest.length + 1) rest
      noTwice items []
      let w ← items.foldlM (fun w i =>
        if !i.key then fail i.pos .z02
        else if beat && fold i.word == "a" then do return w + (← inField i.pos false 12 (← intOf i.pos i.val))
        else if mn == "sto" && fold i.word == "port" then do return w + (← inField i.pos false 4 (← intOf i.pos i.val))
        else fail i.pos .z02) w
      match decodeEpi (BitVec.ofNat 16 w) with
      | .ok _ => return w
      | .error _ => fail pos .z04
  | t :: _ => fail ⟨line, t.col⟩ .z01
  | [] => fail ⟨line, 1⟩ .z01

/-! Sampler stages. -/

/-- The fields of a stage: key, byte, bytes, and whether it is an f32 (R267, R422). -/
def stageFields (code : Nat) : List (String × Nat × Nat × Bool) :=
  match code with
  | 1 => [("t", 4, 4, true)]
  | 2 => [("m", 4, 4, false), ("list", 8, 8, false)]
  | 3 => [("bitmap", 8, 8, false)]
  | 4 => [("p", 4, 4, true), ("q", 8, 4, true), ("w", 12, 4, false)]
  | 5 => [("k", 4, 4, false)]
  | 6 => [("p", 4, 4, true)]
  | 7 => [("f", 4, 4, true)]
  | _ => []

def stageNames : List (String × Nat) :=
  [("scale", 1), ("bias", 2), ("mask", 3), ("pen", 4), ("topk", 5), ("topp", 6), ("minp", 7), ("draw", 8), ("argmax", 9)]

/-- A stage control block as a number of 512 bits (R267). -/
def stageItem (code v : Nat) (i : Item) : Asm Nat :=
  if !i.key then (if fold i.word == "last" then .ok (v + 2 ^ 8) else fail i.pos .z02)
  else
    match (stageFields code).find? fun f => f.1 == fold i.word with
    | none => fail i.pos .z02
    | some (_, b, n, flt) =>
      if flt then
        match floatOf 23 i.val with
        | some (.pattern _ x) => if x < 2 ^ 32 then .ok (v + x * 2 ^ (8 * b)) else fail i.pos .z04
        | some (.value x) => .ok (v + x * 2 ^ (8 * b))
        | none => fail i.pos .z04
      else do return v + (← inField i.pos false (8 * n) (← intOf i.pos i.val)) * 2 ^ (8 * b)

def stageOf (pos : Pos) (kind : String) (items : List Item) : Asm (List Byte) := do
  noTwice items []
  match stageNames.find? fun n => n.1 == fold kind with
  | none => fail pos .z01
  | some (_, code) => do return leBytes 64 (← items.foldlM (stageItem code) code)

/-! Data lines. -/

/-- A value of a data line (R423); none where it is out of range. -/
def dataValue (dir : String) (v : List Tk) : Option (List Byte) :=
  match dir with
  | "f32" => (floatOf 23 v).bind fun x => match x with | .pattern _ b => if b < 2 ^ 32 then some (leBytes 4 b) else none | .value b => some (leBytes 4 b)
  | "bf16" => (floatOf 7 v).bind fun x => match x with | .pattern _ b => if b < 2 ^ 16 then some (leBytes 2 b) else none | .value b => some (leBytes 2 b)
  | _ =>
    match (intOf ⟨0, 0⟩ v).toOption with
    | none => none
    | some x => ((inField ⟨0, 0⟩ (dir == "i32") 32 x).toOption).map (leBytes 4)

/-- The values of a data line, separated by commas. -/
def dataValues (dir : String) (line : Nat) : Nat → List Tk → Asm (List Byte)
  | 0, _ => .ok []
  | n + 1, ts =>
    match ts with
    | [] => fail ⟨line, 1⟩ .z12
    | t :: rest =>
      match dataValue dir [t] with
      | none => fail ⟨line, t.col⟩ .z12
      | some bs =>
        match rest with
        | [] => .ok bs
        | ⟨.sym ',', _, _⟩ :: more => do return bs ++ (← dataValues dir line n more)
        | u :: _ => fail ⟨line, u.col⟩ .z01

/-- The zero bytes of `.align N` at an address (R423). -/
def alignPad (pos : Pos) (v : List Tk) (addr : Nat) : Asm (List Byte) :=
  match (intOf pos v).toOption with
  | some x => if (List.range 17).any fun i => x == ((2 ^ i : Nat) : Int) then .ok (List.replicate ((x.toNat - addr % x.toNat) % x.toNat) 0#8) else fail pos .z12
  | none => fail pos .z12

end Sys2Proof.Zalm
end

