-- ==== Sys2Proof/Machine/AsmNodes.lean ====
section
/-!
DEFINITION. Node lines and blocks of the assembly language (R81, R86, R418–R420): the notation of every opcode's entry, the resolution of
a node line, the two passes over a block and its header.
-/
namespace Sys2Proof.Zalm

open Sys2Proof.Machine

/-- The mnemonic in lower case (R81, R417). -/
def opName : Op → String
  | .inp => "in" | .mov => "mov" | .const => "const" | .lanei => "lanei" | .dlrd => "dlrd" | .sxld => "sxld" | .sxst => "sxst"
  | .bufrd => "bufrd" | .bufwr => "bufwr" | .add => "add" | .sub => "sub" | .mul => "mul" | .mulh => "mulh" | .mad => "mad"
  | .and => "and" | .or => "or" | .xor => "xor" | .not => "not" | .shl => "shl" | .shr => "shr" | .sar => "sar" | .rot => "rot"
  | .min => "min" | .max => "max" | .abs => "abs" | .neg => "neg" | .clz => "clz" | .popc => "popc" | .cmp => "cmp" | .sel => "sel"
  | .adds => "adds" | .subs => "subs" | .fadd => "fadd" | .fsub => "fsub" | .fmul => "fmul" | .ffma => "ffma" | .fmin => "fmin"
  | .fmax => "fmax" | .fabs => "fabs" | .fneg => "fneg" | .fcmp => "fcmp" | .frcp => "frcp" | .fsqrt => "fsqrt" | .frsq => "frsq"
  | .fexp2 => "fexp2" | .flog2 => "flog2" | .ftanh => "ftanh" | .fclass => "fclass" | .cvt => "cvt" | .bscale => "bscale"
  | .pack => "pack" | .unpack => "unpack" | .ofesc => "ofesc" | .lred => "lred" | .lscan => "lscan" | .lbcast => "lbcast"
  | .reord => "reord" | .rowstat => "rowstat" | .rowbuf => "rowbuf" | .rowscl => "rowscl" | .steer => "steer" | .merge => "merge"
  | .mergea => "mergea" | .carry => "carry" | .gate => "gate" | .pres => "pres" | .dflt => "dflt" | .absn => "absn" | .orp => "orp"
  | .nest => "nest" | .lcrd => "lcrd" | .inst => "inst" | .cyc => "cyc" | .merid => "merid" | .rmark => "rmark" | .cores => "cores"
  | .tileid => "tileid" | .regid => "regid" | .resize => "resize" | .endk => "end" | .semsig => "semsig" | .semwait => "semwait"
  | .semrd => "semrd" | .semset => "semset" | .djoin => "djoin" | .fence => "fence" | .agen => "agen" | .ld => "ld" | .st => "st"
  | .ldx => "ldx" | .stx => "stx" | .atom => "atom" | .handover => "handover" | .bfree => "bfree" | .bfill => "bfill" | .eng => "eng"
  | .launch => "launch" | .sxset => "sxset" | .sxmix => "sxmix" | .sxhid => "sxhid" | .sxemb => "sxemb" | .sxkind => "sxkind"
  | .sxhash => "sxhash" | .collapse => "collapse" | .trap => "trap" | .brk => "brk" | .krd => "krd" | .kwr => "kwr"
  | .slotw => "slotw" | .genbump => "genbump" | .regsave => "regsave" | .regload => "regload" | .fltack => "fltack"

def opOf (s : String) : Option Op := Op.all.find? fun o => opName o == fold s

/-- Where a key's value goes: a field of mod, of aux8 or of the immediate, the absence policy, or d of SXHID. -/
inductive Dest where
  | mod | aux (lo w : Nat) | imm (lo w less : Nat) | thr | policy | dim
deriving DecidableEq, Repr, Inhabited

/-- A key of an entry: the names its value may take, and its field. -/
structure KeySpec where
  key : String
  names : List (String × Nat)
  dest : Dest
deriving DecidableEq, Repr, Inhabited

def bufNames : List (String × Nat) := [("w", 0), ("a", 1), ("c", 2)]

/-- The keys that every opcode takes (R75, R86). -/
def absKey : KeySpec := ⟨"abs", [("prop", 0), ("ident", 1), ("fault", 2)], .policy⟩

/-- The keys of an entry (R92, R105–R118, R170, R183, R184, R190, R207, R253, R418). -/
def opKeys (o : Op) : List KeySpec :=
  let aux (k : String) (lo w : Nat) : KeySpec := ⟨k, [], .aux lo w⟩
  let imm (k : String) (less : Nat) : KeySpec := ⟨k, [], .imm 0 16 less⟩
  let scopeAux : KeySpec := ⟨"scope", scopeNames, .aux 0 3⟩
  let src : KeySpec := ⟨"from", tyNames, .aux 0 4⟩
  let sx := aux "sx" 0 3
  absKey ::
    (match o with
     | .bufrd | .bufwr => [⟨"buf", bufNames, .aux 0 2⟩, imm "off" 0]
     | .cvt => [src, aux "part" 4 3]
     | .bscale | .ofesc => [src, imm "esc" 0]
     | .lred | .lscan => [⟨"rnd", rndNames, .aux 0 2⟩]
     | .lbcast => [imm "idx" 0]
     | .reord => [aux "grp" 0 8, imm "stride" 0]
     | .rowbuf => [aux "unit" 0 2, ⟨"len", [], .imm 0 10 0⟩, ⟨"at", [], .imm 10 6 0⟩]
     | .rowstat => [⟨"len", [], .imm 0 10 0⟩]
     | .rowscl => [aux "unit" 0 2]
     | .orp => [imm "bits" 1]
     | .nest => [aux "lc" 0 2, imm "count" 1]
     | .resize => [aux "port" 0 4]
     | .semsig => [aux "sem" 0 8, imm "inc" 0, ⟨"scope", scopeNames, .mod⟩]
     | .semwait => [aux "sem" 0 8, ⟨"thr", [], .thr⟩]
     | .semrd | .semset => [aux "sem" 0 8]
     | .fence => [⟨"scope", scopeNames, .mod⟩]
     | .trap => [imm "code" 0]
     | .brk => [imm "id" 0]
     | .agen | .ldx | .stx => [aux "desc" 4 4, scopeAux]
     | .ld | .st => [imm "len" 1, scopeAux]
     | .atom => [scopeAux]
     | .handover => [aux "entry" 0 8]
     | .bfill | .bfree => [aux "cb" 0 3]
     | .eng => [aux "cport" 0 4, imm "tmpl" 0]
     | .launch => [aux "child" 0 4, imm "count" 1]
     | .sxmix => [imm "n" 1, sx]
     | .sxhid => [⟨"dim", [], .dim⟩, sx]
     | .sxhash => [imm "len" 1, sx]
     | .sxld | .sxst | .sxset | .sxemb | .sxkind | .collapse => [sx]
     | _ => [])

/-- The modifiers of an entry: rounding, compare and test kinds, reduction kinds, modes (R51, R99, R102, R110–R118, R170, R181, R184, R253,
R301, R418). -/
def opMods (o : Op) : List (String × Nat) :=
  match o with
  | .fadd | .fsub | .fmul | .ffma | .frcp | .fsqrt | .frsq | .fexp2 | .flog2 | .ftanh | .cvt | .bscale | .ofesc => rndNames
  | .cmp => [("eq", 0), ("ne", 1), ("lt", 2), ("le", 3), ("gt", 4), ("ge", 5)]
  | .fcmp => [("eq", 0), ("lt", 1), ("le", 2), ("un", 3)]
  | .pack => [("trunc", 0), ("sat", 1)]
  | .lred | .lscan => [("sum", 0), ("max", 1), ("min", 2), ("and", 3), ("or", 4), ("xor", 5)]
  | .reord => [("transpose", 0), ("reverse", 1), ("stride", 2)]
  | .rowstat => [("sum", 0), ("max", 1), ("sumsq", 2)]
  | .rowscl => [("mul", 0), ("add", 1), ("sub", 2), ("subexp", 3)]
  | .steer | .gate => [("bit0", 0), ("any", 1), ("all", 2)]
  | .merge => [("excl", 0), ("first", 1)]
  | .tileid => [("canon", 0), ("logical", 1)]
  | .agen => [("rd", 0), ("wr", 1), ("addr", 2)]
  | .atom =>
    [("add", 0), ("fadd", 1), ("min", 2), ("max", 3), ("and", 4), ("or", 5), ("xor", 6), ("exch", 7), ("cas", 8)]
  | .bfill => [("acqw", 0), ("pub", 1)]
  | .bfree => [("acqr", 0), ("rel", 1)]
  | .sxhash => [("desc", 0), ("stream", 1)]
  | .collapse => [("argmax", 0), ("sample", 1), ("pass", 2)]
  | .fltack => [("resume", 0), ("kill", 1), ("failcmd", 2), ("note", 3)]
  | _ => []

def takesSatn (o : Op) : Bool := o == .cvt || o == .bscale || o == .ofesc

/-- The resource that an entry places in aux8, and the width of its index (R92, R118, R253, R418 step 5). -/
def opResource (o : Op) : Option (String × Nat) :=
  match o with
  | .inp => some ("in", 4)
  | .resize => some ("out", 4)
  | .dlrd => some ("dl", 6)
  | .nest | .lcrd => some ("lc", 2)
  | .sxld | .sxst | .sxset | .sxmix | .sxhid | .sxemb | .sxkind | .sxhash | .collapse => some ("sx", 3)
  | _ => none

/-- The flag words of an entry and the aux8 bit each sets (R92, R105, R110, R118, R418 step 6). -/
def opFlags (o : Op) : List (String × Nat) :=
  match o with
  | .dlrd | .cvt | .ofesc | .unpack => [("pair", 7)]
  | .steer | .gate => [("inv", 0)]
  | _ => []

/-- The resource names of R417. -/
def resourceOf (s : String) : Option (String × Nat) :=
  ["in", "out", "dl", "done", "lc", "sx"].findSome? fun p => (indexed p s).map (p, ·)

/-- Names that can never be labels; labels are matched exactly, so a mnemonic reserves its spelling in capitals (R417). -/
def reserved (s : String) : Bool :=
  (resourceOf s).isSome || s == "mx" || s == "none" || s == "_" || (tyNames.any fun t => t.1 == s) ||
    (Op.all.any fun o => String.ofList ((opName o).toList.map Char.toUpper) == s)

def labelOf (p : Pos) (s : String) : Asm String := if reserved s || 63 < s.length then fail p .z05 else .ok s

/-- The only type that an entry accepts, if it is one (R418 step 2). -/
def soleTy (o : Op) : Option Ty :=
  let n : Node := { ty := .raw, mod := 0#4, a := .none, b := .none, imm := 0#16, pol := .prop, i := false, aux := 13#8, ext := none }
  match o with
  | .atom => none
  | _ => match ((List.range 15).filterMap Ty.ofCode).filter fun t => o.typeOk { n with ty := t } with | [t] => some t | _ => none

/-! Immediates. -/

/-- What an immediate is in imm16 and in imm32, where each form can hold it (R80, R419). -/
structure Imm where
  short : Option Nat
  long : Option Nat
deriving DecidableEq, Repr, Inhabited

/-- The immediate of a written value under a type (R80, R419); none where the type takes none or the value does not fit it. -/
def immOf (t : Ty) (v : List Tk) : Option Imm :=
  let fits (w : Nat) (x : Int) (signed : Bool) : Option Nat := (inField ⟨0, 0⟩ signed w x).toOption
  if t == .f32 then
    match floatOf 23 v with
    | some (.pattern d x) =>
      let b := if d ≤ 4 then x * 65536 else x
      if b < 2 ^ 32 then some ⟨if b % 65536 = 0 then some (b / 65536) else none, some b⟩ else none
    | some (.value b) => some ⟨if b % 65536 = 0 then some (b / 65536) else none, some b⟩
    | none => none
  else if t == .bf16 then
    match floatOf 7 v with
    | some (.pattern _ b) => if b < 2 ^ 16 then some ⟨some b, some (b * 65536)⟩ else none
    | some (.value b) => some ⟨some b, some (b * 65536)⟩
    | none => none
  else
    match (intOf ⟨0, 0⟩ v).toOption with
    | none => none
    | some x =>
      if t == .pred then (if x = 0 ∨ x = 1 then some ⟨some x.toNat, none⟩ else none)
      else if t.isInt then
        match fits t.bits x t.signed with
        | none => none
        | some _ => some ⟨fits 16 x t.signed, fits 32 x t.signed⟩
      else none

/-! One node line. -/

/-- A target as written: a slot of a label, or a target that needs none. -/
inductive TgtRef where
  | slot (s : SlotName) (label : String)
  | fixed (t : Target)
deriving DecidableEq, Repr, Inhabited

/-- A node line resolved but for the positions of its labels. -/
structure NodeLine where
  label : Option String
  pos : Pos
  op : Op
  node : Node
  slots : List (Option (String × Pos))
  tgts : List (TgtRef × Pos)
deriving DecidableEq, Repr, Inhabited

/-- The fields of a word while its line is read; a field named twice is an error (R418). -/
structure Fields where
  mod : Nat
  aux : Nat
  pol : Nat
  i : Bool
  imm : Imm
  seen : List String
deriving DecidableEq, Repr, Inhabited

def Fields.mark (f : Fields) (p : Pos) (name : String) : Asm Fields :=
  if f.seen.contains name then fail p .z03 else .ok { f with seen := name :: f.seen }

/-- The field that a key sets, by name: keys with one field are one. -/
def KeySpec.field (k : KeySpec) : String :=
  match k.dest with
  | .mod => "mod" | .thr | .dim => "imm" | .policy => "abs" | .aux lo _ => if lo = 0 then "aux" else k.key
  | .imm _ w _ => if w = 16 then "imm" else k.key

/-- A key of a node line (R418 step 6). -/
def Fields.key (o : Op) (f : Fields) (i : Item) : Asm Fields :=
  match (opKeys o).find? fun k => k.key == fold i.word with
  | none => fail i.pos .z02
  | some k => do
    let f ← f.mark i.pos k.field
    let v ← codeOf k.names i.pos i.val
    let immed (x : Nat) : Fields := { f with imm := ⟨some ((f.imm.short.getD 0) + x), none⟩ }
    match k.dest with
    | .mod => return { f with mod := ← inField i.pos false 4 v }
    | .policy => return { f with pol := ← inField i.pos false 2 v }
    | .aux lo w =>
      let x ← inField i.pos false w v
      let extra := if k.key == "cport" then 16 else 0
      return { f with aux := f.aux + x * 2 ^ lo + extra }
    | .imm lo w less =>
      let x ← inField i.pos false w (v - less)
      return { immed (x * 2 ^ lo) with aux := f.aux + (if k.key == "tmpl" then 32 else 0) }
    | .thr =>
      let x ← inField i.pos false 32 v
      return { f with imm := ⟨if x < 65536 then some x else none, some x⟩ }
    | .dim =>
      if v % 16 != 0 then fail i.pos .z04
      else return immed (← inField i.pos false 16 (v / 16 - 1))

/-- A resource of a node line (R418 step 5, R420). -/
def Fields.resource (o : Op) (f : Fields) (p : Pos) (kind : String) (k : Nat) : Asm Fields :=
  match opResource o with
  | none => fail p .z06
  | some (want, w) =>
    if want != kind then fail p .z06
    else if 2 ^ w ≤ k then fail p .z04
    else do return { ← f.mark p "aux" with aux := f.aux + k }

/-- A word after the operands: a resource or a flag word. -/
def Fields.word (o : Op) (f : Fields) (i : Item) : Asm Fields :=
  match resourceOf i.word with
  | some (kind, k) => f.resource o i.pos kind k
  | none =>
    match (opFlags o).find? fun w => w.1 == fold i.word with
    | some (w, b) => do return { ← f.mark i.pos w with aux := f.aux + 2 ^ b }
    | none => fail i.pos .z02

def Fields.items (o : Op) : Fields → List Item → Asm Fields
  | f, [] => .ok f
  | f, i :: is => do Fields.items o (← if i.key then f.key o i else f.word o i) is

/-- The suffixes behind a mnemonic: the type first, then modifiers (R418 steps 2 and 3). -/
def suffixes (o : Op) (line : Nat) : Nat → Option Ty → Fields → List Tk → Asm (Option Ty × Fields × List Tk)
  | 0, t, f, ts => .ok (t, f, ts)
  | n + 1, t, f, ts =>
    match ts with
    | ⟨.sym '.', c, true⟩ :: ⟨.name w, _, true⟩ :: rest =>
      let p : Pos := ⟨line, c + 1⟩
      match t, (tyNames.find? fun x => x.1 == fold w).bind fun x => Ty.ofCode x.2 with
      | none, some ty => suffixes o line n (some ty) f rest
      | _, _ =>
        if takesSatn o && fold w == "satn" then do suffixes o line n t { ← f.mark p "satn" with mod := f.mod + 4 } rest
        else
          match (opMods o).find? fun m => m.1 == fold w with
          | some (_, v) => do suffixes o line n t { ← f.mark p "mod" with mod := f.mod + v } rest
          | none =>
            fail p (if (Op.all.any fun q => (opMods q).any fun m => m.1 == fold w) || (tyNames.any fun x => x.1 == fold w) || fold w == "satn"
                    then .z02 else .z01)
    | ⟨.sym '.', c, true⟩ :: _ => fail ⟨line, c⟩ .z01
    | _ => .ok (t, f, ts)

/-- The operands of a line: each fills the next of L, R and P, a resource none (R418 steps 4 and 5). -/
def operands (o : Op) (ty : Ty) (line : Nat) :
    Nat → Fields → List (Option (String × Pos)) → List Tk → Asm (Fields × List (Option (String × Pos)) × List Tk)
  | 0, f, sl, ts => .ok (f, sl, ts)
  | n + 1, f, sl, ts =>
    let more (f : Fields) (sl : List (Option (String × Pos))) (rest : List Tk) : Asm (Fields × List (Option (String × Pos)) × List Tk) :=
      match rest with
      | ⟨.sym ',', c, _⟩ :: r => if r.isEmpty then fail ⟨line, c⟩ .z01 else operands o ty line n f sl r
      | _ => .ok (f, sl, rest)
    match ts with
    | ⟨.sym '#', c, _⟩ :: v :: rest =>
      let p : Pos := ⟨line, c⟩
      if !(o.valueField && sl.isEmpty) && sl.length != 1 then fail p .z04
      else
        match immOf ty [v] with
        | none => fail p .z04
        | some m => do
          let f ← f.mark p "imm"
          more { f with imm := m, i := f.i || sl.length == 1 } (sl ++ [none]) rest
    | ⟨.name w, c, _⟩ :: rest =>
      let p : Pos := ⟨line, c⟩
      match resourceOf w with
      | some (kind, k) => do more (← f.resource o p kind k) sl rest
      | none =>
        if 3 ≤ sl.length then fail p .z04
        else if w == "_" then more f (sl ++ [none]) rest
        else do more f (sl ++ [some (← labelOf p w, p)]) rest
    | t :: _ => fail ⟨line, t.col⟩ .z01
    | [] => .ok (f, sl, [])

/-- Whether the line has operands: its first item is neither a key nor a flag word. -/
def hasOperands : List Tk → Bool
  | ⟨.sym '#', _, _⟩ :: _ => true
  | ⟨.name w, _, _⟩ :: ⟨.sym '=', _, _⟩ :: _ => w == "_"
  | ⟨.name w, _, _⟩ :: _ => !(["pair", "inv", "last"].contains (fold w))
  | _ => false

/-- The targets behind the arrow (R77, R418 step 7). -/
def targetsOf (line : Nat) : Nat → List Tk → Asm (List (TgtRef × Pos))
  | 0, _ => .ok []
  | n + 1, ts => do
    let (r, rest) ←
      (match ts with
       | ⟨.name w, c, _⟩ :: ⟨.sym '.', _, true⟩ :: ⟨.name s, _, true⟩ :: rest =>
         let p : Pos := ⟨line, c⟩
         if w == "mx" then
           match fold s with
           | "ctl" => .ok ((.fixed (.mx 0), p), rest)
           | "a" => .ok ((.fixed (.mx 1), p), rest)
           | "w" => .ok ((.fixed (.mx 2), p), rest)
           | _ => fail p .z04
         else
           match fold s with
           | "l" => .ok ((.slot .l w, p), rest)
           | "r" => .ok ((.slot .r w, p), rest)
           | "p" => .ok ((.slot .p w, p), rest)
           | _ => fail p .z04
       | ⟨.name w, c, _⟩ :: rest =>
         let p : Pos := ⟨line, c⟩
         if w == "none" then .ok ((.fixed .none, p), rest)
         else
           match resourceOf w with
           | some (kind, k) =>
             if 128 ≤ k then fail p .z04
             else if kind == "out" then .ok ((.fixed (.out k), p), rest)
             else if kind == "dl" then .ok ((.fixed (.dl k), p), rest)
             else if kind == "done" then .ok ((.fixed (.done k), p), rest)
             else fail p .z04
           | none => fail p .z04
       | t :: _ => fail ⟨line, t.col⟩ .z01
       | [] => fail ⟨line, 1⟩ .z01 : Asm ((TgtRef × Pos) × List Tk))
    match rest with
    | [] => return [r]
    | ⟨.sym ',', _, _⟩ :: more => return r :: (← targetsOf line n more)
    | t :: _ => fail ⟨line, t.col⟩ .z01

/-- A node line (R418, R419). -/
def nodeLine (line : Nat) (ts0 : List Tk) : Asm NodeLine := do
  let (label, ts) ←
    (match ts0 with
     | ⟨.name w, c, _⟩ :: ⟨.sym ':', _, _⟩ :: rest => do return (some (← labelOf ⟨line, c⟩ w), rest)
     | _ => .ok (none, ts0) : Asm (Option String × List Tk))
  match ts with
  | ⟨.name m, c, _⟩ :: rest =>
    let pos : Pos := ⟨line, c⟩
    match opOf m with
    | none => fail pos .z01
    | some o => do
      let f0 : Fields := { mod := 0, aux := 0, pol := 0, i := false, imm := ⟨some 0, some 0⟩, seen := [] }
      let (ty?, f, rest) ← suffixes o line rest.length none f0 rest
      match (match ty? with | some t => some t | none => soleTy o) with
      | none => fail pos .z01
      | some ty => do
        let cut := rest.takeWhile fun t => t.tok != .arrow
        let (f, slots, tail) ← if hasOperands cut then operands o ty line (cut.length + 1) f [] cut else .ok (f, [], cut)
        let f ← f.items o (← itemsOf line (tail.length + 1) tail)
        let tgts ←
          (match rest.drop cut.length with
           | [] => .ok []
           | a :: r => if r.isEmpty then fail ⟨line, a.col⟩ .z01 else targetsOf line (r.length + 1) r : Asm (List (TgtRef × Pos)))
        match tgts.drop 4 with
        | (_, p) :: _ => fail p .z07
        | [] =>
          let x := 2 < tgts.length || f.imm.short.isNone
          let value := f.i || o.valueField
          match (if x && value then f.imm.long else f.imm.short) with
          | none => fail pos .z04
          | some v =>
            let n : Node :=
              { ty := ty, mod := BitVec.ofNat 4 f.mod, a := .none, b := .none, imm := if x && value then 0#16 else BitVec.ofNat 16 v,
                pol := (decodePolicy f.pol).getD .prop, i := f.i, aux := BitVec.ofNat 8 f.aux,
                ext := if x then some ⟨BitVec.ofNat 32 (if value then v else 0), .none, .none⟩ else none }
            return { label := label, pos := pos, op := o, node := n, slots := slots, tgts := tgts }
  | t :: _ => fail ⟨line, t.col⟩ .z01
  | [] => fail ⟨line, 1⟩ .z01

/-! A block. -/

/-- A block being read: its name, its header, its nodes with their positions, in order. -/
structure OpenBlock where
  name : String
  pos : Pos
  hdr : Hdr
  restart : Option (String × Pos)
  nodes : List (Nat × NodeLine)
  next : Nat
deriving DecidableEq, Repr, Inhabited

/-- A block image (R71): its header, its words, and where its labels and lines stand. -/
structure AsmBlock where
  name : String
  hdr : Nat
  words : List W64
  labels : List (String × Nat)
  lines : List (Nat × Pos)
deriving DecidableEq, Repr, Inhabited

/-- The header keys of R86 and their widths (R72). -/
def hdrKeys : List (String × Nat) :=
  [("dl", 7), ("lcn", 3), ("split", 4), ("acr", 1), ("det", 1), ("fxt", 1), ("priv", 1), ("keep", 1), ("abuf", 8), ("wbuf", 9), ("cbuf", 7),
   ("period", 18)]

/-- The header with the Reset values of R72. -/
def hdrReset : Hdr := hdrOf 0

def hdrSet (h : Hdr) (k : String) (v : Nat) : Hdr :=
  match k with
  | "dl" => { h with dl := v } | "lcn" => { h with lcn := v } | "split" => { h with split := v } | "acr" => { h with acr := v == 1 }
  | "det" => { h with det := v == 1 } | "fxt" => { h with fxt := v == 1 } | "priv" => { h with priv := v == 1 }
  | "keep" => { h with keep := v == 1 } | "abuf" => { h with abuf := v } | "wbuf" => { h with wbuf := v } | "cbuf" => { h with cbuf := v }
  | "period" => { h with period := v } | _ => h

/-- The keys of a `.block` line (R86). -/
def hdrItems : Hdr → Option (String × Pos) → List Item → Asm (Hdr × Option (String × Pos))
  | h, r, [] => .ok (h, r)
  | h, r, i :: is =>
    if !i.key then fail i.pos .z02
    else if fold i.word == "restart" then
      match i.val with
      | [⟨.name w, _, _⟩] => hdrItems h (some (w, i.pos)) is
      | _ => fail i.pos .z04
    else
      match hdrKeys.find? fun k => k.1 == fold i.word with
      | none => fail i.pos .z02
      | some (k, w) => do hdrItems (hdrSet h k (← inField i.pos false w (← intOf i.pos i.val))) r is

/-- The 128 bits of a header over its words' CRC (R72). -/
def encodeBlockHdr (h : Hdr) (crc : Nat) : Nat :=
  0xCA31 * 2 ^ 112 + 2 ^ 108 + h.words * 2 ^ 100 + h.dl * 2 ^ 93 + h.lcn * 2 ^ 90 + h.split * 2 ^ 86 + boolNat h.acr * 2 ^ 85 +
    boolNat h.det * 2 ^ 84 + boolNat h.fxt * 2 ^ 83 + boolNat h.priv * 2 ^ 82 + boolNat h.keep * 2 ^ 81 + h.restart * 2 ^ 74 + h.abuf * 2 ^ 66 +
    h.wbuf * 2 ^ 57 + h.cbuf * 2 ^ 50 + h.period * 2 ^ 32 + crc

/-- A node line enters its block: the first pass fixes its position (R419, R420). -/
def OpenBlock.add (b : OpenBlock) (n : NodeLine) : Asm OpenBlock :=
  let size := 1 + boolNat n.node.ext.isSome
  if 128 < b.next + size then fail n.pos .z08
  else if n.label.isSome && (b.nodes.any fun (_, m) => m.label == n.label) then fail n.pos .z05
  else .ok { b with nodes := b.nodes ++ [(b.next, n)], next := b.next + size }

def OpenBlock.find (b : OpenBlock) (l : String) : Option (Nat × NodeLine) := b.nodes.find? fun (_, n) => n.label == some l

/-- The second pass over one node: every operand has its target and every target its operand (R420). -/
def OpenBlock.agree (b : OpenBlock) (n : NodeLine) : Asm Unit := do
  let slot (i : Nat) : SlotName := if i = 0 then .l else if i = 1 then .r else .p
  (n.slots.zip (List.range n.slots.length)).forM fun (o, i) =>
    match o with
    | none => .ok ()
    | some (l, p) =>
      match b.find l with
      | none => fail p .z05
      | some (_, q) =>
        if n.label.isSome && (q.tgts.any fun (t, _) => t == .slot (slot i) (n.label.getD "")) then .ok () else fail p .z06
  n.tgts.forM fun (t, p) =>
    match t with
    | .fixed _ => .ok ()
    | .slot s l =>
      match b.find l with
      | none => fail p .z05
      | some (_, q) =>
        if (match (q.slots.getD s.code none) with | some (m, _) => n.label == some m | none => false) then .ok () else fail p .z06

/-- The words of a node with its targets in place. -/
def OpenBlock.words (b : OpenBlock) (n : NodeLine) : List W64 :=
  let t (i : Nat) : Target :=
    match n.tgts[i]? with
    | some (.fixed t, _) => t
    | some (.slot s l, _) => .slot s (((b.find l).map (·.1)).getD 0)
    | none => .none
  encodeNode n.op { n.node with a := t 0, b := t 1, ext := n.node.ext.map fun e => { e with c := t 2, d := t 3 } }

/-- The circular buffer and the leaf that let every check of stages 2 to 4 pass which depends on more than the block. -/
def anyLeaf (tmpls : Nat) : Leaf :=
  { block := 0, inst := 1, agens := 16, tmpls := tmpls, agenTab := 0, tmplTab := 0, cbs := [], firstCanon := 0 }

/-- The load check of stages 2 to 4 that a block fails wherever it is loaded (R86); what only its context or its leaf's tables decide is left
to the loader. -/
def loadErr (tmpls : Nat) (b : AsmBlock) : Option LoadErr :=
  let h := hdrOf b.hdr
  let nodes := nodeWords b.words 0
  let cyc := nodes.any fun (_, w, _) => bitsNat w 56 8 == Op.code .cyc
  let e : LoadEnv := { ctx := 0, fxt := h.fxt || cyc, det := h.det, priv := true, canon := 1, owners := 256, kids := 16 }
  let x : BlockEnv := { hdr := h, leaf := anyLeaf tmpls, nodes := nodes, cbs := List.replicate 8 { CBuf.fresh with valid := true } }
  match headErr e b.hdr (b.words.flatMap fun w => leBytes 8 w.toNat) with
  | some r => some r
  | none =>
    match nodes.findSome? fun (k, w, y) => wordErr e x k w y with
    | some r => some r
    | none => blockErr x

/-- The error of a failed load check, at the line of its word (R86, R424). -/
def checkBlock (tmpls : Nat) (pos : Pos) (b : AsmBlock) : Asm Unit :=
  match loadErr tmpls b with
  | none => .ok ()
  | some (c, k, _) =>
    let p := ((b.lines.filter fun l => l.1 ≤ k && k < 0x80).getLast?.map (·.2)).getD pos
    .error ⟨.z13, p.line, p.col, some c⟩

/-- The block at its `.endblock` (R86, R420). -/
def OpenBlock.close (b : OpenBlock) : Asm AsmBlock := do
  b.nodes.forM fun (_, n) => b.agree n
  let restart ←
    (match b.restart with
     | none => .ok 0
     | some (l, p) => match b.find l with | some (k, _) => .ok k | none => fail p .z05 : Asm Nat)
  let ws := b.nodes.flatMap fun (_, n) => b.words n
  let crc := crc32c (ws.flatMap fun w => leBytes 8 w.toNat)
  let out : AsmBlock :=
    { name := b.name, hdr := encodeBlockHdr { b.hdr with words := b.next, restart := restart } crc, words := ws,
      labels := b.nodes.filterMap fun (k, n) => n.label.map (·, k), lines := b.nodes.map fun (k, n) => (k, n.pos) }
  checkBlock 256 b.pos out
  return out

end Sys2Proof.Zalm
end

