-- ==== Sys2Proof/Machine/Asm.lean ====
section
/-!
DEFINITION. The assembler `zalm`: a source text to a kernel image or the first error (R86, R421–R424), and the words of the kernel
descriptor that the image holds (R185–R187).
-/
namespace Sys2Proof.Zalm

open Sys2Proof.Machine

/-! Kernel trees. -/

/-- A line of a kernel tree: its depth, its kind (R186), and of a leaf its block and instances. -/
structure TreeLine where
  depth : Nat
  kind : Nat
  block : String
  inst : Nat
  pos : Pos
deriving DecidableEq, Repr, Inhabited

/-- The lines of the children of line `i`, in source order. -/
def childLines (ls : List TreeLine) (i : Nat) : List Nat :=
  let d := (ls.getD i default).depth
  let below := ((ls.zip (List.range ls.length)).drop (i + 1)).takeWhile fun (l, _) => d < l.depth
  (below.filter fun (l, _) => l.depth == d + 1).map (·.2)

/-- The walk of R421: the entry of every line and its first child's entry. -/
def placeTree (ls : List TreeLine) : Nat → List (Nat × Nat) → Nat → List (Nat × Nat × Nat)
  | 0, _, _ => []
  | _, [], _ => []
  | n + 1, (i, e) :: wait, next =>
    let cs := childLines ls i
    (i, e, next) :: placeTree ls n ((cs.zip (List.range cs.length)).map (fun (c, j) => (c, next + j)) ++ wait) (next + cs.length)

/-- The tree entries of R186, in the order of R421; leaves are numbered in source order. -/
def treeEntries (ls : List TreeLine) : List Entry :=
  let placed := placeTree ls ls.length [(0, 0)] 1
  (List.range ls.length).map fun e =>
    match placed.find? fun (_, x, _) => x == e with
    | none => default
    | some (i, _, first) =>
      let l := ls.getD i default
      let kids := (childLines ls i).length
      if l.kind = 0 then { kind := 0, first := 0, count := 0, leaf := ((ls.take i).filter fun x => x.kind == 0).length }
      else { kind := l.kind, first := if kids = 0 then 0 else first, count := kids, leaf := 0 }

/-- A tree entry as its word (R186). -/
def entryWord (e : Entry) : W64 := BitVec.ofNat 64 (e.kind + e.first * 2 ^ 2 + e.count * 2 ^ 12 + e.leaf * 2 ^ 22)

/-! The image. -/

/-- Templates and launch bindings that belong to the leaf of a block, in order of definition (R421). -/
structure Templates where
  block : String
  names : List String
  tmpls : List (List W64)
  binds : List (List W64)
deriving DecidableEq, Repr, Inhabited

/-- A leaf of the image: its block, its instances, its templates and its launch bindings (R187, R421). -/
structure AsmLeaf where
  block : String
  inst : Nat
  tmpls : List (List W64)
  binds : List (List W64)
deriving DecidableEq, Repr, Inhabited

/-- A kernel of the image (R185–R187). -/
structure AsmKernel where
  name : String
  tree : List Entry
  leaves : List AsmLeaf
deriving DecidableEq, Repr, Inhabited

/-- A kernel image: blocks, kernels, data sections by address, and the addresses of named tokens and epilogue programs. -/
structure Image where
  blocks : List AsmBlock
  kernels : List AsmKernel
  data : List (Nat × List Byte)
  names : List (String × Nat)
deriving DecidableEq, Repr, Inhabited

/-- The descriptor header K0–K7 of a kernel whose tables stand at these addresses (R185); the source writes no ownership list and no child
table. -/
def AsmKernel.header (k : AsmKernel) (tree leaf : Nat) : List W64 :=
  ([0x4B31 + 2 ^ 16 + k.tree.length * 2 ^ 20 + k.leaves.length * 2 ^ 30, tree, leaf, 0, 0, 0, 0, 0] : List Nat).map (BitVec.ofNat 64)

/-- The leaf entry L0–L15 of a leaf whose block and template table stand at these addresses (R187); AGEN descriptors and circular buffers
have no notation. -/
def AsmLeaf.entry (l : AsmLeaf) (block tmplTab : Nat) : List W64 :=
  ([block, l.inst + l.tmpls.length * 2 ^ 18, 0, if l.tmpls.isEmpty then 0 else tmplTab] ++ List.replicate 12 0 : List Nat).map (BitVec.ofNat 64)

/-! The reader of lines. -/

/-- A template being read. -/
structure OpenTmpl where
  name : String
  pos : Pos
  items : List Item
  more : Bool
deriving DecidableEq, Repr, Inhabited

/-- What stands open. -/
inductive Mode where
  | top
  | data
  | block (b : OpenBlock)
  | tree (name : String) (pos : Pos) (kinds : List (Nat × Pos)) (lines : List TreeLine)
  | trav (t : OpenTmpl)
  | cmd (t : OpenTmpl)
  | epi (name : String) (pos : Pos) (words : List Nat) (inData : Bool)
deriving DecidableEq, Repr, Inhabited

/-- What has been read. -/
structure Zalm where
  base : Nat
  mode : Mode
  blocks : List AsmBlock
  kernels : List (String × List TreeLine)
  tmpls : List Templates
  data : List (Nat × List Byte)
  names : List (String × Nat)
deriving DecidableEq, Repr, Inhabited

def okName (p : Pos) (s : String) : Asm String := if s == "_" || 63 < s.length then fail p .z05 else .ok s

/-- A data section opened at an address, or behind the one before it, aligned to 64 bytes (R423). -/
def Zalm.openData (z : Zalm) (at_ : Option Nat) : Zalm :=
  let a := at_.getD (match z.data.getLast? with | none => z.base | some (a, b) => ceilDiv (a + b.length) 64 * 64)
  { z with data := z.data ++ [(a, [])], mode := .data }

/-- The section that bytes go to: the current one, or the first. -/
def Zalm.current (z : Zalm) : Zalm := if z.data.isEmpty then { z.openData none with mode := z.mode } else z

/-- The current place. -/
def Zalm.here (z : Zalm) : Nat := match z.data.getLast? with | none => z.base | some (a, b) => a + b.length

def Zalm.emit (z : Zalm) (bs : List Byte) : Zalm :=
  let z := z.current
  match z.data.getLast? with
  | none => z
  | some (a, b) => { z with data := z.data.dropLast ++ [(a, b ++ bs)] }

/-- A name for the current place. -/
def Zalm.define (z : Zalm) (p : Pos) (s : String) : Asm Zalm := do
  let s ← labelOf p s
  let z := z.current
  if z.names.any fun n => n.1 == s then fail p .z05 else return { z with names := z.names ++ [(s, z.here)] }

/-- A closed template joins the leaf of the last block (R421). -/
def Zalm.template (z : Zalm) (str : Bool) (t : OpenTmpl) : Asm Zalm := do
  let (ws, bound) ← templateOf str t.pos t.items
  match z.blocks.getLast? with
  | none => fail t.pos .z10
  | some b =>
    let old := (z.tmpls.find? fun x => x.block == b.name).getD ⟨b.name, [], [], []⟩
    if old.names.contains t.name then fail t.pos .z05
    else if !bound && 256 ≤ old.tmpls.length then fail t.pos .z11
    else if !bound && 255 ≤ old.tmpls.length then fail t.pos .z04
    else
      let new : Templates :=
        { old with names := t.name :: old.names, tmpls := if bound then old.tmpls else old.tmpls ++ [ws],
                   binds := if bound then old.binds ++ [ws] else old.binds }
      return { z with tmpls := (z.tmpls.filter fun x => x.block != b.name) ++ [new], mode := .top }

/-- The directive of a line, with its position and what follows it. -/
def directive (l : SrcLine) : Option (String × Pos × List Tk) :=
  match l.toks with
  | ⟨.sym '.', c, _⟩ :: ⟨.name d, _, true⟩ :: rest => some (fold d, ⟨l.no, c⟩, rest)
  | _ => none

/-- The name behind a directive. -/
def named (p : Pos) : List Tk → Asm (String × Pos × List Tk)
  | ⟨.name n, c, _⟩ :: rest => do return (← okName ⟨p.line, c⟩ n, ⟨p.line, c⟩, rest)
  | _ => fail p .z01

def endOfLine (p : Pos) : List Tk → Asm Unit
  | [] => .ok ()
  | t :: _ => fail ⟨p.line, t.col⟩ .z01

/-- Kinds of inner tree nodes by their directives (R186). -/
def treeKind (d : String) : Option Nat := if d == "serial" then some 1 else if d == "piped" then some 2 else if d == "streamed" then some 3 else none

/-- A line of a kernel tree (R421). -/
def Zalm.treeLine (z : Zalm) (name : String) (pos : Pos) (kinds : List (Nat × Pos)) (lines : List TreeLine) (l : SrcLine) : Asm Zalm :=
  match directive l with
  | none => fail ⟨l.no, (l.toks.headD default).col⟩ .z09
  | some (d, p, rest) =>
    let node (kind : Nat) (block : String) (inst : Nat) : TreeLine := ⟨kinds.length, kind, block, inst, p⟩
    let full : Bool := kinds.isEmpty && !lines.isEmpty
    if d == "leaf" then
      if full then fail p .z09
      else do
        let (b, _, rest) ← named p rest
        let items ← itemsOf l.no (rest.length + 1) rest
        noTwice items []
        let inst ← items.foldlM (fun _ i =>
          if i.key && fold i.word == "inst" then do
            let v ← inField i.pos false 13 (← intOf i.pos i.val)
            if 4096 < v then fail i.pos .z04 else .ok v
          else fail i.pos .z02) 1
        return { z with mode := .tree name pos kinds (lines ++ [node 0 b inst]) }
    else if d == "endkernel" then
      if !kinds.isEmpty || lines.isEmpty then fail p .z09
      else if 1023 < lines.length then fail pos .z04
      else do
        endOfLine p rest
        return { z with kernels := z.kernels ++ [(name, lines)], mode := .top }
    else
      match treeKind d with
      | some k =>
        if full then fail p .z09
        else do
          endOfLine p rest
          return { z with mode := .tree name pos ((k, p) :: kinds) (lines ++ [node k "" 0]) }
      | none =>
        match kinds, (["endserial", "endpiped", "endstreamed"].zip [1, 2, 3]).find? fun x => x.1 == d with
        | (k, _) :: ks, some (_, want) =>
          if k == want then do
            endOfLine p rest
            return { z with mode := .tree name pos ks lines }
          else fail p .z09
        | _, _ => fail p .z09

/-- A line where no block, tree or template stands open; `data` while a data section does. -/
def Zalm.item (z : Zalm) (l : SrcLine) : Asm Zalm :=
  let mxtok (label : Option (String × Pos)) (p : Pos) (rest : List Tk) : Asm Zalm :=
    match rest with
    | ⟨.name op, c, _⟩ :: more => do
      let bs ← tokenOf ⟨l.no, c⟩ op (← itemsOf l.no (more.length + 1) more)
      let z ← (match label with | some (s, q) => z.define q s | none => .ok z)
      return z.emit bs
    | _ => fail p .z01
  match directive l with
  | none =>
    (match l.toks with
     | ⟨.name s, c, _⟩ :: ⟨.sym ':', _, _⟩ :: ⟨.sym '.', c2, _⟩ :: ⟨.name d, _, true⟩ :: rest =>
       if fold d == "mxtok" then mxtok (some (s, ⟨l.no, c⟩)) ⟨l.no, c2⟩ rest else fail ⟨l.no, c2⟩ .z01
     | t :: _ => fail ⟨l.no, t.col⟩ .z09
     | [] => .ok z)
  | some (d, p, rest) =>
    if d == "block" then do
      let (n, q, rest) ← named p rest
      if z.blocks.any fun b => b.name == n then fail q .z05
      else
        let items ← itemsOf l.no (rest.length + 1) rest
        noTwice items []
        let (h, r) ← hdrItems hdrReset none items
        return { z with mode := .block { name := n, pos := p, hdr := h, restart := r, nodes := [], next := 0 } }
    else if d == "kernel" then do
      let (n, q, rest) ← named p rest
      endOfLine p rest
      if z.kernels.any fun k => k.1 == n then fail q .z05 else return { z with mode := .tree n p [] [] }
    else if d == "traverse" || d == "cmd" then
      if z.blocks.isEmpty then fail p .z10
      else do
        let (n, _, rest) ← named p rest
        let t : OpenTmpl := { name := n, pos := p, items := ← itemsOf l.no (rest.length + 1) rest, more := false }
        return { z with mode := if d == "cmd" then .cmd t else .trav t }
    else if d == "epi" then do
      let (n, _, rest) ← named p rest
      endOfLine p rest
      return { z with mode := .epi n p [] (z.mode == .data) }
    else if d == "mxtok" then mxtok none p rest
    else if d == "scb" then
      match rest with
      | ⟨.name k, c, _⟩ :: more => do return z.emit (← stageOf ⟨l.no, c⟩ k (← itemsOf l.no (more.length + 1) more))
      | _ => fail p .z01
    else if d == "data" then do
      let items ← itemsOf l.no (rest.length + 1) rest
      noTwice items []
      let a ← items.foldlM (fun _ i =>
        if i.key && fold i.word == "at" then do return some (← inField i.pos false 57 (← intOf i.pos i.val)) else fail i.pos .z02) none
      return z.openData a
    else if ["f32", "bf16", "i32", "n32"].contains d then
      if z.mode == .data then do return z.emit (← dataValues d l.no (rest.length + 1) rest) else fail p .z09
    else if d == "align" then
      if z.mode == .data then do return z.emit (← alignPad p rest z.here) else fail p .z09
    else if ["leaf", "serial", "piped", "streamed", "endserial", "endpiped", "endstreamed", "endkernel", "endblock", "endtraverse", "endcmd",
             "endepi"].contains d then fail p .z09
    else fail p .z01

/-- A line of the source. -/
def Zalm.line (z : Zalm) (l : SrcLine) : Asm Zalm :=
  let d := directive l
  let is (s : String) : Bool := match d with | some (x, _) => x == s | none => false
  let here : Pos := ⟨l.no, (l.toks.headD default).col⟩
  let close (s : String) (r : Asm Zalm) : Asm Zalm :=
    match d with | some (x, p, rest) => if x == s then (do endOfLine p rest; r) else fail p .z09 | none => r
  match z.mode with
  | .block b =>
    if is "endblock" then
      close "endblock" (do
        let a ← b.close
        return { z with blocks := z.blocks ++ [a], mode := .top })
    else if d.isSome then fail here .z09
    else do
      let b ← b.add (← nodeLine l.no l.toks)
      return { z with mode := .block b }
  | .tree n p ks ls => z.treeLine n p ks ls l
  | .trav t =>
    if is "endtraverse" then close "endtraverse" (z.template true t)
    else if l.indented && d.isNone then do
      return { z with mode := .trav { t with items := t.items ++ (← itemsOf l.no (l.toks.length + 1) l.toks) } }
    else fail here .z09
  | .cmd t =>
    if is "endcmd" then close "endcmd" (z.template false t)
    else if l.indented && d.isNone then do
      return { z with mode := .cmd { t with items := t.items ++ (← itemsOf l.no (l.toks.length + 1) l.toks), more := true } }
    else if t.more then fail here .z09
    else do (← z.template false t).item l
  | .epi n p ws inData =>
    if is "endepi" then
      close "endepi" (do
        let z ← { z with mode := if inData then .data else .top }.define p n
        return z.emit ((ws.flatMap (leBytes 2) ++ List.replicate (64 - 2 * ws.length) 0#8).take 64))
    else if d.isSome then fail here .z09
    else if 32 ≤ ws.length then fail here .z04
    else do return { z with mode := .epi n p (ws ++ [← epiWord l.no l.toks]) inData }
  | .top => z.item l
  | .data => z.item l

def Zalm.lines : Zalm → List SrcLine → Asm Zalm
  | z, [] => .ok z
  | z, l :: ls => do Zalm.lines (← z.line l) ls

/-- The end of the source: nothing stands open, every leaf names a block, and the templates that ENG nodes name exist (R86, R421). -/
def Zalm.finish (z : Zalm) : Asm Image := do
  let z ← (match z.mode with | .cmd t => if t.more then fail t.pos .z09 else z.template false t | _ => .ok z)
  match z.mode with
  | .block b => fail b.pos .z09
  | .tree _ p ks _ => fail ((ks.head?.map (·.2)).getD p) .z09
  | .trav t => fail t.pos .z09
  | .cmd t => fail t.pos .z09
  | .epi _ p _ _ => fail p .z09
  | _ => do
    let tmplsOf (b : String) : Templates := (z.tmpls.find? fun t => t.block == b).getD ⟨b, [], [], []⟩
    z.kernels.forM fun (_, ls) => ls.forM fun l =>
      if l.kind = 0 && !(z.blocks.any fun b => b.name == l.block) then fail l.pos .z10 else .ok ()
    z.blocks.forM fun b => checkBlock (tmplsOf b.name).tmpls.length ⟨1, 1⟩ b
    let leaf (l : TreeLine) : AsmLeaf := let t := tmplsOf l.block; ⟨l.block, l.inst, t.tmpls, t.binds⟩
    return { blocks := z.blocks, data := z.data, names := z.names,
             kernels := z.kernels.map fun (n, ls) => ⟨n, treeEntries ls, (ls.filter fun l => l.kind == 0).map leaf⟩ }

/-- `zalm`: the image of a source whose first data section is placed at `base`, or the first error (R424). DESIGN CHOICE,
notes/assumptions/93.md. -/
def assemble (base : Nat) (src : String) : Asm Image :=
  match Zalm.lines { base := base, mode := .top, blocks := [], kernels := [], tmpls := [], data := [], names := [] } (srcLines src) with
  | .ok z => z.finish
  | .error e => .error e

end Sys2Proof.Zalm
end

