-- ==== Sys2Proof/Tests/Slice0.lean ====
section
/-!
SUPPORT. The model’s own tests: the WellFormed smoke, decoding of words written out from the encodings of the spec, worked examples of the spec,
and for every statement with hypotheses a state that meets them.
-/
namespace Sys2Proof.Tests

open Machine Claims

set_option Elab.async false

/-! Helpers. -/

/-- The words of a node instruction. -/
def nodeOf (i : Instr) : List W64 := match encode i with | .node ws => ws | _ => []

/-- A MOV word that feeds a slot of node 0 (R75, R77). -/
def feed : SlotName → W64
  | .l => 0x0150003800000000#64
  | .r => 0x0150203800000000#64
  | .p => 0x0150403800000000#64

def feeds (l r p : Option Beat) : List W64 :=
  (if l.isSome then [feed .l] else []) ++ (if r.isSome then [feed .r] else []) ++ (if p.isSome then [feed .p] else [])

/-- Tile 0 in its first instant with one node under the cursor and what its slots hold, in region 0 of context 1, RELAXED. -/
def st (i : Instr) (l r p : Option Beat) : State :=
  let ws := nodeOf i ++ feeds l r p
  { State.reset with
    cursor := .node 0 0
    tiles := [(0, { Tile.fresh with words := ws, nodes := { NodeSt.fresh with l := l, r := r, p := p } :: ws.tail.map (fun _ => NodeSt.fresh), begun := true })]
    regions := [(0, { Region.fresh with ctx := 1, valid := true, phase := .running, tiles := [0], allTiles := [0] })]
    ctxs := [(0, Ctx.control), (1, { Ctx.fresh with relaxed := true, state := 2 })] }

/-- The same with tile 0 changed. -/
def stT (i : Instr) (l r p : Option Beat) (f : Tile → Tile) : State := let s := st i l r p; s.setTile 0 (f (s.tile 0))

/-- A VALUE beat. -/
def v (x : Nat) : Option Beat := some (Beat.val (BitVec.ofNat 512 x) [])
/-- An ABSENT beat. -/
def ab : Option Beat := some Beat.none

/-- What stands first at output port 0 after one instruction. -/
def outB (i : Instr) (s : State) : Option Beat := match exec i s with | .next s1 => ((s1.tile 0).out 0).q.head?.map (·.2) | _ => none
/-- The low n bits of it. -/
def outN (n : Nat) (i : Instr) (s : State) : Option Nat := (outB i s).map fun b => bitsNat b.data 0 n
/-- A property of the next state. -/
def runs (i : Instr) (s : State) (p : State → Bool) : Bool := match exec i s with | .next s1 => p s1 | _ => false

/-- A node of type t that sends to output port 0. -/
def nd (t : Ty) : Node := ⟨t, 0#4, .out 0, .none, 0#16, .prop, false, 0#8, none⟩
def args (i : Instr) (l r p : Option Beat) (n : Node) : Args := ((st i l r p).tile 0).args n 0

/-! WellFormed smoke: for each check a term that passes and one that it refuses. -/

/-- The check that a node's instruction fails by itself. -/
def fails (o : Op) (n : Node) : Option CfgCheck := o.check n

theorem smoke_node_ok : (Instr.add (nd .i32)).wellFormed = true := by decide +kernel
/-- R81, R99: ADD takes the integer types. -/
theorem smoke_type : (Instr.add (nd .f32)).wellFormed = false ∧ fails .add (nd .f32) = some .type := by decide +kernel
/-- R99: ADD has no MOD. -/
theorem smoke_mod : (Instr.add { nd .i32 with mod := 1#4 }).wellFormed = false ∧ fails .add { nd .i32 with mod := 1#4 } = some .mod := by decide +kernel
/-- R20: STEER acts on absence itself. -/
theorem smoke_policy : (Instr.steer { nd .raw with pol := .ident }).wellFormed = false ∧ fails .steer { nd .raw with pol := .ident } = some .policy := by decide +kernel
/-- R77: node indices end at 127. -/
theorem smoke_target : (Instr.add { nd .i32 with a := .slot .l 128 }).wellFormed = false ∧ fails .add { nd .i32 with a := .slot .l 128 } = some .target := by decide +kernel
/-- R80: an IMM field that ADD does not read is 0. -/
theorem smoke_imm : (Instr.add { nd .i32 with imm := 1#16 }).wellFormed = false ∧ fails .add { nd .i32 with imm := 1#16 } = some .imm := by decide +kernel
theorem smoke_aux : (Instr.add { nd .i32 with aux := 1#8 }).wellFormed = false ∧ fails .add { nd .i32 with aux := 1#8 } = some .aux := by decide +kernel
/-- R75: I is set only where the opcode has an R input. -/
theorem smoke_slot : (Instr.lred { nd .f32 with i := true }).wellFormed = false ∧ fails .lred { nd .f32 with i := true } = some .slot := by decide +kernel
/-- R184: the mod of a BFREE picks the row. -/
theorem smoke_row : (Instr.bfreeRel (nd .n32)).wellFormed = false ∧ (Instr.bfreeAcqr (nd .n32)).wellFormed = true := by decide +kernel

/-- A token of R228's smallest shape. -/
def tok : MxTok := ⟨0#2, 0#2, 0#7, 1#3, 1#3, false, 0#5, 0#12, 0#13, 0#10, false, false⟩
/-- The same as a DRAIN has it. -/
def dtok : MxTok := { tok with afmt := 0#3, wfmt := 0#3 }

theorem smoke_token_ok : (Instr.mma tok).wellFormed = true ∧ (Instr.drain { dtok with acc := true, epi := 3#5 }).wellFormed = true ∧ (Instr.clr dtok).wellFormed = true := by decide +kernel
/-- R228–R231: every field of an MMA that is checked. -/
theorem smoke_mma : [({ tok with mc := 3#2 } : MxTok), { tok with nc := 3#2 }, { tok with afmt := 5#3 }, { tok with wfmt := 0#3 }, { tok with wfmt := 2#3 },
    { tok with kg := 127#7, afmt := 2#3, wfmt := 2#3 }, { tok with acc := true }, { tok with epi := 1#5 }, { tok with afeed := true, aoff := 1#12 },
    { tok with wfeed := true, woff := 1#13 }].map (fun t => ((Instr.mma t).wellFormed, t.check true false)) =
    [2, 4, 13, 16, 13, 6, 19, 20, 25, 37].map (fun b => (false, some b)) := by decide +kernel
/-- R228, R230: every field of a CLR that must be 0. -/
theorem smoke_clr : [({ dtok with kg := 1#7 } : MxTok), { dtok with afmt := 1#3 }, { dtok with wfmt := 1#3 }, { dtok with acc := true }, { dtok with epi := 1#5 },
    { dtok with aoff := 1#12 }, { dtok with woff := 1#13 }, { dtok with afeed := true }, { dtok with wfeed := true }].map
      (fun t => ((Instr.clr t).wellFormed, t.check false false)) =
    [6, 13, 16, 19, 20, 25, 37, 60, 61].map (fun b => (false, some b)) := by decide +kernel
/-- R243: an ACT's kind and a CVT's fields. -/
theorem smoke_epilogue : (Instr.epiAct 3#4).wellFormed = true ∧ (Instr.epiAct 4#4).wellFormed = false ∧ (Instr.epiCvt 0#1 1#2 1#4).wellFormed = true ∧
    (Instr.epiCvt 0#1 1#2 0#4).wellFormed = false ∧ (Instr.epiCvt 1#1 0#2 1#4).wellFormed = false ∧ (Instr.epiCvt 0#1 0#2 3#4).wellFormed = false := by decide +kernel
/-- R191: TC scopes 5 to 7 are reserved. -/
theorem smoke_command (w : W64) : (Instr.copy ⟨⟨0#8, 0#16, 0#8, 0#8, 4#3, false, 0#2⟩, w, w, w, w, w, w, w⟩).wellFormed = true ∧
    (Instr.copy ⟨⟨0#8, 0#16, 0#8, 0#8, 5#3, false, 0#2⟩, w, w, w, w, w, w, w⟩).wellFormed = false := ⟨rfl, rfl⟩
/-- Why words are refused. -/
def why (d : Except Reject Instr) : Option Reject := match d with | .error e => some e | .ok _ => none

/-- R79, R80: an extension word must follow a set X bit and its reserved bits are 0; R77, R19: reserved target kinds and policies. -/
theorem smoke_refused_words : why (decodeWord 0x1050003800000200#64 none) = some (.node .ext) ∧
    why (decodeWord 0x1050003800000200#64 (some 1#64)) = some (.node .ext) ∧
    why (decodeWord 0x1050FFF800000000#64 none) = some (.node .target) ∧
    why (decodeWord 0x1050003800000C00#64 none) = some (.node .policy) ∧
    why (decodeWord 0x0950003800000000#64 none) = some (.node .opcode) ∧
    why (decodeEpi 0x5400#16) = some .epilogue ∧
    why (decodeEpi 0x7103#16) = some .epilogue ∧
    why (decodeToken 0x8000000000012000#64) = some (.token 62) := by decide +kernel

/-- The words of the moves family, written field by field from R75, R77 and R81. -/
def words_moves : List (W64 × Instr) :=
  [(0x000060F800000005#64, .inp ⟨.f32, 0#4, .out 3, .none, 0#16, .prop, false, 5#8, none⟩),
   (0x01E060E090000000#64, .mov ⟨.raw, 0#4, .out 3, .dl 9, 0#16, .prop, false, 0#8, none⟩),
   (0x029060F808000000#64, .const ⟨.i16, 0#4, .out 3, .none, 32768#16, .prop, false, 0#8, none⟩),
   (0x03C060F800007000#64, .lanei ⟨.n8, 0#4, .out 3, .none, 7#16, .prop, false, 0#8, none⟩),
   (0x04D060F800000081#64, .dlrd ⟨.pred, 0#4, .out 3, .none, 0#16, .prop, false, 129#8, none⟩),
   (0x05E060F800000007#64, .sxld ⟨.raw, 0#4, .out 3, .none, 0#16, .prop, false, 7#8, none⟩),
   (0x06E05FF800000001#64, .sxst ⟨.raw, 0#4, .slot .p 127, .none, 0#16, .prop, false, 1#8, none⟩),
   (0x071060F800003002#64, .bufrd ⟨.bf16, 0#4, .out 3, .none, 3#16, .prop, false, 2#8, none⟩),
   (0x082060F800009001#64, .bufwr ⟨.of8, 0#4, .out 3, .none, 9#16, .prop, false, 1#8, none⟩)]

theorem test_decode_moves : (words_moves.all fun p => (decodeWord p.1 none).toOption == some p.2) = true := by decide +kernel

/-- The words of the integer family, written field by field from R75, R77 and R81. -/
def words_integer : List (W64 × Instr) :=
  [(0x1050003800000000#64, .add ⟨.i32, 0#4, .slot .l 0, .none, 0#16, .prop, false, 0#8, none⟩),
   (0x1160207800000400#64, .sub ⟨.n32, 0#4, .slot .r 1, .none, 0#16, .ident, false, 0#8, none⟩),
   (0x127040B800000800#64, .mul ⟨.i64, 0#4, .slot .p 2, .none, 0#16, .fault, false, 0#8, none⟩),
   (0x138000F800000000#64, .mulh ⟨.n64, 0#4, .slot .l 3, .none, 0#16, .prop, false, 0#8, none⟩),
   (0x1490213800000400#64, .mad ⟨.i16, 0#4, .slot .r 4, .none, 0#16, .ident, false, 0#8, none⟩),
   (0x15A0417800000800#64, .and ⟨.n16, 0#4, .slot .p 5, .none, 0#16, .fault, false, 0#8, none⟩),
   (0x16B001B800000000#64, .or ⟨.i8, 0#4, .slot .l 6, .none, 0#16, .prop, false, 0#8, none⟩),
   (0x17C021F800000400#64, .xor ⟨.n8, 0#4, .slot .r 7, .none, 0#16, .ident, false, 0#8, none⟩),
   (0x1850423800000800#64, .not ⟨.i32, 0#4, .slot .p 8, .none, 0#16, .fault, false, 0#8, none⟩),
   (0x1960027800000000#64, .shl ⟨.n32, 0#4, .slot .l 9, .none, 0#16, .prop, false, 0#8, none⟩),
   (0x1A7022B800000400#64, .shr ⟨.i64, 0#4, .slot .r 10, .none, 0#16, .ident, false, 0#8, none⟩),
   (0x1B8042F800000800#64, .sar ⟨.n64, 0#4, .slot .p 11, .none, 0#16, .fault, false, 0#8, none⟩)] ++
  [(0x1C90033800000000#64, .rot ⟨.i16, 0#4, .slot .l 12, .none, 0#16, .prop, false, 0#8, none⟩),
   (0x1DA0237800000400#64, .min ⟨.n16, 0#4, .slot .r 13, .none, 0#16, .ident, false, 0#8, none⟩),
   (0x1EB043B800000800#64, .max ⟨.i8, 0#4, .slot .p 14, .none, 0#16, .fault, false, 0#8, none⟩),
   (0x1FC003F800000000#64, .abs ⟨.n8, 0#4, .slot .l 15, .none, 0#16, .prop, false, 0#8, none⟩),
   (0x2050243800000400#64, .neg ⟨.i32, 0#4, .slot .r 16, .none, 0#16, .ident, false, 0#8, none⟩),
   (0x2160447800000800#64, .clz ⟨.n32, 0#4, .slot .p 17, .none, 0#16, .fault, false, 0#8, none⟩),
   (0x227004B800000000#64, .popc ⟨.i64, 0#4, .slot .l 18, .none, 0#16, .prop, false, 0#8, none⟩),
   (0x238524F800000400#64, .cmp ⟨.n64, 5#4, .slot .r 19, .none, 0#16, .ident, false, 0#8, none⟩),
   (0x2490453800000800#64, .sel ⟨.i16, 0#4, .slot .p 20, .none, 0#16, .fault, false, 0#8, none⟩),
   (0x25A0057800000000#64, .adds ⟨.n16, 0#4, .slot .l 21, .none, 0#16, .prop, false, 0#8, none⟩),
   (0x26B025B800000400#64, .subs ⟨.i8, 0#4, .slot .r 22, .none, 0#16, .ident, false, 0#8, none⟩)]

theorem test_decode_integer : (words_integer.all fun p => (decodeWord p.1 none).toOption == some p.2) = true := by decide +kernel

/-- The words of the float family, written field by field from R75, R77 and R81. -/
def words_float : List (W64 × Instr) :=
  [(0x300060F800000800#64, .fadd ⟨.f32, 0#4, .out 3, .none, 0#16, .fault, false, 0#8, none⟩),
   (0x311160F800000800#64, .fsub ⟨.bf16, 1#4, .out 3, .none, 0#16, .fault, false, 0#8, none⟩),
   (0x320260F800000800#64, .fmul ⟨.f32, 2#4, .out 3, .none, 0#16, .fault, false, 0#8, none⟩),
   (0x331360F800000800#64, .ffma ⟨.bf16, 3#4, .out 3, .none, 0#16, .fault, false, 0#8, none⟩),
   (0x340060F800000800#64, .fmin ⟨.f32, 0#4, .out 3, .none, 0#16, .fault, false, 0#8, none⟩),
   (0x351060F800000800#64, .fmax ⟨.bf16, 0#4, .out 3, .none, 0#16, .fault, false, 0#8, none⟩),
   (0x360060F800000800#64, .fabs ⟨.f32, 0#4, .out 3, .none, 0#16, .fault, false, 0#8, none⟩),
   (0x371060F800000800#64, .fneg ⟨.bf16, 0#4, .out 3, .none, 0#16, .fault, false, 0#8, none⟩),
   (0x380060F800000800#64, .fcmp ⟨.f32, 0#4, .out 3, .none, 0#16, .fault, false, 0#8, none⟩),
   (0x391160F800000800#64, .frcp ⟨.bf16, 1#4, .out 3, .none, 0#16, .fault, false, 0#8, none⟩),
   (0x3A0260F800000800#64, .fsqrt ⟨.f32, 2#4, .out 3, .none, 0#16, .fault, false, 0#8, none⟩),
   (0x3B1360F800000800#64, .frsq ⟨.bf16, 3#4, .out 3, .none, 0#16, .fault, false, 0#8, none⟩)] ++
  [(0x3C0060F800000800#64, .fexp2 ⟨.f32, 0#4, .out 3, .none, 0#16, .fault, false, 0#8, none⟩),
   (0x3D1160F800000800#64, .flog2 ⟨.bf16, 1#4, .out 3, .none, 0#16, .fault, false, 0#8, none⟩),
   (0x3E0060F800000800#64, .ftanh ⟨.f32, 0#4, .out 3, .none, 0#16, .fault, false, 0#8, none⟩),
   (0x3F1060F800000800#64, .fclass ⟨.bf16, 0#4, .out 3, .none, 0#16, .fault, false, 0#8, none⟩)]

theorem test_decode_float : (words_float.all fun p => (decodeWord p.1 none).toOption == some p.2) = true := by decide +kernel

/-- The words of the conversion family, written field by field from R75, R77 and R81. -/
def words_conversion : List (W64 × Instr) :=
  [(0x500260F800000011#64, .cvt ⟨.f32, 2#4, .out 3, .none, 0#16, .prop, false, 17#8, none⟩),
   (0x513060F80000F000#64, .bscale ⟨.of4, 0#4, .out 3, .none, 15#16, .prop, false, 0#8, none⟩),
   (0x529160F800000000#64, .pack ⟨.i16, 1#4, .out 3, .none, 0#16, .prop, false, 0#8, none⟩),
   (0x53C060F800000080#64, .unpack ⟨.n8, 0#4, .out 3, .none, 0#16, .prop, false, 128#8, none⟩),
   (0x543460F800003080#64, .ofesc ⟨.of4, 4#4, .out 3, .none, 3#16, .prop, false, 128#8, none⟩)]

theorem test_decode_conversion : (words_conversion.all fun p => (decodeWord p.1 none).toOption == some p.2) = true := by decide +kernel

/-- The words of the lanesAndRows family, written field by field from R75, R77 and R81. -/
def words_lanesAndRows : List (W64 × Instr) :=
  [(0x600060F800000002#64, .lred ⟨.f32, 0#4, .out 3, .none, 0#16, .prop, false, 2#8, none⟩),
   (0x615560F800000000#64, .lscan ⟨.i32, 5#4, .out 3, .none, 0#16, .prop, false, 0#8, none⟩),
   (0x62E060F800000000#64, .lbcast ⟨.raw, 0#4, .out 3, .none, 0#16, .prop, false, 0#8, none⟩),
   (0x630260F800003008#64, .reord ⟨.f32, 2#4, .out 3, .none, 3#16, .prop, false, 8#8, none⟩),
   (0x640260F800200000#64, .rowstat ⟨.f32, 2#4, .out 3, .none, 512#16, .prop, false, 0#8, none⟩),
   (0x650060F800404003#64, .rowbuf ⟨.f32, 0#4, .out 3, .none, 1028#16, .prop, false, 3#8, none⟩),
   (0x660360F800000001#64, .rowscl ⟨.f32, 3#4, .out 3, .none, 0#16, .prop, false, 1#8, none⟩)]

theorem test_decode_lanesAndRows : (words_lanesAndRows.all fun p => (decodeWord p.1 none).toOption == some p.2) = true := by decide +kernel

/-- The words of the control family, written field by field from R75, R77 and R81. -/
def words_control : List (W64 × Instr) :=
  [(0x707260F800000001#64, .steer ⟨.i64, 2#4, .out 3, .none, 0#16, .prop, false, 1#8, none⟩),
   (0x710160F800000000#64, .merge ⟨.f32, 1#4, .out 3, .none, 0#16, .prop, false, 0#8, none⟩),
   (0x72C060F800000000#64, .mergea ⟨.n8, 0#4, .out 3, .none, 0#16, .prop, false, 0#8, none⟩),
   (0x73D060F800000000#64, .carry ⟨.pred, 0#4, .out 3, .none, 0#16, .prop, false, 0#8, none⟩),
   (0x74E160F800000000#64, .gate ⟨.raw, 1#4, .out 3, .none, 0#16, .prop, false, 0#8, none⟩),
   (0x75D060F800000000#64, .pres ⟨.pred, 0#4, .out 3, .none, 0#16, .prop, false, 0#8, none⟩),
   (0x761060F800000000#64, .dflt ⟨.bf16, 0#4, .out 3, .none, 0#16, .prop, false, 0#8, none⟩),
   (0x77D060F800000000#64, .absn ⟨.pred, 0#4, .out 3, .none, 0#16, .prop, false, 0#8, none⟩),
   (0x78D060F8001FF000#64, .orp ⟨.pred, 0#4, .out 3, .none, 511#16, .prop, false, 0#8, none⟩),
   (0x796060F80004D003#64, .nest ⟨.n32, 0#4, .out 3, .none, 77#16, .prop, false, 3#8, none⟩),
   (0x7A6060F800000002#64, .lcrd ⟨.n32, 0#4, .out 3, .none, 0#16, .prop, false, 2#8, none⟩),
   (0x7B8060F800000000#64, .inst ⟨.n64, 0#4, .out 3, .none, 0#16, .prop, false, 0#8, none⟩)] ++
  [(0x7C8060F800000000#64, .cyc ⟨.n64, 0#4, .out 3, .none, 0#16, .prop, false, 0#8, none⟩),
   (0x7DE060F800000000#64, .merid ⟨.raw, 0#4, .out 3, .none, 0#16, .prop, false, 0#8, none⟩),
   (0x7EE060F800000000#64, .rmark ⟨.raw, 0#4, .out 3, .none, 0#16, .prop, false, 0#8, none⟩),
   (0x7F6060F800000000#64, .cores ⟨.n32, 0#4, .out 3, .none, 0#16, .prop, false, 0#8, none⟩),
   (0x806160F800000000#64, .tileid ⟨.n32, 1#4, .out 3, .none, 0#16, .prop, false, 0#8, none⟩),
   (0x816060F800000000#64, .regid ⟨.n32, 0#4, .out 3, .none, 0#16, .prop, false, 0#8, none⟩),
   (0x826060F80000000F#64, .resize ⟨.n32, 0#4, .out 3, .none, 0#16, .prop, false, 15#8, none⟩),
   (0x836060F800000000#64, .endk ⟨.n32, 0#4, .out 3, .none, 0#16, .prop, false, 0#8, none⟩)]

theorem test_decode_control : (words_control.all fun p => (decodeWord p.1 none).toOption == some p.2) = true := by decide +kernel

/-- The words of the synchronization family, written field by field from R75, R77 and R81. -/
def words_synchronization : List (W64 × Instr) :=
  [(0x90E360F8000010FF#64, .semsig ⟨.raw, 3#4, .out 3, .none, 1#16, .prop, false, 255#8, none⟩),
   (0x91E060F80000C004#64, .semwait ⟨.raw, 0#4, .out 3, .none, 12#16, .prop, false, 4#8, none⟩),
   (0x926060F800000009#64, .semrd ⟨.n32, 0#4, .out 3, .none, 0#16, .prop, false, 9#8, none⟩),
   (0x936060F800000001#64, .semset ⟨.n32, 0#4, .out 3, .none, 0#16, .prop, false, 1#8, none⟩),
   (0x94E060F800000000#64, .djoin ⟨.raw, 0#4, .out 3, .none, 0#16, .prop, false, 0#8, none⟩),
   (0x95E460F800000000#64, .fence ⟨.raw, 4#4, .out 3, .none, 0#16, .prop, false, 0#8, none⟩),
   (0xE0E060F80FFFF000#64, .trap ⟨.raw, 0#4, .out 3, .none, 65535#16, .prop, false, 0#8, none⟩),
   (0xE1E060F800005000#64, .brk ⟨.raw, 0#4, .out 3, .none, 5#16, .prop, false, 0#8, none⟩)]

theorem test_decode_synchronization : (words_synchronization.all fun p => (decodeWord p.1 none).toOption == some p.2) = true := by decide +kernel

/-- The words of the memory family, written field by field from R75, R77 and R81. -/
def words_memory : List (W64 × Instr) :=
  [(0xA00160F800000014#64, .agen ⟨.f32, 1#4, .out 3, .none, 0#16, .prop, false, 20#8, none⟩),
   (0xA1B060E8F003F004#64, .ld ⟨.i8, 0#4, .out 3, .done 15, 63#16, .prop, false, 4#8, none⟩),
   (0xA20060F80001F001#64, .st ⟨.f32, 0#4, .out 3, .none, 31#16, .prop, false, 1#8, none⟩),
   (0xA30060F800000021#64, .ldx ⟨.f32, 0#4, .out 3, .none, 0#16, .prop, false, 33#8, none⟩),
   (0xA48060F800000003#64, .stx ⟨.n64, 0#4, .out 3, .none, 0#16, .prop, false, 3#8, none⟩),
   (0xA50160F800000002#64, .atom ⟨.f32, 1#4, .out 3, .none, 0#16, .prop, false, 2#8, none⟩),
   (0xA6E060F8000000C8#64, .handover ⟨.raw, 0#4, .out 3, .none, 0#16, .prop, false, 200#8, none⟩),
   (0xA76060F800000007#64, .bfreeAcqr ⟨.n32, 0#4, .out 3, .none, 0#16, .prop, false, 7#8, none⟩),
   (0xA76160F800000000#64, .bfreeRel ⟨.n32, 1#4, .out 3, .none, 0#16, .prop, false, 0#8, none⟩),
   (0xA86060F800000001#64, .bfillAcqw ⟨.n32, 0#4, .out 3, .none, 0#16, .prop, false, 1#8, none⟩),
   (0xA86160F800000002#64, .bfillPub ⟨.n32, 1#4, .out 3, .none, 0#16, .prop, false, 2#8, none⟩),
   (0xC0E060F800006020#64, .eng ⟨.raw, 0#4, .out 3, .none, 6#16, .prop, false, 32#8, none⟩)] ++
  [(0xC1E060F800FFF00F#64, .launch ⟨.raw, 0#4, .out 3, .none, 4095#16, .prop, false, 15#8, none⟩)]

theorem test_decode_memory : (words_memory.all fun p => (decodeWord p.1 none).toOption == some p.2) = true := by decide +kernel

/-- The words of the softTokens family, written field by field from R75, R77 and R81. -/
def words_softTokens : List (W64 × Instr) :=
  [(0xD06060F800000007#64, .sxset ⟨.n32, 0#4, .out 3, .none, 0#16, .prop, false, 7#8, none⟩),
   (0xD11060F800007000#64, .sxmix ⟨.bf16, 0#4, .out 3, .none, 7#16, .prop, false, 0#8, none⟩),
   (0xD20060F800FFF000#64, .sxhid ⟨.f32, 0#4, .out 3, .none, 4095#16, .prop, false, 0#8, none⟩),
   (0xD31060F800000003#64, .sxemb ⟨.bf16, 0#4, .out 3, .none, 0#16, .prop, false, 3#8, none⟩),
   (0xD46060F800000000#64, .sxkind ⟨.n32, 0#4, .out 3, .none, 0#16, .prop, false, 0#8, none⟩),
   (0xD58160F800064000#64, .sxhash ⟨.n64, 1#4, .out 3, .none, 100#16, .prop, false, 0#8, none⟩),
   (0xD66260F800000005#64, .collapse ⟨.n32, 2#4, .out 3, .none, 0#16, .prop, false, 5#8, none⟩)]

theorem test_decode_softTokens : (words_softTokens.all fun p => (decodeWord p.1 none).toOption == some p.2) = true := by decide +kernel

/-- The words of the privileged family, written field by field from R75, R77 and R81. -/
def words_privileged : List (W64 × Instr) :=
  [(0xE88060F800000000#64, .krd ⟨.n64, 0#4, .out 3, .none, 0#16, .prop, false, 0#8, none⟩),
   (0xE980C0B800000000#64, .kwr ⟨.n64, 0#4, .mx 2, .none, 0#16, .prop, false, 0#8, none⟩),
   (0xEA8060F800000000#64, .slotw ⟨.n64, 0#4, .out 3, .none, 0#16, .prop, false, 0#8, none⟩),
   (0xEB8060F800000000#64, .genbump ⟨.n64, 0#4, .out 3, .none, 0#16, .prop, false, 0#8, none⟩),
   (0xEC8060F800000000#64, .regsave ⟨.n64, 0#4, .out 3, .none, 0#16, .prop, false, 0#8, none⟩),
   (0xED8060F800000000#64, .regload ⟨.n64, 0#4, .out 3, .none, 0#16, .prop, false, 0#8, none⟩),
   (0xEE8060F800000000#64, .fltackResume ⟨.n64, 0#4, .out 3, .none, 0#16, .prop, false, 0#8, none⟩),
   (0xEE8160F800000000#64, .fltackKill ⟨.n64, 1#4, .out 3, .none, 0#16, .prop, false, 0#8, none⟩),
   (0xEE8260F800000000#64, .fltackFailcmd ⟨.n64, 2#4, .out 3, .none, 0#16, .prop, false, 0#8, none⟩),
   (0xEE8360F800000000#64, .fltackNote ⟨.n64, 3#4, .out 3, .none, 0#16, .prop, false, 0#8, none⟩)]

theorem test_decode_privileged : (words_privileged.all fun p => (decodeWord p.1 none).toOption == some p.2) = true := by decide +kernel

/-- A command with marked words. -/
def markedCmd (h : CmdHdr) : Cmd := ⟨h, 1#64, 2#64, 3#64, 4#64, 5#64, 6#64, 7#64⟩

/-- Header words of every command class and kind, written from R191, R192 and R260. -/
def words_commands : List (W64 × Instr) :=
  [(0x0101000000FF0100#64, .travrd (markedCmd ⟨0#8, 0#16, 255#8, 1#8, 0#3, false, 0#2⟩)),
   (0x01020103E8FE0234#64, .travwr (markedCmd ⟨1#8, 1000#16, 254#8, 2#8, 1#3, true, 1#2⟩)),
   (0x01030207D0FD0348#64, .travmc (markedCmd ⟨2#8, 2000#16, 253#8, 3#8, 2#3, false, 2#2⟩)),
   (0x0201030BB8FC047C#64, .copy (markedCmd ⟨3#8, 3000#16, 252#8, 4#8, 3#3, true, 3#2⟩)),
   (0x0202040FA0FB0580#64, .gather (markedCmd ⟨4#8, 4000#16, 251#8, 5#8, 4#3, false, 0#2⟩)),
   (0x0203051388FA0614#64, .scatter (markedCmd ⟨5#8, 5000#16, 250#8, 6#8, 0#3, true, 1#2⟩)),
   (0x0204061770F90728#64, .fill (markedCmd ⟨6#8, 6000#16, 249#8, 7#8, 1#3, false, 2#2⟩)),
   (0x0301071B58F8085C#64, .allred (markedCmd ⟨7#8, 7000#16, 248#8, 8#8, 2#3, true, 3#2⟩)),
   (0x0302081F40F70960#64, .allgath (markedCmd ⟨8#8, 8000#16, 247#8, 9#8, 3#3, false, 0#2⟩)),
   (0x0303092328F60A94#64, .redscat (markedCmd ⟨9#8, 9000#16, 246#8, 10#8, 4#3, true, 1#2⟩)),
   (0x03040A2710F50B08#64, .xsend (markedCmd ⟨10#8, 10000#16, 245#8, 11#8, 0#3, false, 2#2⟩)),
   (0x03050B2AF8F40C3C#64, .xrecv (markedCmd ⟨11#8, 11000#16, 244#8, 12#8, 1#3, true, 3#2⟩)),
   (0x04010C2EE0F30D40#64, .sample (markedCmd ⟨12#8, 12000#16, 243#8, 13#8, 2#3, false, 0#2⟩)),
   (0x04020D32C8F20E74#64, .argmax (markedCmd ⟨13#8, 13000#16, 242#8, 14#8, 3#3, true, 1#2⟩)),
   (0x05010E36B0F10F88#64, .pgalloc (markedCmd ⟨14#8, 14000#16, 241#8, 15#8, 4#3, false, 2#2⟩))] ++
  [(0x05020F3A98F0101C#64, .pgfree (markedCmd ⟨15#8, 15000#16, 240#8, 16#8, 0#3, true, 3#2⟩)),
   (0x0503103E80EF1120#64, .pgfork (markedCmd ⟨16#8, 16000#16, 239#8, 17#8, 1#3, false, 0#2⟩)),
   (0x0504114268EE1254#64, .pgappend (markedCmd ⟨17#8, 17000#16, 238#8, 18#8, 2#3, true, 1#2⟩)),
   (0x0505124650ED1368#64, .pgcommit (markedCmd ⟨18#8, 18000#16, 237#8, 19#8, 3#3, false, 2#2⟩)),
   (0x0506134A38EC149C#64, .pgtrunc (markedCmd ⟨19#8, 19000#16, 236#8, 20#8, 4#3, true, 3#2⟩)),
   (0x0507144E20EB1500#64, .pgstat (markedCmd ⟨20#8, 20000#16, 235#8, 21#8, 0#3, false, 0#2⟩)),
   (0x0601155208EA1634#64, .admission (markedCmd ⟨21#8, 21000#16, 234#8, 22#8, 1#3, true, 1#2⟩)),
   (0x06021655F0E91748#64, .batch (markedCmd ⟨22#8, 22000#16, 233#8, 23#8, 2#3, false, 2#2⟩)),
   (0x06031759D8E8187C#64, .retire (markedCmd ⟨23#8, 23000#16, 232#8, 24#8, 3#3, true, 3#2⟩)),
   (0x0604185DC0E71980#64, .egress (markedCmd ⟨24#8, 24000#16, 231#8, 25#8, 4#3, false, 0#2⟩)),
   (0x06051961A8E61A14#64, .logapp (markedCmd ⟨25#8, 25000#16, 230#8, 26#8, 0#3, true, 1#2⟩)),
   (0x06061A6590E51B28#64, .pfxmatch (markedCmd ⟨26#8, 26000#16, 229#8, 27#8, 1#3, false, 2#2⟩)),
   (0x06071B6978E41C5C#64, .replay (markedCmd ⟨27#8, 27000#16, 228#8, 28#8, 2#3, true, 3#2⟩)),
   (0x06081C6D60E31D60#64, .migout (markedCmd ⟨28#8, 28000#16, 227#8, 29#8, 3#3, false, 0#2⟩)),
   (0x06091D7148E21E94#64, .migin (markedCmd ⟨29#8, 29000#16, 226#8, 30#8, 4#3, true, 1#2⟩))]

theorem test_decode_commands :
    (words_commands.all fun p => (decodeCmd [p.1, 1#64, 2#64, 3#64, 4#64, 5#64, 6#64, 7#64]).toOption == some p.2) = true := by decide +kernel

/-- Matrix tokens, written from R228. -/
def words_tokens : List (W64 × Instr) :=
  [(0x04B01900C8012164#64, .mma ⟨1#2, 2#2, 5#7, 1#3, 1#3, false, 0#5, 100#12, 200#13, 300#10, false, false⟩),
   (0x3FFC0000000387C1#64, .mmaz ⟨0#2, 0#2, 31#7, 4#3, 3#3, false, 0#5, 0#12, 0#13, 1023#10, true, true⟩),
   (0x001C000001F8001A#64, .drain ⟨2#2, 1#2, 0#7, 0#3, 0#3, true, 31#5, 0#12, 0#13, 7#10, false, false⟩),
   (0x080000000000002B#64, .clr ⟨2#2, 2#2, 0#7, 0#3, 0#3, false, 0#5, 0#12, 0#13, 512#10, false, false⟩)]

theorem test_decode_tokens : (words_tokens.all fun p => (decodeToken p.1).toOption == some p.2) = true := by decide +kernel

/-- Epilogue words, written from R243. -/
def words_epilogue : List (W16 × Instr) :=
  [(0x0000#16, .epiNop),
   (0x1000#16, .epiLdc),
   (0x2ABC#16, .epiAddb 0xABC#12),
   (0x3001#16, .epiMuls 1#12),
   (0x4FFF#16, .epiAdda 0xFFF#12),
   (0x5300#16, .epiAct 3#4),
   (0x6010#16, .epiClamp 0x10#12),
   (0x7021#16, .epiCvt 0#1 2#2 1#4),
   (0x7042#16, .epiCvt 1#1 0#2 2#4),
   (0x8123#16, .epiBsc 0x123#12),
   (0x9002#16, .epiRowm 2#12),
   (0xA003#16, .epiRows 3#12),
   (0xB004#16, .epiSta 4#12),
   (0xC00F#16, .epiSto 15#4),
   (0xD000#16, .epiEnd)]

theorem test_decode_epilogue : (words_epilogue.all fun p => (decodeEpi p.1).toOption == some p.2) = true := by decide +kernel


/-! Worked examples of the spec, one step each. -/

/-- One step of a node on VALUE beats: the low n bits that it sends to port 0. -/
def out1 (n : Nat) (i : Instr) (l r p : Option Beat) : Option Nat := outN n i (st i l r p)

/-- 01, worked example: the running sum under IDENT, instants 0, 1 and 2. -/
theorem test_add_running_sum : out1 32 (.add { nd .i32 with pol := .ident }) (v 5) ab none = some 5 ∧ out1 32 (.add { nd .i32 with pol := .ident }) (v 7) (v 5) none = some 12 ∧
    out1 32 (.add { nd .i32 with pol := .ident }) ab (v 12) none = some 12 ∧ runs (.add (nd .i32)) (st (.add (nd .i32)) (v 5) ab none) (fun s => ((s.tile 0).node 0).fired && (((s.tile 0).out 0).q).isEmpty) = true := by decide +kernel
/-- R101. -/
theorem test_adds_i8 : out1 8 (.adds (nd .i8)) (v 100) (v 100) none = some 127 := by decide +kernel
theorem test_adds_n8 : out1 8 (.adds (nd .n8)) (v 200) (v 100) none = some 255 := by decide +kernel
theorem test_subs_n8 : out1 8 (.subs (nd .n8)) (v 3) (v 5) none = some 0 := by decide +kernel
/-- R104: 0x8001 is a negative subnormal. -/
theorem test_fclass : out1 16 (.fclass (nd .bf16)) (v 0x8001) none none = some 4 := by decide +kernel
/-- R51: 0x3F80_8000 lies halfway between 0x3F80 and 0x3F81. -/
theorem test_cvt_rne_rup : out1 16 (.cvt (nd .bf16)) (v 0x3F808000) none none = some 0x3F80 ∧ out1 16 (.cvt { nd .bf16 with mod := 2#4 }) (v 0x3F808000) none none = some 0x3F81 := by decide +kernel
/-- R65: i8 −1 gives n16 0, −5 gives n32 0, 100 gives n16 100. -/
theorem test_cvt_signed : out1 16 (.cvt { nd .n16 with aux := 11#8 }) (v 255) none none = some 0 ∧ out1 32 (.cvt { nd .n32 with aux := 11#8 }) (v 251) none none = some 0 ∧
    out1 16 (.cvt { nd .n16 with aux := 11#8 }) (v 100) none none = some 100 := by decide +kernel
/-- R109: 300 and −5 of i16. -/
theorem test_pack : out1 16 (.pack { nd .i8 with mod := 1#4 }) (v (300 + 65531 * 65536)) (v 0) none = some (127 + 251 * 256) ∧
    out1 16 (.pack { nd .i8 with mod := 0#4 }) (v (300 + 65531 * 65536)) (v 0) none = some (44 + 251 * 256) := by decide +kernel

/-! States that meet the hypotheses of the statements about nodes. -/

/-- A state in which node 0 of tile 0 can fire, with a property of the inputs it reads. -/
theorem meets_at (s : State) (n : Node) (P : Args → Prop) [DecidablePred P]
    (h : decide (s.cursor = .node 0 0 ∧ s.ready n 0 0 = true ∧ P ((s.tile 0).args n 0)) = true) : ∃ a, At s n 0 0 a ∧ P a :=
  let h' := of_decide_eq_true h
  ⟨_, ⟨h'.1, h'.2.1, rfl⟩, h'.2.2⟩

/-- The own state of node 0 in place of its first. -/
def withLoc (l : Local) (x : Tile) : Tile := x.setNode 0 { x.node 0 with loc := l }

abbrev two (x y : Payload) (a : Args) : Prop := a.l = .val x ∧ a.r = .val y ∧ a.p ≠ .absent
abbrev one (x : Payload) (a : Args) : Prop := a.l = .val x ∧ a.p ≠ .absent

theorem meets_IntegerBinaryLanes : ∃ a, At (st (.add (nd .i32)) (v 5) (v 7) (v 1)) (nd .i32) 0 0 a ∧ two 5#512 7#512 a := meets_at _ _ _ (by decide +kernel)
theorem meets_HighProductAndSaturation :
    (∃ a, At (st (.adds (nd .n8)) (v 200) (v 100) none) (nd .n8) 0 0 a ∧ two 200#512 100#512 a) ∧
    (∃ a, At (st (.mulh (nd .i64)) (v 3) (v 4) (v 1)) (nd .i64) 0 0 a ∧ two 3#512 4#512 a) := ⟨meets_at _ _ _ (by decide +kernel), meets_at _ _ _ (by decide +kernel)⟩
theorem meets_IntegerUnaryLanes : (nd .i16).ty.isInt = true ∧ ∃ a, At (st (.clz (nd .i16)) (v 0x00FF) none (v 1)) (nd .i16) 0 0 a ∧ one 0x00FF#512 a :=
  ⟨rfl, meets_at _ _ _ (by decide +kernel)⟩
theorem meets_CompareSelectMultiplyAdd :
    (∃ a, At (st (.cmp { nd .i32 with mod := 5#4 }) (v 5) (v 7) (v 1)) { nd .i32 with mod := 5#4 } 0 0 a ∧ two 5#512 7#512 a) ∧
    (∃ a, At (st (.sel (nd .f32)) (v 5) (v 7) (v 1)) (nd .f32) 0 0 a ∧ a.l = .val 5#512 ∧ a.r = .val 7#512 ∧ a.p = .val 1#512) ∧
    (∃ a, At (st (.mad (nd .i32)) (v 5) (v 7) (v 1)) (nd .i32) 0 0 a ∧ a.l = .val 5#512 ∧ a.r = .val 7#512 ∧ a.p = .val 1#512) :=
  ⟨meets_at _ _ _ (by decide +kernel), meets_at _ _ _ (by decide +kernel), meets_at _ _ _ (by decide +kernel)⟩
theorem meets_BitwiseNodes :
    (∃ a, At (st (.and (nd .n8)) (v 5) (v 7) (v 1)) (nd .n8) 0 0 a ∧ two 5#512 7#512 a) ∧
    (∃ a, At (st (.xor (nd .raw)) (v 5) (v 7) none) (nd .raw) 0 0 a ∧ a.l = .val 5#512 ∧ a.r = .val 7#512) ∧
    (∃ a, At (st (.not (nd .pred)) (v 5) none none) (nd .pred) 0 0 a ∧ a.l = .val 5#512) :=
  ⟨meets_at _ _ _ (by decide +kernel), meets_at _ _ _ (by decide +kernel), meets_at _ _ _ (by decide +kernel)⟩
/-- A node under each policy, with an ABSENT operand. -/
theorem meets_IntegerAbsencePolicies :
    (∃ a, At (st (.add (nd .i32)) (v 5) (v 7) ab) (nd .i32) 0 0 a ∧ a.p = .absent) ∧
    (∃ a, At (st (.add { nd .i32 with pol := .fault }) ab (v 7) none) { nd .i32 with pol := .fault } 0 0 a ∧ a.p ≠ .absent ∧ a.l = .absent) ∧
    (∃ a, At (st (.add (nd .i32)) (v 5) ab none) (nd .i32) 0 0 a ∧ a.r = .absent) ∧
    (∃ a, At (st (.add { nd .i32 with pol := .ident }) ab ab none) { nd .i32 with pol := .ident } 0 0 a ∧ a.l = .absent ∧ a.r = .absent) ∧
    (∃ a, At (st (.add { nd .i32 with pol := .ident }) ab (v 12) none) { nd .i32 with pol := .ident } 0 0 a ∧ a.p ≠ .absent ∧ a.l = .absent ∧ a.r = .val 12#512) ∧
    (∃ a, At (st (.sub { nd .i32 with pol := .ident }) (v 5) ab none) { nd .i32 with pol := .ident } 0 0 a ∧ a.p ≠ .absent ∧ a.l = .val 5#512 ∧ a.r = .absent) :=
  ⟨meets_at _ _ _ (by decide +kernel), meets_at _ _ _ (by decide +kernel), meets_at _ _ _ (by decide +kernel), meets_at _ _ _ (by decide +kernel),
    meets_at _ _ _ (by decide +kernel), meets_at _ _ _ (by decide +kernel)⟩
theorem meets_FloatBinaryLanes : (nd .bf16).ty.isFloat = true ∧ ∃ a, At (st (.fadd (nd .bf16)) (v 0x3F80) (v 0x4000) none) (nd .bf16) 0 0 a ∧ two 0x3F80#512 0x4000#512 a :=
  ⟨rfl, meets_at _ _ _ (by decide +kernel)⟩
theorem meets_FloatUnaryLanes : (nd .f32).ty.isFloat = true ∧ ∃ a, At (st (.frcp (nd .f32)) (v 0x40000000) none (v 1)) (nd .f32) 0 0 a ∧ one 0x40000000#512 a :=
  ⟨rfl, meets_at _ _ _ (by decide +kernel)⟩
theorem meets_FloatFusedCompareClass :
    (∃ a, At (st (.ffma (nd .f32)) (v 5) (v 7) (v 1)) (nd .f32) 0 0 a ∧ a.l = .val 5#512 ∧ a.r = .val 7#512 ∧ a.p = .val 1#512) ∧
    (∃ a, At (st (.ffma { nd .f32 with pol := .ident }) (v 5) (v 7) ab) { nd .f32 with pol := .ident } 0 0 a ∧ a.l = .val 5#512 ∧ a.r = .val 7#512 ∧ a.p = .absent) ∧
    (∃ a, At (st (.fcmp { nd .f32 with mod := 3#4 }) (v 0x7FC00000) (v 7) none) { nd .f32 with mod := 3#4 } 0 0 a ∧ two 0x7FC00000#512 7#512 a) ∧
    (∃ a, At (st (.fclass (nd .bf16)) (v 0x8001) none none) (nd .bf16) 0 0 a ∧ one 0x8001#512 a) :=
  ⟨meets_at _ _ _ (by decide +kernel), meets_at _ _ _ (by decide +kernel), meets_at _ _ _ (by decide +kernel), meets_at _ _ _ (by decide +kernel)⟩
theorem meets_ElementarySpecialValues : (2 ^ (7 + 8) < 0xBF80 ∧ 0xBF80 ≤ 2 ^ (7 + 8) + 255 * 2 ^ 7) ∧ isNanBits 7 0x7FC0 = true := by decide
theorem meets_FloatValuesRoundToThemselves : 0x3F80 < 2 ^ (7 + 9) ∧ isNanBits 7 0x3F80 = false ∧ isNanBits 7 0xFFFF = true := by decide
theorem meets_ConversionParts :
    (∃ a, At (st (.cvt { nd .f32 with aux := 17#8 }) (v 5) none none) { nd .f32 with aux := 17#8 } 0 0 a ∧ a.l = .val 5#512 ∧ a.r ≠ .absent ∧ a.p = .off) ∧
    (∃ a, At (st (.cvt { nd .bf16 with aux := 16#8 }) (v 5) (v 7) none) { nd .bf16 with aux := 16#8 } 0 0 a ∧ a.l = .val 5#512 ∧ a.r = .val 7#512 ∧ a.p = .off) ∧
    Ty.ofCode (17#8 % 16).toNat = some .bf16 ∧ bitAt 17#8 7 = false ∧ 17 / 16 % 8 < cvtParts .bf16 .f32 ∧ 16 / 16 % 8 < cvtParts .f32 .bf16 :=
  ⟨meets_at _ _ _ (by decide +kernel), meets_at _ _ _ (by decide +kernel), by decide +kernel⟩
/-- A decode of of8, an encode with one beat of two collected and with all but one, a re-encode of of4 as of8. -/
theorem meets_BlockConversions :
    (∃ a, At (st (.cvt { nd .bf16 with aux := 2#8 }) (v 5) (v 7) (v 1)) { nd .bf16 with aux := 2#8 } 0 0 a ∧ a.l = .val 5#512 ∧ a.r ≠ .absent ∧ a.p ≠ .absent) ∧
    (∃ a, At (st (.cvt { nd .of8 with aux := 129#8 }) (v 5) none none) { nd .of8 with aux := 129#8 } 0 0 a ∧ a.l = .val 5#512) ∧
    collectedBeats (((st (.cvt { nd .of8 with aux := 129#8 }) (v 5) none none).tile 0).node 0).loc = [] ∧ 0 + 1 < 128 / Ty.bf16.elems ∧
    (∃ a, At (stT (.bscale { nd .of4 with aux := 1#8 }) (v 5) none none (withLoc (.collect [1#512, 2#512, 3#512]))) { nd .of4 with aux := 1#8 } 0 0 a ∧ a.l = .val 5#512) ∧
    (collectedBeats (((stT (.bscale { nd .of4 with aux := 1#8 }) (v 5) none none (withLoc (.collect [1#512, 2#512, 3#512]))).tile 0).node 0).loc).length + 1 = 128 / Ty.bf16.elems ∧
    (∃ a, At (st (.cvt { nd .of8 with aux := 131#8 }) (v 5) none (v 1)) { nd .of8 with aux := 131#8 } 0 0 a ∧ a.l.isAbsent = false ∧ a.r.isAbsent = false ∧ a.p.isAbsent = false) :=
  ⟨meets_at _ _ _ (by decide +kernel), meets_at _ _ _ (by decide +kernel), by decide +kernel, by decide, meets_at _ _ _ (by decide +kernel), by decide +kernel, meets_at _ _ _ (by decide +kernel)⟩
theorem meets_PackAndUnpack :
    (∃ a, At (st (.pack { nd .i8 with mod := 1#4 }) (v 300) (v 7) none) { nd .i8 with mod := 1#4 } 0 0 a ∧ a.l = .val 300#512 ∧ a.r = .val 7#512) ∧
    (∃ a, At (st (.unpack { nd .i8 with aux := 128#8 }) (v 5) none none) { nd .i8 with aux := 128#8 } 0 0 a ∧ a.l = .val 5#512) ∧ Ty.i8.isInt = true ∧ Ty.i8.bits ≤ 32 :=
  ⟨meets_at _ _ _ (by decide +kernel), meets_at _ _ _ (by decide +kernel), by decide⟩
theorem meets_LaneNodes : (∃ a, At (st (.lred (nd .f32)) (v 5) none none) (nd .f32) 0 0 a ∧ a.l = .val 5#512) ∧
    (∃ a, At (st (.lbcast { nd .n8 with imm := 63#16 }) (v 5) none none) { nd .n8 with imm := 63#16 } 0 0 a ∧ a.l = .val 5#512) ∧ 1 < Ty.f32.elems ∧ (63#16).toNat < Ty.n8.elems :=
  ⟨meets_at _ _ _ (by decide +kernel), meets_at _ _ _ (by decide +kernel), by decide⟩
/-- The first group fills; a group of two releases. -/
theorem meets_ReorderGroups :
    (∃ a, At (st (.reord { nd .f32 with mod := 1#4, aux := 2#8 }) (v 5) none none) { nd .f32 with mod := 1#4, aux := 2#8 } 0 0 a ∧ a.l = .val 5#512) ∧
    (∃ a, At (stT (.reord { nd .f32 with mod := 1#4, aux := 2#8 }) (v 5) none none (withLoc (.reord [Beat.val 1#512] [Beat.val 2#512, Beat.val 3#512])))
      { nd .f32 with mod := 1#4, aux := 2#8 } 0 0 a ∧ a.l = .val 5#512) ∧
    reorderGroups (((stT (.reord { nd .f32 with mod := 1#4, aux := 2#8 }) (v 5) none none (withLoc (.reord [Beat.val 1#512] [Beat.val 2#512, Beat.val 3#512]))).tile 0).node 0).loc =
      ([Beat.val 1#512], [Beat.val 2#512, Beat.val 3#512]) :=
  ⟨meets_at _ _ _ (by decide +kernel), meets_at _ _ _ (by decide +kernel), by decide +kernel⟩

/-- A block of node words with the beats in the slots of each node, on tile 0 of `st`'s region, the cursor at node 0. -/
def stN (ns : List (Instr × Option Beat × Option Beat × Option Beat)) (f : Tile → Tile) : State :=
  let ws := ns.flatMap fun i => nodeOf i.1
  stT (.mov (nd .raw)) none none none fun x =>
    f { x with words := ws, nodes := ns.map fun i => { NodeSt.fresh with l := i.2.1, r := i.2.2.1, p := i.2.2.2 } }

/-- A region-holding state in which node 0 of tile 0 of a context with memory can fire: addresses 0 to 2^36 map to themselves (R327, R328), in partition 0's memory (R374). -/
def stM (i : Instr) (l r p : Option Beat) : State :=
  let s := st i l r p
  { s with
    mem := Memory.writeN [] 0x10000 [7#8]
    parts := [(0, { Part.fresh with tdisp := .run, pmem := [(0, { Pmem.fresh with v := true, base := 0, count := 64 })] })]
    ctxs := [(0, Ctx.control), (1, { Ctx.fresh with relaxed := true, state := 2, ptv := true, ptroot := 0x10000 })] }

/-- The context under DET. -/
def det (s : State) : State := s.setCtx 1 { s.ctx 1 with relaxed := false }

/-- The beat of 04's worked example of rows: a ROWBUF of four beats, its row complete, feeds the ROWSCL. -/
def rowSt : State :=
  stN [(.rowscl { nd .f32 with mod := 3#4 }, v 5, none, none), (.rowbuf ⟨.f32, 0#4, .none, .none, 4#16, .prop, false, 0#8, none⟩, v 7, none, none), (.mov { nd .f32 with a := .slot .l 0 }, v 5, none, none)]
    fun x => x.setNode 1 { x.node 1 with fired := true, loc := .rowbuf 1 0 }
theorem meets_RowNodes :
    (∃ a, At (st (.rowbuf { nd .f32 with imm := 4#16 }) (v 5) none none) { nd .f32 with imm := 4#16 } 0 0 a ∧ a.l = .val 5#512) ∧
    (∃ a, At (stT (.rowstat { nd .f32 with imm := 4#16 }) (v 5) none none (withLoc (.rowstat 3 7))) { nd .f32 with imm := 4#16 } 0 0 a ∧ a.l = .val 5#512) ∧
    rowCount (((stT (.rowstat { nd .f32 with imm := 4#16 }) (v 5) none none (withLoc (.rowstat 3 7))).tile 0).node 0).loc = (3, 7) ∧
    (∃ a, At rowSt { nd .f32 with mod := 3#4 } 0 0 a ∧ a.l = .val 5#512) ∧
    rowbufOf (rowSt.tile 0).words 0 = some (1, ⟨.f32, 0#4, .none, .none, 4#16, .prop, false, 0#8, none⟩) ∧ ((rowSt.tile 0).node 1).fired = true ∧
    rowState ((rowSt.tile 0).node 1).loc = (1, 0) :=
  ⟨meets_at _ _ _ (by decide +kernel), meets_at _ _ _ (by decide +kernel), by decide +kernel, meets_at _ _ _ (by decide +kernel), by decide +kernel, by decide +kernel, by decide +kernel⟩

/-- Input port 0 of tile 0. -/
def port (p : InPort) (x : Tile) : Tile := x.setIn 0 p
theorem meets_MoveNodes :
    (∃ a, At (stT (.inp (nd .i32)) none none none (port { InPort.fresh with bind := .channel, buf := [Beat.val 5#512] })) (nd .i32) 0 0 a ∧ a.l = .off) ∧
    (let p := (((stT (.inp (nd .i32)) none none none (port { InPort.fresh with bind := .channel, buf := [Beat.val 5#512] })).tile 0).inPort 0)
     p.sampled = false ∧ p.bind = .channel ∧ p.buf = [Beat.val 5#512]) ∧
    (∃ a, At (stT (.inp (nd .i32)) none none none (port { InPort.fresh with sampled := true, latched := v 5 })) (nd .i32) 0 0 a ∧ a.l = .off) ∧
    (∃ a, At (stT (.inp (nd .i32)) none none none (port { InPort.fresh with arrived := [(0, Beat.none)] })) (nd .i32) 0 0 a ∧ a.l = .off) ∧
    (∃ a, At (st (.mov (nd .raw)) (v 5) none none) (nd .raw) 0 0 a ∧ a.l = .val 5#512) ∧
    (∃ a, At (st (.lanei { nd .n8 with imm := 255#16 }) none none none) { nd .n8 with imm := 255#16 } 0 0 a ∧ a.l = .off) ∧ widenImm .n8 255#16 none = some 255 ∧
    (∃ a, At (stT (.bufrd { nd .raw with imm := 15#16, aux := 1#8 }) none none none fun x => { x with hdr := { Hdr.zero with abuf := 1 } }) { nd .raw with imm := 15#16, aux := 1#8 } 0 0 a ∧ a.l = .off) ∧
    (15#16).toNat * 64 + 64 ≤ ((stT (.bufrd { nd .raw with imm := 15#16, aux := 1#8 }) none none none fun x => { x with hdr := { Hdr.zero with abuf := 1 } }).tile 0).bufSize 1 :=
  ⟨meets_at _ _ _ (by decide +kernel), by decide +kernel, meets_at _ _ _ (by decide +kernel), meets_at _ _ _ (by decide +kernel), meets_at _ _ _ (by decide +kernel),
    meets_at _ _ _ (by decide +kernel), by decide +kernel, meets_at _ _ _ (by decide +kernel), by decide +kernel⟩
/-- A port of a legend entry without a beat, a port without an entry, and a BUFRD of an uncorrectable beat. -/
theorem meets_MoveNodes_other :
    (∃ a, At (stT (.inp (nd .i32)) none none none (port { InPort.fresh with bind := .channel })) (nd .i32) 0 0 a ∧ a.l = .off) ∧
    (let x := (stT (.inp (nd .i32)) none none none (port { InPort.fresh with bind := .channel })).tile 0
     x.bound 0 = true ∧ (x.inPort 0).sampled = false ∧ (x.inPort 0).bind = .channel ∧ (x.inPort 0).buf = []) ∧
    (∃ a, At (st (.inp (nd .i32)) none none none) (nd .i32) 0 0 a ∧ a.l = .off) ∧ ((st (.inp (nd .i32)) none none none).tile 0).bound 0 = false ∧
    (∃ a, At (stT (.bufrd { nd .raw with aux := 1#8 }) none none none fun x => { x with hdr := { Hdr.zero with abuf := 1 }, spoilt := [(1, 0)] }) { nd .raw with aux := 1#8 } 0 0 a ∧ a.l = .off) ∧
    (let x := (stT (.bufrd { nd .raw with aux := 1#8 }) none none none fun x => { x with hdr := { Hdr.zero with abuf := 1 }, spoilt := [(1, 0)] }).tile 0
     64 ≤ x.bufSize 1 ∧ x.isSpoilt 1 0 64 = true) :=
  ⟨meets_at _ _ _ (by decide +kernel), by decide +kernel, meets_at _ _ _ (by decide +kernel), by decide +kernel, meets_at _ _ _ (by decide +kernel), by decide +kernel⟩
theorem meets_TileWritesWaitForInstantEnd :
    (∃ a, At (st (.sxst { nd .raw with aux := 7#8 }) (v 5) none none) { nd .raw with aux := 7#8 } 0 0 a ∧ a.l = .val 5#512) ∧
    (∃ a, At (stT (.bufwr { nd .raw with imm := 14#16, aux := 1#8 }) (v 5) (v 1) none fun x => { x with hdr := { Hdr.zero with abuf := 1 } }) { nd .raw with imm := 14#16, aux := 1#8 } 0 0 a ∧ a.l = .val 5#512 ∧ a.r = .val 1#512) ∧
    ((14#16).toNat + lane32 1#512 0) * 64 + 64 ≤ ((stT (.bufwr { nd .raw with imm := 14#16, aux := 1#8 }) (v 5) (v 1) none fun x => { x with hdr := { Hdr.zero with abuf := 1 } }).tile 0).bufSize 1 :=
  ⟨meets_at _ _ _ (by decide +kernel), meets_at _ _ _ (by decide +kernel), by decide +kernel⟩
theorem meets_BufferRangeFaults :
    (∃ a, At (stT (.bufrd { nd .raw with imm := 63#16, aux := 1#8 }) (v 1) none none fun x => { x with hdr := { Hdr.zero with abuf := 1 } }) { nd .raw with imm := 63#16, aux := 1#8 } 0 0 a ∧ a.l = .val 1#512) ∧
    ((stT (.bufrd { nd .raw with imm := 63#16, aux := 1#8 }) (v 1) none none fun x => { x with hdr := { Hdr.zero with abuf := 1 } }).tile 0).bufSize 1 < (63 + lane32 1#512 0) * 64 + 64 ∧
    (∃ a, At (st (.bufwr { nd .raw with aux := 1#8 }) (v 1) none none) { nd .raw with aux := 1#8 } 0 0 a ∧ a.l = .val 1#512 ∧ a.r = .off) ∧
    ((st (.bufwr { nd .raw with aux := 1#8 }) (v 1) none none).tile 0).bufSize 1 < 0 * 64 + 64 :=
  ⟨meets_at _ _ _ (by decide +kernel), by decide +kernel, meets_at _ _ _ (by decide +kernel), by decide +kernel⟩
theorem meets_SteerAndGate :
    (∃ a, At (st (.steer { nd .i32 with mod := 2#4 }) (v 5) none (v 0xFFFF)) { nd .i32 with mod := 2#4 } 0 0 a ∧ a.l = .val 5#512 ∧ a.p = .val 0xFFFF#512) ∧
    (∃ a, At (st (.gate (nd .i32)) (v 5) none ab) (nd .i32) 0 0 a ∧ (a.l = .absent ∨ a.p = .absent)) :=
  ⟨meets_at _ _ _ (by decide +kernel), meets_at _ _ _ (by decide +kernel)⟩
theorem meets_MergeAndPresence :
    (∃ a, At (st (.merge (nd .i32)) ab (v 5) none) (nd .i32) 0 0 a ∧ a.presents = [5#512]) ∧
    (∃ a, At (st (.merge (nd .i32)) ab ab none) (nd .i32) 0 0 a ∧ a.presents = []) ∧
    (∃ a, At (st (.merge { nd .i32 with mod := 1#4 }) (v 5) (v 7) none) { nd .i32 with mod := 1#4 } 0 0 a ∧ a.presents = [5#512, 7#512]) ∧
    (∃ a, At (st (.dflt (nd .i32)) ab (v 5) none) (nd .i32) 0 0 a ∧ a.l = .absent ∧ a.r = .val 5#512) ∧
    (∃ a, At (st (.pres (nd .pred)) (v 5) none none) (nd .pred) 0 0 a ∧ a.l = .val 5#512) :=
  ⟨meets_at _ _ _ (by decide +kernel), meets_at _ _ _ (by decide +kernel), meets_at _ _ _ (by decide +kernel), meets_at _ _ _ (by decide +kernel), meets_at _ _ _ (by decide +kernel)⟩
/-- MERGEA with R resolved first; ORP with one true, with all false. -/
def early (i : Instr) (l r : Option Beat) : State :=
  stN [(i, l, r, none), (.mov { nd .raw with a := .slot .l 0 }, v 1, none, none), (.mov { nd .raw with a := .slot .r 0 }, v 1, none, none)] id
theorem meets_EarlyFiringNodes :
    let ok (s : State) (n : Node) : Prop := s.cursor = .node 0 0 ∧ s.mayFire 0 0 = true ∧ (nodeTargets n).all (Tile.targetRoom s (s.tile 0)) = true
    (ok (early (.mergea (nd .i32)) none (v 5)) (nd .i32) ∧ (((early (.mergea (nd .i32)) none (v 5)).tile 0).args (nd .i32) 0).presents = [5#512]) ∧
    (ok (early (.mergea (nd .i32)) none ab) (nd .i32) ∧ ((early (.mergea (nd .i32)) none ab).tile 0).resolved 0 = false ∧
      (((early (.mergea (nd .i32)) none ab).tile 0).args (nd .i32) 0).presents = []) ∧
    (ok (early (.orp (nd .pred)) none (v 1)) (nd .pred) ∧ (((early (.orp (nd .pred)) none (v 1)).tile 0).args (nd .pred) 0).presents = [1#512]) ∧
    (ok (early (.orp (nd .pred)) (v 0) ab) (nd .pred) ∧ ((early (.orp (nd .pred)) (v 0) ab).tile 0).resolved 0 = true ∧
      (((early (.orp (nd .pred)) (v 0) ab).tile 0).args (nd .pred) 0).presents = [0#512]) := by decide +kernel
theorem meets_CarryHoldsLastBeat :
    (∃ a, At (st (.carry (nd .i32)) (v 5) none none) (nd .i32) 0 0 a ∧ a.l = .val 5#512) ∧
    (∃ a, At (stT (.carry (nd .i32)) ab none (v 0) (withLoc (.carry (Beat.val 7#512)))) (nd .i32) 0 0 a ∧ a.l = .absent ∧ a.p = .val 0#512) ∧
    (∃ a, At (stT (.carry (nd .i32)) ab none (v 1) (withLoc (.carry (Beat.val 7#512)))) (nd .i32) 0 0 a ∧ a.l = .absent ∧ a.p = .val 1#512) :=
  ⟨meets_at _ _ _ (by decide +kernel), meets_at _ _ _ (by decide +kernel), meets_at _ _ _ (by decide +kernel)⟩
theorem meets_LoopCounters :
    (∃ a, At (stT (.nest { nd .n32 with imm := 2#16 }) (v 5) none none fun x => { x with lc := [(0, 2)] }) { nd .n32 with imm := 2#16 } 0 0 a ∧ a.l = .val 5#512) ∧
    (∃ a, At (st (.nest { nd .n32 with imm := 2#16 }) ab none none) { nd .n32 with imm := 2#16 } 0 0 a ∧ a.l = .absent) :=
  ⟨meets_at _ _ _ (by decide +kernel), meets_at _ _ _ (by decide +kernel)⟩
theorem meets_CountersAndIdentities : ∃ a, At (st (.tileid (nd .n32)) none none none) (nd .n32) 0 0 a ∧ a.l = .off := meets_at _ _ _ (by decide +kernel)
theorem meets_RoundsEnd :
    (∃ a, At (st (.endk (nd .n32)) (v 5) none none) (nd .n32) 0 0 a ∧ a.l = .val 5#512) ∧ (∃ a, At (st (.merid (nd .n32)) ab none none) (nd .n32) 0 0 a ∧ a.l = .absent) :=
  ⟨meets_at _ _ _ (by decide +kernel), meets_at _ _ _ (by decide +kernel)⟩
/-- RESIZE of the port that node 1 feeds, before and after it has fired. -/
def resizeSt (f : Bool) : State :=
  stN [(.resize { nd .n32 with a := .out 1, aux := 2#8 }, v 40, none, none), (.mov { nd .n32 with a := .out 2 }, v 1, none, none), (.mov { nd .n32 with a := .slot .l 0 }, v 40, none, none)]
    fun x => x.setNode 1 { x.node 1 with fired := f }
theorem meets_MarksAndDepthRequests :
    (∃ a, At (resizeSt true) { nd .n32 with a := .out 1, aux := 2#8 } 0 0 a ∧ a.l = .val 40#512) ∧ (∃ a, At (resizeSt false) { nd .n32 with a := .out 1, aux := 2#8 } 0 0 a ∧ a.l = .val 40#512) ∧
    lane32 40#512 0 ≠ 0 ∧ producerOf ((resizeSt true).tile 0).words (3 * 128 + 2) = some 1 ∧ ((resizeSt true).tile 0 |>.node 1).fired = true ∧ ((resizeSt false).tile 0 |>.node 1).fired = false ∧
    (∃ a, At (st (.rmark (nd .n32)) (v 0) none none) (nd .n32) 0 0 a ∧ a.l = .val 0#512) ∧
    (∃ a, At (st (.resize { nd .n32 with a := .out 1, aux := 2#8 }) (v 40) none none) { nd .n32 with a := .out 1, aux := 2#8 } 0 0 a ∧ a.l = .val 40#512) ∧
    producerOf ((st (.resize { nd .n32 with a := .out 1, aux := 2#8 }) (v 40) none none).tile 0).words (3 * 128 + 2) = none :=
  ⟨meets_at _ _ _ (by decide +kernel), meets_at _ _ _ (by decide +kernel), by decide +kernel, by decide +kernel, by decide +kernel, by decide +kernel, meets_at _ _ _ (by decide +kernel),
    meets_at _ _ _ (by decide +kernel), by decide +kernel⟩
theorem meets_SemaphoreWrites :
    (∃ a, At (st (.semsig { nd .n32 with imm := 3#16, aux := 9#8 }) (v 5) none none) { nd .n32 with imm := 3#16, aux := 9#8 } 0 0 a ∧ a.l = .val 5#512) ∧
    semOps ((st (.semsig { nd .n32 with imm := 3#16, aux := 9#8 }) (v 5) none none).tile 0).words 9 = [(0, .semsig, { nd .n32 with imm := 3#16, aux := 9#8 })] ∧
    (∃ a, At (st (.semset { nd .n32 with aux := 9#8 }) (v 5) (v 7) none) { nd .n32 with aux := 9#8 } 0 0 a ∧ a.l = .val 5#512 ∧ a.r = .val 7#512) ∧
    semOps ((st (.semset { nd .n32 with aux := 9#8 }) (v 5) (v 7) none).tile 0).words 9 = [(0, .semset, { nd .n32 with aux := 9#8 })] :=
  ⟨meets_at _ _ _ (by decide +kernel), by decide +kernel, meets_at _ _ _ (by decide +kernel), by decide +kernel⟩
/-- SEMSIG at 0 and SEMSET at 1 of one semaphore; the cursor at k, the other node fired or not. -/
def semPair (k : Nat) (f : Bool) : State :=
  let s := stN [(.semsig { nd .n32 with imm := 3#16, aux := 9#8 }, v 5, none, none), (.semset { nd .n32 with a := .out 1, aux := 9#8 }, v 5, v 7, none),
    (.mov { nd .n32 with a := .slot .l 0 }, none, none, none), (.mov { nd .n32 with a := .slot .l 1 }, none, none, none), (.mov { nd .n32 with a := .slot .r 1 }, none, none, none)]
    fun x => x.setNode (1 - k) { x.node (1 - k) with fired := f }
  { s with cursor := .node 0 k }
/-- The SEMSET fires first, below it an unfired SEMSIG; then the SEMSIG, above it the fired SEMSET. -/
theorem meets_SemaphoreWrites_order :
    ((semPair 1 false).cursor = .node 0 1 ∧ (semPair 1 false).ready { nd .n32 with a := .out 1, aux := 9#8 } 0 1 = true ∧
      (((semPair 1 false).tile 0).args { nd .n32 with a := .out 1, aux := 9#8 } 1).l = .val 5#512 ∧ (((semPair 1 false).tile 0).args { nd .n32 with a := .out 1, aux := 9#8 } 1).r = .val 7#512 ∧
      (∃ p ∈ semOps ((semPair 1 false).tile 0).words 9, p.1 < 1 ∧ (((semPair 1 false).tile 0).node p.1).fired = false)) ∧
    ((∃ a, At (semPair 0 true) { nd .n32 with imm := 3#16, aux := 9#8 } 0 0 a ∧ a.l = .val 5#512) ∧
      semOps ((semPair 0 true).tile 0).words 9 = [(0, .semsig, { nd .n32 with imm := 3#16, aux := 9#8 }), (1, .semset, { nd .n32 with a := .out 1, aux := 9#8 })] ∧
      (((semPair 0 true).tile 0).node 1).fired = true ∧
      (((semPair 0 true).tile 0).args { nd .n32 with a := .out 1, aux := 9#8 } 1).l = .val 5#512 ∧ (((semPair 0 true).tile 0).args { nd .n32 with a := .out 1, aux := 9#8 } 1).r = .val 7#512) :=
  ⟨by decide +kernel, meets_at _ _ _ (by decide +kernel), by decide +kernel, by decide +kernel, by decide +kernel, by decide +kernel⟩
/-- R134: the SEMSIG that fires last still stands before the SEMSET above it. -/
theorem test_semsig_below_fired_semset : runs (.semsig { nd .n32 with imm := 3#16, aux := 9#8 }) (semPair 0 true) (fun s => ((s.ctx 1).sem 9).value == 7) = true := by decide +kernel
/-- A semaphore one below its end, and one that has passed it. -/
def semSt (value : Nat) (sticky : Bool) : State := State.reset.setCtx 1 { Ctx.fresh with sems := [(0, { Sem.fresh with value := value, sticky := sticky })] }
theorem meets_SemaphoreOverflowRecords :
    (((semSt 4294967294 false).ctx 1).sem 0).value + 1 < 2 ^ 32 ∧ (((semSt 4294967295 true).ctx 1).sem 0).sticky = true ∧
    2 ^ 32 ≤ (((semSt 4294967295 false).ctx 1).sem 0).value + 1 ∧ (((semSt 4294967295 false).ctx 1).sem 0).sticky = false := by decide +kernel
theorem meets_SemaphoreReads :
    (∃ a, At (stT (.semwait { nd .raw with imm := 3#16, aux := 9#8 }) (v 5) none none fun x => { x with sems := [(9, { Sem.fresh with value := 3 })] }) { nd .raw with imm := 3#16, aux := 9#8 } 0 0 a ∧ a.l = .val 5#512) ∧
    3 ≤ (tget Sem.fresh ((stT (.semwait { nd .raw with imm := 3#16, aux := 9#8 }) (v 5) none none fun x => { x with sems := [(9, { Sem.fresh with value := 3 })] }).tile 0).sems 9).value ∧
    (∃ a, At (st (.semwait { nd .raw with imm := 3#16, aux := 9#8 }) (v 5) none none) { nd .raw with imm := 3#16, aux := 9#8 } 0 0 a ∧ a.l = .val 5#512) ∧
    (tget Sem.fresh ((st (.semwait { nd .raw with imm := 3#16, aux := 9#8 }) (v 5) none none).tile 0).sems 9).value < 3 :=
  ⟨meets_at _ _ _ (by decide +kernel), by decide +kernel, meets_at _ _ _ (by decide +kernel), by decide +kernel⟩
theorem meets_SemaphoreTriggers :
    (∃ a, At (st (.semrd { nd .n32 with pol := .fault }) ab none none) { nd .n32 with pol := .fault } 0 0 a ∧ a.l = .absent) ∧
    (∃ a, At (st (.semset (nd .n32)) (v 5) ab none) (nd .n32) 0 0 a ∧ a.l = .val 5#512 ∧ a.r = .absent) ∧
    (let s := stN [(.semsig { nd .n32 with imm := 1#16 }, v 5, none, none), (.mov { nd .raw with a := .slot .p 0 }, v 1, none, none)] id
     s.cursor = .node 0 0 ∧ (s.tile 0).resolved 0 = false) ∧
    (∃ a, At (st (.semsig { nd .n32 with imm := 1#16 }) (v 5) none ab) { nd .n32 with imm := 1#16 } 0 0 a ∧ a.l = .val 5#512 ∧ a.p = .absent) :=
  ⟨meets_at _ _ _ (by decide +kernel), meets_at _ _ _ (by decide +kernel), by decide +kernel, meets_at _ _ _ (by decide +kernel)⟩

theorem meets_DoneTokensJoinAndFence :
    (∃ a, At (st (.djoin (nd .raw)) (v 3) (v 1) none) (nd .raw) 0 0 a ∧ a.l = .val 3#512) ∧
    ((st (.djoin (nd .raw)) (v 3) (v 1) none).tile 0).presentBeats 0 = [Beat.val 3#512, Beat.val 1#512] ∧
    (∃ a, At (st (.djoin (nd .raw)) ab none none) (nd .raw) 0 0 a ∧ a.l = .absent) ∧ ((st (.djoin (nd .raw)) ab none none).tile 0).presentBeats 0 = [] ∧
    (∃ a, At (st (.fence { nd .raw with mod := 2#4 }) (v 1) none none) { nd .raw with mod := 2#4 } 0 0 a ∧ a.l = .val 1#512) ∧
    ((st (.fence { nd .raw with mod := 2#4 }) (v 1) none none).tile 0).nodes.any (NodeSt.holds 0) = false ∧
    ((st (.fence { nd .raw with mod := 2#4 }) (v 1) none none).region 0).entries = [] ∧
    (let s := stT (.fence { nd .raw with mod := 2#4 }) (v 1) none none fun x => { x with inst := 1 }
     let s := s.setRegion 0 { s.region 0 with entries := [{ (default : RbEntry) with canon := 0, inst := 0 }] }
     (∃ a, At s { nd .raw with mod := 2#4 } 0 0 a ∧ a.l = .val 1#512) ∧ ∃ e ∈ (s.region (s.tile 0).region).entries, e.canon = (s.tile 0).canon ∧ e.inst < (s.tile 0).inst) :=
  ⟨meets_at _ _ _ (by decide +kernel), by decide +kernel, meets_at _ _ _ (by decide +kernel), by decide +kernel, meets_at _ _ _ (by decide +kernel), by decide +kernel, by decide +kernel,
    meets_at _ _ _ (by decide +kernel), by decide +kernel⟩
theorem meets_TrapsAndBreakpoints :
    (∃ a, At (st (.trap { nd .raw with imm := 77#16 }) (v 5) none none) { nd .raw with imm := 77#16 } 0 0 a ∧ a.l = .val 5#512) ∧
    (∃ a, At (st (.brk (nd .raw)) (v 5) none none) (nd .raw) 0 0 a ∧ a.l = .val 5#512) ∧ ((st (.brk (nd .raw)) (v 5) none none).tile 0).dbg = false ∧
    (∃ a, At (stT (.brk (nd .raw)) (v 5) none none fun x => { x with dbg := true }) (nd .raw) 0 0 a ∧ a.l = .val 5#512) ∧
    ((stT (.brk (nd .raw)) (v 5) none none fun x => { x with dbg := true }).tile 0).dbg = true :=
  ⟨meets_at _ _ _ (by decide +kernel), meets_at _ _ _ (by decide +kernel), by decide +kernel, meets_at _ _ _ (by decide +kernel), by decide +kernel⟩
/-- A circular buffer of two slots, one filled. -/
def cbSt (i : Instr) (c : CBuf) : State := stT i (v 5) none none fun x => { x with cbufs := [c] }
def cb2 : CBuf := { CBuf.fresh with valid := true, slots := 2, filled := 1, free := 1, wc := 1 }
theorem meets_CircularBufferNodes :
    (∃ a, At (cbSt (.bfillAcqw (nd .n32)) cb2) (nd .n32) 0 0 a ∧ a.l = .val 5#512) ∧ cbTurn ((cbSt (.bfillAcqw (nd .n32)) cb2).tile 0) 0 0 = true ∧
    (((cbSt (.bfillAcqw (nd .n32)) cb2).tile 0).cb 0).free ≠ 0 ∧ (((cbSt (.bfillAcqw (nd .n32)) cb2).tile 0).cb 0).filled ≠ 0 ∧
    (∃ a, At (cbSt (.bfillPub { nd .n32 with mod := 1#4 }) { cb2 with acqW := [0] }) { nd .n32 with mod := 1#4 } 0 0 a ∧ a.l = .val 5#512) ∧
    (((cbSt (.bfillPub { nd .n32 with mod := 1#4 }) { cb2 with acqW := [0] }).tile 0).cb 0).acqW = [0] ∧
    (∃ a, At (cbSt (.bfreeRel { nd .n32 with mod := 1#4 }) { cb2 with acqR := [0] }) { nd .n32 with mod := 1#4 } 0 0 a ∧ a.l = .val 5#512) ∧
    (((cbSt (.bfreeRel { nd .n32 with mod := 1#4 }) { cb2 with acqR := [0] }).tile 0).cb 0).acqR = [0] ∧
    (∃ a, At (cbSt (.bfillAcqw (nd .n32)) { cb2 with free := 0, filled := 0 }) (nd .n32) 0 0 a ∧ a.l = .val 5#512) ∧
    (((cbSt (.bfillAcqw (nd .n32)) { cb2 with free := 0, filled := 0 }).tile 0).cb 0).free = 0 :=
  ⟨meets_at _ _ _ (by decide +kernel), by decide +kernel, by decide +kernel, by decide +kernel, meets_at _ _ _ (by decide +kernel), by decide +kernel, meets_at _ _ _ (by decide +kernel), by decide +kernel,
    meets_at _ _ _ (by decide +kernel), by decide +kernel⟩

/-- Whether accesses reach pieces. -/
def reaches (s : State) (write : Bool) (accs : List Acc) (n : Nat) : Bool := match s.elemReachAll 0 write accs with | .ok rs => rs.length == n | _ => false
/-- Whether one access reaches one piece, with a property of it. -/
def reaches1 (s : State) (write : Bool) (acc : Acc) (p : Piece → Bool) : Bool := match s.elemReachAll 0 write [acc] with | .ok [(c, [q])] => c == acc && p q | _ => false
theorem meets_reaches {s : State} {w : Bool} {accs : List Acc} {n : Nat} (h : reaches s w accs n = true) : ∃ rs, s.elemReachAll 0 w accs = .ok rs ∧ rs.length = n := by
  unfold reaches at h; split at h
  · exact ⟨_, ‹_›, by simpa using h⟩
  · cases h
theorem meets_reaches1 {s : State} {w : Bool} {acc : Acc} {p : Piece → Bool} (h : reaches1 s w acc p = true) : ∃ q, s.elemReachAll 0 w [acc] = .ok [(acc, [q])] ∧ p q = true := by
  unfold reaches1 at h; split at h
  · rename_i e; simp only [Bool.and_eq_true, beq_iff_eq] at h; exact ⟨_, h.1 ▸ e, h.2⟩
  · cases h
/-- A state without lines has no copy out of date. -/
theorem meets_Settled {s : State} (h : s.lines = []) : Settled s := by intro l x e; simp [h, tget?] at e
/-- Whether the granules that a piece reaches stand under the key of its address, and no die's gateways are shut. -/
def sameKey (s : State) (p : Piece) : Bool :=
  (List.range ((p.x.loc + p.len - 1) / 64 - p.x.loc / 64 + 1)).all fun i => s.keyAt (p.x.loc / 64 + i) == s.keyNum p.x.pa
theorem meets_SameKey {s : State} {p : Piece} (h : sameKey s p = true) : SameKey s [p] := by
  intro q hq g lo hi
  obtain rfl := List.mem_singleton.mp hq
  have := List.all_eq_true.mp h (g - q.x.loc / 64) (List.mem_range.mpr (by omega))
  simpa [Nat.add_sub_of_le lo] using this

/-- An AGEN of f32 elements over eight addresses 4 apart. -/
def agen8 (x : Tile) : Tile := { x with agens := [[BitVec.ofNat 64 (0x4000 + 2 * 2 ^ 57), BitVec.ofNat 64 (4 + 7 * 2 ^ 40), 0#64, 0#64]] }
def onT (f : Tile → Tile) (s : State) : State := s.setTile 0 (f (s.tile 0))
theorem meets_RelaxedStoresWrite :
    (∃ a, At (stM (.st { nd .raw with imm := 63#16 }) (v 0x4010) (v 7) none) { nd .raw with imm := 63#16 } 0 0 a ∧ a.l = .val 0x4010#512 ∧ a.r = .val 7#512) ∧
    (stM (.st { nd .raw with imm := 63#16 }) (v 0x4010) (v 7) none).det 0 = false ∧
    (∃ q, (stM (.st { nd .raw with imm := 63#16 }) (v 0x4010) (v 7) none).elemReachAll 0 true [⟨0, 0x4010, 64⟩] = .ok [(⟨0, 0x4010, 64⟩, [q])] ∧ (q.x.loc == 0x4010 && q.len == 64 && !q.x.attr.strm && sameKey (stM (.st { nd .raw with imm := 63#16 }) (v 0x4010) (v 7) none) q) = true) ∧
    Settled (stM (.st { nd .raw with imm := 63#16 }) (v 0x4010) (v 7) none) ∧ (stM (.st { nd .raw with imm := 63#16 }) (v 0x4010) (v 7) none).gateShut 0 = false ∧
    (stM (.st { nd .raw with imm := 63#16 }) (v 0x4010) (v 7) none).awaitsHandover 0 0 0x4010 64 = false ∧
    (stM (.st { nd .raw with imm := 63#16 }) (v 0x4010) (v 7) none).ownedByOther 0 0 0x4010 64 = none ∧
    (∃ a, At (onT agen8 (stM (.stx (nd .i32)) (v 1) (v 7) none)) (nd .i32) 0 0 a ∧ a.l = .val 1#512 ∧ a.r = .val 7#512) ∧
    (∃ rs, (onT agen8 (stM (.stx (nd .i32)) (v 1) (v 7) none)).elemReachAll 0 true (idxAccs .i32 (agenDesc ((onT agen8 (stM (.stx (nd .i32)) (v 1) (v 7) none)).tile 0) (nd .i32)) 1#512 0) = .ok rs ∧ rs.length = 16) ∧
    (∃ a, At (onT agen8 (stM (.agen { nd .i32 with mod := 1#4 }) (v 1) none none)) { nd .i32 with mod := 1#4 } 0 0 a ∧ a.l = .val 1#512 ∧ a.r ≠ .absent) ∧
    (∃ q, (onT agen8 (stM (.agen { nd .i32 with mod := 1#4 }) (v 1) none none)).elemReachAll 0 true [⟨0, 0x4000, 4⟩] = .ok [(⟨0, 0x4000, 4⟩, [q])] ∧ (q.len == 4) = true) ∧
    agenCoalesces { nd .i32 with mod := 1#4 } = false :=
  ⟨meets_at _ _ _ (by decide +kernel), by decide +kernel, meets_reaches1 (by decide +kernel), meets_Settled rfl, by decide +kernel, by decide +kernel, by decide +kernel,
    meets_at _ _ _ (by decide +kernel), meets_reaches (by decide +kernel), meets_at _ _ _ (by decide +kernel), meets_reaches1 (by decide +kernel), by decide +kernel⟩
/-- The store of a doubleword at 0x4010 under DET. -/
def detSt : State := det (stM (.st { nd .n64 with imm := 7#16 }) (v 0x4010) (v 7) none)
theorem meets_DetStoresWaitForMeridian :
    (∃ a, At detSt { nd .n64 with imm := 7#16 } 0 0 a ∧ a.l = .val 0x4010#512 ∧ a.r = .val 7#512) ∧ detSt.det 0 = true ∧
    (∃ q, detSt.elemReachAll 0 true [⟨0, 0x4010, 8⟩] = .ok [(⟨0, 0x4010, 8⟩, [q])] ∧
      (match granulesOf [q] (payBytes 8 7#512) with | [c] => !detSt.rbFull 0 c | _ => false) = true) ∧ detSt.gateShut 0 = false ∧
    detSt.awaitsHandover 0 0 0x4010 8 = false ∧ detSt.ownedByOther 0 0 0x4010 8 = none :=
  ⟨meets_at _ _ _ (by decide +kernel), by decide +kernel, meets_reaches1 (by decide +kernel), by decide +kernel, by decide +kernel, by decide +kernel⟩
theorem meets_ReadsIssueOnce :
    (∃ a, At (stM (.ld { nd .raw with imm := 63#16 }) (v 0x4000) none none) { nd .raw with imm := 63#16 } 0 0 a ∧ a.l = .val 0x4000#512 ∧ a.r ≠ .absent) ∧
    (((stM (.ld { nd .raw with imm := 63#16 }) (v 0x4000) none none).tile 0).node 0).issued = false ∧
    (∃ rs, (stM (.ld { nd .raw with imm := 63#16 }) (v 0x4000) none none).elemReachAll 0 false [⟨0, 0x4000, 64⟩] = .ok rs ∧ rs.length = 1) ∧
    ((stM (.ld { nd .raw with imm := 63#16 }) (v 0x4000) none none).gateShut 0 = false ∧ (stM (.ld { nd .raw with imm := 63#16 }) (v 0x4000) none none).awaitsHandover 0 0 0x4000 64 = false ∧
      0 < ((stM (.ld { nd .raw with imm := 63#16 }) (v 0x4000) none none).tile 0).nodes.length) ∧
    (∃ a, At (onT agen8 (stM (.ldx (nd .i32)) (v 1) none none)) (nd .i32) 0 0 a ∧ a.l = .val 1#512) ∧
    (∃ rs, (onT agen8 (stM (.ldx (nd .i32)) (v 1) none none)).elemReachAll 0 false (idxAccs .i32 (agenDesc ((onT agen8 (stM (.ldx (nd .i32)) (v 1) none none)).tile 0) (nd .i32)) 1#512 0) = .ok rs ∧ rs.length = 16) ∧
    (∃ a, At (onT agen8 (stM (.agen (nd .i32)) (v 1) none none)) (nd .i32) 0 0 a ∧ a.l = .val 1#512 ∧ a.r ≠ .absent) ∧
    (∃ rs, (onT agen8 (stM (.agen (nd .i32)) (v 1) none none)).elemReachAll 0 false [⟨0, 0x4000, 4⟩] = .ok rs ∧ rs.length = 1) :=
  ⟨meets_at _ _ _ (by decide +kernel), by decide +kernel, meets_reaches (by decide +kernel), by decide +kernel, meets_at _ _ _ (by decide +kernel), meets_reaches (by decide +kernel),
    meets_at _ _ _ (by decide +kernel), meets_reaches (by decide +kernel)⟩
def issued (x : Tile) : Tile := x.setNode 0 { x.node 0 with issued := true }
/-- A LD whose read is under way, RELAXED and DET. -/
def ldSt : State := onT issued (stM (.ld { nd .raw with imm := 7#16 }) (v 0x4000) none none)
theorem meets_LoadDataReturns :
    (ldSt.mayFire 0 0 = true ∧ ((ldSt.tile 0).node 0).issued = true ∧ nodeAt (ldSt.tile 0).words 0 = some (.ld, { nd .raw with imm := 7#16 }) ∧
      (nodeTargets { nd .raw with imm := 7#16 }).all (Tile.targetRoom ldSt (ldSt.tile 0)) = true ∧ ldSt.det 0 = false) ∧
    (∃ q, ldSt.reachAllAs 0 (ldSt.nodeCtx 0 0) false [⟨0, (lane64 ((ldSt.tile 0).args { nd .raw with imm := 7#16 } 0).l.get 0 : Nat), 8⟩] =
      .ok [(⟨0, (lane64 ((ldSt.tile 0).args { nd .raw with imm := 7#16 } 0).l.get 0 : Nat), 8⟩, [q])] ∧ ((ldSt.badIn [q]).isNone && sameKey ldSt q) = true) ∧
    (det ldSt).det 0 = true ∧
    (∃ q, (det ldSt).reachAllAs 0 ((det ldSt).nodeCtx 0 0) false [⟨0, 0x4000, 8⟩] = .ok [(⟨0, 0x4000, 8⟩, [q])] ∧
      (((det ldSt).badIn [q]).isNone && decide (q.len ≤ 64 - q.x.pa % 64) &&
        (granulesOf [q] ((det ldSt).viewBytes ((det ldSt).tileRegion 0) 0 [] q.x q.len)).all fun c => !(det ldSt).rdFull 0 c) = true) :=
  ⟨by decide +kernel, meets_reaches1 (by decide +kernel), by decide +kernel, meets_reaches1 (by decide +kernel)⟩
/-- An ATOM ADD of n64, before and after it issues. -/
def atomSt (f : Tile → Tile) : State := onT f (stM (.atom (nd .n64)) (v 0x4008) (v 7) none)
theorem meets_AtomicsReadModifyWrite :
    (∃ a, At (atomSt id) (nd .n64) 0 0 a ∧ a.l = .val 0x4008#512 ∧ a.r = .val 7#512) ∧
    (nodeAt ((atomSt id).tile 0).words 0 = some (.atom, nd .n64) ∧ (((atomSt id).tile 0).node 0).issued = false ∧ (atomSt id).det 0 = false) ∧
    (∃ q, (atomSt id).elemReachAll 0 true [⟨0, 0x4008, 8⟩] = .ok [(⟨0, 0x4008, 8⟩, [q])] ∧ (q.len == 8) = true) ∧
    ((atomSt issued).mayFire 0 0 = true ∧ nodeAt ((atomSt issued).tile 0).words 0 = some (.atom, nd .n64) ∧ (((atomSt issued).tile 0).node 0).issued = true ∧
      (atomSt issued).ownedByOther 0 0 0x4008 8 = none ∧
      (atomSt id).gateShut 0 = false ∧ (atomSt id).awaitsHandover 0 0 0x4008 8 = false ∧ (nodeTargets (nd .n64)).all (Tile.targetRoom (atomSt issued) ((atomSt issued).tile 0)) = true) ∧
    (∃ q, (atomSt issued).reachAllAs 0 ((atomSt issued).nodeCtx 0 0) true [⟨0, 0x4008, 8⟩] = .ok [(⟨0, 0x4008, 8⟩, [q])] ∧ (q.len == 8 && ((atomSt issued).badIn [q]).isNone && !q.x.attr.strm && sameKey (atomSt issued) q) = true) :=
  ⟨meets_at _ _ _ (by decide +kernel), by decide +kernel, meets_reaches1 (by decide +kernel), by decide +kernel, meets_reaches1 (by decide +kernel)⟩
/-- A region in which leaf 0's instance, at word 0, and then its word 1 own a range; the HANDOVER of entry 0. -/
def ownSt (cur : Nat) : State :=
  let s := st (.handover (nd .raw)) (v 1) none none
  s.setRegion 0 { s.region 0 with owners := [⟨0x4000, 0x100, [cur, 2 ^ 30 + 2 ^ 23], 0, false⟩] }
theorem meets_HandoverMovesOwnership :
    (∃ a, At (ownSt (2 ^ 30)) (nd .raw) 0 0 a ∧ a.l = .val 1#512) ∧
    (let r := (ownSt (2 ^ 30)).region 0
     let o := r.owners.getD 0 default
     0 < r.owners.length ∧ o.owners.getD o.cur 0 % 2 ^ 30 % 2 ^ 23 = ownerWord r ((ownSt (2 ^ 30)).tile 0) 0 % 2 ^ 23 ∧ o.owners.getD (o.cur + 1) 0 / 2 ^ 30 % 2 = 1 ∧
     (agenPos (((ownSt (2 ^ 30)).tile 0).node (o.owners.getD o.cur 0 % 2 ^ 30 / 2 ^ 23)).loc).2.2.2.2 = [] ∧ (ownSt (2 ^ 30)).ownerPort 0 (o.owners.getD (o.cur + 1) 0) = some (0, 0)) ∧
    (let s := ownSt (2 ^ 30)
     let o := { (s.region 0).owners.getD 0 default with owners := [2 ^ 30, 2 ^ 30 + 1] }
     let s := s.setRegion 0 { s.region 0 with owners := [o] }
     (∃ a, At s (nd .raw) 0 0 a ∧ a.l = .val 1#512) ∧ o.owners.getD (o.cur + 1) 0 / 2 ^ 30 % 2 = 1 ∧ s.ownerPort 0 (o.owners.getD (o.cur + 1) 0) = none) ∧
    (∃ a, At (ownSt (2 ^ 30 + 1)) (nd .raw) 0 0 a ∧ a.l = .val 1#512) ∧
    (let r := (ownSt (2 ^ 30 + 1)).region 0
     let o := r.owners.getD 0 default
     o.owners.getD o.cur 0 % 2 ^ 30 % 2 ^ 23 ≠ ownerWord r ((ownSt (2 ^ 30 + 1)).tile 0) 0 % 2 ^ 23) :=
  ⟨meets_at _ _ _ (by decide +kernel), by decide +kernel, ⟨meets_at _ _ _ (by decide +kernel), by decide +kernel⟩, meets_at _ _ _ (by decide +kernel), by decide +kernel⟩
/-- A FILL command as a beat (R191, R260). -/
def fillBeat : Nat := 0x0204000000000060 + 0x4000 * 2 ^ 64
theorem meets_EngineCommandsIssue :
    (∃ a, At (st (.eng { nd .raw with aux := 16#8 }) (v fillBeat) none none) { nd .raw with aux := 16#8 } 0 0 a ∧ a.l = .val (BitVec.ofNat 512 fillBeat)) ∧
    (st (.eng { nd .raw with aux := 16#8 }) (v fillBeat) none none).queueFull 0 2 = false ∧
    (det (st (.eng (nd .raw)) (v fillBeat) none none)).det 0 = true ∧ (det (st (.eng (nd .raw)) (v fillBeat) none none)).engTurn 0 0 = true ∧
    (((st (.eng (nd .raw)) (v fillBeat) none none).ctx 1).queue ((st (.eng (nd .raw)) (v fillBeat) none none).engOf 0 2)).entries = [] ∧
    (let s := st (.eng (nd .raw)) (v fillBeat) none none
     let s1 := s.setCtx 1 { s.ctx 1 with queues := [(s.engOf 0 2, { Queue.fresh with entries := List.replicate 64 default })] }
     s1.queueFull 0 2 = true ∧ ∃ a, At s1 (nd .raw) 0 0 a ∧ a.l = .val (BitVec.ofNat 512 fillBeat)) ∧
    (∃ a, At (st (.eng (nd .raw)) ab none none) (nd .raw) 0 0 a ∧ a.l = .absent) :=
  ⟨meets_at _ _ _ (by decide +kernel), by decide +kernel, by decide +kernel, by decide +kernel, by decide +kernel,
    ⟨by simp only [State.queueFull, State.engOf, Ctx.queue, State.cmdCtx, State.setCtx, State.ctx, tget, tset]; decide, meets_at _ _ _ (by decide +kernel)⟩, meets_at _ _ _ (by decide +kernel)⟩
/-- Child 0's entry: kernel at 0x5000, its argument beat at 0x4000 (R189). -/
def childSt (f : Ctx → Ctx) : State :=
  let s := stM (.launch { nd .raw with imm := 4#16 }) (v 1) (v 7) none
  (s.setRegion 0 { s.region 0 with childTab := [[0x5000, 0x4000]] }).setCtx 1 (f (s.ctx 1))
theorem meets_ChildLaunches :
    (∃ a, At (childSt id) { nd .raw with imm := 4#16 } 0 0 a ∧ a.l = .val 1#512) ∧ tget? ((childSt id).ctx 1).childRun (childKey 0 0) = none ∧
    (∃ q, (childSt id).elemReachAll 0 true [⟨0, 0x4000, 64⟩] = .ok [(⟨0, 0x4000, 64⟩, [q])] ∧ (q.len == 64) = true) ∧
    (∃ a, At (childSt fun c => { c with childRun := [(0, 5)] }) { nd .raw with imm := 4#16 } 0 0 a ∧ a.l = .val 1#512) ∧
    (tget? ((childSt fun c => { c with childRun := [(0, 5)] }).ctx 1).childRun (childKey 0 0)).isSome = true :=
  ⟨meets_at _ _ _ (by decide +kernel), by decide +kernel, meets_reaches1 (by decide +kernel), meets_at _ _ _ (by decide +kernel), by decide +kernel⟩

/-- Tile 0 with a soft-token register 0. -/
def sx0 (d : Payload) (x : Tile) : Tile := { x with sx := [(0, d)] }
/-- A mixture of two tokens of weights 1 and 2 (R251). -/
def mix2 : Payload := (match exec (.sxmix { nd .bf16 with imm := 1#16 }) (st (.sxmix { nd .bf16 with imm := 1#16 }) (v (11 + 12 * 2 ^ 32)) (v (0x3F80 + 0x4000 * 65536)) none) with
  | .next s => tget 0#512 (s.tile 0).sxN 0 | _ => 0#512)
/-- A hidden-state descriptor of 64 f32 elements at 0x4000. -/
def hid : Payload := (match exec (.sxhid { nd .f32 with imm := 3#16 }) (st (.sxhid { nd .f32 with imm := 3#16 }) (v 0x4000) (v 99) none) with
  | .next s => tget 0#512 (s.tile 0).sxN 0 | _ => 0#512)
theorem meets_SoftTokenDescriptors :
    (∃ a, At (st (.sxset (nd .n32)) (v 42) none none) (nd .n32) 0 0 a ∧ a.l = .val 42#512) ∧
    (∃ a, At (st (.sxmix { nd .bf16 with imm := 7#16 }) (v 11) (v 0x3F80) none) { nd .bf16 with imm := 7#16 } 0 0 a ∧ a.l = .val 11#512 ∧ a.r = .val 0x3F80#512) ∧
    (∃ a, At (st (.sxhid { nd .f32 with imm := 4095#16 }) (v 0x4000) (v 99) none) { nd .f32 with imm := 4095#16 } 0 0 a ∧ a.l = .val 0x4000#512 ∧ a.r = .val 99#512) ∧
    (∃ a, At (stT (.sxkind (nd .n32)) (v 1) none none (sx0 (sxText 42 0))) (nd .n32) 0 0 a ∧ a.l = .val 1#512) ∧ sxKind (sxText 42 0) = 1 ∧ sxKind 5#512 = 255 ∧
    (∃ a, At (stT (.sxhash (nd .n64)) (v 1) none none (sx0 mix2)) (nd .n64) 0 0 a ∧ a.l = .val 1#512) ∧ sxKind mix2 = 3 ∧ sxKind hid = 2 :=
  ⟨meets_at _ _ _ (by decide +kernel), meets_at _ _ _ (by decide +kernel), meets_at _ _ _ (by decide +kernel), meets_at _ _ _ (by decide +kernel), by decide +kernel, by decide +kernel,
    meets_at _ _ _ (by decide +kernel), by decide +kernel, by decide +kernel⟩
/-- R258: the greatest weight of the mixture is token 12's. -/
theorem test_collapse : out1 96 (.collapse (nd .n32)) (v 1) none none = some (0 + 2 * 2 ^ 32 + 0) ∧
    (outN 96 (.collapse (nd .n32)) (stT (.collapse (nd .n32)) (v 1) none none (sx0 mix2))) = some (12 + 3 * 2 ^ 64) := by decide +kernel
theorem meets_CollapseDescriptors :
    (∃ a, At (stT (.collapse { nd .n32 with mod := 2#4 }) (v 1) none none (sx0 (sxText 42 0))) { nd .n32 with mod := 2#4 } 0 0 a ∧ a.l = .val 1#512 ∧ a.r ≠ .absent) ∧
    (∃ a, At (stT (.collapse (nd .n32)) (v 1) none none (sx0 mix2)) (nd .n32) 0 0 a ∧ a.l = .val 1#512 ∧ a.r ≠ .absent) ∧
    (∃ a, At (stT (.collapse { nd .n32 with mod := 1#4 }) (v 1) (v (5 * 2 ^ 64)) none (sx0 hid)) { nd .n32 with mod := 1#4 } 0 0 a ∧ a.l = .val 1#512 ∧ a.r = .val (BitVec.ofNat 512 (5 * 2 ^ 64))) ∧
    (∃ a, At (stT (.collapse { nd .n32 with mod := 1#4 }) (v 1) (v 2) none (sx0 hid)) { nd .n32 with mod := 1#4 } 0 0 a ∧ a.l = .val 1#512 ∧ a.r = .val 2#512) ∧ lane32 2#512 0 ≠ 0 ∧
    (∃ a, At (stT (.collapse { nd .n32 with mod := 2#4 }) (v 1) none none (sx0 hid)) { nd .n32 with mod := 2#4 } 0 0 a ∧ a.l = .val 1#512 ∧ a.r ≠ .absent) ∧
    (∃ a, At (st (.collapse (nd .n32)) (v 1) none none) (nd .n32) 0 0 a ∧ a.l = .val 1#512 ∧ a.r ≠ .absent) ∧ sxKind 0#512 = 0 :=
  ⟨meets_at _ _ _ (by decide +kernel), meets_at _ _ _ (by decide +kernel), meets_at _ _ _ (by decide +kernel), meets_at _ _ _ (by decide +kernel), by decide +kernel,
    meets_at _ _ _ (by decide +kernel), meets_at _ _ _ (by decide +kernel), by decide +kernel⟩
/-- SXEMB of a hidden state, of an empty register, and with its rows there: the table at 0x8000 has rows of 64 elements. -/
def embSt (d : Payload) (f : Tile → Tile) : State := onT f (onT (sx0 d) (stM (.sxemb (nd .f32)) (v 1) (v (0x8000 + 64 * 2 ^ 64 + 256 * 2 ^ 128 + 1000 * 2 ^ 192)) none))
def embY : Payload := BitVec.ofNat 512 (0x8000 + 64 * 2 ^ 64 + 256 * 2 ^ 128 + 1000 * 2 ^ 192)
/-- Whether accesses of a node's own context reach pieces. -/
def reachesAs (s : State) (c : Option Nat) (write : Bool) (accs : List Acc) (n : Nat) : Bool := match s.reachAllAs 0 c write accs with | .ok rs => rs.length == n | _ => false
theorem meets_reachesAs {s : State} {c : Option Nat} {w : Bool} {accs : List Acc} {n : Nat} (h : reachesAs s c w accs n = true) :
    ∃ rs, s.reachAllAs 0 c w accs = .ok rs ∧ rs.length = n := by
  unfold reachesAs at h; split at h
  · exact ⟨_, ‹_›, by simpa using h⟩
  · cases h
theorem meets_SoftTokenEmbedding :
    (∃ a, At (embSt 0#512 id) (nd .f32) 0 0 a ∧ a.l = .val 1#512 ∧ a.r = .val embY) ∧ sxFormBad (nd .f32) 0#512 embY = true ∧
    (∃ a, At (embSt hid id) (nd .f32) 0 0 a ∧ a.l = .val 1#512 ∧ a.r = .val embY) ∧ sxFormBad (nd .f32) hid embY = false ∧ (embNow (embSt hid id) 0 0 (nd .f32)) = (0, hid) ∧
    (∃ rs, (embSt hid id).elemReachAll 0 false (embAccs (nd .f32) 0 hid embY) = .ok rs ∧ rs.length = 1) ∧
    ((embSt hid issued).mayFire 0 0 = true ∧ (((embSt hid issued).tile 0).node 0).issued = true ∧ nodeAt ((embSt hid issued).tile 0).words 0 = some (.sxemb, nd .f32) ∧
      (nodeTargets (nd .f32)).all (Tile.targetRoom (embSt hid issued) ((embSt hid issued).tile 0)) = true ∧ 0 < ((embSt hid id).tile 0).nodes.length ∧ (embSt hid issued).badBeats = []) ∧
    (∃ rs, (embSt hid issued).reachAllAs 0 ((embSt hid issued).nodeCtx 0 0) false (embAccs (nd .f32) 0 hid embY) = .ok rs ∧ rs.length = 1) :=
  ⟨meets_at _ _ _ (by decide +kernel), by decide +kernel, meets_at _ _ _ (by decide +kernel), by decide +kernel, by decide +kernel, meets_reaches (by decide +kernel), by decide +kernel,
    meets_reachesAs (by decide +kernel)⟩

/-- KRD of context 7's CTXMODE, of no register; KWR of context 7's QSTALL; SLOTW, GENBUMP, in R300's answers. -/
theorem meets_PrivilegedNodes :
    (∃ a, At (st (.krd (nd .n64)) (v 0x40070000) none none) (nd .n64) 0 0 a ∧ a.l = .val 0x40070000#512 ∧ a.r ≠ .absent) ∧
    (regRead (st (.krd (nd .n64)) (v 0x40070000) none none) (lane64 0x40070000#512 0)).isSome = true ∧ (regRead State.reset 0x4007FFFF).isNone = true ∧
    (∃ a, At (st (.kwr (nd .n64)) (v 0x40070000) (v 2) none) (nd .n64) 0 0 a ∧ a.l = .val 0x40070000#512 ∧ a.r = .val 2#512) ∧
    opTurn ((st (.kwr (nd .n64)) (v 0x40070000) (v 2) none).tile 0) .kwr 0 = true ∧
    (regWrite (st (.kwr (nd .n64)) (v 0x40070000) (v 2) none) 0 (lane64 0x40070000#512 0) (lane64 2#512 0)).isSome = true ∧
    (∃ a, At (st (.slotw (nd .n64)) (v (5 * 2 ^ 64)) (v 0x101) none) (nd .n64) 0 0 a ∧ a.l = .val (BitVec.ofNat 512 (5 * 2 ^ 64)) ∧ a.r = .val 0x101#512) ∧
    slotStatus (st (.slotw (nd .n64)) (v (5 * 2 ^ 64)) (v 0x101) none) 0 5 0x101 = .ok ∧ ((st (.slotw (nd .n64)) (v (5 * 2 ^ 64)) (v 0x101) none).tile 0).slotwTodo = [0] ∧
      nodeAt ((st (.slotw (nd .n64)) (v (5 * 2 ^ 64)) (v 0x101) none).tile 0).words 0 = some (.slotw, nd .n64) ∧
    slotStatus (st (.slotw (nd .n64)) (v (64 * 2 ^ 64)) (v 0x101) none) 0 64 0x101 = .refused ∧
    slotStatus ({ (State.reset.setCtx 1 { Ctx.fresh with state := 2, fxt := true }) with tables := [(0, { Table.fresh with now := [(5, ⟨1, true, true, false⟩)], next := [(5, ⟨1, true, true, false⟩)] })] }) 0 5 0x101 = .state ∧
    (∃ a, At (stT (.slotw (nd .n64)) (v 0) (v 0) none (withLoc (.slotw 7 0 0))) (nd .n64) 0 0 a ∧ a.l = .val 0#512 ∧ a.r = .val 0#512) ∧
    (∃ a, At (st (.genbump (nd .n64)) (v 1023) none none) (nd .n64) 0 0 a ∧ a.l = .val 1023#512 ∧ a.r ≠ .absent) ∧
    ((st (.genbump (nd .n64)) (v 1023) none none).region 1023).valid = false ∧ (st (.genbump (nd .n64)) (v 1023) none none).genInFlight 1023 1 = false ∧
    ((st (.genbump (nd .n64)) (v 0) none none).region 0).valid = true ∧ ((st (.genbump (nd .n64)) (v 0) none none).region 0).susp = false :=
  ⟨meets_at _ _ _ (by decide +kernel), by decide +kernel, by decide +kernel, meets_at _ _ _ (by decide +kernel), by decide +kernel, by decide +kernel, meets_at _ _ _ (by decide +kernel),
    by decide +kernel, by decide +kernel, by decide +kernel, by decide +kernel, by decide +kernel, meets_at _ _ _ (by decide +kernel), meets_at _ _ _ (by decide +kernel), by decide +kernel, by decide +kernel,
    by decide +kernel, by decide +kernel⟩

/-- Whether an answer is there. -/
def isOk {ε α : Type} (x : Except ε α) : Bool := match x with | .ok _ => true | .error _ => false
theorem ok_of {ε α : Type} {x : Except ε α} (h : isOk x = true) : ∃ y, x = .ok y := by cases x <;> simp_all [isOk]
/-- Region 5 of context 1 is suspended with tile 3 and nothing parked; REGSAVE at 0x20000. -/
def saveSt : State :=
  let s := stM (.regsave (nd .n64)) (v 5) (v 0x20000) none
  let s := s.setTile 3 { Tile.fresh with region := 5, words := [feed .l], nodes := [NodeSt.fresh], hdr := { Hdr.zero with words := 1, dl := 1, keep := true }, dl := [(0, Beat.val 77#512)], inst := 4 }
  s.setRegion 5 { Region.fresh with ctx := 1, valid := true, susp := true, gen := 3, tiles := [3], allTiles := [3], inst := 4, phase := .running }
/-- Region 5 parked with tile 3 and moved on to generation 4; its saved header at 0x20000, cut short; REGLOAD. -/
def loadSt : State :=
  let s := saveSt.setTile 0 ((st (.regload (nd .n64)) (v 5) (v 0x20000) none).tile 0)
  let s := { s with mem := s.mem.writeN 0x20000 (leBytes 4 0x53564131 ++ leBytes 2 5 ++ [1#8, 3#8] ++ List.replicate 24 0#8 ++ [64#8]) }
  s.setRegion 5 { s.region 5 with gen := 4, parked := [(3, s.tile 3)] }
/-- The header that a load reads, and whether it may go on. -/
def loadOk (s : State) : Bool :=
  match (s.lift 5).engRead (Config.dieOf 0) (s.accessCtx 0) (isSup 0) 0x20000 256, (s.lift 5).regTiles 0 5 with
  | .ok hd, .ok ts =>
    natAt hd.1 4 2 == 5 && natAt hd.1 6 1 == (s.region 5).ctx && natAt hd.1 7 1 != (s.region 5).gen &&
      (match (s.lift 5).engRead (Config.dieOf 0) (s.accessCtx 0) (isSup 0) 0x20000 (natAt hd.1 32 8) with
       | .ok (bs, s1) => (((s1.unpark 5 ts bs).region 5).allTiles.foldl (fun acc u => acc.bind fun s => replayTile s u) (some (s1.unpark 5 ts bs))).isSome
       | _ => false)
  | _, _ => false
theorem meets_region_load : (∃ a, At loadSt (nd .n64) 0 0 a ∧ a.l = .val 5#512 ∧ a.r = .val 0x20000#512) ∧ loadOk loadSt = true ∧ loadOk { loadSt with regions := tset loadSt.regions 5 { loadSt.region 5 with gen := 3 } } = false :=
  ⟨meets_at _ _ _ (by decide +kernel), by decide +kernel, by decide +kernel⟩
theorem meets_RegionSaveAndLoad :
    (∃ a, At (st (.regsave (nd .n64)) (v 1024) (v 0) none) (nd .n64) 0 0 a ∧ a.l = .val 1024#512 ∧ a.r = .val 0#512) ∧
    (∃ a, At (st (.regload (nd .n64)) (v 5) (v 0x20000) none) (nd .n64) 0 0 a ∧ a.l = .val 5#512 ∧ a.r = .val 0x20000#512) ∧ ((st (.regload (nd .n64)) (v 5) (v 0x20000) none).region 5).susp = false ∧
    (∃ a, At saveSt (nd .n64) 0 0 a ∧ a.l = .val 5#512 ∧ a.r = .val 0x20000#512) ∧ (saveSt.region 5).susp = true ∧ (saveSt.region 5).parked = [] ∧
    (∃ s1, saveSt.engWrite (Config.dieOf 0) (saveSt.accessCtx 0) (isSup 0) 0x20000 (saveBytes saveSt 5 (saveSt.tilesOf 5)) = .ok s1) ∧
    (let s := saveSt.setRegion 5 { saveSt.region 5 with parked := [(3, saveSt.tile 3)] }
     (∃ a, At s (nd .n64) 0 0 a ∧ a.l = .val 5#512 ∧ a.r = .val 0x20000#512) ∧ (s.region 5).parked ≠ [] ∧
     ∃ s1, s.engWrite (Config.dieOf 0) (s.accessCtx 0) (isSup 0) 0x20000 (saveBytes s 5 (s.region 5).parked) = .ok s1) :=
  ⟨meets_at _ _ _ (by decide +kernel), meets_at _ _ _ (by decide +kernel), by decide +kernel, meets_at _ _ _ (by decide +kernel), by decide +kernel, by decide +kernel, ok_of (by decide +kernel),
    ⟨meets_at _ _ _ (by decide +kernel), by decide +kernel, ok_of (by decide +kernel)⟩⟩

/-- A record about region 0 at the head of the fault queue, number 9; the region has stopped or not. -/
def fltSt (f : Flt) (p : RegPhase) : State :=
  let s := st (.fltackResume (nd .n64)) (v 9) none none
  let s := s.setTile 0 { s.tile 0 with region := 1 }
  let s := { s with regions := [(1, s.region 0), (0, { s.region 0 with phase := p })] }
  { s with fqhead := 9, fq := [{ words := f.words s, agent := f.agent, region := f.region, cycle := 0 }] }
def regFlt : Flt := { Flt.zero with cls := 0x0B, region := some 0, ctx := 1, resumable := true, agent := .region 0 }
/-- Whether an action applies to the head record. -/
def settles (s : State) (act : Nat) : Bool := match s.fq with | r :: _ => (s.settleRecord act r).isSome | _ => false
theorem meets_FaultAcknowledgement :
    (∃ a, At (fltSt regFlt .stopped) (nd .n64) 0 0 a ∧ a.l = .val 9#512 ∧ a.r ≠ .absent) ∧ opTurn ((fltSt regFlt .stopped).tile 0) .fltack 0 = true ∧ (fltSt regFlt .stopped).fqhead = 9 ∧
    (settles (fltSt regFlt .stopped) 0, settles (fltSt regFlt .stopped) 1, settles (fltSt regFlt .stopped) 2, settles (fltSt regFlt .stopped) 3) = (true, true, false, false) ∧
    (settles (fltSt regFlt .running) 0, settles (fltSt regFlt .running) 3) = (true, true) ∧
    (match (fltSt regFlt .running).fq with | r :: _ => r.resumable && !(fltSt regFlt .running).agentStopped r | [] => false) = true ∧
    (match (fltSt { regFlt with region := some 7 } .running).fq with | r :: _ => r.region.isSome && ((fltSt { regFlt with region := some 7 } .running).regionOf r).isNone | [] => false) = true ∧
    settles (fltSt { regFlt with cls := 2, engine := true, agent := .command 1 0 5 } .running) 2 = true ∧
    (∃ a, At (st (.fltackNote { nd .n64 with mod := 3#4 }) (v 0) none none) { nd .n64 with mod := 3#4 } 0 0 a ∧ a.l = .val 0#512) ∧ (st (.fltackNote { nd .n64 with mod := 3#4 }) (v 0) none none).fq = [] ∧
    (∃ a, At { fltSt regFlt .stopped with fqhead := 8 } (nd .n64) 0 0 a ∧ lane64 a.l.get 0 ≠ 8) :=
  ⟨meets_at _ _ _ (by decide +kernel), by decide +kernel, by decide +kernel, by decide +kernel, by decide +kernel, by decide +kernel, by decide +kernel, by decide +kernel, meets_at _ _ _ (by decide +kernel), by decide +kernel,
    meets_at _ _ _ (by decide +kernel)⟩
/-- Contexts FREE, CONFIGURED and RUNNING; shares of 64 and 65 entries. -/
def ctxSt (state : Nat) : State := { State.reset.setCtx 3 { Ctx.fresh with state := state } with tcache := [⟨0, 3, 0, 16, 7⟩], parts := [(0, { Part.fresh with dies := 1 })] }
theorem meets_ContextRegisterWrites :
    ((ctxSt 2).ctx 3).state = 2 ∧ (3#64).toNat % 8 < 4 ∧ 4 ≤ (5#64).toNat % 8 ∧ shareOver (ctxSt 0) 3 { (ctxSt 0).ctx 3 with state := 1 } = false ∧
    shareOver ((ctxSt 0).setCtx 3 { (ctxSt 0).ctx 3 with engshare := 65 }) 3 { (ctxSt 0).ctx 3 with engshare := 65, state := 1 } = true ∧ ((ctxSt 1).ctx 3).state ≠ 2 ∧ ((ctxSt 1).ctx 3).state ≠ 3 ∧
    (∀ k, k < 4 → ({ (ctxSt 1).ctx 3 with engshare := (64#64).toNat % 2 ^ 30 } : Ctx).share k ≤ 64) ∧ shareOver (ctxSt 1) 3 { (ctxSt 1).ctx 3 with engshare := 64 } = false ∧
    ¬ ({ (ctxSt 1).ctx 3 with engshare := 65 } : Ctx).share 0 ≤ 64 ∧
    ((ctxSt 0).ctx 3).state = 0 ∧ ((1#64).toNat % 2 = 1 ∧ (1#64).toNat / 2 ^ 3 % 2 ^ 13 = 0 ∧ (1#64).toNat / 2 ^ 57 = 0) ∧
    ((ctxSt 1).regions = [] ∧ (ctxSt 1).owedReads = []) ∧
    (let s := (ctxSt 1).setRegion 0 { Region.fresh with ctx := 3, entries := [default] }; ∃ r ∈ s.regions, r.2.ctx = 3 ∧ r.2.entries ≠ []) := by decide +kernel
/-- Mask set 1 of partition 0, applied or held. -/
def maskSt (hold : Bool) : State := State.reset.setPart 0 { Part.fresh with masks := [(1, { MaskSet.fresh with hold := hold })] }
/-- The spread valid over two whole stacks. -/
theorem meets_PartitionRegisterWrites :
    (let v : BitVec 64 := BitVec.ofNat 64 (2 ^ 7 + 2 ^ 18)
     v.toNat % 2 ^ 7 = 0 ∧ v.toNat / 2 ^ 36 = 0 ∧ maskValid ((maskSt false).part 0).ranges (lset (((maskSt false).part 0).maskSet 1).masks 0 v.toNat) 0 = true) ∧
    (maskSt false).maskBusy 0 1 = false ∧ (maskSt true).maskBusy 0 1 = false ∧
    (let s := ((maskSt false).setCtx 1 { Ctx.fresh with part := 0 }).setRegion 0 { Region.fresh with ctx := 1, entries := [{ (default : RbEntry) with mask := 1 }] }; s.maskBusy 0 1 = true) ∧
    (((maskSt true).part 0).maskSet 1).hold = true ∧ (((maskSt false).part 0).maskSet 1).hold = false ∧
    maskValid ((maskSt false).part 0).ranges (lset (((maskSt false).part 0).maskSet 1).masks 0 (2 ^ 8)) 0 = false ∧ (1#64).toNat % 2 ^ 7 ≠ 0 ∧
    (let v : BitVec 64 := 0#64; v.toNat < 8 ∧ v.toNat % 4 ≠ 3 ∧ v.toNat / 4 = 0 ∧ maskValid ((maskSt true).part 0).ranges (((maskSt true).part 0).maskSet 1).staged (v.toNat % 4) = true) ∧
    (3#64).toNat % 4 = 3 ∧ (State.reset.setPart 0 { Part.fresh with tdisp := .run } |>.part 0).tdisp ≠ .unlocked ∧
    (let v : BitVec 64 := BitVec.ofNat 64 (4 * 5 + 2 ^ 12 * 763); (State.reset.part 0).tdisp = .unlocked ∧ v.toNat % 2 = 0 ∧ v.toNat / 2 ^ 2 % 2 ^ 10 < 768 ∧ v.toNat / 2 ^ 2 % 2 ^ 10 + v.toNat / 2 ^ 12 % 2 ^ 10 ≤ 768 ∧ (State.reset.part 0).masks = []) ∧ (BitVec.ofNat 64 (4 * 768)).toNat / 2 ^ 2 % 2 ^ 10 = 768 ∧
    (let v : BitVec 64 := BitVec.ofNat 64 (4096 * 256)
     (State.reset.part 0).tdisp = .unlocked ∧ v.toNat % 64 = (State.reset.part 0).dies ∧ v.toNat / 2 ^ 8 % 2 ^ 13 ≤ 4096 ∧
      ∀ d, d < 6 → (State.reset.part 0).dies / 2 ^ d % 2 = 1 → (State.reset.parts.filter fun q => q.1 != 0 && q.2.dies / 2 ^ d % 2 == 1).length < 4) := by decide +kernel
theorem meets_OtherRegisterWrites :
    (let s := { State.reset with psqPost := 3, psqDone := 1 }
     ((5#64).toNat / 2 ^ 32 = 0 ∧ s.psqPost ≤ (5#64).toNat ∧ (5#64).toNat - s.psqDone ≤ 2 ^ s.psqN) ∧ (2#64).toNat < s.psqPost ∧ 2 ^ s.psqN < (6#64).toNat - s.psqDone) ∧
    ((1#64).toNat / 2 % 16 = State.reset.partid) ∧
    (let v : BitVec 64 := BitVec.ofNat 64 (1 + 2 * 3 + 2 ^ 5 * 11)
     v.toNat / 2 % 16 ≠ State.reset.partid ∧ v.toNat / 2 ^ 5 % 16 < 12 ∧ v.toNat % 2 = 1 ∧ (State.reset.link 4).en = false) ∧
    ((6#64).toNat / 2 % 16 ≠ State.reset.partid ∧ (6#64).toNat % 2 = 0 ∧ (State.reset.setLink 4 { LinkSt.fresh with en := true } |>.link 4).en = true) ∧
    ((8#64).toNat / 2 ^ 3 % 2 = 1 ∧ (State.reset.setStack 2 { Stack.fresh with owners := [(3, { Refresher.fresh with takeover := true })] } |>.stack 2).takeover = true) ∧
    (State.reset.stackBusy 2 = false ∧ (State.reset.stack 2).mscen = true ∧ (0#64).toNat % 2 ≠ 1 ∧
      (let s := State.reset.setRegion 0 { Region.fresh with entries := [{ (default : RbEntry) with loc := 2 ^ 31 }] }; s.stackBusy 2 = true)) ∧
    (State.reset.stack 2).takeover = false ∧ 32 < (33#64).toNat % 64 ∧ State.reset.windowBytes 0 ≤ (192 - 2 * ((32#64).toNat % 64)) * 2 ^ 20 ∧
    (let s := State.reset.setCtx 1 { Ctx.fresh with queues := [(0, { Queue.fresh with started := List.replicate 2 { (default : CmdSt) with words := [0x0101000000000060#64, 0#64, 0#64, 0#64, 0#64, 0#64, 0#64, 0xFFFF#64] } })] }
     (192 - 2 * ((32#64).toNat % 64)) * 2 ^ 20 < s.windowBytes 0) ∧
    ((State.reset.setPart 0 { Part.fresh with sqen := 2 ^ 63 } |>.part 0).sqen / 2 ^ 63 % 2 = 1) := by decide +kernel

/-- Tile 0 with a matrix node. -/
def mxSt (m : Mx) (f : Tile → Tile) : State := stT (.mov (nd .raw)) (v 1) none none fun x => f { x with mx := m }
/-- The words of a token. -/
def tw (op : Nat) (t : MxTok) : W64 := BitVec.ofNat 64 (encodeToken op t)
/-- The same in fixed timing at a cycle. -/
def mxFxt (cycle : Nat) (m : Mx) : State :=
  let s := { mxSt m id with cycle := cycle }
  (s.setCtx 1 { s.ctx 1 with fxt := true }).pumpSto 0
theorem meets_MatrixTokensAccepted :
    (let s := mxSt { Mx.fresh with ctl := some (Beat.val (BitVec.ofNat 512 (encodeToken 1 tok))) } id
     let s0 := s.pumpSto 0
     (s0.tile 0).mx.ctl = some (Beat.val (BitVec.ofNat 512 (encodeToken 1 tok))) ∧ (s0.tile 0).mx.full s0.cycle = false ∧ (s0.ctx (s0.tileCtx 0)).fxt = false ∧ (s0.tile 0).mx.failed = false ∧
      bitsNat (tw 1 tok) 0 2 ≠ 2 ∧ acceptFault (s0.tile 0) (tw 1 tok) [] = none) ∧
    acceptFault Tile.fresh (tw 1 { tok with mc := 3#2 }) [] = some 2 ∧ Beat.none.present = false ∧
    (let s := mxSt { Mx.fresh with queue := List.replicate 4 ⟨tw 1 tok, 0, 0, 5, [], none, 0, 0, 0, false, []⟩ } id; (s.tile 0).mx.full s.cycle = true) ∧
    (let s := mxFxt 9 { Mx.fresh with ctl := some (Beat.val (BitVec.ofNat 512 (encodeToken 1 tok))), ctlCycle := 4, ctlAt := 10 }
     (s.ctx (s.tileCtx 0)).fxt = true ∧ s.cycle < (s.tile 0).mx.ctlAt) ∧
    (let s := mxFxt 10 { Mx.fresh with ctl := some (Beat.val (BitVec.ofNat 512 (encodeToken 1 tok))), ctlCycle := 4, ctlAt := 10 }
     (s.ctx (s.tileCtx 0)).fxt = true ∧ (s.tile 0).mx.ctlAt ≤ s.cycle ∧ (s.tile 0).mx.late = false) ∧
    (let s := mxFxt 12 { Mx.fresh with ctl := some (Beat.val (BitVec.ofNat 512 (encodeToken 1 tok))), ctlCycle := 11, ctlAt := 10 }
     (s.tile 0).mx.late = true) := by decide +kernel
def doneEntry : MxEntry := ⟨tw 1 tok, 6, 2, 0, [], some 0, 0, 3, 0, false, []⟩
theorem meets_MatrixPorts :
    (let s := (mxSt { Mx.fresh with done := [doneEntry] } fun x => x.setIn 4 { InPort.fresh with bind := .engine 4 }).pumpSto 0
     (s.tile 0).mx.done = [doneEntry] ∧ doneEntry.finish ≤ s.cycle ∧ (s.tile 0).mxPort = some 4 ∧ ((s.tile 0).inPort 4).sampled = false) ∧
    (let x := (mxSt { Mx.fresh with ain := v 5, afeed := List.replicate 63 0#512 } id).tile 0
     x.mx.ain = v 5 ∧ x.mx.afeed.length < 64) ∧
    (let x := (mxSt { Mx.fresh with ain := v 5, afeed := List.replicate 64 0#512 } id).tile 0
     x.mx.ain = v 5 ∧ 64 ≤ x.mx.afeed.length) ∧
    (let x := (mxSt { Mx.fresh with ain := ab, win := v 5, wfeed := List.replicate 63 0#512 } id).tile 0
     x.mx.ain = some Beat.none ∧ Beat.none.present = false ∧ x.mx.win = v 5 ∧ x.mx.wfeed.length < 64) ∧
    (∀ n ∈ [7, 8], let s := (mxSt { Mx.fresh with done := [doneEntry] } fun x => x.setIn 4 { InPort.fresh with sampled := true, bind := .engine 4, held := List.replicate n (0, Beat.none) }).pumpSto 0
      (s.tile 0).mx.done = [doneEntry] ∧ (s.tile 0).mxPort = some 4 ∧ ((s.tile 0).inPort 4).sampled = true ∧ ((s.tile 0).inPort 4).held.length = n) := by decide +kernel
/-- The step of a matrix token on an entry at the queue's head; 1 KiB of each buffer. -/
def tokSt (e : MxEntry) : State := { mxSt { Mx.fresh with queue := [e] } (fun x => { x with hdr := { Hdr.zero with abuf := 1, wbuf := 1, cbuf := 1 } }) with cursor := .token 0 }
theorem meets_MatrixTokensRun :
    (let s := tokSt ⟨tw 1 tok, 0, 0, 0, [], none, 0, 0, 0, false, []⟩
     s.cursor = .token 0 ∧ (s.tile 0).mx.queue = [⟨tw 1 tok, 0, 0, 0, [], none, 0, 0, 0, false, []⟩] ∧ mxStartAt (s.tile 0).mx.lastBusy (s.tile 0).mx.lastFinish (s.tile 0).mx.lastWasMm 0 1 ≤ s.cycle ∧
      (s.tile 0).mxOutside 1 tok = none ∧ (s.tile 0).mxOutside 0 tok = none ∧ (s.tile 0).mxOutside 3 dtok = none ∧ (s.tile 0).mxOutside 2 dtok = none ∧ 0 ≤ progAt (s.tile 0) 15 ∧ (s.tile 0).spoilt = []) ∧
    (let s := { tokSt ⟨tw 1 tok, 0, 0, 0, [], some 0, 40, 0, 0, false, []⟩ with cycle := 40 }
     (s.tile 0).mx.queue = [⟨tw 1 tok, 0, 0, 0, [], some 0, 40, 0, 0, false, []⟩] ∧ (40 : Nat) ≤ s.cycle) := by decide +kernel
/-- R67: a row of one times a column of one, on bf16: 32 products of 1 sum to 32 = 0x42000000. -/
theorem test_mmaz : runs (.mmaz tok) { tokSt ⟨tw 1 tok, 0, 0, 0, [], some 0, 40, 0, 0, false, []⟩ with cycle := 40 } (fun s => (s.tile 0).c.isEmpty) = true ∧
    mxProduct tok (List.replicate 256 [0x80#8, 0x3F#8]).flatten (List.replicate 256 [0x80#8, 0x3F#8]).flatten (fun _ => 0) = List.replicate 64 0x42000000 := by decide +kernel
/-- A DRAIN in progress at row 0, 8 by 8, its block complete or not. -/
def drainSt (d : Drain) : State :=
  { mxSt { Mx.fresh with queue := [⟨tw 2 dtok, 0, 0, 0, [], some 0, 0, 0, 0, false, []⟩], drain := some d } (fun x => { x with hdr := { Hdr.zero with abuf := 1, wbuf := 1, cbuf := 1 } }) with cursor := .epi 0 }
def d0 : Drain := ⟨0, 0, List.replicate 8 0x3F800000, .f32, [], 0, none⟩
theorem meets_EpilogueRowWords :
    (let s := drainSt d0
     s.cursor = .epi 0 ∧ (s.tile 0).mx.drain = some d0 ∧ (s.tile 0).mx.queue = [⟨tw 2 dtok, 0, 0, 0, [], some 0, 0, 0, 0, false, []⟩] ∧ d0.pc < 31) ∧
    (let x := (drainSt d0).tile 0
     (15 * 64 + 8 * 4 ≤ x.hdr.abuf * 1024 ∧ 15 * 64 + 0 * 8 * 2 + 8 * 2 ≤ x.hdr.abuf * 1024 ∧ 15 * 64 + 8 ≤ x.hdr.abuf * 1024 ∧ x.hdr.abuf * 1024 < 16 * 64 + 8 * 4)) ∧
    d0.block = none ∧ rowBytes { d0 with kind := .narrow .of8 } = [] := by decide +kernel
theorem meets_EpilogueWritingWords :
    (let s := drainSt { d0 with block := some ([1, 2], 120), blocks := 1 }
     s.cursor = .epi 0 ∧ (s.tile 0).mx.drain = some { d0 with block := some ([1, 2], 120), blocks := 1 } ∧ 15 * 64 + (1 - 1) + 1 ≤ (s.tile 0).hdr.abuf * 1024 ∧ rowBytes d0 ≠ [] ∧
      ((s.tile 0).out 3).sto.length + (beatsOf 3 (rowBytes d0)).length ≤ 64) ∧
    ({ d0 with row := 7 }.row + 1 = dtok.rows) ∧ d0.row + 1 ≠ dtok.rows ∧ (decodeTokenFields (tw 2 dtok)).rows = dtok.rows := by decide +kernel

/-! Engine commands: region 0 of context 1 owns every slot of engine 0 in cycle 0; one command, number 7, from tile 0. -/

def cmd (w1 w2 w3 w4 w5 w6 w7 : Nat) : Cmd :=
  ⟨⟨0#8, 0#16, 0#8, 0#8, 3#3, false, 0#2⟩, BitVec.ofNat 64 w1, BitVec.ofNat 64 w2, BitVec.ofNat 64 w3, BitVec.ofNat 64 w4, BitVec.ofNat 64 w5, BitVec.ofNat 64 w6, BitVec.ofNat 64 w7⟩
def cmd0 : CmdSt :=
  { uid := 7, issue := 3, region := 0, gen := 0, tile := 0, canon := 0, slot := 0, inst := 0, words := [], actx := none, cov := [], cport := none, bound := false, phase := .started, cycle := 0,
    pos := 0, bytes := 0, first := 1, lanes := [], row := [], acq := [], mark := 0, reason := 0, cut := [], beats := 0, delay := 0, extra := 0, host := false, since := 0, kept := [], head := 0, tail := 0 }
def c7 (i : Instr) : CmdSt := { cmd0 with words := cmdWordsOf i }
/-- A started command under the cursor, on an engine, with the context and memory as given. -/
def run7 (c : CmdSt) (eng : Nat) (mem : List (Nat × List Byte)) (f : Ctx → Ctx) : State :=
  let s := stT (.mov (nd .raw)) (v 1) none none fun x => { x with hdr := { Hdr.zero with abuf := 1, wbuf := 1 } }
  let s := { s with mem := mem.foldl (fun (m : Memory) (w : Nat × List Byte) => m.writeN w.1 w.2) [], cursor := .cmd 1 eng 7, tables := [(eng, { Table.fresh with now := [(0, ⟨1, true, false, false⟩)] })] }
  s.setCtx 1 (f { s.ctx 1 with queues := [(eng, { Queue.fresh with started := [c] })] })
theorem turn_of {s : State} {ctx eng : Nat} {c : CmdSt}
    (h : decide (s.startedOf ctx eng c.uid = some c ∧ c.phase = .started ∧ s.granted ctx eng = true ∧ s.turnOf ctx eng = some c.uid) = true) : AtTurn s ctx eng c := by have h1 := of_decide_eq_true h; exact h1
theorem placed_of {i : Instr} {s : State} {ctx eng : Nat} {c : CmdSt}
    (h : decide (s.cursor = .cmd ctx eng c.uid ∧ s.startedOf ctx eng c.uid = some c ∧ c.words = cmdWordsOf i ∧ c.phase = .started) = true) : Placed i s ctx eng c := by have h1 := of_decide_eq_true h; exact h1
theorem under_of {i : Instr} {s : State} {ctx eng : Nat} {c : CmdSt}
    (h : decide ((s.cursor = .cmd ctx eng c.uid ∧ s.startedOf ctx eng c.uid = some c ∧ c.words = cmdWordsOf i ∧ c.phase = .started) ∧
      s.granted ctx eng = true ∧ s.turnOf ctx eng = some c.uid) = true) : Under i s ctx eng c :=
  let h1 := of_decide_eq_true h
  ⟨h1.1, h1.1.2.1, h1.1.2.2.2, h1.2⟩
theorem physical_of {s : State} {c : CmdSt} (h : decide (c.actx = none ∧ isSup c.tile = false ∧ s.badBeats = [] ∧ s.tags = [] ∧ s.lines = []) = true) : Physical s c :=
  let h1 := of_decide_eq_true h
  ⟨h1.1, h1.2.1, h1.2.2.1, h1.2.2.2.1, meets_Settled h1.2.2.2.2⟩
/-- Command 7 after one step. -/
def after7 (i : Instr) (s : State) (eng : Nat) (p : State → CmdSt → Bool) : Bool := runs i s fun s1 => match s1.startedOf 1 eng 7 with | some d => p s1 d | none => false
/-- Performed with completion lanes, memory as it was after some writes. -/
def doneAs (i : Instr) (s : State) (eng : Nat) (lanes : List Nat) (ws : List (Nat × List Byte)) : Bool :=
  after7 i s eng fun s1 d => d.phase == .performed && d.lanes == lanes && s1.mem == writes s ws
def refusedAs (i : Instr) (s : State) (eng reason : Nat) : Bool := after7 i s eng fun s1 d => d.phase == .refused && d.reason == reason && s1.mem == s.mem
def bytes8 (ws : List Nat) : List Byte := ws.flatMap (leBytes 8)

theorem meets_CommandsCheckedAndStarted :
    let fill : Instr := .fill (cmd 0 0x4000 64 7 0xEE0000 0 0)
    let bad : Instr := .fill (cmd 0 0x4000 64 7 (2 ^ 40) 0 0)
    let q (i : Instr) (p : CmdPhase) : State := { run7 { c7 i with phase := p } 0 [] (fun c => { c with queues := [(0, { Queue.fresh with entries := [{ c7 i with phase := p }] })] }) with
      regions := [(0, { Region.fresh with ctx := 1, valid := true, phase := .running, tiles := [0], allTiles := [0] })] }
    let on (d : CmdSt) (f : Queue → Queue) : State := let s := q fill .queued; s.setCtx 1 { s.ctx 1 with queues := [(0, f { Queue.fresh with entries := [d] })] }
    ((q bad .queued).keepsQueued { c7 bad with phase := .queued } = false ∧ (q bad .queued).headTurn 0 { c7 bad with phase := .queued } = true ∧
      (∀ r ∈ (q bad .queued).regions, r.2.unbound = []) ∧ (c7 bad).cport = none) ∧
    (let s := (q fill .queued).setRegion 0 { (q fill .queued).region 0 with phase := .stopped }; s.keepsQueued { c7 fill with phase := .queued } = true) ∧
    (on { c7 fill with phase := .checked } fun x => { x with started := [c7 fill] }).canAdvance 1 0 = true ∧
    8 ≤ (((on { c7 fill with phase := .checked } fun x => { x with started := List.replicate 8 (c7 fill) }).ctx 1).queue 0).running.length ∧
    ((c7 (.travrd (cmd 0x4000 64 0 0 0 0 0))).cls = 1 ∧ (0 : Nat) / 8 % 4 ≠ 3 ∧ (tget? { State.reset with dcwait := [(0, 5)] }.dcwait (0 % 8)).isSome = true) ∧
    (let c : CmdSt := { c7 (.fill { cmd 0 0x4000 64 7 0xEE0000 0 0 with hdr := ⟨0#8, 1#16, 9#8, 0#8, 3#3, false, 0#2⟩ }) with phase := .checked }
     c.thr ≠ 0 ∧ ((on c id).ctx 1 |>.sem c.wsem).value < c.thr) ∧
    (let c : CmdSt := { c7 (.fill { cmd 0 0x4000 64 7 0xEE0000 0 0 with hdr := ⟨0#8, 0#16, 0#8, 0#8, 3#3, true, 0#2⟩ }) with phase := .checked }
     c.barrier = true ∧ (((on c fun x => { x with started := [c7 fill] }).ctx 1).queue 0).started ≠ []) ∧
    ((q bad .queued).portPending 1 { c7 bad with phase := .queued } = false ∧ (q bad .queued).endLoaded { c7 bad with phase := .queued } = true ∧
      (q bad .queued).cmdCheck { c7 bad with phase := .queued } 1 0 ≠ none) ∧
    ((q fill .queued).cmdCheck { c7 fill with phase := .queued } 1 0 = none ∧ { c7 fill with phase := .queued }.portBeats = 0) ∧
    (q fill .checked).mayStart 1 0 { c7 fill with phase := .checked } = true := by decide +kernel
/-- A read traverse of two beats at 0x4000 to port 0 of tile 0. -/
def trav : Cmd := cmd (0x4000 + 4 * 2 ^ 61) (64 + 1 * 2 ^ 40) 0 0 0 0 0
theorem meets_endpoint_check :
    let c : CmdSt := { c7 (.travrd trav) with phase := .queued }
    let s := run7 c 0 [] (fun x => { x with queues := [(0, { Queue.fresh with entries := [c] })] })
    s.endPorts c = [(0, 0)] ∧ c.portBeats = 2 ∧ c.bound = false ∧ s.portPending 1 c = false ∧ s.endLoaded c = true := by decide +kernel
/-- A performed FILL whose completion is owed to port 0 at instant 5. -/
def doneSt (c : CmdSt) (p : InPort) : State := onT (port p) (run7 c 0 [] id)
def cdone : CmdSt := { c7 (.fill (cmd 0 0x4000 64 7 0xEE0000 0 0)) with phase := .performed, cport := some 0, bytes := 64 }
theorem meets_CommandsComplete :
    let p : InPort := { InPort.fresh with bind := .engine 2, due := [⟨7, 5, 1, false⟩] }
    ((doneSt cdone p).startedOf 1 0 7 = some cdone ∧ (doneSt cdone p).timeToPresent 1 0 cdone = true ∧ (doneSt cdone p).stale cdone = false ∧ ((doneSt cdone p).tile 0 |>.inPort 0).sampled = false ∧
      ((doneSt cdone p).tile 0 |>.inPort 0).due.find? (fun o => o.by_ == cdone.uid) = some ⟨7, 5, 1, false⟩) ∧
    ((doneSt { cdone with gen := 9 } p).stale { cdone with gen := 9 } = true ∧ (doneSt { cdone with gen := 9 } p).startedOf 1 0 7 = some { cdone with gen := 9 }) ∧
    (let q : InPort := { InPort.fresh with sampled := true, held := List.replicate 8 (1, Beat.none) }
     ((doneSt cdone q).tile 0 |>.inPort 0).sampled = true ∧ 8 ≤ ((doneSt cdone q).tile 0 |>.inPort 0).held.length) := by decide +kernel
theorem meets_ReadTraversesDeliver :
    Placed (.travrd trav) (run7 (c7 (.travrd trav)) 0 [] id) 1 0 (c7 (.travrd trav)) ∧ setUp (c7 (.travrd trav)) = false ∧
    (run7 (c7 (.travrd trav)) 0 [] id).holdsStream (c7 (.travrd trav)) = false ∧
    Placed (.travmc { trav with w6 := 2#64 }) (run7 (c7 (.travmc { trav with w6 := 2#64 })) 0 [] id) 1 0 (c7 (.travmc { trav with w6 := 2#64 })) :=
  ⟨placed_of (by decide +kernel), by decide +kernel, by decide +kernel, placed_of (by decide +kernel)⟩
/-- The same set up, with memory at its first beat. -/
def ctrav (cc : Cmd) : CmdSt := { c7 (.travrd cc) with mark := 2 }
def travSt (cc : Cmd) (p : InPort) : State := onT (port p) (run7 (ctrav cc) 0 [(0x4000, [1#8, 2#8, 3#8, 4#8])] id)
theorem meets_traverse_beat :
    let s := travSt trav InPort.fresh
    let c := ctrav trav
    AtTurn s 1 0 c ∧ setUp c = true ∧ c.cls = 1 ∧ c.kind ≠ 2 ∧ c.kept = [] ∧ c.cut = [] ∧ c.windowBad = false ∧ s.stale c = false ∧ c.endPt.map (·.ekind) = some 0 ∧
    s.endPorts c = [(0, 0)] ∧ ((s.tile 0).inPort 0).streamRoom = true ∧ c.trav.esz = 64 ∧ isOk (s.cmdReach 0 c false (c.trav.addr 0) 64) = true :=
  ⟨turn_of (by decide +kernel), by decide +kernel⟩
/-- One byte an element, two a row: zero-filled to 64. -/
def travB : Cmd := cmd 0x4000 (1 + 1 * 2 ^ 40) 0 0 0 0 0
theorem meets_traverse_row :
    let s := travSt travB InPort.fresh
    let c := ctrav travB
    Physical s c ∧ c.trav.rowBytes ≤ 64 ∧ c.pos = 0 * c.trav.count 0 ∧ c.trav.count 0 = 2 ∧ ∀ j, j < 2 → 0 ≤ c.trav.addr (c.pos + j) ∧ near (c.trav.addr (c.pos + j)).toNat c.trav.esz :=
  ⟨physical_of (by decide +kernel), by decide +kernel, by decide +kernel, by decide +kernel, by unfold near; decide +kernel⟩
theorem test_traverse_beat : runs (.traverseBeat 1 0 7) (travSt travB { InPort.fresh with fin := .f32, fout := .f32 }) (fun s => tget? ((s.tile 0).inPort 0).arrived 1 == v 0x0201) = true ∧
    runs (.traverseBeat 1 0 7) (travSt trav { InPort.fresh with fin := .f32, fout := .f32 }) (fun s => tget? ((s.tile 0).inPort 0).arrived 1 == v 0x04030201) = true := by decide +kernel
theorem meets_traverse_no_room : ((travSt trav { InPort.fresh with arrived := List.replicate 64 (9, Beat.none) }).tile 0 |>.inPort 0).streamRoom = false := by decide +kernel
/-- A write traverse of two beats from port 3 of tile 0. -/
def travW : Cmd := { trav with w6 := BitVec.ofNat 64 (3 * 2 ^ 15) }
def cw (m : Nat) : CmdSt := { c7 (.travwr travW) with mark := m }
def wSt (m : Nat) (o : OutPort) : State := onT (fun x => x.setOut 3 o) (run7 (cw m) 0 [] id)
theorem meets_WriteTraversesStore :
    Placed (.travwr travW) (wSt 0 OutPort.fresh) 1 0 (cw 0) ∧ (wSt 0 OutPort.fresh).holdsStream (cw 0) = false ∧ (cw 0).endPt.map (·.ekind) = some 0 ∧ (wSt 0 OutPort.fresh).holder 0 0 = some 0 ∧ setUp (cw 0) = false ∧
    (let s := { wSt 2 { OutPort.fresh with trav := some 7, q := [(0, Beat.val 5#512)] } with actctx := [] }
     AtTurn s 1 0 (cw 2) ∧ setUp (cw 2) = true ∧ (cw 2).windowBad = false ∧ (cw 2).trav.esz = 64 ∧
      (match s.cmdReach 0 (cw 2) true ((cw 2).trav.addr 0) 64 with | .ok [p] => p.len == 64 && p.x.loc == 0x4000 && sameKey s p | _ => false) = true ∧ s.cmdCtx 0 = 1 ∧ (s.ctx 1).engineOf 7 = some 0) ∧
    (let c : CmdSt := { c7 (.travwr { trav with w6 := BitVec.ofNat 64 (1 + 2 ^ 19 + 2 * 2 ^ 21) }) with mark := 2 }
     let s := run7 c 0 [] id
     c.endPt.map (fun e => (e.ekind, e.circ, e.offset)) = some (1, false, 2) ∧ (2 + c.pos) * 64 + 64 ≤ (s.tile 0).bufSize 1) :=
  ⟨placed_of (by decide +kernel), by decide +kernel, by decide +kernel, by decide +kernel, by decide +kernel, ⟨turn_of (by decide +kernel), by decide +kernel⟩, by decide +kernel⟩
theorem test_travwr : runs (.travwrBeat 0 3) (wSt 2 { OutPort.fresh with trav := some 7, q := [(0, Beat.val 5#512)] }) (fun s => s.mem == [(0x4000, 5#8)] && (s.tile 0 |>.out 3).q.isEmpty) = true := by decide +kernel
/-- A multicast over group 5 to port 0 of tile 0, which has no room; it holds its second beat. The fork's entry with a limit of 2^10 cycles, DETACH or not. -/
def travM : Cmd := { trav with w6 := BitVec.ofNat 64 (2 + 5 * 2 ^ 35) }
def cm : CmdSt := { c7 (.travmc travM) with mark := 2, pos := 1, row := List.replicate 64 5#8 }
def fork5 (detach : Bool) : PortCfg := ⟨0, 0, BitVec.ofNat 64 (2 ^ 34 + (if detach then 2 ^ 35 else 0) + 10 * 2 ^ 36 + 5 * 2 ^ 42), .unbound⟩
def mSt (detach : Bool) (cycle : Nat) : State :=
  let s := onT (port { InPort.fresh with arrived := List.replicate 64 (9, Beat.none) }) (run7 cm 0 [] id)
  let s := s.setRegion 0 { s.region 0 with cfg := { s.region 0 |>.cfg with groups := [(5, 0, 0)], ports := [fork5 detach] } }
  { s with cycle := cycle }
theorem meets_MulticastStalls :
    ((mSt true 0).startedOf 1 0 7 = some cm ∧ setUp cm = true ∧ cm.kind = 3 ∧ cm.phase = .started ∧ (mSt true 0).stale cm = false ∧
      ((mSt true 0).livePorts cm).find? (fun q => q.2 == 0) = some ((0, 0), 0) ∧ ((mSt true 0).tile 0 |>.inPort 0).streamRoom = false ∧
      ((mSt true 0).region cm.region).forkEntry ((cm.endPt.getD default).group) ((mSt true 0).tile 0).canon 0 = some (fork5 true)) ∧
    (mSt true 0).cycle < cm.since + stallLimit (fork5 true).legend ∧ { cm with pos := 0, row := [] }.holdsBeat = false ∧ cm.holdsBeat = true ∧
    (cm.since + stallLimit (fork5 true).legend ≤ (mSt true 1024).cycle ∧ ((mSt true 1024).region 0).susp = false ∧ ((mSt true 1024).tileRegion 0).susp = false ∧
      bitAt (fork5 true).legend 35 = true ∧ bitAt (fork5 false).legend 35 = false) ∧
    ((mSt false 1024).region cm.region).forkEntry ((cm.endPt.getD default).group) ((mSt false 1024).tile 0).canon 0 = some (fork5 false) := by decide +kernel

/-! Copies. -/

def copyC : Cmd := cmd 0x1000 0x2000 3 0 0 0 0
def copyMem : List (Nat × List Byte) := [(0x1000, [1#8, 2#8, 3#8, 4#8])]
def bufC : Cmd := cmd 0x1000 0 64 0 0x1000000 (1 + 1 * 2 ^ 19 + 3 * 2 ^ 21) 0
theorem meets_CopyCommandsMove :
    Under (.copy copyC) (run7 (c7 (.copy copyC)) 0 copyMem id) 1 0 (c7 (.copy copyC)) ∧ Physical (run7 (c7 (.copy copyC)) 0 copyMem id) (c7 (.copy copyC)) ∧ near 0x1000 3 ∧ near 0x2000 3 ∧
    Under (.copy bufC) (run7 (c7 (.copy bufC)) 0 copyMem id) 1 0 (c7 (.copy bufC)) ∧
    (bitAt bufC.w5 24 = true ∧ (endOf bufC.w6).ekind = 1 ∧ (endOf bufC.w6).circ = false ∧ (run7 (c7 (.copy bufC)) 0 copyMem id).stale (c7 (.copy bufC)) = false ∧
      (run7 (c7 (.copy bufC)) 0 copyMem id).holder 0 0 = some 0 ∧ (endOf bufC.w6).offset * 64 + 64 ≤ ((run7 (c7 (.copy bufC)) 0 copyMem id).tile 0).bufSize (endOf bufC.w6).buf) := by
  refine ⟨under_of (by decide +kernel), physical_of (by decide +kernel), ?_, ?_, under_of (by decide +kernel), by decide +kernel⟩ <;> unfold near <;> decide
theorem test_copy : doneAs (.copy copyC) (run7 (c7 (.copy copyC)) 0 copyMem id) 0 [] [(0x2000, [1#8, 2#8, 3#8])] = true ∧
    after7 (.copy bufC) (run7 (c7 (.copy bufC)) 0 copyMem id) 0 (fun s d => d.phase == .performed && ((s.tile 0).buf (endOf bufC.w6).buf).readN 192 4 == [1#8, 2#8, 3#8, 4#8]) = true := by decide +kernel
def fillC : Cmd := cmd 0 0x2001 10 0x0807060504030201 0 0 0
theorem meets_fill : Under (.fill fillC) (run7 (c7 (.fill fillC)) 0 [] id) 1 0 (c7 (.fill fillC)) ∧ bitAt fillC.w5 24 = false := ⟨under_of (by decide +kernel), by decide +kernel⟩
theorem test_fill : doneAs (.fill fillC) (run7 (c7 (.fill fillC)) 0 [] id) 0 [] [(0x2001, [1#8, 2#8, 3#8, 4#8, 5#8, 6#8, 7#8, 8#8, 1#8, 2#8])] = true := by decide +kernel
/-- Rows of two bytes, the indices 3 and 1 at 0x3000. -/
def gathC : Cmd := cmd 0x1000 0x2000 2 0x3000 2 0 0
def gathMem : List (Nat × List Byte) := [(0x1000, [1#8, 2#8, 3#8, 4#8, 5#8, 6#8, 7#8, 8#8]), (0x3000, leBytes 4 3 ++ leBytes 4 1)]
theorem meets_gather : Under (.gather gathC) (run7 (c7 (.gather gathC)) 0 gathMem id) 1 0 (c7 (.gather gathC)) ∧ Under (.scatter gathC) (run7 (c7 (.scatter gathC)) 0 gathMem id) 1 0 (c7 (.scatter gathC)) ∧
    Apart [(0x2000, 4), (0x3000, 8)] ∧ Apart [(0x2000, 4), (0x1006, 2)] ∧ Apart [(0x2006, 2), (0x1000, 4)] ∧ Apart [(0x2006, 2), (0x3000, 8)] := by
  refine ⟨under_of (by decide +kernel), under_of (by decide +kernel), ?_, ?_, ?_, ?_⟩ <;> unfold Apart <;> decide
theorem test_gather_scatter : doneAs (.gather gathC) (run7 (c7 (.gather gathC)) 0 gathMem id) 0 [] [(0x2000, [7#8, 8#8, 3#8, 4#8])] = true ∧
    doneAs (.scatter gathC) (run7 (c7 (.scatter gathC)) 0 gathMem id) 0 [] [(0x2006, [1#8, 2#8]), (0x2002, [3#8, 4#8])] = true := by decide +kernel

/-! Collectives of two members, both of this part: instances 0 and 1 of region 0. -/

def colC (src dst n g : Nat) : Cmd := cmd src dst (n + 6 * 2 ^ 40) g 0 0 0
def colSt (k0 k1 : Cmd → Instr) (cc0 cc1 : Cmd) : State :=
  let c0 := c7 (k0 cc0)
  let c1 : CmdSt := { c7 (k1 cc1) with uid := 8, canon := 1 }
  let mem := [(0x9000, leBytes 4 2 ++ leBytes 4 0 ++ leBytes 4 (2 ^ 10)), (0x1000, leBytes 4 5 ++ leBytes 4 6), (0x2000, leBytes 4 10 ++ leBytes 4 0xFFFFFFFF)]
  run7 c0 8 mem fun x => { x with colgrp := [(2, 0x9000)], queues := [(8, { Queue.fresh with started := [c0] }), (9, { Queue.fresh with started := [c1] })] }
/-- The same, both sources of n bytes read. -/
def colRead (k0 k1 : Cmd → Instr) (cc0 cc1 : Cmd) (n : Nat) : State :=
  let s := colSt k0 k1 cc0 cc1
  let c0 : CmdSt := { c7 (k0 cc0) with pos := n, row := s.peekN 0x1000 n }
  let c1 : CmdSt := { c7 (k1 cc1) with uid := 8, canon := 1, pos := n, row := s.peekN 0x2000 n }
  s.setCtx 1 { s.ctx 1 with queues := [(8, { Queue.fresh with started := [c0] }), (9, { Queue.fresh with started := [c1] })] }
/-- Both members' results. -/
def colRows (i : Instr) (s : State) : Option (List Byte × List Byte) :=
  match exec i s with
  | .next s1 => (match s1.startedOf 1 8 7, s1.startedOf 1 9 8 with | some a, some b => if begun a && begun b then some (a.row, b.row) else none | _, _ => none)
  | _ => none
theorem meets_CollectivesCombineSources :
    let s := colSt .allred .allred (colC 0x1000 0x5000 2 2) (colC 0x2000 0x6000 2 2)
    let c0 := c7 (.allred (colC 0x1000 0x5000 2 2))
    let c1 : CmdSt := { c7 (.allred (colC 0x2000 0x6000 2 2)) with uid := 8, canon := 1 }
    Under (.allred (colC 0x1000 0x5000 2 2)) s 1 8 c0 ∧ Physical s c0 ∧ Physical s c1 ∧
    (groupMembers s 1 none 2 = some [(0, 0, 0), (0, 0, 1)] ∧ s.partid = 0 ∧ begun c0 = false ∧ begun c1 = false ∧ sentOff c0 = false ∧ sentOff c1 = false ∧ s.startedOf 1 9 8 = some c1 ∧
      s.memberCmd 1 (0, 0, 0) (fun d => d.colKind ≤ 3 && d.colGroup == 2) = some (8, c0) ∧ s.memberCmd 1 (0, 0, 1) (fun d => d.colKind ≤ 3 && d.colGroup == 2) = some (9, c1) ∧
      c1.colKind = c0.colKind ∧ c1.colN = 2 ∧ c0.colTy = .n32 ∧ c1.colTy = .n32 ∧ c0.colOp = 0 ∧ c1.colOp = 0 ∧
      c1.w 3 = c0.w 3 ∧ (c0.pos, c0.row, c1.pos, c1.row) = (0, [], 0, [])) :=
  ⟨under_of (by decide +kernel), physical_of (by decide +kernel), physical_of (by decide +kernel), by decide +kernel⟩
theorem meets_CollectivesCombineSources_read :
    let s := colRead .allred .allred (colC 0x1000 0x5000 2 2) (colC 0x2000 0x6000 2 2) 8
    let c0 : CmdSt := { c7 (.allred (colC 0x1000 0x5000 2 2)) with pos := 8, row := leBytes 4 5 ++ leBytes 4 6 }
    let c1 : CmdSt := { c7 (.allred (colC 0x2000 0x6000 2 2)) with uid := 8, canon := 1, pos := 8, row := leBytes 4 10 ++ leBytes 4 0xFFFFFFFF }
    Under (.allred (colC 0x1000 0x5000 2 2)) s 1 8 c0 ∧ Physical s c0 ∧ Physical s c1 ∧
    (groupMembers s 1 none 2 = some [(0, 0, 0), (0, 0, 1)] ∧ s.startedOf 1 9 8 = some c1 ∧
      s.memberCmd 1 (0, 0, 0) (fun d => d.colKind ≤ 3 && d.colGroup == 2) = some (8, c0) ∧ s.memberCmd 1 (0, 0, 1) (fun d => d.colKind ≤ 3 && d.colGroup == 2) = some (9, c1)) :=
  ⟨under_of (by decide +kernel), physical_of (by decide +kernel), physical_of (by decide +kernel), by decide +kernel⟩
/-- Writing the sums of ALLRED. -/
theorem meets_CollectivesCombineSources_begun :
    let c0 : CmdSt := { c7 (.allred (colC 0x1000 0x5000 2 2)) with pos := 8, mark := 8, row := leBytes 4 15 ++ leBytes 4 5 }
    let s := run7 c0 8 [(0x9000, leBytes 4 2 ++ leBytes 4 0 ++ leBytes 4 (2 ^ 10))] fun x => { x with colgrp := [(2, 0x9000)] }
    Under (.allred (colC 0x1000 0x5000 2 2)) s 1 8 c0 ∧ Physical s c0 ∧ (groupMembers s 1 none 2 = some [(0, 0, 0), (0, 0, 1)] ∧ begun c0 = true ∧ c0.bytes = 0) :=
  ⟨under_of (by decide +kernel), physical_of (by decide +kernel), by decide +kernel⟩
theorem test_allred : colRows (.allred (colC 0x1000 0x5000 2 2)) (colRead .allred .allred (colC 0x1000 0x5000 2 2) (colC 0x2000 0x6000 2 2) 8) =
    some (leBytes 4 15 ++ leBytes 4 5, leBytes 4 15 ++ leBytes 4 5) := by decide +kernel
theorem test_allgath : colRows (.allgath (colC 0x1000 0x5000 1 2)) (colRead .allgath .allgath (colC 0x1000 0x5000 1 2) (colC 0x2000 0x6000 1 2) 4) =
    some (leBytes 4 5 ++ leBytes 4 10, leBytes 4 5 ++ leBytes 4 10) := by decide +kernel
theorem test_redscat : colRows (.redscat (colC 0x1000 0x5000 1 2)) (colRead .redscat .redscat (colC 0x1000 0x5000 1 2) (colC 0x2000 0x6000 1 2) 8) =
    some (leBytes 4 15, leBytes 4 5) := by decide +kernel
def sendC : Cmd := cmd 0x1000 0 (2 + 6 * 2 ^ 40) (2 + 1 * 2 ^ 16 + 9 * 2 ^ 32) 0 0 0
def recvC : Cmd := cmd 0 0x6000 (2 + 6 * 2 ^ 40) (2 + 0 * 2 ^ 16 + 9 * 2 ^ 32) 0 0 0
theorem meets_TransfersMatch :
    let s := colSt .xsend .xrecv sendC recvC
    let c0 := c7 (.xsend sendC)
    let c1 : CmdSt := { c7 (.xrecv recvC) with uid := 8, canon := 1 }
    Under (.xsend sendC) s 1 8 c0 ∧
    (bitsNat sendC.w4 16 16 = 1 ∧ s.memberCmd 1 (0, 0, 1) (fun d => d.colKind == 5 && d.colGroup == 2 && d.colPeer == 0 && d.colTag == c0.colTag) = some (9, c1) ∧
      s.memberCmd 1 (0, 0, 0) (fun d => d.colKind == 4 && d.colGroup == 2 && d.colPeer == 1 && d.colTag == c0.colTag) = some (8, c0)) := ⟨under_of (by decide +kernel), by decide +kernel⟩
theorem test_xsend : (colRows (.xsend sendC) (colSt .xsend .xrecv sendC recvC)).map (·.2) = some (leBytes 4 5 ++ leBytes 4 6) := by decide +kernel
/-- A collective begun, its result held; XRECV writes it. -/
def recvSt : State :=
  run7 { c7 (.xrecv { recvC with w4 := BitVec.ofNat 64 (2 + 1 * 2 ^ 16 + 9 * 2 ^ 32) }) with mark := 8, row := leBytes 4 5 ++ leBytes 4 6 } 8
    [(0x9000, leBytes 4 2 ++ leBytes 4 0 ++ leBytes 4 (2 ^ 10))] fun x => { x with colgrp := [(2, 0x9000)] }
theorem meets_TransfersMatch_begun :
    let c0 : CmdSt := { c7 (.xrecv { recvC with w4 := BitVec.ofNat 64 (2 + 1 * 2 ^ 16 + 9 * 2 ^ 32) }) with mark := 8, row := leBytes 4 5 ++ leBytes 4 6 }
    Under (.xrecv { recvC with w4 := BitVec.ofNat 64 (2 + 1 * 2 ^ 16 + 9 * 2 ^ 32) }) recvSt 1 8 c0 ∧ begun c0 = true ∧ groupMembers recvSt 1 none 2 = some [(0, 0, 0), (0, 0, 1)] ∧ c0.bytes = 0 ∧
    (let c1 : CmdSt := { c7 (.xsend sendC) with uid := 8, canon := 1, mark := 8 }
     let s := recvSt.setCtx 1 { recvSt.ctx 1 with queues := [(8, { Queue.fresh with started := [{ c0 with acq := [8] }] }), (9, { Queue.fresh with started := [c1] })] }
     s.startedOf 1 8 7 = some { c0 with acq := [8] } ∧ s.turnOf 1 8 = some 7 ∧ (s.ctx 1).engineOf 8 = some 9) :=
  ⟨under_of (by decide +kernel), by decide +kernel, by decide +kernel, by decide +kernel, by decide +kernel⟩
theorem test_xrecv : doneAs (.xrecv { recvC with w4 := BitVec.ofNat 64 (2 + 1 * 2 ^ 16 + 9 * 2 ^ 32) }) recvSt 8 [2] [(0x6000, leBytes 4 5 ++ leBytes 4 6)] = true := by decide +kernel

/-! The sampler: R267's example has three logits, 2.0, 2.0 and 1.0. -/

def smpMem (chain : List Byte) : List (Nat × List Byte) :=
  [(0x4000, leBytes 4 0x40000000 ++ leBytes 4 0x40000000 ++ leBytes 4 0x3F800000), (0x1000, bytes8 [0, 0, 0, 0, 0, 0x8000, 0, 0]), (0x8000, chain)]
def smpC : Cmd := cmd 0x4000 2 0x5000 0 0 0 0
def smpSt (i : Instr) (chain : List Byte) : State := run7 (c7 i) 16 (smpMem chain) fun x => { x with seqbase := 0x1000, seqsize := 4 }
theorem meets_SamplerChooses :
    Under (.argmax smpC) (smpSt (.argmax smpC) []) 1 16 (c7 (.argmax smpC)) ∧ Physical (smpSt (.argmax smpC) []) (c7 (.argmax smpC)) ∧
    Under (.sample smpC) (smpSt (.sample smpC) [9#8, 1#8]) 1 16 (c7 (.sample smpC)) ∧
    ((smpSt (.sample smpC) [9#8, 1#8]).peekN 0x8000 64 = [9#8, 1#8] ++ List.replicate 62 0#8 ∧ seqChain (slotAt (smpSt (.sample smpC) [9#8, 1#8]) ((smpSt (.sample smpC) [9#8, 1#8]).ctx 1) 0) = 0x8000) :=
  ⟨under_of (by decide +kernel), physical_of (by decide +kernel), under_of (by decide +kernel), by decide +kernel⟩
theorem test_argmax : doneAs (.argmax smpC) (smpSt (.argmax smpC) []) 16 [0, 3] [(0x5000, leBytes 4 0)] = true := by decide +kernel
theorem test_sample : doneAs (.sample smpC) (smpSt (.sample smpC) [9#8, 1#8]) 16 [0, 3] [(0x5000, leBytes 4 0)] = true ∧
    refusedAs (.sample smpC) (smpSt (.sample smpC) [1#8, 1#8]) 16 10 = true := by decide +kernel
theorem meets_no_finite_logit : refusedAs (.argmax { smpC with w1 := 0x7000#64, w2 := 0#64 }) (run7 (c7 (.argmax { smpC with w1 := 0x7000#64, w2 := 0#64 })) 16 [(0x7000, leBytes 4 0x7FC00000)] id) 16 9 = true := by decide +kernel
/-- A command of the KVP and SQE unit. -/
theorem meets_UnitCommandsApplyWhole : Under (.pgstat (cmd 0 0 0 0 0 0 0)) (run7 (c7 (.pgstat (cmd 0 0 0 0 0 0 0))) 24 [] id) 1 24 (c7 (.pgstat (cmd 0 0 0 0 0 0 0))) := under_of (by decide +kernel)

/-! KV pages and sequences: slots at 0x1000, pool 0 at 0x2000 with entries at 0x3000, frames at 0x100000 and the free stack at 0x4000; the page lists of sequences 0 and 1 at
0x5000 and 0x5100, their areas at 0x6000 and 0x7000; the egress entry at 0x9000, its ring at 0xA000, its counter at 0xB000. -/

/-- A slot: state and flags, length, remain, tail. -/
def slotW (w0 len rem plist area tail : Nat) : List Byte := bytes8 [w0, len + rem * 2 ^ 32, plist, area, tail, 0x8000, 0, 4 * 2 ^ 20]
def kvMem (s0 s1 : List Byte) (free : Nat) (l0 : Nat × List Nat) (ents : List (Nat × Nat × Nat)) : List (Nat × List Byte) :=
  [(0x1000, s0), (0x1040, s1), (0x2000, bytes8 [0x3000, 0x100000, 16 + 64 * 2 ^ 32, free + 1 * 2 ^ 32, 0x4000, 0, 0, 0]), (0x4000, leBytes 4 5 ++ leBytes 4 6 ++ leBytes 4 7),
   (0x5000, leBytes 4 l0.1 ++ leBytes 4 8), (0x5040, l0.2.flatMap (leBytes 4)), (0x9000, bytes8 [0xA000, 0xB000, 4, 0]), (0x5104, leBytes 4 8)] ++
  ents.map fun e => (0x3000 + 8 * e.1, leBytes 8 (entNat e.2.1 e.2.2 false e.1))
def kvSt (i : Instr) (mem : List (Nat × List Byte)) : State := run7 (c7 i) 24 mem fun x => { x with seqbase := 0x1000, seqsize := 4, pooltab := 0x2000, egrtab := 0x9000, egrcnt := 1 }
theorem meets_kv {i : Instr} {s : State} {ix : Nat}
    (h : decide ((s.cursor = .cmd 1 24 (c7 i).uid ∧ s.startedOf 1 24 (c7 i).uid = some (c7 i) ∧ (c7 i).words = cmdWordsOf i ∧ (c7 i).phase = .started) ∧
      s.granted 1 24 = true ∧ s.turnOf 1 24 = some (c7 i).uid) = true)
    (h1 : s.badBeats = [])
    (h2 : decide (let q := slotAt s (s.ctx 1) ix
      let p := poolAt s (s.ctx 1) (seqPool q)
      (s.ctx 1).seqbase + 64 * ix + 64 ≤ 0xC000000000 ∧ (s.ctx 1).pooltab ≠ 0 ∧ p.va + 64 ≤ 0xC000000000 ∧ p.pbytes ≠ 0 ∧ p.pbytes % 64 = 0 ∧ seqPlist q + 8 ≤ 0xC000000000) = true) (ht : s.tags = [] := by rfl) (hl : s.lines = [] := by rfl) :
    Under i s 1 24 (c7 i) ∧ Physical s (c7 i) ∧ SeqOk s (s.ctx 1) ix := by
  refine ⟨under_of h, ⟨rfl, rfl, h1, ht, meets_Settled hl⟩, ?_⟩
  have h3 := of_decide_eq_true h2
  exact h3
/-- A page entry of pool 0. -/
theorem page_of {s : State} {page refs fill : Nat} (hp : page < 16 := by decide) (hf : fill ≤ 8 := by decide) (hr : refs < 2 ^ 16 := by decide)
    (h : decide ((poolAt s (s.ctx 1) 0).pages = 16 ∧ (poolAt s (s.ctx 1) 0).pp = 8 ∧ (poolAt s (s.ctx 1) 0).ptab = 0x3000 ∧ s.peekNat (0x3000 + 8 * page) 8 = entNat refs fill false page) = true) :
    Page s (poolAt s (s.ctx 1) 0) page refs fill false := by
  have h1 := of_decide_eq_true h
  refine ⟨by omega, ?_, hr, by omega, by rw [h1.2.2.1]; exact h1.2.2.2⟩
  unfold near; omega
/-- Sequence 0: RUNNING, three tokens in page 2; sequence 1 FREE. -/
def run1 : List Byte := slotW 2 3 0 0x5000 0x6000 3
def pgA : Instr := .pgalloc (cmd 0 1 0 0 0 0 0)
def pgallocSt (free : Nat) : State := kvSt pgA (kvMem run1 [] free (1, [2]) [(2, 1, 3), (7, 0, 0)])
theorem meets_KvPageCommands : (Under pgA (pgallocSt 3) 1 24 (c7 pgA) ∧ Physical (pgallocSt 3) (c7 pgA) ∧ SeqOk (pgallocSt 3) ((pgallocSt 3).ctx 1) 0) ∧
    (let s := pgallocSt 3; s.peekNat (0x2000 + 24) 4 = 3 ∧ s.peekNat 0x5000 8 % 2 ^ 32 = 1 ∧ s.peekNat 0x5000 8 / 2 ^ 32 = 8 ∧ s.peekNat (0x4000 + 8) 4 = 7) ∧
    Page (pgallocSt 3) (poolAt (pgallocSt 3) ((pgallocSt 3).ctx 1) 0) 7 0 0 false := ⟨meets_kv (by decide +kernel) rfl (by decide +kernel), by decide +kernel, page_of (h := by decide +kernel)⟩
theorem test_pgalloc : doneAs pgA (pgallocSt 3) 24 [0, 0] [(0x3038, leBytes 8 (entNat 1 0 false 7)), (0x2018, leBytes 4 2), (0x5044, leBytes 4 7), (0x5000, leBytes 4 2)] = true ∧
    refusedAs pgA (pgallocSt 0) 24 3 = true := by decide +kernel
def pgF (j : Nat) : Instr := .pgfree (cmd 0 j 0 0 0 0 0)
def pgfreeSt (j refs : Nat) : State := kvSt (pgF j) (kvMem (slotW 2 0 0 0x5000 0x6000 0) [] 2 (1, [2]) [(2, refs, 3)])
theorem meets_pgfree : (Under (pgF 0) (pgfreeSt 0 1) 1 24 (c7 (pgF 0)) ∧ Physical (pgfreeSt 0 1) (c7 (pgF 0)) ∧ SeqOk (pgfreeSt 0 1) ((pgfreeSt 0 1).ctx 1) 0) ∧
    Page (pgfreeSt 0 1) (poolAt (pgfreeSt 0 1) ((pgfreeSt 0 1).ctx 1) 0) 2 1 3 false ∧ Page (pgfreeSt 0 5) (poolAt (pgfreeSt 0 5) ((pgfreeSt 0 5).ctx 1) 0) 2 5 3 false :=
  ⟨meets_kv (by decide +kernel) rfl (by decide +kernel), page_of (h := by decide +kernel), page_of (h := by decide +kernel)⟩
theorem test_pgfree : doneAs (pgF 0) (pgfreeSt 0 1) 24 [0, 0] [(0x3010, leBytes 8 (entNat 0 3 false 2)), (0x4008, leBytes 4 2), (0x2018, leBytes 4 3), (0x5000, leBytes 4 0)] = true ∧
    doneAs (pgF 0) (pgfreeSt 0 5) 24 [0, 0] [(0x3010, leBytes 8 (entNat 4 3 false 2)), (0x5000, leBytes 4 0)] = true ∧ refusedAs (pgF 2) (pgfreeSt 2 1) 24 5 = true ∧
    doneAs (pgF 1) (pgfreeSt 1 1) 24 [0, 0] [(0x5000, leBytes 4 1)] = true := by decide +kernel
/-- A fork of sequence 0 into 1 that inherits; its list at 0x5100. -/
def pgK : Instr := .pgfork (cmd 0 (1 + 2 ^ 12) 0x7000 0x5100 0 0 0)
def pgforkSt (refs : Nat) : State := kvSt pgK (kvMem run1 [] 2 (1, [2]) [(2, refs, 3)])
theorem meets_pgfork : (Under pgK (pgforkSt 1) 1 24 (c7 pgK) ∧ Physical (pgforkSt 1) (c7 pgK) ∧ SeqOk (pgforkSt 1) ((pgforkSt 1).ctx 1) 0) ∧
    (let s := pgforkSt 1; let q := slotAt s (s.ctx 1) 0; seqState q = 2 ∧ seqState (slotAt s (s.ctx 1) 1) = 0 ∧ seqRetpend (slotAt s (s.ctx 1) 1) = false ∧ seqLength q = 3 ∧ seqCap q = 4 ∧
      1 ≤ s.peekNat 0x5100 8 / 2 ^ 32) ∧
    Page (pgforkSt 1) (poolAt (pgforkSt 1) ((pgforkSt 1).ctx 1) 0) 2 1 3 false ∧ Page (pgforkSt 0xFFFF) (poolAt (pgforkSt 0xFFFF) ((pgforkSt 0xFFFF).ctx 1) 0) 2 0xFFFF 3 false :=
  ⟨meets_kv (by decide +kernel) rfl (by decide +kernel), by decide +kernel, page_of (h := by decide +kernel), page_of (h := by decide +kernel)⟩
theorem test_pgfork : doneAs pgK (pgforkSt 1) 24 [0, 0] [(0x3010, leBytes 8 (entNat 2 3 false 2)), (0x5140, leBytes 4 2), (0x5100, leBytes 4 1),
      (0x1040, bytes8 [2 + 2 ^ 3, 3 + 3 * 2 ^ 32, 0x5100, 0x7000, 3, 0x8000, 0, 4 * 2 ^ 20])] = true ∧
    runs pgK (pgforkSt 0xFFFF) (fun s => s.held.map (fun r => bitsNat (r.words.getD 0 0#64) 0 8) == [0x10] && (s.ctx 1).kvpHeld && s.mem == (pgforkSt 0xFFFF).mem) = true := by decide +kernel
def pgP : Instr := .pgappend (cmd 0 1 0 0 0 0 0)
def pgappSt (refs : Nat) : State := kvSt pgP (kvMem run1 [] 2 (1, [2]) [(2, refs, 3)])
theorem meets_pgappend : (Under pgP (pgappSt 1) 1 24 (c7 pgP) ∧ Physical (pgappSt 1) (c7 pgP) ∧ SeqOk (pgappSt 1) ((pgappSt 1).ctx 1) 0) ∧
    Page (pgappSt 1) (poolAt (pgappSt 1) ((pgappSt 1).ctx 1) 0) 2 1 3 false ∧ Page (pgappSt 2) (poolAt (pgappSt 2) ((pgappSt 2).ctx 1) 0) 2 2 3 false :=
  ⟨meets_kv (by decide +kernel) rfl (by decide +kernel), page_of (h := by decide +kernel), page_of (h := by decide +kernel)⟩
theorem test_pgappend : doneAs pgP (pgappSt 1) 24 [0x100000 + 2 * 8 * 64 + 3 * 64, 0] [(0x3010, leBytes 8 (entNat 1 4 false 2)), (0x5000, leBytes 4 1), (0x1000, slotW 2 4 0 0x5000 0x6000 3)] = true ∧
    runs pgP (pgappSt 2) (fun s => s.held.map (fun r => bitsNat (r.words.getD 0 0#64) 0 8) == [0x0F] && (s.ctx 1).kvpHeld && s.mem == (pgappSt 2).mem) = true := by decide +kernel
/-- Sequence 1 is a branch of 0 from length 0, with one token record in page 2. -/
def pgC : Instr := .pgcommit (cmd 0 1 1 0 0 0 0)
def rec1 : List Byte := leBytes 4 0 ++ [1#8, 2#8, 0#8, 0#8] ++ leBytes 4 99 ++ List.replicate 20 0#8
def pgcommitSt (i : Instr) : State :=
  kvSt i (kvMem (slotW 2 0 0 0x5000 0x6000 0) (slotW (2 + 2 ^ 3) 1 0 0x5100 0x7000 1) 2 (0, []) [(2, 1, 1)] ++ [(0x5100, leBytes 4 1 ++ leBytes 4 8), (0x5140, leBytes 4 2), (0x7040, rec1)])
theorem meets_pgcommit : (Under pgC (pgcommitSt pgC) 1 24 (c7 pgC) ∧ Physical (pgcommitSt pgC) (c7 pgC) ∧ SeqOk (pgcommitSt pgC) ((pgcommitSt pgC).ctx 1) 0) ∧
    (let s := pgcommitSt pgC; let q := slotAt s (s.ctx 1) 0; let d := slotAt s (s.ctx 1) 1
     seqBranch d = true ∧ seqOrigin d = 0 ∧ seqLength q = 0 ∧ seqFork d = 0 ∧ seqLength d = 1 ∧ seqTail d = 1 ∧ recKind (s.peekN 0x7040 32) = 1 ∧ seqCap q = 4 ∧ s.peekNat 0x5100 8 % 2 ^ 32 = 1 ∧ seqPlist d = 0x5100) ∧
    Page (pgcommitSt pgC) (poolAt (pgcommitSt pgC) ((pgcommitSt pgC).ctx 1) 0) 2 1 1 false ∧
    Apart [(0x1000, 64), (0x1040, 64), (0x2000, 64), (0x3010, 8), (0x5000, 68), (0x5100, 68), (0x6040, 32), (0x7040, 32)] :=
  ⟨meets_kv (by decide +kernel) rfl (by decide +kernel), by decide +kernel, page_of (h := by decide +kernel), by unfold Apart; decide⟩
theorem test_pgcommit : doneAs pgC (pgcommitSt pgC) 24 [0, 0]
    [(0x6040, rec1.take 5 ++ [0#8] ++ rec1.drop 6), (0x5040, leBytes 4 2), (0x5000, leBytes 4 1), (0x3010, leBytes 8 (entNat 1 1 false 2)), (0x5100, leBytes 4 0), (0x1000, slotW 2 1 0 0x5000 0x6000 1),
      (0x1040, slotW (3 + 2 ^ 2 + 2 ^ 3) 0 0 0x5100 0x7000 1)] = true := by decide +kernel
def pgT (len : Nat) : Instr := .pgtrunc (cmd 0 len 0 0 0 0 0)
def pgtruncSt (len : Nat) : State := kvSt (pgT len) (kvMem run1 [] 2 (1, [2]) [(2, 1, 3)])
theorem meets_pgtrunc : (Under (pgT 2) (pgtruncSt 2) 1 24 (c7 (pgT 2)) ∧ Physical (pgtruncSt 2) (c7 (pgT 2)) ∧ SeqOk (pgtruncSt 2) ((pgtruncSt 2).ctx 1) 0) ∧
    (let s := pgtruncSt 2; 2 ≤ seqLength (slotAt s (s.ctx 1) 0) ∧ seqEgress (slotAt s (s.ctx 1) 0) < (s.ctx 1).egrcnt ∧ s.peekNat (0x9000 + 20) 4 ≤ 2) ∧
    Page (pgtruncSt 2) (poolAt (pgtruncSt 2) ((pgtruncSt 2).ctx 1) 0) 2 1 3 false := ⟨meets_kv (by decide +kernel) rfl (by decide +kernel), by decide +kernel, page_of (h := by decide +kernel)⟩
theorem test_pgtrunc : doneAs (pgT 2) (pgtruncSt 2) 24 [0, 0] [(0x3010, leBytes 8 (entNat 1 2 false 2)), (0x1000, slotW 2 2 0 0x5000 0x6000 2)] = true ∧ refusedAs (pgT 4) (pgtruncSt 4) 24 5 = true := by decide +kernel
def pgS : Instr := .pgstat (cmd 0 0 0 0 0 0 0)
def pgstatSt : State := kvSt pgS (kvMem run1 [] 2 (1, [2]) [(2, 6, 3)])
theorem meets_pgstat : (Under pgS pgstatSt 1 24 (c7 pgS) ∧ Physical pgstatSt (c7 pgS) ∧ SeqOk pgstatSt (pgstatSt.ctx 1) 0) ∧ Page pgstatSt (poolAt pgstatSt (pgstatSt.ctx 1) 0) 2 6 3 false :=
  ⟨meets_kv (by decide +kernel) rfl (by decide +kernel), page_of (h := by decide +kernel)⟩
theorem test_pgstat : doneAs pgS pgstatSt 24 [2, 1, 1, 3, 6] [] = true := by decide +kernel

/-! Sequences. -/

theorem seq_of {i : Instr} {s : State}
    (h : decide ((s.cursor = .cmd 1 24 (c7 i).uid ∧ s.startedOf 1 24 (c7 i).uid = some (c7 i) ∧ (c7 i).words = cmdWordsOf i ∧ (c7 i).phase = .started) ∧
      s.granted 1 24 = true ∧ s.turnOf 1 24 = some (c7 i).uid) = true)
    (h1 : s.badBeats = []) (ht : s.tags = [] := by rfl) (hl : s.lines = [] := by rfl) : Under i s 1 24 (c7 i) ∧ Physical s (c7 i) := ⟨under_of h, ⟨rfl, rfl, h1, ht, meets_Settled hl⟩⟩
/-- A prompt of three tokens for slot 1, its list at 0x5100. -/
def adm : Instr := .admission (cmd 1 (3 + 12 * 2 ^ 32) 0x7000 0x5100 0x8000 77 (0 + 4 * 2 ^ 16))
def admSt (free : Nat) (s1 : List Byte) : State := kvSt adm (kvMem run1 s1 free (1, [2]) [(2, 1, 3), (6, 0, 0)])
theorem meets_SequenceCommands : (Under adm (admSt 2 []) 1 24 (c7 adm) ∧ Physical (admSt 2 []) (c7 adm)) ∧
    (let s := admSt 2 []; seqState (slotAt s (s.ctx 1) 1) = 0 ∧ seqRetpend (slotAt s (s.ctx 1) 1) = false ∧ ceilDiv 3 (poolAt s (s.ctx 1) 0).pp = 1 ∧ 1 ≤ s.peekNat 0x5100 8 / 2 ^ 32 ∧
      1 + (poolAt s (s.ctx 1) 0).reserve ≤ s.peekNat (0x2000 + 24) 4 ∧ s.peekNat (0x4000 + 4) 4 = 6) ∧ Page (admSt 2 []) (poolAt (admSt 2 []) ((admSt 2 []).ctx 1) 0) 6 0 0 false :=
  ⟨seq_of (by decide +kernel) rfl, by decide +kernel, page_of (h := by decide +kernel)⟩
theorem test_admission : doneAs adm (admSt 2 []) 24 [1, 0] [(0x3030, leBytes 8 (entNat 1 0 false 6)), (0x2018, leBytes 4 1), (0x5140, leBytes 4 6), (0x5100, leBytes 4 1),
      (0x1040, bytes8 [1, 3 * 2 ^ 32, 0x5100, 0x7000, 0, 0x8000, 77, 12 * 2 ^ 20 + 4 * 2 ^ 44]), (0x9014, leBytes 4 3)] = true ∧
    refusedAs adm (admSt 1 []) 24 2 = true ∧ refusedAs adm (admSt 2 run1) 24 1 = true := by decide +kernel
def bat : Instr := .batch (cmd (1 + 5 * 2 ^ 32) 0xC000 2 0 0 0 0)
def batSt (w0 : Nat) : State := kvSt bat (kvMem (slotW w0 3 9 0x5000 0x6000 3) [] 2 (1, [2]) [])
theorem meets_batch : (Under bat (batSt 2) 1 24 (c7 bat) ∧ Physical (batSt 2) (c7 bat)) ∧ seqRetpend (slotAt (batSt 2) ((batSt 2).ctx 1) 0) = false ∧ seqRetpend (slotAt (batSt 7) ((batSt 7).ctx 1) 0) = true :=
  ⟨seq_of (by decide +kernel) rfl, by decide +kernel, by decide +kernel⟩
theorem test_batch : doneAs bat (batSt 2) 24 [1, 1] [(0xC000, [1, 1, 1, 0, 2 * 2 ^ 16 + 2 ^ 18, 1, 3, 0].flatMap (leBytes 4))] = true ∧
    doneAs bat (batSt 1) 24 [1, 2] [(0xC000, [1, 2, 1, 0, 2 ^ 16 + 2 ^ 18, 2, 3, 0].flatMap (leBytes 4))] = true ∧
    doneAs bat (batSt 7) 24 [0, 0] [(0x1000, List.replicate 64 0#8), (0xC000, [0, 0, 1, 0, 0, 0, 0, 0].flatMap (leBytes 4))] = true := by decide +kernel
def ret : Instr := .retire (cmd 0 0 0 0 0 0 0)
def retSt (w0 : Nat) (l : Nat × List Nat) : State := kvSt ret (kvMem (slotW w0 3 0 0x5000 0x6000 3) [] 2 l [(2, 1, 3)])
theorem meets_retire : (Under ret (retSt 2 (1, [2])) 1 24 (c7 ret) ∧ Physical (retSt 2 (1, [2])) (c7 ret) ∧ SeqOk (retSt 2 (1, [2])) ((retSt 2 (1, [2])).ctx 1) 0) ∧
    Page (retSt 2 (1, [2])) (poolAt (retSt 2 (1, [2])) ((retSt 2 (1, [2])).ctx 1) 0) 2 1 3 false := ⟨meets_kv (by decide +kernel) rfl (by decide +kernel), page_of (h := by decide +kernel)⟩
theorem test_retire : doneAs ret (retSt 2 (1, [2])) 24 [1, 0] [(0x3010, leBytes 8 (entNat 0 3 false 2)), (0x4008, leBytes 4 2), (0x2018, leBytes 4 3), (0x5000, leBytes 4 0), (0x1000, slotW 7 3 0 0x5000 0x6000 3)] = true ∧
    refusedAs ret (retSt 0 (1, [2])) 24 1 = true ∧ doneAs ret (retSt 1 (0, [])) 24 [0, 0] [(0x5000, leBytes 4 0), (0x1000, slotW 7 3 0 0x5000 0x6000 3)] = true := by decide +kernel
def egr : Instr := .egress (cmd 0 0 0 0 0 0 0)
def egrSt (next count : Nat) : State := kvSt egr (kvMem run1 [] 2 (1, [2]) [] ++ [(0x9014, leBytes 4 next), (0xB000, leBytes 8 count), (0x6080, rec1)])
theorem meets_egress : (Under egr (egrSt 2 1) 1 24 (c7 egr) ∧ Physical (egrSt 2 1) (c7 egr)) ∧
    (let s := egrSt 2 1; let q := slotAt s (s.ctx 1) 0; seqEgress q < (s.ctx 1).egrcnt ∧ min (seqLength q) (seqTail q) = 2 + 1 ∧ recKind (s.peekN (seqArea q + 64 + 32 * 2) 32) = 1) :=
  ⟨seq_of (by decide +kernel) rfl, by decide +kernel⟩
theorem test_egress : doneAs egr (egrSt 2 1) 24 [1, 0] [(0xA004, leBytes 4 99), (0xB000, leBytes 8 2), (0x9014, leBytes 4 3)] = true ∧ refusedAs egr (egrSt 2 4) 24 11 = true ∧
    doneAs egr (egrSt 3 4) 24 [0, 0] [(0xB000, leBytes 8 4), (0x9014, leBytes 4 3)] = true := by decide +kernel
def logI (pos : Nat) : Instr := .logapp (cmd 0 0xC000 pos 0 0 0 0)
def logSt (pos : Nat) (d : List Byte) (tail : Nat) : State := kvSt (logI pos) (kvMem (slotW 2 5 0 0x5000 0x6000 tail) [] 2 (1, [2]) [] ++ [(0xC000, d)])
theorem meets_logapp : (Under (logI 3) (logSt 3 (payBytes 64 (sxText 42 0)) 3) 1 24 (c7 (logI 3)) ∧ Physical (logSt 3 (payBytes 64 (sxText 42 0)) 3) (c7 (logI 3))) ∧
    (let s := logSt 3 (payBytes 64 (sxText 42 0)) 3; let q := slotAt s (s.ctx 1) 0; sxKind (payOf (s.peekN 0xC000 64)) = 1 ∧ 3 = seqTail q ∧ 3 < seqLength q ∧ seqTail q ≠ seqCap q) :=
  ⟨seq_of (by decide +kernel) rfl, by decide +kernel⟩
theorem test_logapp : after7 (logI 3) (logSt 3 (payBytes 64 (sxText 42 0)) 3) 24 (fun s d => d.phase == .performed && s.peekNat 0x60A0 4 == 3 && s.peekNat 0x60A4 1 == 1 && s.peekNat 0x60A8 8 == 42 &&
      s.peekN 0x1000 64 == slotW 2 5 0 0x5000 0x6000 4) = true ∧
    refusedAs (logI 3) (logSt 3 [] 3) 24 7 = true ∧ refusedAs (logI 2) (logSt 2 (payBytes 64 (sxText 42 0)) 3) 24 5 = true ∧ refusedAs (logI 4) (logSt 4 (payBytes 64 (sxText 42 0)) 4) 24 4 = true := by decide +kernel
def pfx : Instr := .pfxmatch (cmd 0x6000 2 0x7000 2 0 0 0)
def pfxSt (id : Nat) : State := kvSt pfx [(0x6040, rec1), (0x6060, rec1), (0x7040, rec1), (0x7060, rec1.take 8 ++ leBytes 4 id ++ rec1.drop 12)]
theorem meets_pfxmatch : (Under pfx (pfxSt 99) 1 24 (c7 pfx) ∧ Physical (pfxSt 99) (c7 pfx)) ∧ (∀ p, p < 2 → recKind ((pfxSt 98).peekN (0x6040 + 32 * p) 32) = 1 ∧ recKind ((pfxSt 98).peekN (0x7040 + 32 * p) 32) = 1) :=
  ⟨seq_of (by decide +kernel) rfl, by decide +kernel⟩
theorem test_pfxmatch : doneAs pfx (pfxSt 99) 24 [2, 0] [] = true ∧ doneAs pfx (pfxSt 98) 24 [1, 1] [] = true := by decide +kernel
def rpl (pos : Nat) : Instr := .replay (cmd 0x6000 (pos + 5 * 2 ^ 32) 0x8000 0 (0 + 4 * 2 ^ 32) 0 0)
def rplSt (pos : Nat) : State := kvSt (rpl pos) [(0x6040, rec1)]
theorem meets_replay : (Under (rpl 0) (rplSt 0) 1 24 (c7 (rpl 0)) ∧ Physical (rplSt 0) (c7 (rpl 0))) ∧
    (let s := rplSt 0; let r := s.peekN 0x6040 32; recPos r = 0 ∧ recKind r = 1 ∧ badRec r = false ∧ s.stale (c7 (rpl 0)) = false ∧ s.endPorts (c7 (rpl 0)) = [(0, 0)] ∧
      ((s.tile 0).inPort 0).streamRoom = true ∧ ((s.tile 0).inPort 0).fout = .raw) := ⟨seq_of (by decide +kernel) rfl, by decide +kernel⟩
theorem test_replay : runs (rpl 0) (rplSt 0) (fun s => match tget? ((s.tile 0).inPort 0).arrived 1 with | some b => sxKind b.data == 1 && sxTextId b.data == 99 && sxFlags b.data == 2 | none => false) = true ∧
    refusedAs (rpl 4) (rplSt 4) 24 5 = true := by decide +kernel
def mout : Instr := .migout (cmd 0 0xC000 55 3 0 0 0)
def moutSt (w0 : Nat) : State := kvSt mout (kvMem (slotW w0 0 0 0x5000 0x6000 0) [] 2 (0, []) [] ++ [(0xB000, leBytes 8 6), (0x8000, [9#8, 1#8])])
theorem meets_migout : (Under mout (moutSt 2) 1 24 (c7 mout) ∧ Physical (moutSt 2) (c7 mout) ∧ SeqOk (moutSt 2) ((moutSt 2).ctx 1) 0) ∧
    (let s := moutSt 2; let q := slotAt s (s.ctx 1) 0; seqState q = 2 ∧ seqBranch q = false ∧ seqTail q = 0 ∧ seqLength q = 0 ∧ seqSpill q = 0 ∧ seqEgress q < (s.ctx 1).egrcnt ∧
      s.peekNat (seqChain q + 1) 1 % 2 = 1) := ⟨meets_kv (by decide +kernel) rfl (by decide +kernel), by decide +kernel⟩
theorem test_migout : after7 mout (moutSt 2) 24 (fun s d => d.phase == .performed && s.peekNat 0xC000 4 == 0x47494D31 && s.peekNat 0xC008 8 == 55 && s.peekNat 0xC028 8 == 6 && s.peekN 0xD000 2 == [9#8, 1#8]) = true ∧
    refusedAs mout (moutSt 3) 24 1 = true := by decide +kernel
def min_ (key : Nat) : Instr := .migin (cmd 1 0xC000 key 3 0x20000 0x5100 0)
/-- The image that `moutSt`'s MIGOUT writes, read back into slot 1. -/
def minSt (key : Nat) (s1 : List Byte) : State :=
  let m := match exec mout (moutSt 2) with | .next s => s.mem | _ => []
  let s := kvSt (min_ key) []
  { s with mem := (m.writeN 0x1040 s1) }
theorem meets_migin : (Under (min_ 55) (minSt 55 []) 1 24 (c7 (min_ 55)) ∧ Physical (minSt 55 []) (c7 (min_ 55))) ∧
    (let s := minSt 55 []; let h := s.peekN 0xC000 256
     rb h 0 4 = 0x47494D31 ∧ rb h 4 4 = 1 ∧ rb h 8 8 = 55 ∧ rb h 16 2 = 3 ∧ rb h 18 1 = (poolAt s (s.ctx 1) 0).ppCode ∧ rb h 20 4 = 64 ∧ rb h 56 8 = 0 ∧ rb h 24 4 = 0 ∧ rb h 32 4 = 0 ∧ rb h 36 4 = 0 ∧ rb h 52 4 = 1) ∧
    seqState (slotAt (minSt 55 []) ((minSt 55 []).ctx 1) 1) = 0 := ⟨seq_of (by decide +kernel) rfl, by decide +kernel, by decide +kernel⟩
theorem test_migin : refusedAs (min_ 56) (minSt 56 []) 24 8 = true ∧ refusedAs (min_ 55) (minSt 55 run1) 24 1 = true := by decide +kernel
/-- The same in a DET context, which the statement is about. -/
theorem test_migin_det : after7 (min_ 55) ((minSt 55 []).setCtx 1 { (minSt 55 []).ctx 1 with relaxed := false }) 24 (fun s d => d.phase == .performed && seqPlist (slotAt s (s.ctx 1) 1) == 0x5100 &&
    seqArea (slotAt s (s.ctx 1) 1) == 0x20000 && s.peekNat 0xB000 8 == 6 && s.peekNat 0x9018 8 == 6) = true := by decide +kernel

/-! Firing, instants, channels, the meridian and the watchdogs. -/

theorem meets_FiringAndAbsentUse :
    (let s := onT (fun x => x.setOut 0 { OutPort.fresh with dests := [(1, 2)] }) (st (.mov (nd .raw)) (v 1) none none)
     (nd .raw).b = .none ∧ (nd .raw).ext = none ∧ 0 < (s.tile 0).nodes.length ∧ (nd .raw).a = .out 0 ∧ ((s.tile 0).out 0).dests = [(1, 2)] ∧ ((s.tile 0).out 0).resize = []) ∧
    (let s := st (.mov (nd .raw)) (v 1) none none
     ((s.tile 0).out 0).dests = [] ∧ ((s.tile 0).out 0).discard = false ∧ (Beat.val 5#512).present = true ∧ 1 < (s.tile 0).nodes.length) ∧ (4095 < 4096 ∧ 127 < 128) := by decide +kernel
theorem test_emit_channel :
    let s := onT (fun x => x.setOut 0 { OutPort.fresh with dests := [(1, 2)] }) (st (.mov (nd .raw)) (v 9) none none)
    runs (.mov (nd .raw)) s (fun s1 => ((s1.tile 1).inPort 2).flight == [Beat.val 9#512]) = true := by decide +kernel
theorem meets_NodesTouchNoMore :
    Instr.add (nd .i32) ∈ beatNodes (nd .i32) ∧ runs (.add (nd .i32)) (st (.add (nd .i32)) (v 5) (v 7) none) (fun _ => true) = true ∧
    Instr.endk (nd .raw) ∈ tileNodes (nd .raw) ∧ runs (.endk (nd .raw)) (st (.endk (nd .raw)) (v 5) none none) (fun _ => true) = true ∧
    Instr.st (nd .i32) ∈ storeNodes (nd .i32) ∧ runs (.st (nd .i32)) (st (.st (nd .i32)) (v 5) (v 7) none) (fun _ => true) = true := by
  refine ⟨by simp [beatNodes], by decide +kernel, by simp [tileNodes], by decide +kernel, by simp [storeNodes], by decide +kernel⟩
/-- Tile 0 with one node that has fired, or before its first instant. -/
def turn (begun fired : Bool) (f : Tile → Tile) : State :=
  onT (fun x => f { x.setNode 0 { x.node 0 with fired := fired } with words := nodeOf (.mov (nd .raw)), nodes := [{ x.node 0 with fired := fired }], begun := begun }) (st (.mov (nd .raw)) none none none)
/-- The same in a fixed-timing context, at the round's first cycle. -/
def turnFxt (begun fired : Bool) : State := let s := turn begun fired id; s.setCtx 1 { s.ctx 1 with fxt := true, relaxed := false }
theorem meets_InstantsBeginAndEnd :
    (((turn false false id).ctx ((turn false false id).tileCtx 0)).fxt = false ∧ (turn false false id).mayBegin 0 = true ∧ (turn true true id).mayBegin 0 = true ∧
      (turn true false id).mayBegin 0 = false ∧ ((turn true true fun x => { x with dlN := [(3, Beat.val 5#512)] }).tile 0).dlN = [(3, Beat.val 5#512)]) ∧
    (let s := turnFxt false false
     (s.ctx (s.region 0).ctx).fxt = true ∧ (s.region 0).tiles = [0] ∧ (s.region 0).unbound = [] ∧ s.mayBegin 0 = true ∧ s.dueCycle 0 = s.cycle ∧ (s.tile 0).mxOverdue s.cycle = false) ∧
    (let s := { turnFxt true true with cycle := 9 }
     (s.region 0).tiles = [0] ∧ s.dueCycle 0 ≠ s.cycle) ∧
    (let s := turn true true id
     (s.region 0).phase ≠ .off ∧ (s.region 0).inst = (s.tile 0).inst ∧ (s.tile 0).begun = true ∧ (s.tile 0).allFired = true ∧ (s.region 0).tiles = [0]) := by decide +kernel
theorem test_instantBegin : runs (.instantBegin 0) (turn true true fun x => { x with dlN := [(3, Beat.val 5#512)] })
    (fun s => (s.tile 0).inst == 1 && (tget? (s.tile 0).dl 3 == v 5) && !((s.tile 0).node 0).fired) = true := by decide +kernel
/-- Port 3 of tile 0 with one beat on its channel. -/
def portSt (b : Beat) (f : InPort → InPort) : State := onT (fun x => x.setIn 3 (f { InPort.fresh with flight := [b] })) (st (.mov (nd .raw)) (v 1) none none)
theorem meets_BeatsArrive :
    (((portSt (Beat.val 5#512) id).tile 0).inPort 3).flight = [Beat.val 5#512] ∧ (Beat.val 5#512).kind = .value ∧ InPort.fresh.fin = InPort.fresh.fout ∧ Beat.none.kind = .absent ∧ Beat.mer.kind = .meridian ∧
    ((Beat.ctl 2 0).kind = .control ∧ (Beat.ctl 2 0).sub = 2 ∧ (Beat.ctl 9 0).sub = 9 ∧ (Beat.ctl 5 0).sub = 5 ∧ (Beat.ctl 0 0).sub = 0) ∧
    (let b := Beat.ctl 4 (3 + 7 * 2 ^ 64)
     let p := ((portSt b fun p => { p with due := [⟨7, 1, 5, false⟩] }).tile 0).inPort 3
     p.flight = [b] ∧ b.sub = 4 ∧ p.due = [⟨7, 1, 5, false⟩] ∧ b.data.toNat / 256 = 3 + 7 * 2 ^ 64) := by decide +kernel
/-- Tile 0 with its next block banked, in a region of one tile or two. -/
def bankSt (two : Bool) (ph : RegPhase) : State :=
  let s := portSt (Beat.ctl 1 0) id
  let nb : NextBank := ⟨0, 3, Hdr.zero, nodeOf (.mov (nd .raw)), [], [], [], [], [], []⟩
  let s := onT (fun x => { x with next := some nb }) s
  let s := s.setTile 1 { Tile.fresh with next := some nb }
  s.setRegion 0 { s.region 0 with phase := ph, tiles := if two then [0, 1] else [0] }
theorem meets_configBeatArrive :
    ((bankSt true .off).tile 0).next.isSome = true ∧ (let x := (bankSt true .off).tile 0; (x.setIn 3 { x.inPort 3 with flight := [] }).configOwed = false) ∧ 1 ∈ ((bankSt true .off).region 0).tiles ∧ ((bankSt true .off).tile 1).next.isSome = true ∧
    (((bankSt false .off).tile 0).inPort 3).flight = [Beat.ctl 1 0] ∧ (∀ u ∈ ((bankSt false .off).region 0).tiles, u ≠ 0 → ((bankSt false .off).tile u).next = none) ∧ ((bankSt false .off).region 0).phase = .off := by decide +kernel
theorem test_configBeatArrive : runs (.configBeatArrive 0 3) (bankSt false .off) (fun s => (s.tile 0).canon == 3 && ((s.region 0).phase == .running)) = true := by decide +kernel
theorem meets_handoverBeatArrive :
    let s := portSt (Beat.ctl 3 0) id
    let o : OwnRange := ⟨0, 64, [ownerWord (s.region 0) (s.tile 0) 0 % 2 ^ 23], 0, true⟩
    o.moving = true ∧ bitsNat (Beat.ctl 3 0).data 8 8 = 0 ∧ (s.setRegion 0 { s.region 0 with owners := [o] } |>.region 0).owners = [o] := by decide +kernel
/-- The beat of a HANDOVER puts its entry in order again (R164). -/
theorem test_handoverBeatArrive :
    let s := portSt (Beat.ctl 3 0) id
    runs (.handoverBeatArrive 0 3) (s.setRegion 0 { s.region 0 with owners := [⟨0, 64, [0, 1], 1, true⟩] }) (fun s1 => ((s1.region 0).owners.map (·.moving)) == [false]) = true := by decide +kernel
/-- Tile 0 with one node that has fired in the round's last instant, instant 0. -/
def merSt (passed : Bool) (o : OutPort) : State :=
  let s := turn true true fun x => { (x.setNode 0 { x.node 0 with fired := true, passed := passed, l := v 1 }) with outs := [(0, o)] }
  s.setRegion 0 { s.region 0 with ended := some 0 }
theorem meets_MeridianPasses :
    (let s := merSt false { OutPort.fresh with dests := [(1, 2)] }
     let x := s.tile 0
     let n := nd .raw
     nodeAt x.words 0 = some (.mov, n) ∧ (s.region 0).phase = .running ∧ x.begun = true ∧ (s.region 0).ended = some x.inst ∧ (x.node 0).fired = true ∧
      (agenPos (x.node 0).loc).2.2.2.2 = [] ∧ (x.node 0).passed = false ∧ x.merAt 0 .mov n = true ∧ (nodeTargets n).all (Tile.targetRoom s x) = true ∧
      n.a = .out 0 ∧ (x.out 0).dests = [(1, 2)] ∧ (x.out 0).resize = []) ∧
    ((merSt true OutPort.fresh).tile 0 |>.node 0).passed = true := by decide +kernel
theorem test_meridianPass : runs (.meridianPass 0 0) (merSt false { OutPort.fresh with dests := [(1, 2)] }) (fun s => ((s.tile 1).inPort 2).flight == [Beat.mer]) = true := by decide +kernel
/-- A store of the byte b at 0x4003 by the tile with canonical index c, in ordering group gr. -/
def storeOf (c gr : Nat) (b : Byte) : RbEntry :=
  { (default : RbEntry) with granule := 0x100, loc := 0x100, bytes := [(3, b)], op := .store, canon := c, group := (gr, 0), owned := [], strm := false }
/-- All nodes have passed; the round's stores wait. -/
def commitSt (relaxed : Bool) (es : List RbEntry) : State :=
  let s := merSt true OutPort.fresh
  (s.setRegion 0 { s.region 0 with entries := es }).setCtx 1 { s.ctx 1 with relaxed := relaxed }
theorem meets_MeridianCommits :
    (∀ es ∈ [[], [storeOf 0 0 7#8], [storeOf 0 0 7#8, storeOf 1 1 8#8]],
      let s := (((commitSt false es).region 0).tiles.foldl State.pumpSto (commitSt false es))
      let r := s.region 0
      r.ended = some 0 ∧ r.phase = .running ∧ s.halted 0 = false ∧ r.tiles = [0] ∧ r.ctx = 1 ∧ (s.tile 0).inst = 0 ∧ (s.tile 0).begun = true ∧
        (∀ p ∈ nodeWords (s.tile 0).words 0, ((s.tile 0).node p.1).passed = true) ∧ (s.tile 0).mxPorts = [] ∧ r.entries = es ∧ r.reads = [] ∧ (s.ctx r.ctx).relaxed = false) ∧
    ((storeOf 0 0 7#8).op = .store ∧ (storeOf 0 0 7#8).bytes = [(3, 7#8)] ∧ (storeOf 0 0 7#8).granule = (storeOf 1 1 8#8).granule ∧ (storeOf 0 0 7#8).group ≠ (storeOf 1 1 8#8).group ∧
      (storeOf 0 0 7#8).canon < (storeOf 1 1 8#8).canon ∧ (storeOf 0 0 7#8).owned = [] ∧ (storeOf 0 0 7#8).loc = (storeOf 1 1 8#8).loc ∧ (commitSt false []).badBeats = [] ∧
      (commitSt false []).tags = [] ∧ (commitSt false []).lines = []) ∧ ((commitSt true []).ctx 1).relaxed = true := by decide +kernel
/-- One store stands in memory after the commit; two to one byte race (R166). -/
theorem test_meridianCommit : runs (.meridianCommit 0) (commitSt false [storeOf 0 0 7#8]) (fun s => s.peekN 0x4003 1 == [7#8]) = true ∧
    runs (.meridianCommit 0) (commitSt false [storeOf 0 0 7#8, storeOf 1 1 8#8]) (fun s => s.peekN 0x4003 1 == [0#8] && (s.held.map (·.cls) == [7])) = true ∧
    runs (.meridianCommit 0) (commitSt false [storeOf 0 0 7#8, { storeOf 1 1 8#8 with owned := [3] }]) (fun s => s.peekN 0x4003 1 == [8#8] && s.held.isEmpty) = true := by decide +kernel
/-- Two nodes that wait for each other, at cycle c. -/
def stuckSt (c : Nat) : State :=
  { turn true false (fun x => { x with words := nodeOf (.mov { nd .raw with a := .slot .l 1 }) ++ [feed .l], nodes := [NodeSt.fresh, NodeSt.fresh] }) with cycle := c }
/-- Command 7 on engine 0 in a fixed-timing context that holds reserved slots. -/
def lateSt (c : CmdSt) (cycle : Nat) : State :=
  let s := { run7 c 0 [] (fun x => { x with fxt := true, relaxed := false }) with cycle := cycle, tables := [(0, { Table.fresh with now := [(0, ⟨1, true, true, false⟩)] })] }
  s.setRegion 0 { s.region 0 with roundBase := 1 }
/-- A region whose only node waits at an entry channel. -/
def idleSt : State :=
  let s := onT (fun x => { x with words := nodeOf (.inp { nd .raw with b := .none }), nodes := [NodeSt.fresh], inPorts := [(0, { InPort.fresh with bind := .channel })] }) (turn true false id)
  s.setRegion 0 { s.region 0 with firedInst := false, ended := none }
theorem test_idle : (idleSt.idle 0, ((idleSt.idlePass 7).region 0).lastFire, ((stuckSt 0).idlePass 7 |>.region 0).lastFire) = (true, (idleSt.region 0).lastFire + 7, ((stuckSt 0).region 0).lastFire) := by
  decide +kernel
theorem meets_WatchdogsStopRegions :
    ((idleSt.region 0).phase = .running ∧ (0, idleSt.region 0) ∈ idleSt.regions ∧ idleSt.idle 0 = true) ∧
    (let s := ((stuckSt 0).region 0).tiles.foldl State.pumpSto (stuckSt 0)
     (s.region 0).phase = .running ∧ s.unfired 0 = [(0, 0), (0, 1)] ∧ s.quiescent 0 = true ∧ s.idle 0 = false ∧ (s.ctx 1).fltpend = false) ∧
    (let s := stuckSt 300000000
     s.broken 0 = false ∧ (s.region 0).lastFire + (s.region 0).stallLim ≤ s.cycle) ∧ ((stuckSt 0).cycle < ((stuckSt 0).region 0).lastFire + ((stuckSt 0).region 0).stallLim) ∧
    (let s := onT (fun x => x.setIn 3 { InPort.fresh with flight := [Beat.none] }) { turnFxt true false with cycle := 900 }
     (s.tile 0).region = 0 ∧ (s.ctx 1).fxt = true ∧ (s.tile 0).begun = true ∧ (s.tile 0).overrun = false ∧ (s.tile 0).unfired = [0] ∧
      (s.region 0).roundCycle + ((s.tile 0).inst + 1 - (s.region 0).roundBase) * (s.tile 0).hdr.period ≤ s.cycle ∧ s.quiescent 0 = false) ∧
    (let c := { c7 (.fill (cmd 0 0x4000 64 7 0xEE0000 0 0)) with cport := some 0 }
     let s := lateSt c 1000000
     s.anyCmd 1 0 7 = some c ∧ c.region = 0 ∧ (match s.latestAt 1 0 c with | some d => decide (d < s.cycle) | none => false) = true ∧ s.stale c = false ∧ c.mark / 4 % 2 = 0) ∧
    (let c : CmdSt := ctrav trav
     let s := lateSt c 1000000
     let s := onT (fun x => { x with inst := 1 }) s
     s.startedOf 1 0 7 = some c ∧ (s.ctx 1).fxt = true ∧ c.cls = 1 ∧ c.beatsOut < c.portBeats ∧ s.stale c = false ∧ (s.region 0).roundBase ≤ c.first + c.beatsOut ∧
      s.instStart c (c.first + c.beatsOut) < s.cycle ∧ (0, 0) ∈ s.endPorts c ∧ c.first + c.beatsOut ≤ (s.tile 0).inst ∧ (s.tile 0).begun = true) ∧
    (let s := onT (fun x => { x with mx := { Mx.fresh with ctl := v 5, ctlCycle := 11, ctlAt := 10 } }) { turnFxt true false with cycle := 10 }
     (s.tile 0).mx.ctl = v 5 ∧ (Beat.val 5#512).present = true ∧ (s.tile 0).overrun = false ∧ (s.tile 0).mx.ctlAt ≤ s.cycle ∧ (s.tile 0).mx.ctlAt < (s.tile 0).mx.ctlCycle) := by decide +kernel

/-! Steps and memory. -/

/-- Whether a decoding answers an instruction. -/
def reads (e : Except Reject Instr) (i : Instr) : Bool := match e with | .ok j => j == i | .error _ => false
/-- A state whose next move is one act. -/
def agendaSt (s : State) (a : Act) : State := { s with agenda := [⟨0, a⟩] }
theorem meets_StepRunsWhatItFetches :
    (let s := agendaSt (st (.mov (nd .raw)) (v 1) none none) (.node 0 0)
     s.agenda = [⟨0, .node 0 0⟩] ∧ (s.nodeWord 0 0).isSome = true ∧ s.nodeWord 0 9 = none ∧ (match s.nodeWord 0 0 with | some (w, e) => reads (decodeWord w e) (.mov (nd .raw)) | none => false) = true) ∧
    (let s := onT (fun x => { x with nodes := [NodeSt.fresh], words := [0x27500000E0380000#64] }) (st (.mov (nd .raw)) none none none)
     (match s.nodeWord 0 0 with | some (w, e) => (match decodeWord w e with | .error why => why == .node .opcode | .ok _ => false) | none => false) = true) ∧
    (let s := mxSt { Mx.fresh with queue := [⟨tw 2 dtok, 0, 0, 0, [0x5200#16], some 0, 0, 0, 0, false, []⟩], drain := some d0 } id
     s.epiWord 0 = some 0x5200#16 ∧ (match decodeEpi 0x5200#16 with | .ok i => i == .epiAct 2#4 | .error _ => false) = true) ∧
    (let s := agendaSt (tokSt ⟨tw 1 tok, 0, 0, 0, [], none, 0, 0, 0, false, []⟩) (.token 0)
     (s.tile 0).mx.queue = [⟨tw 1 tok, 0, 0, 0, [], none, 0, 0, 0, false, []⟩] ∧ reads (decodeToken (tw 1 tok)) (.mmaz tok) = true) ∧
    (let f : Cmd := cmd 0 0x4000 64 7 0xEE0000 0 0
     let s := agendaSt (run7 (c7 (.fill f)) 0 [] id) (.cmd 1 0 7)
     s.startedCmd 1 0 7 = some (c7 (.fill f)) ∧ reads (decodeCmd (c7 (.fill f)).words) (.fill f) = true) := by decide +kernel
theorem meets_DecodingInvertsEncoding : (Instr.mov (nd .raw)).wellFormed = true ∧ encode (.mov (nd .raw)) ≠ .event := by decide +kernel
/-- A region's commit writes memory; the form stays. -/
theorem meets_MemoryStaysCanonical :
    (match Machine.step (agendaSt (commitSt false [storeOf 0 0 7#8]) (.event (.meridianCommit 0))) with | .next s => s.mem == [(0x4003, 7#8)] | _ => false) = true ∧
    (agendaSt (commitSt false [storeOf 0 0 7#8]) (.event (.meridianCommit 0))).mem.wf = true := by decide +kernel

/-! Launches. -/

/-- A kernel of one leaf of one tile at 0x20000: its descriptor, its tree of one leaf entry, its leaf table and the block of one CONST word (R72, R185–R187). -/
def kBody : W64 := (nodeOf (.const { nd .i32 with a := .dl 0, imm := 5#16 })).headD 0#64
def kMem (kern : Nat) : List (Nat × List Byte) :=
  [(0x20000, leBytes 2 0x4B31 ++ leBytes 6 (1 + 16 + 1 * 2 ^ 14) ++ bytes8 [0x20100, 0x20140]),
   (0x20140, bytes8 [0x20200, 1]),
   (0x20200, leBytes 16 (kern % 2 ^ 32 + 1 * 2 ^ 93 + 1 * 2 ^ 100 + 1 * 2 ^ 108 + 0xCA31 * 2 ^ 112) ++ leBytes 8 kBody.toNat)]
/-- A launch of it in context 1 of partition 0, which has tiles 0 to 15. -/
def lau (p : LaunchPhase) : Launch := { (default : Launch) with src := .queue 0 0 0, ctx := 1, kernel := 0x20000, count := 1, want := 1, phase := p, need := 1, crec := 0x9000, csem := 4, cinc := 2, tag := 77 }
def lauSt (l : Launch) (crc : Nat) : State :=
  { stM (.mov (nd .raw)) none none none with
    mem := (kMem crc).foldl (fun (m : Memory) (w : Nat × List Byte) => m.writeN w.1 w.2) (stM (.mov (nd .raw)) none none none).mem
    tiles := [], regions := [], launches := [(0, l)], parts := [(0, { (stM (.mov (nd .raw)) none none none).part 0 with dies := 1, tiles := 16 })] }
/-- The state after a step. -/
def after1 (i : Instr) (s : State) : State := match exec i s with | .next s1 => s1 | _ => State.reset
/-- The record that waits, moved to the head of the fault queue as number 0. -/
def queued (s : State) : State := { s with fq := s.held, held := [], fqhead := 0, fqtail := 1 }
/-- An LD under translation in context 1: reachable, or past what the table maps. -/
def walkSt (a : Nat) : State := stM (.ld (nd .n64)) (v a) none none
theorem meets_translationWalk :
    (let s := walkSt 0x4000
     s.mayFire 0 0 = true ∧ (s.tile 0).resolved 0 = true ∧ nodeAt (s.tile 0).words 0 = some (.ld, nd .n64) ∧ ((s.tile 0).args (nd .n64) 0).l ≠ .absent ∧
      ((s.tile 0).args (nd .n64) 0).r ≠ .absent ∧ ((s.tile 0).node 0).issued = false ∧
      isOk (s.elemReachAll 0 false (elemAccs (s.tile 0) 0 .ld (nd .n64) ((s.tile 0).args (nd .n64) 0))) = true) ∧
    (let s := walkSt (2 ^ 40)
     (match s.elemReachAll 0 false (elemAccs (s.tile 0) 0 .ld (nd .n64) ((s.tile 0).args (nd .n64) 0)) with | .error (f, _) => decide (f.cls < 256 ∧ f.cause < 256) | .ok _ => false) = true) := by decide +kernel
/-- A record that waits, and a queue of one place that is empty or full. -/
def heldSt (cls tail : Nat) : State := { after1 (.mov (nd .raw)) (st (.mov (nd .raw)) (v 1) none none) with held := [⟨[BitVec.ofNat 64 cls], .none, none, 0⟩], fqsize := 0, fqtail := tail, cycle := 1 }
theorem meets_FaultsReachTheQueue :
    ((∀ x ∈ (heldSt 5 0).held, x.cycle ≠ (heldSt 5 0).cycle) ∧ (∀ x ∈ { heldSt 5 0 with cycle := 0 }.held, x.cycle = 0)) ∧
    ((heldSt 5 0).held.length = 1 ∧ (heldSt 5 0).fqtail - (heldSt 5 0).fqhead < 2 ^ (heldSt 5 0).fqsize) ∧
    (2 ^ (heldSt 5 1).fqsize ≤ (heldSt 5 1).fqtail - (heldSt 5 1).fqhead ∧ (∀ x ∈ (heldSt 5 1).held, x.cls ≠ 0x11)) ∧ (∀ x ∈ (heldSt 0x11 1).held, x.cls = 0x11) ∧ State.reset.held = [] ∧
    (let r := { (State.reset.region 3) with late := [7], gen := 8 }; 7 ∈ r.late ∧ 7 ≠ r.gen ∧ 8 ∉ r.late) := by decide +kernel
/-- A record about region 0 at the head of the queue, in a context with or without a log at 0x8000, posting to semaphore 2 and deciding by semaphore 3. -/
def hndSt (f : Flt) (log : Nat) : State :=
  let s := stM (.mov (nd .raw)) (v 1) none none
  let s := s.setCtx 1 { s.ctx 1 with flogbase := log, flogctl := 2 + 3 * 2 ^ 8 }
  { s with fq := [{ words := f.words s, agent := f.agent, region := f.region, cycle := 0 }] }
def f1 : Flt := { Flt.zero with cls := 2, ctx := 1, region := some 0, resumable := true, agent := .region 0 }
def fN : Flt := { f1 with agent := .node 0 0, resumable := true }
/-- A KV_COW record of a PGAPPEND to a shared page. The context's tables map the first GiB, and the pool's frames as a page with KV (R327, R328, R344). -/
def cowSt : State :=
  let s := kvSt pgP (kvMem run1 [] 2 (1, [2]) [(2, 2, 1), (6, 0, 0)])
  let ws : List (Nat × Nat) := [(0xC0000, 0x80201), (0x80200, 7), (0x80208, 0x40000047), (0x2008, 0x40000000), (0x2010, 2 ^ 21 + 64 * 2 ^ 32)]
  let s := { s with mem := ws.foldl (fun (m : Memory) (w : Nat × Nat) => m.writeN w.1 (leBytes 8 w.2)) s.mem, parts := [(0, { Part.fresh with tdisp := .run, pmem := [(0, { Pmem.fresh with v := true, base := 0, count := 64 })] })] }
  let s := s.setCtx 1 { s.ctx 1 with ptv := true, ptroot := 0xC0000, kvpHeld := true, queues := [(24, { Queue.fresh with started := [{ c7 pgP with phase := .stopped }] })] }
  { s with fq := [⟨[0x000004000007000f#64, 0x1800000#64, 0#64, 0#64, 0#64, 0x300000000#64, 0#64, 2#64], .unit 1 24 7, some 0, 0⟩] }
/-- A decision's byte for record 0, whose entry is the log's last, and the wait for it. -/
def decSt (f : Flt) (b dsem : Nat) : State :=
  let s := hndSt f 0x8000
  let s := s.setCtx 1 (({ s.ctx 1 with flogCount := 1 }).setSem 3 { Sem.fresh with value := dsem })
  { s with await := some (0, 0, 0), mem := s.mem.writeN 0x8040 (leBytes 8 b) }

/-- A property of the one record queued. -/
def headIs (s : State) (p : FltRec → Bool) : Bool := match s.fq with | [r] => !s.ctlHalt && s.await.isNone && p r | _ => false
theorem meets_FaultsAreSettled :
    headIs (hndSt { f1 with agent := .none, resumable := false } 0) (fun r => r.cls != 0x0F && r.cls != 0x10 && r.agent == .none && !r.stoppedBit) = true ∧
    headIs (hndSt f1 0) (fun r => r.cls != 0x0F && r.cls != 0x10 && r.stoppedBit && !r.engine && (hndSt f1 0).regionOf r == some 0) = true ∧
    headIs (hndSt f1 0x8000) (fun r => r.cls != 0x0F && r.cls != 0x10 && r.stoppedBit && r.resumable && isOk ((hndSt f1 0x8000).engWrite 0 (some r.ctx) false 0x8000 (recBytesOf r ++ List.replicate 64 0#8))) = true ∧
    ((hndSt f1 0x8000).ctx 1).flogbase = 0x8000 ∧ fld ((hndSt f1 0x8000).ctx 1).flogctl 0 8 = 2 ∧ fld ((hndSt f1 0x8000).ctx 1).flogctl 8 8 = 3 ∧ ((hndSt f1 0).ctx 1).flogbase = 0 := by decide +kernel
/-- What the handler's steps leave of the queue and the contexts. -/
def cowLeaves (r : FltRec) : Bool :=
  match handlerRun cowSt r.ctx (cowSteps (r.f 6 0 12) (r.f 6 12 4) (r.f 6 16 32) (r.f 7 0 64)) with
  | some (.ok s2) => s2.fq == cowSt.fq && s2.fqhead == cowSt.fqhead && s2.ctxs == cowSt.ctxs
  | _ => false
theorem meets_cow :
    headIs cowSt (fun r => r.cls == 0x0F && r.resumable && r.agent == .unit 1 24 7 && ((cowSt.startedOf 1 24 7).map (·.phase) == some .stopped) && cowLeaves r) = true := by decide +kernel
theorem meets_faultDecision :
    (∀ b, b < 4 → (decSt f1 b 1).await = some (0, 0, 0) ∧ 0 < (((decSt f1 b 1).ctx 1).sem 3).value ∧
      (decSt f1 b 1).fetchBytes ⟨some 1, false⟩ (0x8000 + 128 * ((((decSt f1 b 1).ctx 1).flogCount - 1) % 2 ^ (fld ((decSt f1 b 1).ctx 1).flogctl 16 4 + 4)) + 64) 8 = some (leBytes 8 b)) ∧
    (let s := onT (fun x => x.setNode 0 { x.node 0 with stopped := true }) (decSt fN 1 1)
     ((s.tile 0).node 0).stopped = true ∧ ∀ r ∈ s.fq, r.resumable = true ∧ r.agent = .node 0 0 ∧ (s.regionOf r).isSome = true) ∧
    (∀ r ∈ (decSt f1 0 1).fq, r.engine = false ∧ (decSt f1 0 1).regionOf r = some 0) ∧
    (let s := run7 (c7 (.fill (cmd 0 0x4000 64 7 0xEE0000 0 0))) 0 [] id
     (s.startedOf 1 0 7).isSome = true ∧ ∀ r ∈ (hndSt { f1 with engine := true, agent := .command 1 0 7 } 0x8000).fq, r.engine = true ∧ r.agent = .command 1 0 7) ∧
    ((((decSt f1 0 0).ctx 1).sem 3).value = 0 ∧ fld ((decSt f1 0 0).ctx 1).flogctl 20 16 = 0) := by decide +kernel
/-- Region 0, asked to leave its tiles or not: between rounds or within one, its block with restart marks or not. -/
def preSt (begun acr : Bool) (f : Region → Region) (cycle : Nat) : State :=
  let s := turn begun begun fun x => { x with hdr := { x.hdr with acr := acr } }
  { s.setRegion 0 (f (s.region 0)) with cycle := cycle }
theorem meets_RegionsArePreempted :
    (let s := preSt false false id 0; (s.region 0).valid = true ∧ (s.region 0).susp = false ∧ (s.region 0).busy = false ∧ (s.region 0).ctx ≠ 0 ∧ (s.region 5).valid = false) ∧
    (let s := preSt false false (fun r => { r with ctx := 0 }) 0; (s.region 0).valid = true ∧ (s.region 0).susp = false ∧ (s.region 0).busy = false ∧ (s.region 0).ctx = 0) ∧
    (let s := preSt false false (fun r => { r with busy := true, preLim := 2000000 }) 0
     (s.region 0).valid = true ∧ (s.region 0).busy = true ∧ (s.region 0).form = false ∧ s.family 0 = [0] ∧ (s.region 0).phase = .running ∧ (∀ t ∈ (s.region 0).tiles, (s.tile t).begun = false) ∧
      s.drained 0 = true ∧ s.startedDone 0 = true ∧ (s.region 0).past = [] ∧ (∀ e ∈ (s.ctx (s.region 0).ctx).queues, e.2.started = [])) ∧
    (let s := preSt true false (fun r => { r with busy := true, preLim := 2000000 }) 0
     (∃ t ∈ (s.region 0).tiles, (s.tile t).begun = true) ∧ s.cycle < (s.region 0).reqCycle + (s.region 0).preLim ∧ (s.ctx (s.region 0).ctx).plim = 0 ∧ (s.ctx (s.region 0).ctx).fltpend = false ∧ (s.region 0).ctx ≠ 0) ∧
    (let s := preSt true false (fun r => { r with busy := true, preLim := 2000000 }) 2000000
     (s.region 0).reqCycle + (s.region 0).preLim ≤ s.cycle ∧ ∃ t ∈ (s.region 0).allTiles, (s.tile t).words ≠ [] ∧ (s.tile t).hdr.acr = false) ∧
    (let s := preSt true true (fun r => { r with busy := true, form := true, preLim := 2000000 }) 2000000
     (s.region 0).form = true ∧ s.noneStopped 0 = true ∧ (∀ t ∈ (s.region 0).allTiles, (s.tile t).hdr.acr = true) ∧ ∀ x ∈ s.tiles, x.2.marks = []) ∧
    (let s := preSt false false (fun r => { r with susp := true, phase := .suspended }) 0; (s.region 0).susp = true ∧ s.family 0 = [0] ∧ (s.region 0).phase = .suspended) := by decide +kernel
theorem tget_all {α : Type} {p : α → Prop} {d : α} (hd : p d) : ∀ {l : List (Nat × α)}, (∀ x ∈ l, p x.2) → ∀ k, p (tget d l k)
  | [], _, _ => hd
  | (j, w) :: l, h, k => by
    unfold tget
    split
    · exact h (j, w) (by simp)
    · exact tget_all hd (fun x hx => h x (by simp [hx])) k
theorem meets_preempt_no_marks : ∀ t, ((preSt true true (fun r => { r with busy := true, form := true, preLim := 2000000 }) 2000000).tile t).marks = [] :=
  tget_all (p := fun x : Tile => x.marks = []) rfl (by decide +kernel)
theorem meets_LaunchesAreLoaded :
    (let l := { lau .started with bad := true }; tget? (lauSt l 135248183).launches 0 = some l ∧ l.phase = .started ∧ (lauSt l 135248183).ctlHalt = false) ∧
    (let l := { lau .started with kernel := 0x30000 }; l.bad = false ∧ (lauSt l 135248183).kernelOf l = none) ∧
    (let l := lau .started
     let s := { lauSt l 135248183 with parts := [(0, { (lauSt l 135248183).part 0 with tiles := 0 })] }
     (match s.kernelOf l with | some (k, _) => decide ((s.part (s.ctx l.ctx).part).tiles < k.need) | none => false) = true) ∧
    (let l := lau .started
     let s := lauSt l 135248183
     l.isPsq = false ∧ s.freeRegion = some 0 ∧ s.genInFlight 0 (((s.home 0).gen + 1) % 256) = false ∧
      (match s.kernelOf l with
       | some (k, os) =>
         let ts := s.placeTiles 0 l k.need
         let ds := ((((s.takeTiles ts).openRegion 0 0 l k default ts).home 0).beginGroups.decisions (ts.length + 1) ts).1
         decide (k.need ≤ (s.part (s.ctx l.ctx).part).tiles ∧ k.need ≤ ts.length) && isOk (checkConf s l.via (s.loadEnv l os.length k.childTab.length) default k.leaves os (ds.flatMap (·.2))) &&
           (privLeaf s l.via (s.loadEnv l os.length k.childTab.length) k.leaves).isNone
       | none => false) = true) := by decide +kernel
/-- The kernel's block with PRIV, in a leaf of a kernel of context 1. -/
theorem meets_LaunchesAreLoaded_priv :
    let l := lau .started
    let s := { lauSt l 135248183 with mem := (lauSt l 135248183).mem.writeN 0x20200 (leBytes 16 (135248183 + 1 * 2 ^ 82 + 1 * 2 ^ 93 + 1 * 2 ^ 100 + 1 * 2 ^ 108 + 0xCA31 * 2 ^ 112)) }
    (match s.kernelOf l with
     | some (k, os) => privLeaf s l.via (s.loadEnv l os.length k.childTab.length) k.leaves == some 0
     | none => false) = true := by decide +kernel

/-- Region 0 of a running launch; leaf 0 of its kernel waits with one instance, tile 0 is free. -/
def leafSt (bad : Bool) : State :=
  let s := lauSt { lau .running with bad := bad } 135248183
  match s.kernelOf (lau .running) with
  | some (k, _) => s.setRegion 0 { Region.fresh with ctx := 1, valid := true, canon := 1, launch := 0, allTiles := [0], leaves := k.leaves, plan := k.plan, begunG := [0], waiting := [(0, 0)] }
  | none => s
theorem meets_FreeTilesTakeLeaves :
    (((leafSt false).region 0).chooseLeaf = some 0 ∧ ((leafSt false).region 0).waitingGroup = none ∧ ((leafSt false).region 0).tokens = [(0, 1)]) ∧
    ({ (leafSt false).region 0 with waiting := [(0, 0), (0, 1), (1, 0)], ages := [(1, 7)] }.chooseLeaf = some 1) ∧
    (let s := leafSt false
     tget? s.launches 0 = some (lau .running) ∧ s.ctlHalt = false ∧ (s.region 0).valid = true ∧ (s.region 0).susp = false ∧ (s.region 0).busy = false ∧ (∀ k ∈ s.family 0, (s.region k).phase ≠ .stopped) ∧
      0 ∈ (s.region 0).allTiles ∧ s.tileFree 0 = true ∧ 1 ∉ (s.region 0).allTiles ∧
      (match (s.region 0).decide (0 :: ((s.region 0).allTiles.filter s.tileFree).filter (· != 0)) with
       | some (_, ms, _) => isOk (checkConf s (lau .running).via (s.loadEnv (lau .running) 0 0) (s.region 0).cfg (s.region 0).leaves [] ms) | none => false) = true) ∧
    (let s := leafSt true
     (∀ k ∈ s.family 0, (s.region k).phase = .off ∧ s.loading k = false) ∧ tget? s.launches 0 = some { lau .running with bad := true }) := by decide +kernel
/-- The block's CRC is wrong: its check fails. -/
theorem meets_failed_leaf :
    let s := { leafSt false with mem := (leafSt false).mem.writeN 0x20200 [0#8] }
    (match (s.region 0).decide [0] with
     | some (_, ms, _) => !isOk (checkConf s (lau .running).via (s.loadEnv (lau .running) 0 0) (s.region 0).cfg (s.region 0).leaves [] ms) | none => false) = true := by decide +kernel
/-- Context 1 has posted a child launch at level 2 that waits. -/
def headSt : State := let s := lauSt { lau .waiting with src := .child 1 2 0, level := 2 } 135248183; s.setCtx 1 { s.ctx 1 with childq := [(2, [0])] }
/-- A supervisor record is posted; the tables of reset hold two places. -/
def psqSt : State := { State.reset with psqPost := 1 }
theorem meets_HeadsAreStarted :
    (let s1 := (headSt.updateQueues 0).copyHeads 0
     headSt.ctlHalt = false ∧ (headSt.part 0).tdisp = .run ∧ (State.reset.part 0).tdisp ≠ .run ∧ (headSt.part 0).suspended = [] ∧ (∀ h ∈ s1.heads 0, (s1.subq 0 h.queue).pinned = false) ∧
      ∃ h ∈ s1.heads 0, h.launch.level < 4 ∧ h.ready = true ∧ s1.needNow h.launch ≤ s1.freeCount 0 none) ∧
    (lauSt (lau .running) 0).heads 0 = [] ∧ (psqSt.psqBusy = false ∧ psqSt.psqDone < psqSt.psqPost ∧ psqSt.ctlHalt = false) ∧ State.reset.psqPost ≤ State.reset.psqDone := by decide +kernel
theorem test_schedulerDecision : runs (.schedulerDecision 0) headSt (fun s => (tget? s.launches 0).any fun l => l.phase == .started) = true := by decide +kernel
/-- A launch that has ended, with its region. -/
def endSt (p : LaunchPhase) : State :=
  let s := lauSt (lau p) 135248183
  s.setRegion 0 { Region.fresh with ctx := 1, valid := true, launch := 0, allTiles := [0] }
theorem meets_LaunchesComplete :
    (let l := lau .refused
     tget? (endSt .refused).launches 0 = some l ∧ (endSt .refused).ctlHalt = false ∧ l.crec ≠ 0 ∧ l.crec % 32 = 0 ∧ isOk ((endSt .refused).engWrite 0 l.via.actx l.via.sup l.crec (recordBytes l)) = true) ∧
    (let l := lau .ended
     let s := endSt .ended
     tget? s.launches 0 = some l ∧ l.region = 0 ∧ s.commandsDone 0 = true ∧ (∀ k ∈ s.family 0, (s.region k).wrote = []) ∧
      isOk (s.engWrite 0 l.via.actx l.via.sup l.crec (recordBytes { l with instants := s.instants 0, detached := l.detached || (s.family 0).any (fun k => (s.region k).detached), preempted := l.preempted || (s.region 0).preempted })) = true ∧
      l.cinc ≠ 0 ∧ ((s.ctx 1).sem l.csem).value + l.cinc < 2 ^ 32 ∧ l.src = .queue 0 0 0) ∧
    (let l := { lau .killed with cls := 3 }
     let s := { endSt .killed with launches := [(0, l)] }
     tget? s.launches 0 = some l ∧ s.dying 0 = false ∧ s.commandsDone 0 = true ∧ isOk (s.engWrite 0 l.via.actx l.via.sup l.crec (recordBytes l)) = true) ∧
    (let l := { lau .refused with crec := 2 ^ 40 }
     l.crec % 32 = 0 ∧ isOk ((endSt .refused).engWrite 0 l.via.actx l.via.sup l.crec (recordBytes l)) = false) ∧
    (0 ∈ (({ endSt .ended with parts := [(0, { (endSt .ended).part 0 with queues := [(0, { SubQ.fresh with running := [0] })] })] } : State).subq 0 0).running) ∧ (lau .waiting).phase = .waiting := by decide +kernel
theorem test_launchComplete : runs (.launchComplete 0) (endSt .ended) (fun s => s.peekNat 0x9000 8 == 77 && ((s.ctx 1).sem 4).value == 2 && !(s.region 0).valid) = true := by decide +kernel
/-- The memory paths are open; partition 0 holds the first 64 GiB and is in RUN. -/
def hostSt : State := { stM (.mov (nd .raw)) none none none with bootstat := 6, psqN := 2 }
theorem meets_HostAccesses :
    State.reset.bootstat ≠ 6 ∧ hostSt.bootstat = 6 ∧ (4 < 2 ^ 32 ∧ hostSt.psqPost ≤ 4 ∧ 4 - hostSt.psqDone ≤ 2 ^ hostSt.psqN) ∧
    (hostSt.hostBarred 0x4000 true = none ∧ hostSt.badBeats.contains (0x4000 / 64) = false ∧ hostSt.roHost 0x4000 = false ∧ tget? hostSt.lines (0x4000 / 128) = none) ∧
    hostSt.hostBarred 0x4000 false = some (some 0) ∧ hostSt.hostBarred (0xC000000000 - 64) true = some none ∧
    ({ hostSt with hrov := true, hrobase := 0x8000, mem := hostSt.mem.writeN 0x8000 [1#8] } : State).roHost 0x4000 = true ∧
    (¬ ((hostSt.ctx 1).state = 0 ∨ ((hostSt.part (hostSt.ctx 1).part).tdisp = .run ∧ true = false)) ∧ (5#64).toNat % 2 ^ 32 ≠ 0 ∧ ((hostSt.ctx 1).sem 7).value + (5#64).toNat % 2 ^ 32 < 2 ^ 32) ∧
    (let s := { hostSt with lines := [(0x4000 / 128, { (default : Line) with shared := true }), (0x5000 / 128, (default : Line))] }
     (∃ x, tget? s.lines (0x4000 / 128) = some x ∧ x.shared = true) ∧ (∃ x, tget? s.lines (0x5000 / 128) = some x ∧ x.shared = false) ∧
       s.hostBarred 0x4000 true = none ∧ s.hostBarred 0x5000 true = none) ∧
    (hostSt.ctx 2).state = 0 ∧ (2 ^ 51 ≤ 2 ^ 51 + 64 ∧ 2 ^ 51 + 64 < 2 ^ 52) := by decide +kernel
theorem test_host : runs (.hostMemWrite 0x4000 [9#8] true) hostSt (fun s => s.peekN 0x4000 1 == [9#8]) = true ∧ runs (.semWindowInc (4096 + 16 * 7) 4 5#64 true) hostSt (fun s => ((s.ctx 1).sem 7).value == 5) = true ∧
    runs (.hostMemRead 0x4000 2 false) hostSt (fun s => s.out.host == [0xFF#8, 0xFF#8] && (tget 0 s.life 0xE0 == 1)) = true ∧
    runs (.semWindowRead (256 + 7) 0 8 true) hostSt (fun s => s.out.window == 2 ^ 64 - 1) = true := by decide +kernel
/-- FIPS 180-4's digest of the three bytes of abc: its last eight bytes. -/
theorem test_sha384 : bitsNat (sha384 [0x61#8, 0x62#8, 0x63#8]) 0 64 = 0x58baeca134c825a7 := by decide +kernel
/-- Partition 3 in an interface state, one range of memory attached and empty. -/
def tdSt (t : Tdisp) (zero : Bool) : State := State.reset.setPart 3 { Part.fresh with tdisp := t, pmem := if zero then [(0, { Pmem.fresh with v := true, base := 0, count := 1, zero := true })] else [] }
theorem meets_InterfaceRequests :
    (State.reset.part 3).tdisp = .unlocked ∧ ((tdSt .locked true).part 3).tdisp = .locked ∧ ((tdSt .run false).part 3).tdisp = .run ∧ ((tdSt .error false).part 3).tdisp = .error ∧
    (∀ j, j < 16 → (tget Pmem.fresh ((tdSt .locked false).part 3).pmem j).v = false) ∧
    (let m := tget Pmem.fresh ((tdSt .locked true).part 3).pmem 0
     m.v = true ∧ m.zero = true ∧ (∀ i, i < 16 → i ≠ 0 → (tget Pmem.fresh ((tdSt .locked true).part 3).pmem i).v = false) ∧ m.range.1 ≤ 5 ∧ 5 < m.range.2) ∧
    (let s := (tdSt .run false).setCtx 9 { Ctx.fresh with part := 3 }
     let s := s.setRegion 4 { Region.fresh with ctx := 9, valid := true }
     (s.region 4).ctx = 9 ∧ (9, s.ctx 9) ∈ s.ctxs ∧ (s.ctx 9).part = 3) ∧
    (5 ≤ 6 ∧ 6 ≤ 7) ∧ State.reset.copyB = false ∧ ({ State.reset with copyB := true } : State).copyB = true := by decide +kernel

/-- The context with memory, whose unit's queue has room. -/
def migSt : State := stM (.mov (nd .raw)) none none none
/-- An image, or a notice, that has come whole on link 4 from part 6. -/
def migIn (got : List RxFlit) : State :=
  { migSt with sessions := [(6, 9#256)], links := [(4, { LinkSt.fresh with en := true, up := true, peer := 6, got := got })], departures := [⟨0, 1, 3, 0x8000, 1, some 6⟩] }
def sealed (nonce : Nat) (ps : List Payload) : List Payload := (sealBeats 9#256 nonce ps).1 ++ [(sealBeats 9#256 nonce ps).2]
theorem meets_MigrationAgents_image (ps : List Payload) :
    (migIn [⟨1, 0, 1, sealed (nonceOf 6 false 0) ps⟩]).takeImage 6 = some (migIn [], 0, sealed (nonceOf 6 false 0) ps) ∧
    openBeats 9#256 (nonceOf 6 false 0) (sealed (nonceOf 6 false 0) ps) = some ps :=
  ⟨by simp [State.takeImage, migIn, List.findIdx, List.findIdx.go, State.setLink, State.link, tset], openBeats_sealBeats ..⟩
theorem meets_MigrationAgents_notice :
    (migIn [⟨2, 0, 0, sealed (nonceOf 6 true 0) [lanes64 [0]]⟩]).takeNotice 6 = some (migIn [], sealed (nonceOf 6 true 0) [lanes64 [0]]) ∧
    openBeats 9#256 (nonceOf 6 true 0) (sealed (nonceOf 6 true 0) [lanes64 [0]]) = some [lanes64 [0]] :=
  ⟨by simp [State.takeNotice, migIn, State.setLink, State.link, tset], openBeats_sealBeats ..⟩
theorem meets_MigrationAgents :
    (migIn []).session 6 = some 9#256 ∧ (migIn []).agentRoom 1 = true ∧ migSt.session 6 = none ∧ migSt.agentRoom 0 = false ∧ (migIn []).takeImage 6 = none ∧
    isOk ((migIn []).engWrite (Config.dieOf agentTile) (some 1) false 0x8000 ([5#512].flatMap (payBytes 64))) = true ∧ openBeats 9#256 (nonceOf 6 false 0) [] = none ∧
    isOk ((migIn []).engRead (Config.dieOf agentTile) (some 1) false 0x8000 (64 * 2)) = true ∧
    (migIn []).departures.find? (fun d => d.ctx == 1 && d.slot == 3) = some ⟨0, 1, 3, 0x8000, 1, some 6⟩ ∧ (migIn []).departures.find? (fun d => d.ctx == 1 && d.slot == 4) = none ∧
    (migIn []).takeNotice 6 = none := by decide +kernel
/-- Span link 4 up, link 5 up and the route to part 6. -/
def linkSt (f : LinkSt → LinkSt) : State :=
  let s := State.reset.setLink 4 (f { LinkSt.fresh with en := true, up := true, ready := 1, todo := [⟨0, 0, 0, 0, [5#512], 0⟩] })
  { s.setLink 5 { LinkSt.fresh with en := true, up := true } with spanroute := [(6, 16 + 5)] }
def flit (dest hops count : Nat) (ack : Nat) : Flit := { seq := 0, ack := ack, nak := false, ready := 3#8, vc := 1, partition := 0, count := count, dest := dest, hops := hops, route := 0, payload := [7#512, 8#512], crcOk := true }
def sentFlit (n : Nat) : TxFlit := ⟨9, 0, 0, 0, [5#512], n⟩
theorem meets_LinksCarryFlits :
    (let l := (linkSt id).link 4
     l.up = true ∧ l.worn = false ∧ l.resend = 0 ∧ l.replay.length < 256 ∧ l.mayCarry 0 = true ∧ l.todo = [⟨0, 0, 0, 0, [5#512], 0⟩] ∧ l.mayCarry 1 = false ∧ (∀ g ∈ l.todo, g.beats.length ≤ 4)) ∧
    (let l := (linkSt fun l => { l with replay := [sentFlit 0, sentFlit 0], resend := 2 }).link 4
     l.worn = false ∧ l.resend ≠ 0 ∧ l.replay[l.replay.length - l.resend]? = some (sentFlit 0) ∧ l.mayCarry (sentFlit 0).vc = true) ∧
    (let l := (linkSt fun l => { l with replay := [sentFlit 0], resend := 1, ready := 2 }).link 4; (sentFlit 0).beats ≠ [] ∧ l.mayCarry (sentFlit 0).vc = false) ∧
    (State.reset.link 4).up = false ∧ ((flit 0 0 1 0).seq = ((linkSt id).link 4).rxSeq ∧ (linkSt id).partid = 0 ∧ (flit 0 0 1 0).nak = false ∧ (flit 0 0 1 0).vc < 4) ∧
    { flit 0 0 1 0 with crcOk := false }.crcOk = false ∧ ((flit 6 1 1 0).dest ≠ (linkSt id).partid ∧ 0 < (flit 6 1 1 0).count ∧ (flit 6 1 1 0).hops < 2 ∧ (linkSt id).routeLink 6 = some 5) ∧ 2 ≤ (flit 6 2 1 0).hops ∧
    (linkSt id).routeLink 7 = none ∧
    (((linkSt fun l => { l with replay := [sentFlit 0] }).link 4).replay = [sentFlit 0] ∧ (flit 0 0 0 9).ack = 9 ∧ (flit 0 0 0 9).count = 0 ∧ { flit 0 0 0 9 with nak := true }.nak = true) ∧
    ((linkSt fun l => { l with replay := [sentFlit 16] }).link 4).worn = true ∧ ((linkSt fun l => { l with replay := [sentFlit 15] }).link 4).worn = false := by decide +kernel
/-- The source agent has an image of four beats at 0x8000 for the peer of link 4, with which it has a session. -/
theorem meets_LinksCarryFlits_image :
    let d : Departure := ⟨0, 1, 3, 0x8000, 4, none⟩
    let s := { migSt with sessions := [(6, 9#256)], links := [(4, { LinkSt.fresh with en := true, up := true, peer := 6, ready := 2 })], departures := [d] }
    (s.link 4).mayCarry 1 = true ∧ (∀ f ∈ (s.link 4).todo, f.vc ≠ 1) ∧ s.departures.find? (fun d => d.peer.isNone) = some d ∧ s.session (s.link 4).peer = some 9#256 ∧ s.ctlHalt = false ∧
    (match s.imageOf d with | .ok (_, bs) => bs.length == 4 | .error _ => false) = true := by decide +kernel
theorem test_flit : runs (.flitSend 4 0 []) (linkSt id) (fun s => (s.link 4).todo.isEmpty && (s.link 4).txSeq == 1 && ((s.link 4).sent.map List.length == [288])) = true ∧
    runs (.flitReceive 4 (flit 6 1 1 0)) (linkSt id) (fun s => (s.link 5).todo.map (fun g => (g.vc, g.beats)) == [(3, [7#512])]) = true := by decide +kernel
/-- SE 3's part of near stack 2 as given, at a cycle. -/
def stk (x : Refresher) (cycle : Nat) : State := { State.reset.setStack 2 { Stack.fresh with owners := [(3, x)] } with cycle := cycle }
def taken : Refresher := { Refresher.fresh with takeover := true, resetting := true, beats := 4, lastBeat := 3900 }
theorem meets_RefreshChangesHands :
    (let s := stk Refresher.fresh 1000; (s.stack 2).owner 3 = Refresher.fresh ∧ Refresher.fresh.lastBeat + 1000 ≤ s.cycle ∧ s.cycle ≤ Refresher.fresh.lastBeat + 4000) ∧
    ¬ (Refresher.fresh.lastBeat + 1000 ≤ 999) ∧ ¬ (4001 ≤ Refresher.fresh.lastBeat + 4000) ∧
    (taken.takeover = true ∧ taken.resetting = true ∧ taken.beats ≠ 0 ∧ { taken with beats := 0 }.beats = 0 ∧ { taken with resetting := false }.resetting = false) ∧
    (Refresher.fresh.behind 3900 0 ≠ 0 ∧ (3900 : Nat) ≤ Refresher.fresh.lastBeat + 4000 ∧ Refresher.fresh.behind 3899 7 = 0 ∧ Refresher.fresh.lastBeat + 4000 < 7800) ∧
    (3899 / 3900 = Refresher.fresh.lastBeat / 3900 ∧ { taken with lost := 0 }.lost + 8000 ≤ 8000) ∧
    (Refresher.fresh.lastBeat + 4000 ≤ 4000 ∧ taken.lastBeat + 4000 ≤ 7900) ∧
    (∀ o ∈ ((stk Refresher.fresh 4000).stack 2).owners, o.2.takeover = false) ∧
    (∃ o ∈ (({ stk taken 7900 with memStacks := [(2, { Stack.fresh with owners := [(3, Refresher.fresh), (4, { taken with resetting := false })] })] } : State).stack 2).owners, o.2.takeover = true ∧ o.2.resetting = false) ∧
    (4 ≤ taken.beats ∧ 3900 ≤ taken.lastBeat + 1000 ∧ 3900 % 3900 = 0) := by decide +kernel
theorem meets_RepairsAndPower :
    (((State.reset.stack 2).takeover = false) ∧ ((stk { taken with resetting := false } 0).stack 2).takeover = true ∧
      State.reset.errOpen 2 = false ∧ ({ State.reset with held := [⟨[0x0E#64, 0#64, 0#64, 0#64, 0#64, 0#64, 2#64, 0#64], .none, none, 0⟩] } : State).errOpen 2 = true) ∧
    (tget 0 State.reset.lanes 5 < 2 ∧ tget 0 ({ State.reset with lanes := [(5, 2)] } : State).lanes 5 = 2 ∧ tget 0 State.reset.ways 5 = 0) ∧
    (let s := turnFxt true false; (s.tile 0).words ≠ [] ∧ (s.ctx (s.tileCtx 0)).fxt = true ∧ (s.tile 0).droop = none) ∧
    (State.reset.hotHold = false ∧ State.reset.pwrCap < 3001 ∧ 100 < 101 ∧ 100 * 2000 ≤ 95 * State.reset.pwrCap ∧ ({ State.reset with clkForce := 50 } : State).clkForce = 50) := by decide +kernel
/-- R400: the fourth missed heartbeat, counted once for the stack. -/
theorem test_refreshTakeover : runs (.refreshTakeover ⟨2, 3⟩) (stk Refresher.fresh 4000) (fun s => (s.stack 2).takeover && (tget 0 s.life 0x62 == 1)) = true := by decide +kernel
theorem test_power : runs (.powerCheck 3001 60) State.reset (fun s => s.clkForce == 139) = true ∧ runs (.powerCheck 1000 110) State.reset (fun s => s.bootstat == 1 && s.ctlHalt) = true := by decide +kernel
theorem meets_BootAndReload :
    (State.reset.hotHold = false ∧ (∀ p ∈ State.reset.parts, p.2.tdisp ≠ .run) ∧ recordReservedOk State.reset.recordA = true ∧ recordReservedOk [0#8, 0#8, 0#8, 0#8, 0#8, 0#8, 0#8, 0#8, 0#8, 0#8, 0#8, 0#8, 0#8, 0#8, 0#8, 0#8, 0#8, 1#8] = false) ∧
    ({ State.reset with hotHold := true } : State).hotHold = true ∧ (let s := { State.reset.setRegion 7 { Region.fresh with valid := true, allTiles := [4100] } with ctlHalt := true }
     s.ctlHalt = true ∧ s.hotHold = false ∧ ∃ t ∈ (s.region 7).allTiles, 4096 ≤ t) ∧ State.reset.ctlHalt = false := by decide +kernel

/-! Worked examples of translation, interleave and leaf decisions. -/

/-- 16's example of R327–R329 in context 7: root table at 0x1000000, the tables below at 0x400200 and 0x401000, and the leaf. -/
def xlSt : State :=
  let ws : List (Nat × Nat) := [(0x1000000 + 16, 0x400201), (0x400200, 0x401001), (0x401000, 0x0000005000600007)]
  { (State.reset.setCtx 7 { Ctx.fresh with ptv := true, ptroot := 0x1000000 }) with mem := ws.foldl (fun (m : Memory) (w : Nat × Nat) => m.writeN w.1 (leBytes 8 w.2)) [] }
theorem test_walk : (match walk xlSt 7 0x2000042380 with | .ok x => x.pa == 0x5000642380 && x.bits == 21 && x.attr.w | .error _ => false) = true ∧
    (match walk xlSt 7 0x3000042380 with | .error f => f.cls == 2 && f.cause == 2 | .ok _ => false) = true := by decide +kernel
/-- R335's example: under the reset masks channel 3, pseudo-channel 1 of stack 5; under set 1, bits 7 and 18 for pc, 8 + i and 13 + i for channel bit i, channel 2, pseudo-channel 0. -/
theorem test_interleave : dramPlace MaskSet.fresh 0x5000642380 = (5, 3, 1) ∧
    dramPlace { MaskSet.fresh with masks := (2 ^ 7 + 2 ^ 18) :: ((List.range 5).map fun i => 2 ^ (8 + i) + 2 ^ (13 + i)) ++ [0, 0] } 0x5000642380 = (5, 2, 0) := by decide +kernel
/-- R36's example: leaves 0, 1 and 2 hold 5, 9 and 2 tokens; leaf 1 wins seven decisions, then leaf 0, then leaf 2. -/
def leafWins : Nat → Region → List Nat
  | 0, _ => []
  | n + 1, h => match h.chooseLeaf with | some l => l :: leafWins n (h.aged l) | none => []
theorem test_leafDecisions :
    leafWins 9 { Region.fresh with waiting := (List.range 5).map (fun i => (0, i)) ++ (List.range 9).map (fun i => (1, i)) ++ (List.range 2).map fun i => (2, i) } = [1, 1, 1, 1, 1, 1, 1, 0, 2] := by decide +kernel

/-! The assembler. -/

/-- The words of the blocks of a source. -/
def zalmWords (src : String) : Option (List (List Nat)) := (Zalm.assemble 0 src).toOption.map fun i => i.blocks.map fun b => b.words.map BitVec.toNat
/-- 24's worked example of R419: an extension word for a third target, and the bf16 pattern widened. -/
theorem test_zalmBlock :
    zalmWords ".block scale\nx:  IN.f32    in0                  -> m.l\nm:  FMUL.f32  x, #0x4000 abs=ident -> out0, out1, out2\n.endblock" =
    some [[0x0000007800000000, 0x3200601810000700, 0x4000000060B80000]] := by decide +kernel
/-- R421's example: the root is entry 0, the controller 1, leaf c 2, a 3 and b 4; leaves are numbered a, b, c. -/
theorem test_zalmTree :
    (Zalm.treeEntries [⟨0, 1, "", 1, default⟩, ⟨1, 2, "", 1, default⟩, ⟨2, 0, "a", 1, default⟩, ⟨2, 0, "b", 1, default⟩, ⟨1, 0, "c", 1, default⟩]).map Zalm.entryWord =
    [0x2005#64, 0x200E#64, 0x800000#64, 0#64, 0x400000#64] := by decide +kernel

end Sys2Proof.Tests
end

section
/-!
SUPPORT. What a leaf decision chooses (R35, R36), what it loads (R37, R319), what it records (R83, R352), and how a region ends with its launch (R361).
-/
namespace Sys2Proof.Machine

/-! Numbers in ascending order. -/

theorem sortNats_pairwise (l : List Nat) : (sortNats l).Pairwise (· < ·) := by
  refine List.foldlRecOn l _ (motive := List.Pairwise (· < ·)) List.Pairwise.nil fun acc ih x _ => ?_
  rw [List.append_assoc, List.pairwise_append, List.singleton_append, List.pairwise_cons]
  refine ⟨ih.filter _, ⟨fun b hb => ?_, ih.filter _⟩, fun a ha b hb => ?_⟩
  · simp only [List.mem_filter, decide_eq_true_eq] at hb
    exact hb.2
  · simp only [List.mem_filter, List.mem_cons, decide_eq_true_eq] at ha hb
    omega

/-! The element with the greatest value. -/

theorem bestOf_mem {xs : List (Nat × Nat)} {y : Nat × Nat} (h : bestOf xs = some y) : y ∈ xs := by
  induction xs generalizing y with
  | nil => cases h
  | cons x xs ih =>
    cases hr : bestOf xs with
    | none => simp only [bestOf, hr, Option.some.injEq] at h; simp [h]
    | some z =>
      simp only [bestOf, hr, Option.some.injEq] at h
      split at h <;> subst h
      · exact List.mem_cons_of_mem _ (ih hr)
      · exact List.mem_cons_self

theorem bestOf_eq_none {xs : List (Nat × Nat)} (h : bestOf xs = none) : xs = [] := by
  cases xs with
  | nil => rfl
  | cons x xs => simp only [bestOf] at h; split at h <;> cases h

/-- Of a list in ascending order the best element has the greatest value, and of those with that value the lowest number. -/
theorem bestOf_greatest {xs : List (Nat × Nat)} {y : Nat × Nat} (hs : xs.Pairwise fun a b => a.1 < b.1) (h : bestOf xs = some y) :
    ∀ x ∈ xs, x.2 ≤ y.2 ∧ (x.2 = y.2 → y.1 ≤ x.1) := by
  induction xs generalizing y with
  | nil => cases h
  | cons x xs ih =>
    obtain ⟨hx, hxs⟩ := List.pairwise_cons.1 hs
    cases hr : bestOf xs with
    | none =>
      simp only [bestOf, hr, Option.some.injEq] at h
      subst h
      simp [bestOf_eq_none hr]
    | some z =>
      have hz := ih hxs hr
      have hxz := hx z (bestOf_mem hr)
      simp only [bestOf, hr, Option.some.injEq] at h
      intro w hw
      rcases List.mem_cons.1 hw with rfl | hw
      · split at h <;> subst h <;> omega
      · have := hz w hw
        have := hx w hw
        split at h <;> subst h <;> omega

/-! The leaves that wait, and the one chosen (R35). -/

theorem Region.tokens_pairwise (h : Region) : h.tokens.Pairwise fun a b => a.1 < b.1 := by
  simp only [Region.tokens, List.pairwise_map]
  exact sortNats_pairwise _

theorem Region.eq_of_mem_tokens {h : Region} {l n : Nat} (hm : (l, n) ∈ h.tokens) : n = (h.waiting.filter fun p => p.1 == l).length := by
  simp only [Region.tokens, List.mem_map, Prod.mk.injEq] at hm
  obtain ⟨k, -, rfl, rfl⟩ := hm
  rfl

/-- The waiting leaves that have been passed over 7 times, each with its age. -/
def Region.agedTokens (h : Region) : List (Nat × Nat) := (h.tokens.map fun x => (x.1, tget 0 h.ages x.1)).filter fun p => 7 ≤ p.2

theorem Region.agedTokens_pairwise (h : Region) : h.agedTokens.Pairwise fun a b => a.1 < b.1 :=
  List.Pairwise.filter _ (List.pairwise_map.2 h.tokens_pairwise)

theorem Region.mem_agedTokens {h : Region} {p : Nat × Nat} : p ∈ h.agedTokens ↔ (∃ x ∈ h.tokens, x.1 = p.1) ∧ p.2 = tget 0 h.ages p.1 ∧ 7 ≤ p.2 := by
  simp only [Region.agedTokens, List.mem_filter, List.mem_map, decide_eq_true_eq]
  constructor
  · rintro ⟨⟨x, hx, rfl⟩, h7⟩
    exact ⟨⟨x, hx, rfl⟩, rfl, h7⟩
  · rintro ⟨⟨x, hx, he⟩, h2, h7⟩
    exact ⟨⟨x, hx, Prod.ext he (by rw [he, h2])⟩, h7⟩

theorem Region.chooseLeaf_eq (h : Region) :
    h.chooseLeaf = (if h.agedTokens = [] then bestOf h.tokens else bestOf h.agedTokens).map (·.1) := by
  simp only [Region.chooseLeaf, Region.agedTokens, List.isEmpty_iff]
  rfl

theorem Region.agedTokens_eq_nil {h : Region} : h.agedTokens = [] ↔ ∀ x ∈ h.tokens, tget 0 h.ages x.1 < 7 := by
  simp only [Region.agedTokens, List.filter_eq_nil_iff, List.forall_mem_map, decide_eq_true_eq, Nat.not_le]

/-- While no leaf has been passed over 7 times, the leaf with the most tokens is chosen. -/
theorem Region.chooseLeaf_young {h : Region} {l : Nat} (hc : h.chooseLeaf = some l) (hy : ∀ x ∈ h.tokens, tget 0 h.ages x.1 < 7) :
    ∃ n, bestOf h.tokens = some (l, n) := by
  rw [h.chooseLeaf_eq, if_pos (Region.agedTokens_eq_nil.2 hy)] at hc
  obtain ⟨⟨_, n⟩, hb, rfl⟩ := Option.map_eq_some_iff.1 hc
  exact ⟨n, hb⟩

/-- Once some leaf has been passed over 7 times, the leaf of the greatest age is chosen. -/
theorem Region.chooseLeaf_old {h : Region} {l : Nat} (hc : h.chooseLeaf = some l) (ho : ∃ x ∈ h.tokens, 7 ≤ tget 0 h.ages x.1) :
    ∃ a, bestOf h.agedTokens = some (l, a) := by
  have hne : h.agedTokens ≠ [] := fun he => by
    obtain ⟨x, hx, h7⟩ := ho
    have := Region.agedTokens_eq_nil.1 he x hx
    omega
  rw [h.chooseLeaf_eq, if_neg hne] at hc
  obtain ⟨⟨_, a⟩, hb, rfl⟩ := Option.map_eq_some_iff.1 hc
  exact ⟨a, hb⟩

theorem Region.chooseLeaf_mem {h : Region} {l : Nat} (hc : h.chooseLeaf = some l) : ∃ n, (l, n) ∈ h.tokens := by
  by_cases ho : ∃ x ∈ h.tokens, 7 ≤ tget 0 h.ages x.1
  · obtain ⟨a, hb⟩ := Region.chooseLeaf_old hc ho
    obtain ⟨⟨⟨_, n⟩, hx, rfl⟩, -⟩ := Region.mem_agedTokens.1 (bestOf_mem hb)
    exact ⟨n, hx⟩
  · obtain ⟨n, hb⟩ := Region.chooseLeaf_young hc fun x hx => Nat.lt_of_not_le fun h7 => ho ⟨x, hx, h7⟩
    exact ⟨n, bestOf_mem hb⟩

theorem Region.chooseLeaf_most {h : Region} {l : Nat} (hc : h.chooseLeaf = some l) (hy : ∀ x ∈ h.tokens, tget 0 h.ages x.1 < 7)
    {n : Nat} (hn : (l, n) ∈ h.tokens) : ∀ x ∈ h.tokens, x.2 ≤ n ∧ (x.2 = n → l ≤ x.1) := by
  obtain ⟨m, hb⟩ := Region.chooseLeaf_young hc hy
  have hm : n = m := (Region.eq_of_mem_tokens hn).trans (Region.eq_of_mem_tokens (bestOf_mem hb)).symm
  subst hm
  exact bestOf_greatest h.tokens_pairwise hb

theorem Region.chooseLeaf_oldest {h : Region} {l : Nat} (hc : h.chooseLeaf = some l) (ho : ∃ x ∈ h.tokens, 7 ≤ tget 0 h.ages x.1) :
    ∀ x ∈ h.tokens, tget 0 h.ages x.1 ≤ tget 0 h.ages l ∧ (tget 0 h.ages x.1 = tget 0 h.ages l → l ≤ x.1) := by
  obtain ⟨a, hb⟩ := Region.chooseLeaf_old hc ho
  obtain ⟨-, hage, h7⟩ := Region.mem_agedTokens.1 (bestOf_mem hb)
  have hage : a = tget 0 h.ages l := hage
  have h7 : 7 ≤ a := h7
  intro x hx
  by_cases hx7 : 7 ≤ tget 0 h.ages x.1
  · have := bestOf_greatest h.agedTokens_pairwise hb (x.1, tget 0 h.ages x.1) (Region.mem_agedTokens.2 ⟨⟨x, hx, rfl⟩, rfl, hx7⟩)
    rwa [hage] at this
  · omega

/-! Ages after a decision (R35). -/

theorem tget_foldl_tset {α : Type} (d : α) (f : Nat → α) (ks : List Nat) (a : List (Nat × α)) (j : Nat) :
    tget d (ks.foldl (fun a k => tset a k (f k)) a) j = if j ∈ ks then f j else tget d a j := by
  induction ks generalizing a with
  | nil => simp
  | cons k ks ih =>
    rw [List.foldl_cons, ih, tget_tset]
    by_cases hk : j = k <;> by_cases hj : j ∈ ks <;> simp [hk, hj]

theorem Region.tget_ages_aged (h : Region) (l k : Nat) :
    tget 0 (h.aged l).ages k = if k ∈ h.tokens.map (·.1) then (if k == l then 0 else tget 0 h.ages k + 1) else 0 := by
  rw [Region.aged, tget_foldl_tset]
  rfl

theorem Region.tget_ages_aged_chosen (h : Region) (l : Nat) : tget 0 (h.aged l).ages l = 0 := by
  simp [Region.tget_ages_aged]

theorem Region.tget_ages_aged_passed {h : Region} {l : Nat} {x : Nat × Nat} (hx : x ∈ h.tokens) (hl : x.1 ≠ l) :
    tget 0 (h.aged l).ages x.1 = tget 0 h.ages x.1 + 1 := by
  rw [Region.tget_ages_aged, if_pos (List.mem_map_of_mem hx), if_neg (by simpa using hl)]

theorem Region.tget_ages_aged_absent {h : Region} (l : Nat) {k : Nat} (hk : ∀ x ∈ h.tokens, x.1 ≠ k) : tget 0 (h.aged l).ages k = 0 := by
  rw [Region.tget_ages_aged, if_neg fun hm => ?_]
  obtain ⟨x, hx, he⟩ := List.mem_map.1 hm
  exact hk x hx he

/-- Where no streamed group waits, the first free tile takes a token of the chosen leaf. -/
theorem Region.decide_cons {h : Region} {l : Nat} (hw : h.waitingGroup = none) (hc : h.chooseLeaf = some l) (t : Nat) (free : List Nat) :
    ∃ i m h1, h.decide (t :: free) = some (i, [(l, m, t)], h1) ∧ h1.ages = (h.aged l).ages :=
  ⟨((h.aged l).takeToken l).2.1, ((h.aged l).takeToken l).1, ((h.aged l).takeToken l).2.2, by simp [Region.decide, hw, hc], rfl⟩

/-! Blocks on their way to tiles (R37, R319). -/

/-- A quantity that no step of a fold over states changes is what it was. -/
theorem foldl_keeps {α β : Type} (p : State → β) (f : State → α → State) (h : ∀ s x, p (f s x) = p s) (s : State) (xs : List α) :
    p (xs.foldl f s) = p s :=
  List.foldlRecOn xs f (motive := fun s1 => p s1 = p s) rfl fun s1 hs x _ => (h s1 x).trans hs

/-- Memory and launches are what they were. -/
structure MemLaunchesKept (s s1 : State) : Prop where
  mem : s1.mem = s.mem
  launches : s1.launches = s.launches

theorem MemLaunchesKept.refl (s : State) : MemLaunchesKept s s := ⟨rfl, rfl⟩

theorem MemLaunchesKept.trans {s t u : State} (h : MemLaunchesKept s t) (k : MemLaunchesKept t u) : MemLaunchesKept s u :=
  ⟨k.mem.trans h.mem, k.launches.trans h.launches⟩

theorem MemLaunchesKept.setRegion (s : State) (k : Nat) (x : Region) : MemLaunchesKept s (s.setRegion k x) := ⟨rfl, rfl⟩

theorem MemLaunchesKept.setTile (s : State) (t : Nat) (x : Tile) : MemLaunchesKept s (s.setTile t x) := ⟨rfl, rfl⟩

theorem MemLaunchesKept.foldl {α : Type} (f : State → α → State) (h : ∀ s x, MemLaunchesKept s (f s x)) (s : State) (xs : List α) :
    MemLaunchesKept s (xs.foldl f s) :=
  List.foldlRecOn xs f (motive := MemLaunchesKept s) (.refl s) fun s1 hs x _ => hs.trans (h s1 x)

theorem State.sendConfig_kept (s : State) (k : Nat) (cfg : ChanCfg) (x : Loaded) : MemLaunchesKept s (s.sendConfig k cfg x) :=
  (MemLaunchesKept.setTile _ _ _).trans (.foldl _ (fun _ _ => .setTile _ _ _) _ _)

/-- The block's tile gets its next bank; the other tiles keep theirs. -/
theorem State.sendConfig_next (s : State) (k : Nat) (cfg : ChanCfg) (x : Loaded) (t : Nat) :
    ((s.sendConfig k cfg x).tile t).next = if t = x.tile then some (bankOf cfg x) else (s.tile t).next := by
  unfold State.sendConfig
  refine (foldl_keeps (fun s1 => (s1.tile t).next) _ (fun s1 j => ?_) _ _).trans ?_
  · by_cases ht : t = x.tile
    · subst ht; simp [Tile.setIn]
    · simp [ht]
  · by_cases ht : t = x.tile <;> simp [ht]

theorem State.foldl_sendConfig_banked (k : Nat) (cfg : ChanCfg) (xs : List Loaded) (s : State) (t : Nat)
    (h : (s.tile t).next.isSome = true ∨ ∃ x ∈ xs, x.tile = t) :
    ((xs.foldl (fun s x => s.sendConfig k cfg x) s).tile t).next.isSome = true := by
  induction xs generalizing s with
  | nil => simpa using h
  | cons y ys ih =>
    refine ih _ ?_
    rw [State.sendConfig_next]
    rcases h with h | ⟨x, hx, rfl⟩
    · left; split
      · rfl
      · exact h
    · rcases List.mem_cons.1 hx with rfl | hx
      · simp
      · exact .inr ⟨x, hx, rfl⟩

theorem State.beginInvocation_kept (s : State) (g i : Nat) (xs : List Loaded) : MemLaunchesKept s (s.beginInvocation g i xs) :=
  ((MemLaunchesKept.foldl _ (fun _ _ => .setRegion _ _ _) _ _).trans (.setRegion _ _ _)).trans
    (.foldl _ (fun s x => State.sendConfig_kept s _ _ x) _ _)

theorem State.beginInvocation_banked (s : State) (g i : Nat) {xs : List Loaded} {x : Loaded} (hx : x ∈ xs) :
    ((s.beginInvocation g i xs).tile x.tile).next.isSome = true :=
  State.foldl_sendConfig_banked _ _ xs _ _ (.inr ⟨x, hx, rfl⟩)

/-! Launches. -/

theorem State.tget?_setLaunch {s : State} {k : Nat} {l : Launch} (f : Launch → Launch) (h : tget? s.launches k = some l) :
    tget? (s.setLaunch k f).launches k = some (f l) := by
  simp [State.setLaunch, h]

@[simp] theorem State.setLaunch_mem (s : State) (k : Nat) (f : Launch → Launch) : (s.setLaunch k f).mem = s.mem := by
  unfold State.setLaunch; split <;> rfl

@[simp] theorem State.setLaunch_regions (s : State) (k : Nat) (f : Launch → Launch) : (s.setLaunch k f).regions = s.regions := by
  unfold State.setLaunch; split <;> rfl

@[simp] theorem State.setLaunch_tiles (s : State) (k : Nat) (f : Launch → Launch) : (s.setLaunch k f).tiles = s.tiles := by
  unfold State.setLaunch; split <;> rfl

@[simp] theorem State.setLaunch_held (s : State) (k : Nat) (f : Launch → Launch) : (s.setLaunch k f).held = s.held := by
  unfold State.setLaunch; split <;> rfl

@[simp] theorem State.region_setLaunch (s : State) (k j : Nat) (f : Launch → Launch) : (s.setLaunch k f).region j = s.region j := by
  simp [State.region]

/-! The record of a refused configuration (R83, R352). -/

theorem mem_insertHeld (r : FltRec) (xs : List FltRec) : r ∈ insertHeld r xs := by
  induction xs with
  | nil => simp [insertHeld]
  | cons x xs ih => unfold insertHeld; split <;> simp [ih]

/-- A fault of class CONFIG without an agent adds its record and does nothing else. -/
theorem State.configRecord_eq (s : State) (c : Nat) (r : Option Nat) (x : LoadErr × Nat × Nat) :
    s.configRecord c r x =
      { s with held := insertHeld ⟨Flt.words s { Flt.zero with cls := 1, cause := x.1.1.code, ctx := c, region := r, addr := detailOf x, agent := .none },
                                   .none, r, s.cycle⟩ s.held } := by
  simp [State.configRecord, State.raise, State.lifeFlt, Flt.counter, State.stopAgent, Flt.zero]

theorem cfgCheck_code_lt (c : CfgCheck) : c.code < 256 := by cases c <;> decide

/-- Bits 0 to 15 of F0 are the class and the cause. -/
theorem Flt.words_head (s : State) (f : Flt) (hcls : f.cls < 256) (hcause : f.cause < 256) :
    bitsNat ((f.words s).getD 0 0#64) 0 8 = f.cls ∧ bitsNat ((f.words s).getD 0 0#64) 8 8 = f.cause := by
  simp only [Flt.words, List.map_cons, List.getD_cons_zero, bitsNat, BitVec.toNat_ofNat, Nat.shiftRight_eq_div_pow]
  omega

theorem State.configRecord_recorded (s : State) (c : Nat) (r : Option Nat) (x : LoadErr × Nat × Nat) :
    Claims.Recorded (s.configRecord c r x) 0x01 x.1.1.code .none := by
  rw [State.configRecord_eq]
  exact ⟨_, mem_insertHeld _ _, (Flt.words_head s _ (by simp) (cfgCheck_code_lt x.1.1)).1, (Flt.words_head s _ (by simp) (cfgCheck_code_lt x.1.1)).2, rfl⟩

/-! The end of a region (R361). -/

theorem State.bump_kept (s : State) (r : Nat) : MemLaunchesKept s (s.bump r) :=
  (MemLaunchesKept.foldl _ (fun _ _ => .setRegion _ _ _) _ _).trans (.setRegion _ _ _)

theorem State.dropQueued_endHeld_kept (s : State) (k : Nat) : MemLaunchesKept s ((s.dropQueued k none).endHeld k) := ⟨rfl, rfl⟩

@[simp] theorem Region.close_close (x : Region) : x.close.close = x.close := rfl

/-- Every entry of a list is closed, however often it comes there; the others stay. -/
theorem State.region_foldl_close (ks : List Nat) (s : State) (k : Nat) :
    (ks.foldl (fun s j => s.setRegion j (s.region j).close) s).region k = if k ∈ ks then (s.region k).close else s.region k := by
  induction ks generalizing s with
  | nil => simp
  | cons j js ih =>
    rw [List.foldl_cons, ih, State.region_setRegion]
    by_cases hk : k = j
    · subst hk; simp
    · simp [hk]

theorem mem_lunion_left {a b : List Nat} {x : Nat} (h : x ∈ a) : x ∈ lunion a b := List.mem_append_left _ h

/-- The entries of a region and its tiles as a kill leaves them, the launch not yet marked (R361). -/
def State.killEntries (s : State) (g : Nat) : State :=
  let fam := lunion [g % 1024] (s.family g)
  let s1 := fam.foldl (fun s k => (s.dropQueued k none).endHeld k) s
  let s2 := (s.home g).allTiles.foldl State.freeTile (s1.bump g)
  fam.foldl (fun s k => s.setRegion k (s.region k).close) s2

theorem State.killEntries_kept (s : State) (g : Nat) : MemLaunchesKept s (s.killEntries g) :=
  (((MemLaunchesKept.foldl _ State.dropQueued_endHeld_kept _ _).trans (State.bump_kept _ _)).trans
    (.foldl _ (fun _ _ => .setTile _ _ _) _ _)).trans (.foldl _ (fun _ _ => .setRegion _ _ _) _ _)

theorem State.killEntries_region (s : State) {g : Nat} (hg : g < 1024) : ∃ x : Region, (s.killEntries g).region g = x.close := by
  have hm : g ∈ lunion [g % 1024] (s.family g) := mem_lunion_left (by simp [Nat.mod_eq_of_lt hg])
  exact ⟨_, (State.region_foldl_close _ _ _).trans (if_pos hm)⟩

/-- A kill: the entries end, the region's own is emptied, and its launch is marked. -/
theorem State.killRegion_eq (s : State) (g c : Nat) :
    ∃ n d, s.killRegion g c =
      ((s.killEntries g).setRegion (g % 1024)
        { (s.killEntries g).home g with susp := false, busy := false, allTiles := [], waiting := [], killed := true, preempted := false, parked := [],
                                        parkedCmds := [], req := false, saved := none, plan := [] }).setLaunch (s.home g).launch fun l =>
        if l.phase == .complete then l
        else { l with phase := .killed, cls := c, instants := n, detached := l.detached || d, preempted := l.preempted || (s.home g).preempted } :=
  ⟨_, _, rfl⟩

theorem State.killRegion_mem (s : State) (g c : Nat) : (s.killRegion g c).mem = s.mem := by
  obtain ⟨n, d, hk⟩ := s.killRegion_eq g c
  rw [hk, State.setLaunch_mem, State.setRegion_mem, (s.killEntries_kept g).mem]

/-- A killed region is no longer valid and runs nothing. -/
theorem State.killRegion_gone (s : State) {g : Nat} (c : Nat) (hg : g < 1024) : Claims.Gone (s.killRegion g c) g := by
  obtain ⟨n, d, hk⟩ := s.killRegion_eq g c
  obtain ⟨x, hx⟩ := s.killEntries_region hg
  rw [Claims.Gone, hk, State.region_setLaunch, Nat.mod_eq_of_lt hg, State.region_setRegion, if_pos rfl, State.home, Nat.mod_eq_of_lt hg, hx]
  exact ⟨rfl, rfl⟩

/-- The launch of a killed region, unless it has completed, is killed with the class given. -/
theorem State.killRegion_launch {s : State} {g : Nat} {l : Launch} (c : Nat) (h : tget? s.launches (s.home g).launch = some l)
    (hp : l.phase ≠ .complete) :
    ∃ l1, tget? (s.killRegion g c).launches (s.home g).launch = some l1 ∧ l1.phase = .killed ∧ l1.cls = c := by
  obtain ⟨n, d, hk⟩ := s.killRegion_eq g c
  rw [hk]
  refine ⟨_, State.tget?_setLaunch _ (l := l) ?_, ?_⟩
  · rw [State.setRegion_launches, (s.killEntries_kept g).launches, h]
  · simp [hp]

/-! LEAF_DECISION, case by case. -/

/-- A decision may be taken for region g: its launch runs, nothing of it has stopped, and it is neither suspended nor busy (R35, R318). -/
structure Deciding (s : State) (g : Nat) (l : Launch) : Prop where
  launch : tget? s.launches (s.home g).launch = some l
  ctl : s.ctlHalt = false
  valid : (s.home g).valid = true
  awake : (s.home g).susp = false
  idle : (s.home g).busy = false
  running : l.phase = .running
  going : ∀ k ∈ s.family g, (s.region k).phase ≠ .stopped

/-- The ownership list of a region as four words for each entry (R182). -/
def Region.ownerWords (h : Region) : List (List Nat) :=
  h.owners.map fun o => [o.start, o.len, o.owners.getD 0 0 + o.owners.getD 1 0 * 2 ^ 32, o.owners.getD 2 0 + o.owners.getD 3 0 * 2 ^ 32]

/-- What a free tile of a region is to load, the tile taken first. -/
def State.leafChoice (s : State) (g t : Nat) : Option (Nat × List (Nat × Nat × Nat) × Region) :=
  (s.home g).decide (t :: ((s.home g).allTiles.filter s.tileFree).filter (· != t))

/-- The load check of what a leaf decision chose. -/
def State.leafCheck (s : State) (g : Nat) (l : Launch) (ms : List (Nat × Nat × Nat)) : Except (LoadErr × Nat × Nat) (List Loaded) :=
  checkConf s l.via (s.loadEnv l (s.home g).owners.length (s.home g).childTab.length) (s.home g).cfg (s.home g).leaves (s.home g).ownerWords ms

/-- LEAF_DECISION where a decision may be taken. -/
theorem execLeafDecision_eq {s : State} {g : Nat} {l : Launch} (d : Deciding s g l) (t : Nat) :
    execLeafDecision g t s = .next (
      if l.bad then (if s.someRuns g then s else s.killRegion g 1)
      else if !((s.home g).allTiles.filter s.tileFree).contains t then s
      else match s.leafChoice g t with
        | none => s
        | some (i, ms, h1) =>
          match s.leafCheck g l ms with
          | .error x =>
            ((s.setRegion (g % 1024) ((s.home g).aged (ms.headD default).1)).configRecord (s.home g).ctx (some (g % 1024)) x).setLaunch (s.home g).launch
              fun y => { y with bad := true }
          | .ok xs => (s.setRegion (g % 1024) h1).beginInvocation g i xs) := by
  obtain ⟨hl, hctl, hvalid, hsusp, hbusy, hrun, hgo⟩ := d
  have hstop : ((s.family g).any fun k => (s.region k).phase == .stopped) = false := by simpa using hgo
  unfold execLeafDecision
  simp only [hl, hctl, hvalid, hsusp, hbusy, hrun, hstop, bne_self_eq_false, Bool.not_true, Bool.or_false, Bool.false_eq_true, if_false]
  rfl

theorem exec_leafDecision (g t : Nat) (s : State) : exec (.leafDecision g t) s = execLeafDecision g t s := rfl

section
variable {s : State} {g : Nat} {l : Launch} (d : Deciding s g l)
include d

/-- A marked launch of which nothing runs or loads any more is killed with class CONFIG (R83). -/
theorem leafDecision_kills (t : Nat) (hg : g < 1024) (hb : l.bad = true) (hq : ∀ k ∈ s.family g, (s.region k).phase = .off ∧ s.loading k = false) :
    Claims.Leads (.leafDecision g t) s fun s1 => Claims.Gone s1 g ∧ s1.mem = s.mem ∧
      ∃ l1, tget? s1.launches (s.home g).launch = some l1 ∧ l1.phase = .killed ∧ l1.cls = 1 := by
  have hruns : s.someRuns g = false := by
    rw [State.someRuns, List.any_eq_false]
    intro k hk
    simp [hq k hk]
  refine ⟨s.killRegion g 1, ?_, s.killRegion_gone 1 hg, s.killRegion_mem g 1, State.killRegion_launch 1 d.launch (by simp [d.running])⟩
  rw [exec_leafDecision, execLeafDecision_eq d, if_pos hb, hruns]
  rfl

theorem leafDecision_waits {t : Nat} (hb : l.bad = false) (ht : t ∉ (s.home g).allTiles ∨ s.tileFree t = false) :
    Claims.Waits (.leafDecision g t) s := by
  have hfree : ((s.home g).allTiles.filter s.tileFree).contains t = false := by
    rcases ht with ht | ht <;> simp [ht]
  rw [Claims.Waits, exec_leafDecision, execLeafDecision_eq d, hb, hfree]
  rfl

section
variable {t i : Nat} {ms : List (Nat × Nat × Nat)} {h1 : Region} (hb : l.bad = false) (ht : t ∈ (s.home g).allTiles) (hf : s.tileFree t = true)
  (hd : s.leafChoice g t = some (i, ms, h1))
include hb ht hf hd

/-- A free tile of a launch that is not marked: what was chosen is checked, and begins or is refused. -/
theorem execLeafDecision_chosen :
    execLeafDecision g t s = .next (
      match s.leafCheck g l ms with
      | .error x =>
        ((s.setRegion (g % 1024) ((s.home g).aged (ms.headD default).1)).configRecord (s.home g).ctx (some (g % 1024)) x).setLaunch (s.home g).launch
          fun y => { y with bad := true }
      | .ok xs => (s.setRegion (g % 1024) h1).beginInvocation g i xs) := by
  have hfree : ((s.home g).allTiles.filter s.tileFree).contains t = true := by simp [ht, hf]
  rw [execLeafDecision_eq d, hb, hfree, hd]
  rfl

theorem leafDecision_loads {xs : List Loaded} (hc : s.leafCheck g l ms = .ok xs) :
    Claims.Leads (.leafDecision g t) s fun s1 => (∀ x ∈ xs, Claims.Banked s1 x.tile) ∧ s1.mem = s.mem ∧ s1.launches = s.launches := by
  refine ⟨(s.setRegion (g % 1024) h1).beginInvocation g i xs, ?_, fun x hx => State.beginInvocation_banked _ _ _ hx, ?_, ?_⟩
  · rw [exec_leafDecision, execLeafDecision_chosen d hb ht hf hd, hc]
  · rw [(State.beginInvocation_kept _ _ _ _).mem, State.setRegion_mem]
  · rw [(State.beginInvocation_kept _ _ _ _).launches, State.setRegion_launches]

/-- A refused configuration is recorded and marks its launch (R83). -/
theorem leafDecision_refuses {x : LoadErr × Nat × Nat} (hc : s.leafCheck g l ms = .error x) :
    Claims.Leads (.leafDecision g t) s fun s1 => Claims.Recorded s1 0x01 x.1.1.code .none ∧ s1.tiles = s.tiles ∧
      ∃ l1, tget? s1.launches (s.home g).launch = some l1 ∧ l1.phase = .running ∧ l1.bad = true := by
  refine ⟨_, by rw [exec_leafDecision, execLeafDecision_chosen d hb ht hf hd, hc], ?_, ?_, { l with bad := true }, ?_, d.running, rfl⟩
  · obtain ⟨r, hr, hrec⟩ :=
      State.configRecord_recorded (s.setRegion (g % 1024) ((s.home g).aged (ms.headD default).1)) (s.home g).ctx (some (g % 1024)) x
    exact ⟨r, by rwa [State.setLaunch_held], hrec⟩
  · rw [State.setLaunch_tiles, State.configRecord_eq]
    rfl
  · refine State.tget?_setLaunch _ ?_
    rw [State.configRecord_eq]
    exact d.launch

end
end

end Sys2Proof.Machine

namespace Sys2Proof.Proofs

open Machine Claims

/-- Settles O54: the chosen leaf is the best of the waiting ones, by age once one has been passed over 7 times and by tokens before; the step is
taken apart by whether the launch is marked, the tile free and the check passed. -/
theorem freeTilesTakeLeaves : Obligations.FreeTilesTakeLeaves := by
  unfold Obligations.FreeTilesTakeLeaves
  refine ⟨fun h l hc => ⟨Region.chooseLeaf_mem hc, fun hy n hn => Region.chooseLeaf_most hc hy hn, Region.chooseLeaf_oldest hc, fun hw t free => ?_⟩, ?_⟩
  · obtain ⟨i, m, h1, hd, hages⟩ := Region.decide_cons hw hc t free
    refine ⟨i, m, h1, hd, ?_⟩
    rw [hages]
    exact ⟨h.tget_ages_aged_chosen l, fun x hx hl => Region.tget_ages_aged_passed hx hl, fun k hk => Region.tget_ages_aged_absent l hk⟩
  · intro s g t l hg h hl hctl hvalid hsusp hbusy hrun hgo
    have hh : s.home g = h := by rw [State.home, Nat.mod_eq_of_lt hg]
    have d : Deciding s g l := ⟨hh ▸ hl, hctl, hh ▸ hvalid, hh ▸ hsusp, hh ▸ hbusy, hrun, hgo⟩
    rw [← hh]
    exact ⟨leafDecision_kills d t hg, fun ⟨hb, ht⟩ => leafDecision_waits d hb ht, fun i ms h1 hb ht hf hd =>
      ⟨fun xs hx => leafDecision_loads d hb ht hf hd hx, fun x hx => leafDecision_refuses d hb ht hf hd hx⟩⟩

end Sys2Proof.Proofs
end

section
/-!
SUPPORT. Element-wise nodes of two operands: what a firing sends (R17, R18), the elements of the result under the mask (R88), and the integer
arithmetic of R49 and R101 as arithmetic of bit vectors.
-/
namespace Sys2Proof.Machine

/-! Firing. -/

/-- A node whose result depends on its inputs alone sends that result when it is ready (R17, R18). -/
theorem fires_of_fireNode {i : Instr} {s : State} {n : Node} {t k : Nat} {a : Args} {f : Args → Out} (h : Claims.At s n t k a)
    (he : exec i s = .next (fireNode n s f)) : Claims.Fires i s s n t k (f a) := by
  obtain ⟨hcur, hready, rfl⟩ := h
  rw [Claims.Fires, he, fireNode, hcur]
  simp only [hready, if_true]

/-! The elements of a result under a mask (R88). -/

/-- Computed elements `res` where the mask has 1 or there is none, elements of L (`ls`) where it has 0. -/
def Arg.masked (p : Arg) (res ls : List Nat) : List Nat :=
  match p with
  | .val m => maskElems m res ls 0
  | _ => res

theorem Arg.masked_length (p : Arg) (res ls : List Nat) : (p.masked res ls).length = res.length := by
  cases p with
  | val m => exact maskElems_length m res ls 0
  | off | absent => rfl

theorem Arg.masked_get (p : Arg) (res ls : List Nat) (j : Nat) (hr : j < res.length) (hl : j < ls.length) :
    (p.masked res ls)[j]'(by rwa [Arg.masked_length]) = if Claims.computed p j then res[j] else ls[j] := by
  cases p with
  | val m =>
    have hj : j < (maskElems m res ls 0).length := by rwa [maskElems_length]
    have h := maskElems_get m res ls 0 j hj hl
    rwa [Nat.zero_add] at h
  | off | absent => rfl

/-- Both data inputs PRESENT and the mask not ABSENT: no absence policy applies (R19, R88). -/
theorem laneMask2_present (n : Node) (idL idR : Option Nat) (f : Nat → Nat → Nat) {a : Args} {x y : Payload}
    (hl : a.l = .val x) (hr : a.r = .val y) (hp : a.p ≠ .absent) :
    laneMask2 n idL idR f a =
      .same (Beat.val (tyPack n.ty (a.p.masked (List.zipWith f (tyElems n.ty x) (tyElems n.ty y)) (tyElems n.ty x))) a.cov) := by
  have hp' : a.p.isAbsent = false := by
    cases h : a.p with
    | absent => exact absurd h hp
    | off | val => rfl
  simp only [laneMask2, hp', hl, hr]
  rfl

theorem bitsNat_lt {w : Nat} (x : BitVec w) (lo len : Nat) : bitsNat x lo len < 2 ^ len := Nat.mod_lt _ (Nat.two_pow_pos _)

/-- Element j of the beat of a masked result: `f` of the operands' elements reduced to the width, or L's element. -/
theorem el_tyPack_masked (n : Node) (f : Nat → Nat → Nat) (p : Arg) (x y : Payload) {j : Nat} (hj : j < n.ty.elems) :
    Claims.el n (tyPack n.ty (p.masked (List.zipWith f (tyElems n.ty x) (tyElems n.ty y)) (tyElems n.ty x))) j =
      if Claims.computed p j then f (Claims.el n x j) (Claims.el n y j) % 2 ^ n.ty.bits else Claims.el n x j := by
  have hres : (List.zipWith f (tyElems n.ty x) (tyElems n.ty y)).length = n.ty.elems := by simp [tyElems_length]
  rw [Claims.el, bitsNat_tyPack n.ty _ j hj (by rw [Arg.masked_length, hres]),
    Arg.masked_get p _ _ j (by rwa [hres]) (by rwa [tyElems_length])]
  split
  · rw [List.getElem_zipWith, tyElems_get, tyElems_get]
  · rw [tyElems_get, Nat.mod_eq_of_lt (bitsNat_lt x _ _)]

/-- A node that answers with `laneMask2` of `f` computes `g` element by element, when `f` modulo 2^w is `g` on elements (R88). -/
theorem lanes2_of_laneMask2 {i : Instr} {n : Node} {idL idR : Option Nat} {f g : Nat → Nat → Nat}
    (he : ∀ s, exec i s = .next (fireNode n s (laneMask2 n idL idR f)))
    (hf : ∀ x y, x < 2 ^ n.ty.bits → y < 2 ^ n.ty.bits → f x y % 2 ^ n.ty.bits = g x y) : Claims.Lanes2 i n g := by
  intro s t k a x y hat hl hr hp
  refine ⟨_, laneMask2_present n idL idR f hl hr hp ▸ fires_of_fireNode hat (he s), fun j hj => ?_⟩
  rw [el_tyPack_masked n f a.p x y hj, hf _ _ (bitsNat_lt x _ _) (bitsNat_lt y _ _)]

/-! Integers of R49 as bit vectors. -/

theorem toSigned_eq_toInt (w x : Nat) : toSigned w x = (BitVec.ofNat w x).toInt := by
  simp only [toSigned, BitVec.toInt_eq_toNat_cond, BitVec.toNat_ofNat]

theorem ofSigned_eq_toNat_ofInt (w : Nat) (x : Int) : ofSigned w x = (BitVec.ofInt w x).toNat := by
  rw [ofSigned, BitVec.toNat_ofInt]

theorem ofSigned_lt (w : Nat) (x : Int) : ofSigned w x < 2 ^ w := by
  rw [ofSigned_eq_toNat_ofInt]
  exact BitVec.isLt _

theorem ofSigned_natCast {w x : Nat} (h : x < 2 ^ w) : ofSigned w x = x := by
  rw [ofSigned, ← Int.natCast_emod, Int.toNat_natCast, Nat.mod_eq_of_lt h]

theorem intOf_signed {n : Node} (h : n.ty.signed = true) (x : Nat) : intOf n.ty x = (Claims.bv n x).toInt := by
  rw [intOf, if_pos h, toSigned_eq_toInt]

theorem intOf_unsigned {t : Ty} (h : t.signed = false) (x : Nat) : intOf t x = x := by simp [intOf, h]

/-! MULH and saturation (R101). -/

theorem mulhOf_signed {n : Node} (h : n.ty.signed = true) (x y : Nat) :
    mulhOf n.ty x y = (BitVec.ofInt n.ty.bits ((Claims.bv n x).toInt * (Claims.bv n y).toInt / 2 ^ n.ty.bits)).toNat := by
  rw [mulhOf, intOf_signed h, intOf_signed h, ofSigned_eq_toNat_ofInt, Int.natCast_pow, Int.cast_ofNat_Int]

/-- The high half of a product of two w-bit numbers has w bits. -/
theorem mulhOf_unsigned {t : Ty} (h : t.signed = false) {x y : Nat} (hx : x < 2 ^ t.bits) (hy : y < 2 ^ t.bits) :
    mulhOf t x y = x * y / 2 ^ t.bits := by
  have hhigh : x * y / 2 ^ t.bits < 2 ^ t.bits := Nat.div_lt_of_lt_mul (Nat.mul_lt_mul'' hx hy)
  rw [mulhOf, intOf_unsigned h, intOf_unsigned h, ← Int.natCast_mul, ← Int.natCast_ediv, ofSigned_natCast hhigh]

theorem clampInt_signed (w : Nat) (x : Int) : clampInt true w x = max (-(2 ^ (w - 1))) (min (2 ^ (w - 1) - 1) x) := by
  have hpos : (0 : Int) < 2 ^ (w - 1) := Int.pow_pos (by decide)
  simp only [clampInt, if_true, Int.natCast_pow, Int.cast_ofNat_Int]
  split
  · omega
  · split <;> omega

theorem satOf_signed {t : Ty} (h : t.signed = true) (x : Int) :
    satOf t x = (BitVec.ofInt t.bits (max (-(2 ^ (t.bits - 1))) (min (2 ^ (t.bits - 1) - 1) x))).toNat := by
  rw [satOf, h, clampInt_signed, ofSigned_eq_toNat_ofInt]

/-- An unsigned type clamps to 0 and 2^w − 1. -/
theorem clampInt_unsigned (w : Nat) (x : Int) : clampInt false w x = ((min x.toNat (2 ^ w - 1) : Nat) : Int) := by
  have hpos : 0 < 2 ^ w := Nat.two_pow_pos w
  simp only [clampInt, Bool.false_eq_true, if_false]
  split
  · omega
  · split <;> omega

theorem satOf_unsigned {t : Ty} (h : t.signed = false) (x : Int) : satOf t x = min x.toNat (2 ^ t.bits - 1) := by
  have hpos : 0 < 2 ^ t.bits := Nat.two_pow_pos t.bits
  rw [satOf, h, clampInt_unsigned, ofSigned_natCast (by omega)]

theorem satOf_lt (t : Ty) (x : Int) : satOf t x < 2 ^ t.bits := ofSigned_lt _ _

theorem mulhOf_lt (t : Ty) (x y : Nat) : mulhOf t x y < 2 ^ t.bits := ofSigned_lt _ _

end Sys2Proof.Machine

namespace Sys2Proof.Proofs

open Machine Claims

/-- MULH gives the high half of the exact product (R101). -/
theorem mulh_lanes (n : Node) :
    Lanes2 (.mulh n) n (fun x y =>
      if n.ty.signed then (BitVec.ofInt n.ty.bits ((bv n x).toInt * (bv n y).toInt / 2 ^ n.ty.bits)).toNat else x * y / 2 ^ n.ty.bits) := by
  refine lanes2_of_laneMask2 (fun _ => rfl) fun x y hx hy => ?_
  rw [Nat.mod_eq_of_lt (mulhOf_lt _ _ _)]
  split
  next h => exact mulhOf_signed h x y
  next h => exact mulhOf_unsigned (Bool.eq_false_iff.mpr h) hx hy

/-- A node that clamps `op` of its operands to the type's range; `u` is what that is on unsigned elements (R101). -/
theorem saturating_lanes {i : Instr} {n : Node} {idL idR : Option Nat} (op : Int → Int → Int) (u : Nat → Nat → Nat)
    (he : ∀ s, exec i s = .next (fireNode n s (laneMask2 n idL idR fun a b => satOf n.ty (op (intOf n.ty a) (intOf n.ty b)))))
    (hu : ∀ x y : Nat, x < 2 ^ n.ty.bits → min (op x y).toNat (2 ^ n.ty.bits - 1) = u x y) :
    Lanes2 i n (fun x y =>
      if n.ty.signed then
        (BitVec.ofInt n.ty.bits (max (-(2 ^ (n.ty.bits - 1))) (min (2 ^ (n.ty.bits - 1) - 1) (op (bv n x).toInt (bv n y).toInt)))).toNat
      else u x y) := by
  refine lanes2_of_laneMask2 he fun x y hx _ => ?_
  rw [Nat.mod_eq_of_lt (satOf_lt _ _)]
  split
  next h => rw [satOf_signed h, intOf_signed h, intOf_signed h]
  next h =>
    have hs := Bool.eq_false_iff.mpr h
    rw [satOf_unsigned hs, intOf_unsigned hs, intOf_unsigned hs, hu x y hx]

/-- Settles O13: each node answers `laneMask2` of the model's `mulhOf` or `satOf`, whose signed and unsigned cases are the arithmetic of R101;
an unsigned difference is bounded by 0 alone. -/
theorem highProductAndSaturation : Obligations.HighProductAndSaturation := by
  unfold Obligations.HighProductAndSaturation
  refine fun n => ⟨mulh_lanes n, saturating_lanes (· + ·) _ (fun _ => rfl) ?_, saturating_lanes (· - ·) _ (fun _ => rfl) ?_⟩
  · intro x y _
    rw [← Int.natCast_add, Int.toNat_natCast]
  · intro x y hx
    rw [Int.toNat_sub]
    omega

end Sys2Proof.Proofs
end

section
/-!
SUPPORT. Semaphores (R132–R136): what a write of one leaves in it and beside it, when an increment is recorded, which operations of a tile's
instant are applied as one node fires (R134), and what SEMSIG, SEMSET, SEMWAIT and SEMRD send (R133).
-/
namespace Sys2Proof.Machine

/-! Firing with an effect, and ABSENT inputs (R19). -/

/-- A node with an effect of its own has, when it is ready, that effect and sends its result (R17, R18). -/
theorem fires_of_fireWith {i : Instr} {s s1 : State} {n : Node} {t k : Nat} {a : Args} {o : Out}
    {f : Nat → Nat → Args → Option (State × Out)} (h : Claims.At s n t k a) (he : exec i s = .next (fireWith n s f))
    (hf : f t k a = some (s1, o)) : Claims.Fires i s s1 n t k o := by
  obtain ⟨hcur, hready, rfl⟩ := h
  rw [Claims.Fires, he, fireWith, hcur]
  simp only [hready, if_true, hf]

/-- A node whose firing condition does not hold waits. -/
theorem fireWith_waits {n : Node} {s : State} {t k : Nat} (f : Nat → Nat → Args → Option (State × Out)) (hcur : s.cursor = .node t k)
    (hready : s.ready n t k = false) : fireWith n s f = s := by
  simp only [fireWith, hcur, hready, Bool.false_eq_true, if_false]

theorem ready_of_unresolved {s : State} (n : Node) {t k : Nat} (h : (s.tile t).resolved k = false) : s.ready n t k = false := by
  simp [State.ready, h]

theorem noIdent_absent (n : Node) {ins : List Arg} (res : Out) (h : ins.any Arg.isAbsent = true) :
    noIdent n ins res = if n.pol = .fault then .absentUse else .same Beat.none := by
  simp [noIdent, h]

theorem onTrigger_absent (n : Node) {a : Args} (res : Out) (h : a.l = .absent) :
    onTrigger n a res = if n.pol = .fault then .absentUse else .same Beat.none :=
  noIdent_absent n res (by simp [h, Arg.isAbsent])

theorem passL_val {a : Args} {x : Payload} (h : a.l = .val x) : passL a = .same (Beat.val x a.cov) := by
  simp [passL, h, Args.out]

/-- An ABSENT done token orders nothing (R137). -/
theorem dcov_of_absent {x : Tile} {n : Node} {k : Nat} (h : (x.args n k).p = .absent) : (x.args n k).dcov = [] := by
  simp only [Tile.args, argOf] at h ⊢
  cases hb : (if x.connected .p k then (x.node k).get .p else none) with
  | none => rfl
  | some b =>
    rw [hb] at h
    cases hp : b.present with
    | false => simp [hp]
    | true => simp [hp] at h

/-! A payload of fewer elements than its lanes. -/

theorem bitsNat_pack_beyond {w : Nat} {es : List Nat} {i : Nat} (h : es.length ≤ i) : bitsNat (pack w es) (w * i) w = 0 := by
  have hlt : (pack w es).toNat < 2 ^ (w * i) := calc
    (pack w es).toNat ≤ packNat w es := by rw [pack, BitVec.toNat_ofNat]; exact Nat.mod_le _ _
    _ < 2 ^ (w * es.length) := packNat_lt w es
    _ ≤ 2 ^ (w * i) := Nat.pow_le_pow_right (by omega) (Nat.mul_le_mul_left w h)
  rw [bitsNat, Nat.shiftRight_eq_div_pow, Nat.div_eq_of_lt hlt, Nat.zero_mod]

theorem lane32_lanes32 (es : List Nat) {i : Nat} (h : i < es.length) (hl : es.length ≤ 16) : lane32 (lanes32 es) i = es[i] % 2 ^ 32 :=
  bitsNat_pack 32 es i h (by omega)

theorem lane32_lanes32_beyond {es : List Nat} {i : Nat} (h : es.length ≤ i) : lane32 (lanes32 es) i = 0 := bitsNat_pack_beyond h

theorem lane32_lt (x : Payload) (i : Nat) : lane32 x i < 2 ^ 32 := bitsNat_lt x _ _

/-! Writing a semaphore. -/

theorem Ctx.sem_setSem (x : Ctx) (i j : Nat) (m : Sem) : (x.setSem i m).sem j = if j = i then m else x.sem j := by
  simp [Ctx.sem, Ctx.setSem]

section
variable (s : State) (c i v : Nat) (sticky : Bool) (rel : List (Ord × Nat))

@[simp] theorem State.sem_semPut_value : (((s.semPut c i v sticky rel).ctx c).sem i).value = v := by
  simp only [State.semPut, State.ctx_setCtx, Ctx.sem_setSem, if_true]
  split <;> rfl

@[simp] theorem State.sem_semPut_sticky : (((s.semPut c i v sticky rel).ctx c).sem i).sticky = sticky := by
  simp only [State.semPut, State.ctx_setCtx, Ctx.sem_setSem, if_true]
  split <;> rfl

@[simp] theorem State.sem_semPut_rel : (((s.semPut c i v sticky rel).ctx c).sem i).rel = rel := by
  simp only [State.semPut, State.ctx_setCtx, Ctx.sem_setSem, if_true]
  split <;> rfl

theorem State.sem_semPut_other {j : Nat} (h : j ≠ i) : ((s.semPut c i v sticky rel).ctx c).sem j = (s.ctx c).sem j := by
  simp only [State.semPut, State.ctx_setCtx, Ctx.sem_setSem, if_true, if_neg h]

end

/-- What no operation on a semaphore touches, of what another operation or a frame reads. -/
structure SemFrame (s s1 : State) : Prop where
  tiles : s1.tiles = s.tiles
  regions : s1.regions = s.regions
  mem : s1.mem = s.mem
  actctx : s1.actctx = s.actctx

theorem SemFrame.refl (s : State) : SemFrame s s := ⟨rfl, rfl, rfl, rfl⟩

theorem SemFrame.semPut (s : State) (c i v : Nat) (sticky : Bool) (rel : List (Ord × Nat)) : SemFrame s (s.semPut c i v sticky rel) :=
  ⟨rfl, rfl, rfl, rfl⟩

section
variable {s s1 : State} (h : SemFrame s s1)
include h

theorem SemFrame.tile (t : Nat) : s1.tile t = s.tile t := by rw [State.tile, h.tiles, State.tile]

theorem SemFrame.region (g : Nat) : s1.region g = s.region g := by rw [State.region, h.regions, State.region]

/-- The context whose semaphores a tile's nodes act on (R298) stays the same. -/
theorem SemFrame.cmdCtx (t : Nat) : s1.cmdCtx t = s.cmdCtx t := by
  rw [State.cmdCtx, State.accessCtx, State.tileCtx, State.tileRegion, State.act, h.tile, h.region, h.actctx,
    State.cmdCtx, State.accessCtx, State.tileCtx, State.tileRegion, State.act]

end

/-! The increment (R132). -/

/-- What is recorded of a first overflow; it names no agent (R132, R353). -/
def semOverflow (c i who : Nat) (f : Flt → Flt) : Flt := { f Flt.zero with cls := 0x11, agent := .none, ctx := c, f6 := i + who * 256 }

/-- Taking it adds a record and does nothing else. -/
theorem State.raise_semOverflow (s : State) (c i who : Nat) (f : Flt → Flt) :
    s.raise (semOverflow c i who f) =
      { s with held := insertHeld ⟨(semOverflow c i who f).words s, .none, (semOverflow c i who f).region, s.cycle⟩ s.held } := by
  simp [State.raise, State.lifeFlt, Flt.counter, State.stopAgent, semOverflow]

section
variable (s : State) (c i n who : Nat) (rel : List (Ord × Nat)) (f : Flt → Flt)

/-- The increment's write, before anything is recorded: saturated, the sticky bit set once the exact sum passes 2^32 − 1. -/
def State.semAdd : State :=
  let x := (s.ctx c).sem i
  s.semPut c i (min (x.value + n) (2 ^ 32 - 1)) (x.sticky || decide (2 ^ 32 ≤ x.value + n)) (x.rel ++ rel)

/-- An increment is recorded only as it turns the sticky bit from 0 to 1. -/
theorem State.semInc_eq :
    s.semInc c i n who rel f =
      if 2 ^ 32 ≤ ((s.ctx c).sem i).value + n ∧ ((s.ctx c).sem i).sticky = false then (s.semAdd c i n rel).raise (semOverflow c i who f)
      else s.semAdd c i n rel := by
  have hsat (v : Nat) : (if v < 2 ^ 32 then v else 2 ^ 32 - 1) = min v (2 ^ 32 - 1) := by split <;> omega
  simp only [State.semInc, State.semAdd, hsat, Bool.and_eq_true, decide_eq_true_eq, Bool.not_eq_true']
  rfl

theorem State.semInc_frame : SemFrame s (s.semInc c i n who rel f) := by
  rw [State.semInc_eq]
  split
  · rw [State.raise_semOverflow]
    exact ⟨rfl, rfl, rfl, rfl⟩
  · exact SemFrame.semPut _ _ _ _ _ _

/-- The record changes no context. -/
theorem State.ctx_semInc (j : Nat) : (s.semInc c i n who rel f).ctx j = (s.semAdd c i n rel).ctx j := by
  rw [State.semInc_eq]
  split
  · rw [State.raise_semOverflow]
    rfl
  · rfl

@[simp] theorem State.sem_semInc_value :
    (((s.semInc c i n who rel f).ctx c).sem i).value = min (((s.ctx c).sem i).value + n) (2 ^ 32 - 1) := by
  rw [State.ctx_semInc, State.semAdd, State.sem_semPut_value]

@[simp] theorem State.sem_semInc_sticky :
    (((s.semInc c i n who rel f).ctx c).sem i).sticky = (((s.ctx c).sem i).sticky || decide (2 ^ 32 ≤ ((s.ctx c).sem i).value + n)) := by
  rw [State.ctx_semInc, State.semAdd, State.sem_semPut_sticky]

@[simp] theorem State.sem_semInc_rel : (((s.semInc c i n who rel f).ctx c).sem i).rel = ((s.ctx c).sem i).rel ++ rel := by
  rw [State.ctx_semInc, State.semAdd, State.sem_semPut_rel]

theorem State.sem_semInc_other {j : Nat} (h : j ≠ i) : ((s.semInc c i n who rel f).ctx c).sem j = (s.ctx c).sem j := by
  rw [State.ctx_semInc, State.semAdd, State.sem_semPut_other _ _ _ _ _ _ h]

theorem State.held_semInc_quiet (h : ((s.ctx c).sem i).value + n < 2 ^ 32 ∨ ((s.ctx c).sem i).sticky = true) :
    (s.semInc c i n who rel f).held = s.held := by
  rw [State.semInc_eq, if_neg ?_]
  · rfl
  · rintro ⟨hover, hsticky⟩
    rcases h with h | h
    · omega
    · simp [hsticky] at h

theorem State.held_semInc_overflow (hover : 2 ^ 32 ≤ ((s.ctx c).sem i).value + n) (hsticky : ((s.ctx c).sem i).sticky = false) :
    ∃ r, (s.semInc c i n who rel f).held = insertHeld r s.held ∧ r.agent = .none ∧
      r.words = (semOverflow c i who f).words (s.semAdd c i n rel) := by
  rw [State.semInc_eq, if_pos ⟨hover, hsticky⟩, State.raise_semOverflow]
  exact ⟨_, rfl, rfl, rfl⟩

end

/-! One operation of a node, and its order with the others of its tile's instant (R134). -/

section
variable (s : State) (t k : Nat) (n : Node) {a : Args}

theorem State.semApply_semsig {x : Payload} (hl : a.l = .val x) :
    s.semApply t k .semsig n a =
      s.semInc (s.cmdCtx t) n.aux.toNat n.imm.toNat 0 (sigRel n.mod.toNat (s.tile t).region a) fun _ => s.nodeFlt t k := by
  rw [State.semApply, hl]
  rfl

theorem State.semApply_semset {x v : Payload} (hl : a.l = .val x) (hr : a.r = .val v) :
    s.semApply t k .semset n a = s.semSet (s.cmdCtx t) n.aux.toNat (lane32 v 0) := by
  rw [State.semApply, hl, hr]
  rfl

theorem State.semApply_absentTrigger (o : Op) (hl : a.l = .absent) : s.semApply t k o n a = s := by
  rw [State.semApply, hl]

theorem State.semApply_absentValue {x : Payload} (hl : a.l = .val x) (hr : a.r = .absent) : s.semApply t k .semset n a = s := by
  rw [State.semApply, hl, hr]
  rfl

end

theorem State.semApply_frame (s : State) (t k : Nat) (o : Op) (n : Node) (a : Args) : SemFrame s (s.semApply t k o n a) := by
  unfold State.semApply
  split
  · split
    · split
      · exact SemFrame.semPut _ _ _ _ _ _
      · exact SemFrame.refl s
    · exact State.semInc_frame _ _ _ _ _ _ _
  · exact SemFrame.refl s

theorem State.semRun_unfired {s : State} {t : Nat} {ops : List (Nat × Op × Node)} (h : ∀ p ∈ ops, ((s.tile t).node p.1).fired = false) :
    s.semRun t ops = s := by
  cases ops with
  | nil => rfl
  | cons p ops => simp [State.semRun, h p List.mem_cons_self]

section
variable {s : State} {t k : Nat} {n : Node}

/-- The operation of a node below which another has not fired is left for that one. -/
theorem State.semFire_waits (o : Op) (a : Args)
    (h : ∃ p ∈ semOps (s.tile t).words n.aux.toNat, p.1 < k ∧ ((s.tile t).node p.1).fired = false) : s.semFire t k o n a = s := by
  obtain ⟨p, hp, hlt, hf⟩ := h
  rw [State.semFire, if_neg fun hall => ?_]
  have := List.all_eq_true.1 hall p (List.mem_filter.2 ⟨hp, by simpa using hlt⟩)
  simp [hf] at this

/-- The operation of a node below which all have fired is applied, and then those above it that have fired. -/
theorem State.semFire_applies (o : Op) (a : Args)
    (h : ∀ p ∈ semOps (s.tile t).words n.aux.toNat, p.1 < k → ((s.tile t).node p.1).fired = true) :
    s.semFire t k o n a = (s.semApply t k o n a).semRun t ((semOps (s.tile t).words n.aux.toNat).filter fun p => k < p.1) := by
  rw [State.semFire, if_pos ?_]
  refine List.all_eq_true.2 fun p hp => ?_
  obtain ⟨hp, hlt⟩ := List.mem_filter.1 hp
  exact h p hp (by simpa using hlt)

/-- Where none above it has fired, what follows its operation is nothing. -/
theorem State.semRun_semApply_last (o : Op) (a : Args)
    (h : ∀ p ∈ semOps (s.tile t).words n.aux.toNat, k < p.1 → ((s.tile t).node p.1).fired = false) :
    (s.semApply t k o n a).semRun t ((semOps (s.tile t).words n.aux.toNat).filter fun p => k < p.1) = s.semApply t k o n a := by
  refine State.semRun_unfired fun p hp => ?_
  obtain ⟨hp, hlt⟩ := List.mem_filter.1 hp
  rw [(s.semApply_frame t k o n a).tile]
  exact h p hp (by simpa using hlt)

theorem State.semFire_last (o : Op) (a : Args) (hbelow : ∀ p ∈ semOps (s.tile t).words n.aux.toNat, p.1 < k → ((s.tile t).node p.1).fired = true)
    (habove : ∀ p ∈ semOps (s.tile t).words n.aux.toNat, k < p.1 → ((s.tile t).node p.1).fired = false) :
    s.semFire t k o n a = s.semApply t k o n a := by
  rw [State.semFire_applies o a hbelow, State.semRun_semApply_last o a habove]

/-- A node whose inputs ask for nothing leaves the state as it is, unless one above it waits for it. -/
theorem State.semFire_idle {o : Op} {a : Args} (hid : s.semApply t k o n a = s)
    (habove : ∀ p ∈ semOps (s.tile t).words n.aux.toNat, k < p.1 → ((s.tile t).node p.1).fired = false) : s.semFire t k o n a = s := by
  by_cases hbelow : ∀ p ∈ semOps (s.tile t).words n.aux.toNat, p.1 < k → ((s.tile t).node p.1).fired = true
  · rw [State.semFire_last o a hbelow habove, hid]
  · refine State.semFire_waits o a (Classical.byContradiction fun hnone => hbelow fun p hp hlt => ?_)
    exact (Bool.not_eq_false _).mp fun hf => hnone ⟨p, hp, hlt, hf⟩

/-- The lower of two operations fires last, and the one above it is applied after it. -/
theorem State.semFire_pair {o o' : Op} {j : Nat} {m : Node} (a : Args) (hops : semOps (s.tile t).words n.aux.toNat = [(k, o, n), (j, o', m)])
    (hkj : k < j) (hj : ((s.tile t).node j).fired = true) :
    s.semFire t k o n a = (s.semApply t k o n a).semApply t j o' m ((s.tile t).args m j) := by
  rw [State.semFire_applies o a ?_, hops]
  · simp [List.filter, hkj, State.semRun, (s.semApply_frame t k o n a).tile, hj]
  · rw [hops]
    intro p hp hlt
    simp only [List.mem_cons, List.not_mem_nil, or_false] at hp
    rcases hp with rfl | rfl
    · exact absurd hlt (Nat.lt_irrefl k)
    · exact absurd hlt (Nat.lt_asymm hkj)

end

/-! The four nodes (R133). -/

section
variable {s : State} {n : Node} {t k : Nat} {a : Args} {x : Payload} (h : Claims.At s n t k a)
include h

theorem semsig_fires {s1 : State} (hl : a.l = .val x) (hs : s.semFire t k .semsig n a = s1) :
    Claims.Fires (.semsig n) s s1 n t k (.same (Beat.val x a.cov)) :=
  fires_of_fireWith h rfl (by simp only [hl, passL_val hl, hs])

theorem semset_fires {s1 : State} {v : Payload} (hl : a.l = .val x) (hr : a.r = .val v) (hs : s.semFire t k .semset n a = s1) :
    Claims.Fires (.semset n) s s1 n t k (.same (Beat.val x a.cov)) :=
  fires_of_fireWith h rfl (by simp only [hl, hr, passL_val hl, hs])

theorem semwait_passes (hl : a.l = .val x) (hthr : semThr n ≤ ((s.tile t).semAt n.aux.toNat).value) :
    Claims.Fires (.semwait n) s s n t k (.same (Beat.val x (lunion a.cov ((s.tile t).semAt n.aux.toNat).acquire))) :=
  fires_of_fireWith h rfl (by simp only [hl, hthr, if_true])

theorem semwait_below (hl : a.l = .val x) (hthr : ((s.tile t).semAt n.aux.toNat).value < semThr n) :
    Claims.Fires (.semwait n) s s n t k (.same Beat.none) :=
  fires_of_fireWith h rfl (by simp only [hl, Nat.not_le.2 hthr, if_false])

theorem semrd_fires (hl : a.l = .val x) :
    let m := (s.tile t).semAt n.aux.toNat
    Claims.Fires (.semrd n) s s n t k (.same (Beat.val (lanes32 [m.value, boolNat m.sticky]) (lunion a.cov m.acquire))) :=
  fires_of_fireWith h rfl (by simp only [hl])

end

section
variable {s : State} {n : Node} {t k : Nat} {a : Args}

/-- A node that does nothing and sends what the policy makes of an ABSENT input: ABSENT, or ABSENT_USE under FAULT (R19). -/
theorem absence_cases {i : Instr} (hf : Claims.Fires i s s n t k (if n.pol = .fault then .absentUse else .same Beat.none)) :
    (n.pol ≠ .fault → Claims.Fires i s s n t k (.same Beat.none)) ∧ (n.pol = .fault → Claims.Fires i s s n t k .absentUse) :=
  ⟨fun hp => by rwa [if_neg hp] at hf, fun hp => by rwa [if_pos hp] at hf⟩

variable (h : Claims.At s n t k a)
include h

theorem semwait_absent (hl : a.l = .absent) :
    Claims.Fires (.semwait n) s s n t k (if n.pol = .fault then .absentUse else .same Beat.none) :=
  fires_of_fireWith h rfl (by simp only [hl, onTrigger_absent n _ hl])

theorem semrd_absent (hl : a.l = .absent) :
    Claims.Fires (.semrd n) s s n t k (if n.pol = .fault then .absentUse else .same Beat.none) :=
  fires_of_fireWith h rfl (by simp only [hl, onTrigger_absent n _ hl])

/-! Where no node above has fired, SEMSIG and SEMSET do nothing without a trigger, nor SEMSET without a value. -/

variable (habove : ∀ p ∈ semOps (s.tile t).words n.aux.toNat, k < p.1 → ((s.tile t).node p.1).fired = false)
include habove

theorem semsig_absent (hl : a.l = .absent) :
    Claims.Fires (.semsig n) s s n t k (if n.pol = .fault then .absentUse else .same Beat.none) :=
  fires_of_fireWith h rfl
    (by simp only [hl, onTrigger_absent n _ hl, State.semFire_idle (s.semApply_absentTrigger t k n _ hl) habove, ite_self])

theorem semset_absent (hl : a.l = .absent) :
    Claims.Fires (.semset n) s s n t k (if n.pol = .fault then .absentUse else .same Beat.none) :=
  fires_of_fireWith h rfl
    (by simp only [hl, onTrigger_absent n _ hl, State.semFire_idle (s.semApply_absentTrigger t k n _ hl) habove, ite_self])

theorem semset_absentValue {x : Payload} (hl : a.l = .val x) (hr : a.r = .absent) :
    Claims.Fires (.semset n) s s n t k (if n.pol = .fault then .absentUse else .same Beat.none) := by
  have hpol : noIdent n [a.r] (.same Beat.none) = if n.pol = .fault then .absentUse else .same Beat.none :=
    noIdent_absent n _ (by simp [hr, Arg.isAbsent])
  rw [hr] at hpol
  exact fires_of_fireWith h rfl (by simp only [hl, hr, hpol, State.semFire_idle (s.semApply_absentValue t k n hl hr) habove, ite_self])

end

end Sys2Proof.Machine

namespace Sys2Proof.Proofs

open Machine Claims

theorem semaphoreWrites : SemaphoreWrites := by
  intro n s t k a x hat hl c i old ops
  refine ⟨fun hwait => ⟨semsig_fires hat hl (State.semFire_waits .semsig a hwait), fun habs hoff => ?_⟩, fun j m v w hops hkj hj hm hml hmr => ?_,
    fun hbelow habove => ⟨?_, fun v hr => ?_⟩⟩
  · cases hr : a.r with
    | off => exact absurd hr hoff
    | absent => simp [hr, Arg.isAbsent] at habs
    | val v => exact semset_fires hat hl hr (State.semFire_waits .semset a hwait)
  · refine ⟨_, semsig_fires hat hl (State.semFire_pair a hops hkj hj), ?_⟩
    rw [State.semApply_semset _ t j m hml hmr, (s.semApply_frame t k _ n a).cmdCtx, hm, State.semSet]
    exact ⟨by rw [State.sem_semPut_value, Nat.mod_eq_of_lt (lane32_lt v 0)], State.sem_semPut_sticky ..⟩
  · refine ⟨_, semsig_fires hat hl ((State.semFire_last .semsig a hbelow habove).trans (s.semApply_semsig t k n hl)), ?_⟩
    have hframe := s.semInc_frame c i n.imm.toNat 0 (sigRel n.mod.toNat (s.tile t).region a) fun _ => s.nodeFlt t k
    exact ⟨State.sem_semInc_value .., State.sem_semInc_sticky .., fun j hj => State.sem_semInc_other _ _ _ _ _ _ _ hj,
      hframe.tiles, hframe.regions, hframe.mem⟩
  · refine ⟨_, semset_fires hat hl hr ((State.semFire_last .semset a hbelow habove).trans (s.semApply_semset t k n hl hr)), ?_⟩
    have hframe := SemFrame.semPut s c i (lane32 v 0 % 2 ^ 32) false []
    rw [State.semSet]
    exact ⟨by rw [State.sem_semPut_value, Nat.mod_eq_of_lt (lane32_lt v 0)], State.sem_semPut_sticky .., State.sem_semPut_rel ..,
      fun j hj => State.sem_semPut_other _ _ _ _ _ _ hj, hframe.tiles, hframe.regions, hframe.mem⟩

theorem semaphoreOverflowRecords : SemaphoreOverflowRecords := by
  intro s c i n who rel old t
  refine ⟨fun h => State.held_semInc_quiet _ _ _ _ _ _ _ (.inl h), fun h => State.held_semInc_quiet _ _ _ _ _ _ _ (.inr h), fun hover hsticky => ?_⟩
  obtain ⟨r, hheld, hagent, hwords⟩ := State.held_semInc_overflow s c i n who rel id hover hsticky
  have hframe := s.semInc_frame c i n who rel id
  refine ⟨r, hheld, hagent, ?_, hframe.regions, hframe.tiles⟩
  rw [hwords]
  exact (Flt.words_head _ (semOverflow c i who id) (show 0x11 < 256 by decide) (show 0 < 256 by decide)).1

theorem semaphoreReads : SemaphoreReads := by
  intro n s t k a x hat hl m thr acq
  refine ⟨semwait_passes hat hl, semwait_below hat hl, _, semrd_fires hat hl, ?_, ?_, fun j hj _ => lane32_lanes32_beyond hj⟩
  · exact lane32_lanes32 [m.value, boolNat m.sticky] (i := 0) (show 0 < 2 by decide) (show 2 ≤ 16 by decide)
  · refine (lane32_lanes32 [m.value, boolNat m.sticky] (i := 1) (show 1 < 2 by decide) (show 2 ≤ 16 by decide)).trans ?_
    cases m.sticky <;> rfl

theorem semaphoreTriggers : SemaphoreTriggers := by
  intro n s t k last
  refine ⟨fun a hat hl habove i hi => ?_, fun a x hat hl hr habove => absence_cases (semset_absentValue hat habove hl hr), fun hcur hres => ?_,
    fun a x hat hl hp hops => ?_⟩
  · simp only [List.mem_cons, List.not_mem_nil, or_false] at hi
    rcases hi with rfl | rfl | rfl | rfl
    · exact absence_cases (semsig_absent hat habove hl)
    · exact absence_cases (semset_absent hat habove hl)
    · exact absence_cases (semwait_absent hat hl)
    · exact absence_cases (semrd_absent hat hl)
  · exact congrArg Host.Outcome.next (fireWith_waits _ hcur (ready_of_unresolved n hres))
  · have hself : ∀ p ∈ semOps (s.tile t).words n.aux.toNat, p.1 = k := by simp [hops]
    have hdcov : a.dcov = [] := by
      obtain ⟨-, -, rfl⟩ := hat
      exact dcov_of_absent hp
    have hlast := State.semFire_last .semsig a (fun p hp hlt => absurd (hself p hp) (Nat.ne_of_lt hlt))
      fun p hp hlt => absurd (hself p hp) (Nat.ne_of_gt hlt)
    refine ⟨_, semsig_fires hat hl (hlast.trans (s.semApply_semsig t k n hl)), ?_⟩
    rw [State.sem_semInc_rel, sigRel, hdcov, List.map_nil, List.append_nil]

/-- Settles O26: the writes and the order of a tile's operations by `State.semFire`, which waits, applies the node's operation, or applies it with
those above that have fired; the record by the one case of `State.semInc_eq` that raises. -/
theorem semaphoreNodes : Obligations.SemaphoreNodes :=
  ⟨semaphoreWrites, semaphoreOverflowRecords, semaphoreReads, semaphoreTriggers⟩

end Sys2Proof.Proofs
end
